-- ==== Sys2Proof/Word.lean ====
section
/-! DEFINITION. The plainest data of the CORE: bytes of the streams and bit-strings (00_scope.md R9, R15). -/

namespace Sys2Proof

/-- A byte of a stream, of a raster plane or of the command port (20_memory.md R60). Bit 7 is the
first in stream order (R15). -/
abbrev Byte := BitVec 8

/-- A bit-string in stream order: the head is the first bit written or read (R9). -/
abbrev Bits := List Bool

end Sys2Proof
end

