-- ==== Sys2Proof/Syntax.lean ====
section
/-! DEFINITION. The commands of the CORE: one constructor for each row of spec/opcode_table.json (30_encoding.md R94). -/

namespace Sys2Proof

/-- A command (R90: one format, one byte, no operand field; operands are in the registers). -/
inductive Instr where
  | bcOpenw | bcOpenr | bcWrbits | bcWrval | bcRdbits | bcClose
  | lz78Enc | lz78Dec
  | lzwEnc | lzwDec
  | lzssEnc | lzssDec
  | dctFwd | dctInv
  | qSetq | qQuant | qDequant
  | zzFwd | zzInv
  | hufEnc | hufDec
  | entEnc | entDec | rleEnc | rleDec
  | ctFwd | ctInv | imgEnc | imgDec
  deriving DecidableEq, Repr

/-- Every command, in the order of R94. -/
def Instr.all : List Instr :=
  [.bcOpenw, .bcOpenr, .bcWrbits, .bcWrval, .bcRdbits, .bcClose, .lz78Enc, .lz78Dec, .lzwEnc, .lzwDec,
   .lzssEnc, .lzssDec, .dctFwd, .dctInv, .qSetq, .qQuant, .qDequant, .zzFwd, .zzInv, .hufEnc, .hufDec,
   .entEnc, .entDec, .rleEnc, .rleDec, .ctFwd, .ctInv, .imgEnc, .imgDec]

end Sys2Proof
end

