-- ==== Sys2Proof/Config.lean ====
section
/-! DEFINITION. What is fixed before a command runs (00_scope.md R8, 10_state.md R21): the parameters of the
CORE as plain data, the codebook tries they hold, and the free values, about which nothing is known. -/

namespace Sys2Proof

/-- A node of a Huffman codebook (10_state.md R38, 45_huffman.md R247): unpopulated, a leaf with its symbol and
codeword, or an inner node with the bound of R249 (−1 where there is none). -/
inductive Trie where
  | empty
  | leaf (sym : Nat) (code : Bits)
  | node (left right : Trie) (bound : Int)
  deriving DecidableEq, Repr

/-- A canonical table definition: rows (symbol, codeword) in the order of the resource (30_encoding.md R114). -/
abbrev TableDef := List (Nat × Bits)

/-- The parameter `ROUND` (R8, U14): how the quantiser rounds a tie. The spec's default is `halfUp`,
`floor(x + 1/2)`; the others are the other roundings to a nearest integer. -/
inductive RoundMode where
  | halfUp
  | halfDown
  | halfEven
  | halfAwayFromZero
  | halfTowardZero
  deriving DecidableEq, Repr

/-- The parameter `NUMERIC` (R8, U13): the arithmetic of the colour transform, the DCT and the quantiser division. `exact` is the
spec's normative reference, real numbers (R14, 44_dct_quant_zigzag.md R221); `binary64` rounds every sum, difference, product and
quotient of them to IEEE binary64, in the order that Num.lean and log 22 state. -/
inductive Numeric where
  | exact
  | binary64
  deriving DecidableEq, Repr

/-- The parameters of R8 that are not run-time. `none` for a bound means unbounded, the spec's default. -/
structure Config where
  /-- `LZ78_WIDTH_BIAS`, 0 or 1 (41_lz78.md R151). -/
  lz78WidthBias : Nat
  /-- `LZ78_MAX_CODE` (10_state.md R44). -/
  lz78MaxCode : Option Nat
  /-- `LZW_MAX_CODE` (10_state.md R44). -/
  lzwMaxCode : Option Nat
  /-- `LZW_MARKER_ALIGN` (42_lzw.md R176). -/
  lzwMarkerAlign : Bool
  /-- `VALUE_MAX_WIDTH` (40_bitchannel.md R132, R134). -/
  valueMaxWidth : Option Nat
  /-- `ROUND` (44_dct_quant_zigzag.md R229). -/
  round : RoundMode
  /-- `NUMERIC` (44_dct_quant_zigzag.md R221, 70_reset_and_hazards.md R364). -/
  numeric : Numeric
  /-- `BASE_LUMA`, element `[i][j]` at `8·i + j` (R227). -/
  baseLuma : Vector Nat 64
  /-- `BASE_CHROMA` (R227). -/
  baseChroma : Vector Nat 64
  /-- `ZIGZAG[k]`, the linear block index of sequence element k (R234). -/
  zigzag : Vector (Fin 64) 64
  /-- `CB[DC_LUMA]`, built from `HUFF_DC_LUMA` (45_huffman.md R247, R249). -/
  dcLuma : Trie
  /-- `CB[DC_CHROMA]`. -/
  dcChroma : Trie
  /-- `CB[AC_LUMA]`. -/
  acLuma : Trie
  /-- `CB[AC_CHROMA]`. -/
  acChroma : Trie
  deriving DecidableEq, Repr

/-- FREE VALUE (log 3): what `ERRINFO` holds where the spec leaves it unspecified (10_state.md R24, U4), one for each
draw of the counter `State.freeCtr`. -/
opaque freeErrInfo : Nat → Int

/-- FREE VALUE (log 4): what `RBYTE` holds when a reader has just been opened (10_state.md R42, U5). -/
opaque freeByte : Nat → Byte

/-- FREE VALUE (log 5): what element k of `SEQ` holds after RLE.DEC ended in an exception (46_rle_entropy.md R277). -/
opaque freeSeq : Nat → Nat → Int

/-- FREE VALUE (log 22): the number that stands for a binary64 result whose magnitude reaches `2^1024`, the end of the format. No rule
of the spec says what the image path does with it. -/
opaque freeOverflow : Rat → Rat

end Sys2Proof
end

