-- ==== Sys2Proof/WellFormed.lean ====
section
/-! DEFINITION. Well-formedness. A command has no operand field, so every term of `Instr` is well formed; what can be ill
formed is the configuration (48_default_tables.md R317, 45_huffman.md R247, 93_implementation_defined.md U7, U8). -/

namespace Sys2Proof

/-- R90: a command byte carries no operand, so no term of `Instr` is ill formed. -/
def Instr.wellFormed (_ : Instr) : Bool := true

/-- R247, R317: every codeword is non-empty, and no codeword equals or is the beginning of a later or earlier one. -/
def TableDef.wf : TableDef → Bool
  | [] => true
  | (_, c) :: rows =>
    !c.isEmpty && rows.all (fun r => !(c.isPrefixOf r.2) && !(r.2.isPrefixOf c)) && TableDef.wf rows

/-- R317: base-table entries are positive integers. -/
def baseTableWf (t : Vector Nat 64) : Bool := t.all (fun b => 1 ≤ b)

/-- R234, R317: `ZIGZAG` is a permutation of 0..63 with `ZIGZAG[0] = 0`. -/
def zigzagWf (z : Vector (Fin 64) 64) : Bool :=
  z[0] == 0 && (List.finRange 64).all (fun i => z.toList.contains i)

/-- The largest symbol of a leaf of the trie, −1 where it has no leaf (R249). -/
def Trie.maxSym : Trie → Int
  | .empty => -1
  | .leaf s _ => s
  | .node l r _ => max l.maxSym r.maxSym

/-- What the building of R247 and R249 can leave at the node reached by the bits `path` (reversed): a leaf carries
exactly that path, an inner node has a leaf under it, and its bound is R249's in a DC trie and −1 in an AC trie. -/
def Trie.wfAt (dc : Bool) : Bits → Trie → Bool
  | _, .empty => true
  | path, .leaf _ code => code == path.reverse
  | path, .node l r b =>
    !(l == .empty && r == .empty) && b == (if dc then l.maxSym else -1)
      && Trie.wfAt dc (false :: path) l && Trie.wfAt dc (true :: path) r

/-- A codebook that some table definition builds: no codeword is empty, so the root is no leaf. -/
def Trie.wf (dc : Bool) (t : Trie) : Bool :=
  match t with
  | .leaf _ _ => false
  | .empty => true
  | .node l r b => Trie.wfAt dc [] (.node l r b)

/-- R317, U7, U8: the configurations under which the rules of the spec apply. A missing Huffman symbol is legal. -/
def Config.wf (c : Config) : Bool :=
  decide (c.lz78WidthBias ≤ 1) && baseTableWf c.baseLuma && baseTableWf c.baseChroma && zigzagWf c.zigzag
    && c.dcLuma.wf true && c.dcChroma.wf true && c.acLuma.wf false && c.acChroma.wf false

/-- A configuration together with the check of R317: a mis-configured CORE, to which no rule of the spec applies (R352,
U7, U8: `refuse`), cannot be written down as a state of the machine. -/
structure CheckedConfig extends Config where
  ok : toConfig.wf = true
  deriving DecidableEq, Repr

end Sys2Proof
end

