-- ==== Sys2Proof/Decode.lean ====
section
/-! DEFINITION. The decoder of the command byte, by its two fields (30_encoding.md R91, R94, R95), then the encoder, written
from the codes of R94. -/

namespace Sys2Proof

/-- Why a byte is no command (R95). -/
inductive DecodeRefusal where
  /-- Units 10..15. -/
  | reservedUnit (b : Byte)
  /-- An unused `func` value of units 0..9. -/
  | reservedFunc (b : Byte)
  /-- There is no byte to decode. -/
  | noByte
  deriving DecidableEq, Repr

/-- Bits 7:4 of the command byte (R91). -/
def unitField (b : Byte) : Nat := b.toNat / 16

/-- Bits 3:0 of the command byte (R91). -/
def funcField (b : Byte) : Nat := b.toNat % 16

/-- The commands of one unit, `func` 0 first (R92, R94). -/
def unitCommands : Nat → List Instr
  | 0 => [.bcOpenw, .bcOpenr, .bcWrbits, .bcWrval, .bcRdbits, .bcClose]
  | 1 => [.lz78Enc, .lz78Dec]
  | 2 => [.lzwEnc, .lzwDec]
  | 3 => [.lzssEnc, .lzssDec]
  | 4 => [.dctFwd, .dctInv]
  | 5 => [.qSetq, .qQuant, .qDequant]
  | 6 => [.zzFwd, .zzInv]
  | 7 => [.hufEnc, .hufDec]
  | 8 => [.entEnc, .entDec, .rleEnc, .rleDec]
  | 9 => [.ctFwd, .ctInv, .imgEnc, .imgDec]
  | _ => []

/-- The command a byte stands for (R91, R94), or why it stands for none (R95). -/
def decode (b : Byte) : Except DecodeRefusal Instr :=
  match (unitCommands (unitField b))[funcField b]? with
  | some i => .ok i
  | none => if 10 ≤ unitField b then .error (.reservedUnit b) else .error (.reservedFunc b)

/-- Decoding from a sequence of bytes: the command and the bytes after it (R90: one byte a command). -/
def decodeBytes : List Byte → Except DecodeRefusal (Instr × List Byte)
  | [] => .error .noByte
  | b :: rest => (decode b).map (fun i => (i, rest))

/-- The command byte (R94, column `code`). -/
def encode : Instr → Byte
  | .bcOpenw => 0x00 | .bcOpenr => 0x01 | .bcWrbits => 0x02
  | .bcWrval => 0x03 | .bcRdbits => 0x04 | .bcClose => 0x05
  | .lz78Enc => 0x10 | .lz78Dec => 0x11
  | .lzwEnc => 0x20 | .lzwDec => 0x21
  | .lzssEnc => 0x30 | .lzssDec => 0x31
  | .dctFwd => 0x40 | .dctInv => 0x41
  | .qSetq => 0x50 | .qQuant => 0x51 | .qDequant => 0x52
  | .zzFwd => 0x60 | .zzInv => 0x61
  | .hufEnc => 0x70 | .hufDec => 0x71
  | .entEnc => 0x80 | .entDec => 0x81 | .rleEnc => 0x82 | .rleDec => 0x83
  | .ctFwd => 0x90 | .ctInv => 0x91 | .imgEnc => 0x92 | .imgDec => 0x93

/-- The bytes of an instruction whose `nbits` bits are `w`, bit 0 the least significant of the first byte. -/
def tableBytes (nbits w : Nat) : List Byte :=
  (List.range (nbits / 8)).map (fun k => BitVec.ofNat 8 (w / 256 ^ k))

/-- What the decoder reads from a row of spec/opcode_table.json (every row has 8 bits). -/
def decodeTableWord (nbits w : Nat) : Option Instr :=
  match decodeBytes (tableBytes nbits w) with
  | .ok (i, _) => some i
  | .error _ => none

end Sys2Proof
end

