-- ==== Sys2Proof/Machine/Num.lean ====
section
/-! DEFINITION. The numbers of the image path (00_scope.md R14, 44_dct_quant_zigzag.md R221). Every value the rules compute over the
reals from rational inputs lies in the field generated by `cos(π/16)`, a tower of three square roots: `√2 = 2·cos(π/4)`,
`√(2+√2) = 2·cos(π/8)`, `√(2+√(2+√2)) = 2·cos(π/16)`. An element is eight rationals, so it is plain data, and sums, products,
comparisons and `floor` are exact (the statement NumbersAreExactReals). With `NUMERIC` = binary64 (R8) each operation is followed by one
rounding to that format, and the elements stay rational. -/

namespace Sys2Proof.Machine

/-- `a + b·√2`. -/
structure Quad where
  a : Rat
  b : Rat
  deriving DecidableEq, Repr

/-- `a + b·√(2+√2)`. -/
structure Quartic where
  a : Quad
  b : Quad
  deriving DecidableEq, Repr

/-- `a + b·√(2+√(2+√2))`: a number of the image path. -/
structure ExactNum where
  a : Quartic
  b : Quartic
  deriving DecidableEq, Repr

def Quad.ofRat (q : Rat) : Quad := ⟨q, 0⟩
def Quad.add (x y : Quad) : Quad := ⟨x.a + y.a, x.b + y.b⟩
def Quad.neg (x : Quad) : Quad := ⟨-x.a, -x.b⟩
def Quad.sub (x y : Quad) : Quad := ⟨x.a - y.a, x.b - y.b⟩
def Quad.mul (x y : Quad) : Quad := ⟨x.a * y.a + 2 * (x.b * y.b), x.a * y.b + x.b * y.a⟩
def Quad.smul (q : Rat) (x : Quad) : Quad := ⟨q * x.a, q * x.b⟩

/-- The sign, −1, 0 or 1: with a and b of opposite signs it is that of a or of b as `a²` or `2·b²` is larger. -/
def Quad.sign (x : Quad) : Int :=
  if x.b.num.sign = 0 then x.a.num.sign
  else if x.a.num.sign = 0 then x.b.num.sign
  else if x.a.num.sign = x.b.num.sign then x.a.num.sign
  else x.a.num.sign * (x.a * x.a - 2 * (x.b * x.b)).num.sign

/-- A rational at least as large as the magnitude. -/
def Quad.bound (x : Quad) : Rat := |x.a| + 2 * |x.b|

/-- `2 + √2`, the square of the next root. -/
def Quad.root : Quad := ⟨2, 1⟩

def Quartic.ofRat (q : Rat) : Quartic := ⟨.ofRat q, .ofRat 0⟩
def Quartic.add (x y : Quartic) : Quartic := ⟨x.a.add y.a, x.b.add y.b⟩
def Quartic.neg (x : Quartic) : Quartic := ⟨x.a.neg, x.b.neg⟩
def Quartic.sub (x y : Quartic) : Quartic := ⟨x.a.sub y.a, x.b.sub y.b⟩
def Quartic.mul (x y : Quartic) : Quartic :=
  ⟨(x.a.mul y.a).add (Quad.root.mul (x.b.mul y.b)), (x.a.mul y.b).add (x.b.mul y.a)⟩
def Quartic.smul (q : Rat) (x : Quartic) : Quartic := ⟨x.a.smul q, x.b.smul q⟩

/-- The sign, one storey up. -/
def Quartic.sign (x : Quartic) : Int :=
  if x.b.sign = 0 then x.a.sign
  else if x.a.sign = 0 then x.b.sign
  else if x.a.sign = x.b.sign then x.a.sign
  else x.a.sign * ((x.a.mul x.a).sub (Quad.root.mul (x.b.mul x.b))).sign

def Quartic.bound (x : Quartic) : Rat := x.a.bound + 2 * x.b.bound

/-- `2 + √(2+√2)`, the square of the last root. -/
def Quartic.root : Quartic := ⟨⟨2, 0⟩, ⟨1, 0⟩⟩

def ExactNum.ofRat (q : Rat) : ExactNum := ⟨.ofRat q, .ofRat 0⟩
def ExactNum.ofInt (n : Int) : ExactNum := .ofRat n
def ExactNum.add (x y : ExactNum) : ExactNum := ⟨x.a.add y.a, x.b.add y.b⟩
def ExactNum.neg (x : ExactNum) : ExactNum := ⟨x.a.neg, x.b.neg⟩
def ExactNum.sub (x y : ExactNum) : ExactNum := ⟨x.a.sub y.a, x.b.sub y.b⟩
def ExactNum.mul (x y : ExactNum) : ExactNum :=
  ⟨(x.a.mul y.a).add (Quartic.root.mul (x.b.mul y.b)), (x.a.mul y.b).add (x.b.mul y.a)⟩
def ExactNum.smul (q : Rat) (x : ExactNum) : ExactNum := ⟨x.a.smul q, x.b.smul q⟩

/-- The sign of a number: −1, 0 or 1. -/
def ExactNum.sign (x : ExactNum) : Int :=
  if x.b.sign = 0 then x.a.sign
  else if x.a.sign = 0 then x.b.sign
  else if x.a.sign = x.b.sign then x.a.sign
  else x.a.sign * ((x.a.mul x.a).sub (Quartic.root.mul (x.b.mul x.b))).sign

def ExactNum.bound (x : ExactNum) : Rat := x.a.bound + 2 * x.b.bound

/-- `x ≤ y`. -/
def ExactNum.le (x y : ExactNum) : Bool := decide (0 ≤ (y.sub x).sign)

/-- `x < y`. -/
def ExactNum.lt (x y : ExactNum) : Bool := decide (0 < (y.sub x).sign)

/-- Bisection for `floor`: with `lo ≤ x < hi` and `hi − lo ≤ 2^fuel` it ends at the greatest integer ≤ x. -/
def floorSearch (x : ExactNum) : Nat → Int → Int → Int
  | 0, lo, _ => lo
  | fuel + 1, lo, hi =>
    if hi - lo ≤ 1 then lo
    else if (ExactNum.ofInt ((lo + hi) / 2)).le x then floorSearch x fuel ((lo + hi) / 2) hi
    else floorSearch x fuel lo ((lo + hi) / 2)

/-- An integer above the magnitude. -/
def ExactNum.ceiling (x : ExactNum) : Int := x.bound.floor + 1

/-- A number in which no root occurs. -/
def ExactNum.isRat (x : ExactNum) : Bool := x == .ofRat x.a.a.a

/-- `floor(x)`, the greatest integer ≤ x (R14). -/
def ExactNum.floor (x : ExactNum) : Int :=
  if x.isRat then x.a.a.a.floor
  else floorSearch x ((2 * x.ceiling).toNat.log2 + 1) (-x.ceiling) x.ceiling

/-- `floor(x + 1/2)`. -/
def roundHalfUp (x : ExactNum) : Int := (x.add (.ofRat (1 / 2))).floor

/-- The nearest integer, a tie to the smaller. -/
def roundHalfDown (x : ExactNum) : Int := -(roundHalfUp x.neg)

/-- The nearest integer, a tie to the even one. -/
def roundHalfEven (x : ExactNum) : Int := if roundHalfUp x % 2 = 0 then roundHalfUp x else roundHalfDown x

/-- `clamp(x, 0, 255)` (R14). -/
def clampSample (x : ExactNum) : ExactNum :=
  if x.lt (.ofInt 0) then .ofInt 0
  else if (ExactNum.ofInt 255).lt x then .ofInt 255
  else x

/-- `trunc(clamp(x, 0, 255))` (47_image_pipeline.md R287): the clamped value is not negative, so dropping its fraction
is `floor` (R288). -/
def sampleByte (x : ExactNum) : Byte := BitVec.ofInt 8 (clampSample x).floor

/-- `2·cos(k·π/16)` for k = 0..8, in the roots above. -/
def twoCosFirst : Nat → ExactNum
  | 0 => .ofInt 2
  | 1 => ⟨.ofRat 0, .ofRat 1⟩
  | 2 => ⟨⟨⟨0, 0⟩, ⟨1, 0⟩⟩, .ofRat 0⟩
  | 3 => ⟨.ofRat 0, ⟨⟨-1, 0⟩, ⟨1, 0⟩⟩⟩
  | 4 => ⟨⟨⟨0, 1⟩, ⟨0, 0⟩⟩, .ofRat 0⟩
  | 5 => ⟨.ofRat 0, ⟨⟨1, 1⟩, ⟨-1, 0⟩⟩⟩
  | 6 => ⟨⟨⟨0, 0⟩, ⟨-1, 1⟩⟩, .ofRat 0⟩
  | 7 => ⟨.ofRat 0, ⟨⟨-1, -1⟩, ⟨0, 1⟩⟩⟩
  | _ => .ofInt 0

/-- A multiple of `cos(k·π/16)` for every k from those for k = 0..8, by the symmetries of the cosine. -/
def cosFold (first : Nat → ExactNum) (k : Nat) : ExactNum :=
  if k % 32 ≤ 8 then first (k % 32)
  else if k % 32 ≤ 16 then (first (16 - k % 32)).neg
  else if k % 32 ≤ 24 then (first (k % 32 - 16)).neg
  else first (32 - k % 32)

/-- `2·cos(k·π/16)`. -/
def twoCos (k : Nat) : ExactNum := cosFold twoCosFirst k

/-- The basis matrix (44_dct_quant_zigzag.md R216): `C[0][j] = 1/√8 = 2·cos(4π/16)/4`,
`C[i][j] = cos(π·i·(2j+1)/16)/2` for i > 0. -/
def dctBasis (i j : Nat) : ExactNum :=
  if i = 0 then (twoCos 4).smul (1 / 4) else (twoCos (i * (2 * j + 1))).smul (1 / 4)

/-! ### `NUMERIC` (R8): exact reals, or IEEE binary64 with the order below (log 22) -/

/-- A power of two. -/
def twoPow (e : Int) : Rat := if 0 ≤ e then ((2 ^ e.toNat : Nat) : Rat) else 1 / ((2 ^ (-e).toNat : Nat) : Rat)

/-- The exponent of the unit in the last place of the binary64 numbers around x, given `⌊|x|·2^1074⌋`: 53 significant bits, but no unit
below `2^−1074`. -/
def ulpExponent (scaled : Nat) : Int := if scaled < 2 ^ 53 then -1074 else (scaled.log2 : Int) - 52 - 1074

/-- The binary64 number nearest to x, a tie to the even significand, when the exponent has no upper bound. -/
def nearestDyadic (x : ExactNum) : Rat :=
  let scaled := ((if x.sign < 0 then x.neg else x).smul (twoPow 1074)).floor.toNat
  let unit := twoPow (ulpExponent scaled)
  roundHalfEven (x.smul (1 / unit)) * unit

/-- Rounding to binary64: to the nearest, ties to even; past the largest finite number a free value (log 22). -/
def round64 (x : ExactNum) : Rat := if |nearestDyadic x| < twoPow 1024 then nearestDyadic x else freeOverflow (nearestDyadic x)

/-- `cos(k·π/16)/2` for k = 0..8 as the nearest binary64 number. -/
def halfCos64First : Nat → ExactNum
  | 0 => .ofRat (1 / 2)
  | 1 => .ofRat (552133027919307 / 2 ^ 50)
  | 2 => .ofRat (4160783518353059 / 2 ^ 53)
  | 3 => .ofRat (7489212472271267 / 2 ^ 54)
  | 4 => .ofRat (6369051672525773 / 2 ^ 54)
  | 5 => .ofRat (625516473601305 / 2 ^ 51)
  | 6 => .ofRat (6893811853601123 / 2 ^ 55)
  | 7 => .ofRat (7028869612283403 / 2 ^ 56)
  | _ => .ofInt 0

/-- `1/√8` in binary64, the root and the quotient each rounded. -/
def invSqrt8 : ExactNum := .ofRat (1592262918131443 / 2 ^ 52)

end Sys2Proof.Machine

namespace Sys2Proof

open Machine

/-- The result of one operation in the arithmetic of the image path. -/
def Numeric.fit : Numeric → ExactNum → ExactNum
  | .exact, x => x
  | .binary64, x => .ofRat (round64 x)

/-- A decimal constant of the rules: itself, or the nearest binary64 number. -/
def Numeric.const : Numeric → Rat → Rat
  | .exact, q => q
  | .binary64, q => round64 (.ofRat q)

def Numeric.add (m : Numeric) (x y : ExactNum) : ExactNum := m.fit (x.add y)
def Numeric.sub (m : Numeric) (x y : ExactNum) : ExactNum := m.fit (x.sub y)
def Numeric.mul (m : Numeric) (x y : ExactNum) : ExactNum := m.fit (x.mul y)

/-- A decimal constant times a number. -/
def Numeric.scale (m : Numeric) (q : Rat) (x : ExactNum) : ExactNum := m.fit (x.smul (m.const q))

/-- A number divided by an integer. -/
def Numeric.div (m : Numeric) (x : ExactNum) (n : Nat) : ExactNum := m.fit (x.smul (1 / (n : Rat)))

/-- The basis matrix in the arithmetic of the image path: exact, or in binary64 (log 22). -/
def Numeric.basis : Numeric → Nat → Nat → ExactNum
  | .exact, i, j => dctBasis i j
  | .binary64, i, j => if i = 0 then invSqrt8 else cosFold halfCos64First (i * (2 * j + 1))

/-- The sum of a list of numbers, left to right. -/
def Numeric.sum (m : Numeric) (xs : List ExactNum) : ExactNum := xs.foldl m.add (.ofInt 0)

/-- The matrix `C` and its transpose, element `[i][j]` at `8·i + j`. -/
def Numeric.basisMatrix (m : Numeric) : Vector ExactNum 64 := Vector.ofFn fun k => m.basis (k.1 / 8) (k.1 % 8)
def Numeric.basisTransposed (m : Numeric) : Vector ExactNum 64 := Vector.ofFn fun k => m.basis (k.1 % 8) (k.1 / 8)

/-- The product of two 8×8 matrices. -/
def Numeric.matMul (m : Numeric) (x y : Vector ExactNum 64) : Vector ExactNum 64 :=
  Vector.ofFn fun k =>
    m.sum ((List.finRange 8).map fun i =>
      m.mul (x[8 * (k.1 / 8) + i.1]'(by omega)) (y[8 * i.1 + k.1 % 8]'(by omega)))

/-- `round(x)` under the parameter `ROUND` (R14, 44_dct_quant_zigzag.md R229): the modes differ at ties only. The default's `x + 1/2` is a
sum in the arithmetic of the image path (log 22). -/
def Numeric.round (m : Numeric) (mode : RoundMode) (x : ExactNum) : Int :=
  match mode with
  | .halfUp => (m.add x (.ofRat (1 / 2))).floor
  | .halfDown => roundHalfDown x
  | .halfEven => roundHalfEven x
  | .halfAwayFromZero => if 0 ≤ x.sign then roundHalfUp x else roundHalfDown x
  | .halfTowardZero => if 0 ≤ x.sign then roundHalfDown x else roundHalfUp x

end Sys2Proof
end

