-- ==== Sys2Proof/Machine/Bits.lean ====
section
/-! DEFINITION. Integers and bit-strings: `bin_n`, `val`, `bitLength` (00_scope.md R10, R11), the value fields of
30_encoding.md R107 and R108, and the characters of the image path (20_memory.md R69). -/

namespace Sys2Proof.Machine

/-- `bin_n(v)`: the n low bits of v, most significant first (R10). -/
def binN : Nat → Nat → Bits
  | 0, _ => []
  | n + 1, v => v.testBit n :: binN n v

/-- `val(s)`: the unsigned integer a bit-string spells, most significant bit first; `val("") = 0` (R10). -/
def valOf (s : Bits) : Nat := s.foldl (fun v b => 2 * v + b.toNat) 0

/-- `bitLength(v)` of a natural number (R11): `bitLength(0) = 0`. -/
def bitLength (v : Nat) : Nat := if v = 0 then 0 else v.log2 + 1

/-- `bitLength(v)` of an integer is that of its magnitude (R11). -/
def bitLengthInt (v : Int) : Nat := bitLength v.natAbs

/-- R133: the value `WRVAL` places in its field: a negative v stands for its 8-bit two's-complement form. -/
def fieldValue (v : Int) : Nat := if 0 ≤ v then v.toNat else (v + 256).toNat

/-- `EntBits(v)` (46_rle_entropy.md R266): the value bits of a coefficient, one's complement for a negative one. -/
def entBits (v : Int) : Bits :=
  if bitLengthInt v = 0 then []
  else if 0 < v then binN (bitLengthInt v) v.natAbs
  else binN (bitLengthInt v) (2 ^ bitLengthInt v - 1 - v.natAbs)

/-- The value of `EntDecode` (46_rle_entropy.md R268) once its bits are read: leading 1 direct, leading 0 the negated
one's complement, no bits 0. -/
def entValue : Bits → Int
  | [] => 0
  | true :: bs => valOf (true :: bs)
  | false :: bs => (valOf (false :: bs) : Int) - (2 ^ (bs.length + 1) - 1)

/-- The character of a bit: `'0'` = 0x30, `'1'` = 0x31 (R69, R257). -/
def bitChar (b : Bool) : Byte := if b then 0x31 else 0x30

/-- Line feed (R69). -/
def lineFeed : Byte := 0x0A

/-- Space (R69). -/
def space : Byte := 0x20

/-- `Bin(n)` as bits: the shortest binary expansion, `"0"` for zero (47_image_pipeline.md R293). -/
def binShort (n : Nat) : Bits := if n = 0 then [false] else binN (bitLength n) n

/-- `ParseBin(s)` (R293): the value of a non-empty string of the characters `'0'` and `'1'`. -/
def parseBin (s : List Byte) : Option Nat :=
  if s.isEmpty || !(s.all (fun c => c == 0x30 || c == 0x31)) then none
  else some (valOf (s.map (fun c => c == 0x31)))

/-- Splitting a line at every space into fields (R295). -/
def splitSpaces : List Byte → List (List Byte)
  | [] => [[]]
  | c :: cs =>
    if c == space then [] :: splitSpaces cs
    else match splitSpaces cs with
      | [] => [[c]]
      | f :: fs => (c :: f) :: fs

end Sys2Proof.Machine
end

