-- ==== Sys2Proof/Machine/State.lean ====
section
/-! DEFINITION. The state of the CORE as plain data (10_state.md), the actions of the host at its ports (20_memory.md R61 to
R63, 30_encoding.md R90), why a step can stop, and the state after power-on reset (10_state.md R42). -/

namespace Sys2Proof.Machine

/-- A register or memory element together with the mark "the host or a command has written it", which
60_exceptions.md R330 makes every reading command test. -/
structure Reg (α : Type) where
  val : α
  written : Bool
  deriving DecidableEq, Repr

/-- `STATUS.STATE` (R23). -/
inductive RunState where
  | idle | busy | done | error
  deriving DecidableEq, Repr

/-- The exceptions of 60_exceptions.md R321. -/
inductive Exc where
  | illegalCommand | badOperand | malformedHeader | corruptCodeword | truncatedStream | dictFull
  deriving DecidableEq, Repr

/-- `PHASE` (R25): symbolic, without a numeric encoding; `none` when no command runs. R25 gives the five names from `HEADER` to `CLOSE` as
examples and no pseudocode of the spec sets `PHASE`: `COMPUTE`, and which step of which command carries which name, are the
model's choice (DESIGN CHOICE, log 21). The host cannot read it. -/
inductive Phase where
  | none | header | record | literal | flush | close | compute
  deriving DecidableEq, Repr

/-- The input stream `IN` (R61): the bytes not yet read, and how many have been (R336). Before the host has attached one
(70_reset_and_hazards.md R354 (6)) it holds no byte, so the first `InByte` is `EOS` (DESIGN CHOICE, log 20). -/
structure InStream where
  rest : List Byte
  consumed : Nat
  deriving DecidableEq, Repr

/-- What has become of the sink behind `OUT` (R62): not opened since reset or since the host attached it, being written,
flushed and left open for the next embedded entry, or closed. -/
inductive Sink where
  | idle | writing | flushed | closed
  deriving DecidableEq, Repr

/-- The output stream `OUT` (R62): the bytes in the order appended. -/
structure OutStream where
  bytes : List Byte
  sink : Sink
  deriving DecidableEq, Repr

/-- The BitChannel writer (R26): `WBYTE`, `WCNT`, and whether it is open. -/
structure Writer where
  isOpen : Bool
  byte : Byte
  cnt : Nat
  deriving DecidableEq, Repr

/-- The BitChannel reader (R27): `RBYTE`, `RCNT`, `REXH`, and whether it is open. -/
structure Reader where
  isOpen : Bool
  byte : Byte
  cnt : Nat
  exh : Bool
  deriving DecidableEq, Repr

/-- The streams, the BitChannel between them and the codecs, and `STATUS.EOS`, which the reader sets (R23). -/
structure Io where
  inp : InStream
  out : OutStream
  wtr : Writer
  rdr : Reader
  eos : Bool
  deriving DecidableEq, Repr

/-- The encoder dictionary of LZ78 or LZW: (prefix code, symbol) to code (R28, R31). -/
abbrev Dict := List ((Nat × Byte) × Nat)

/-- The decoder table of LZ78 or LZW: code to phrase (R29, R32). -/
abbrev PhraseTable := List (Nat × List Byte)

/-- `D78`, `NEXT`, `CUR` (R28). -/
structure Lz78Enc where
  dict : Dict
  next : Nat
  cur : Nat
  deriving DecidableEq, Repr

/-- `T78`, `NEXT` (R29). -/
structure Lz78Dec where
  table : PhraseTable
  next : Nat
  deriving DecidableEq, Repr

/-- `DW` above the seeds, `NEXT`, `WIDTH`, `CUR` (R31). -/
structure LzwEnc where
  dict : Dict
  next : Nat
  width : Nat
  cur : Option Nat
  deriving DecidableEq, Repr

/-- `TW` above the seeds, `NEXT`, `PREV` (R32). -/
structure LzwDec where
  table : PhraseTable
  next : Nat
  prev : Option (List Byte)
  deriving DecidableEq, Repr

/-- `WIN`, `CAND`, `IDX` (R34, R35). -/
structure LzssEnc where
  win : List Byte
  cand : List Byte
  idx : Nat
  deriving DecidableEq, Repr

/-- The state of the dictionary or window engine a command has created; none exists between commands (R41). -/
inductive Engine where
  | none
  | lz78Enc (e : Lz78Enc)
  | lz78Dec (e : Lz78Dec)
  | lzwEnc (e : LzwEnc)
  | lzwDec (e : LzwDec)
  | lzssEnc (e : LzssEnc)
  | lzssDec (win : List Byte)
  deriving DecidableEq, Repr

/-- The entropy-coder state (R40): `ZRUN`, the encoder's `BITS`, and for the decoder the characters of its `BITS` from
`POS` on, with `POS`. -/
structure Coder where
  zrun : Nat
  bits : Bits
  line : List Byte
  pos : Nat
  deriving DecidableEq, Repr

/-- The block buffers `BLKF`, `BLKI`, `SEQ` (R36), element `[i][j]` at `8·i + j`, and the coder that reads and writes `SEQ`. -/
structure BlockUnit where
  blkf : Vector (Reg ExactNum) 64
  blki : Vector (Reg Int) 64
  seq : Vector (Reg Int) 64
  coder : Coder
  deriving DecidableEq, Repr

/-- The address of an element of a plane memory (R60): plane 0, 1, 2 (R, G, B or Y, Cb, Cr), row y, column x. -/
structure Key where
  c : Fin 3
  y : Nat
  x : Nat
  deriving DecidableEq, Repr

/-- A plane memory (R39): the written elements, addresses strictly rising; an unlisted element has no value. -/
abbrev Sparse (α : Type) := List (Key × α)

/-- One thing the host does at the CORE's ports. The host's reads have no effect (R71) and are not actions. -/
inductive HostAct where
  /-- A byte written to `CMD` (R90). -/
  | cmd (b : Byte)
  /-- Register writes (R22): `A` and `RES` are signed, the others are not. -/
  | setA (v : Int)
  | setN (v : Nat)
  | setRes (v : Int)
  | setRes2 (v : Nat)
  | setQuality (v : Nat)
  | setWindowBits (v : Nat)
  | setMaxMatchBits (v : Nat)
  | setMinMatchLen (v : Nat)
  | setHeight (v : Nat)
  | setWidth (v : Nat)
  | setSel (v : Nat)
  | setMode (v : Nat)
  /-- One element through the `BLK` port (R63). -/
  | writeBlkf (k : Fin 64) (v : ExactNum)
  | writeBlki (k : Fin 64) (v : Int)
  | writeSeq (k : Fin 64) (v : Int)
  /-- One element through the `PLANE` port (R63). -/
  | writeRgb (k : Key) (v : Byte)
  | writeYcc (k : Key) (v : ExactNum)
  /-- A fresh `IN` stream (R61, R80). -/
  | attachIn (bytes : List Byte)
  /-- A fresh, empty `OUT` stream (R62, R80). -/
  | attachOut
  /-- Power-on reset (R42, R353). -/
  | powerOnReset
  deriving DecidableEq, Repr

/-- The state of the CORE and of its host interface. -/
structure State where
  /-- `PR0` `A`. -/
  a : Reg Int
  /-- `PR1` `N`. -/
  n : Reg Nat
  /-- `PR2` `RES`. -/
  res : Reg Int
  /-- `PR3` `RES2`. -/
  res2 : Reg Nat
  /-- `PR4` `QUALITY`. -/
  quality : Reg Nat
  /-- `PR5` `WINDOW_BITS`. -/
  windowBits : Reg Nat
  /-- `PR6` `MAX_MATCH_BITS`. -/
  maxMatchBits : Reg Nat
  /-- `PR7` `MIN_MATCH_LEN`. -/
  minMatchLen : Reg Nat
  /-- `PR8` `HEIGHT`. -/
  height : Reg Nat
  /-- `PR9` `WIDTH`. -/
  width : Reg Nat
  /-- `PR10` `SEL`. -/
  sel : Reg Nat
  /-- `PR11` `MODE`. -/
  mode : Reg Nat
  /-- `STATUS.STATE` (R23). -/
  run : RunState
  /-- `STATUS.QVALID` (R23). -/
  qvalid : Bool
  /-- `STATUS.ERRCODE` (R23, R321): `none` is code 0. -/
  err : Option Exc
  /-- `ERRINFO` (R24). -/
  errinfo : Int
  /-- `PHASE` (R25). -/
  phase : Phase
  /-- `IN`, `OUT`, the BitChannel, `STATUS.EOS`. -/
  io : Io
  /-- The LZ engine of the running command. -/
  eng : Engine
  /-- `BLKF`, `BLKI`, `SEQ` and the entropy coder. -/
  blk : BlockUnit
  /-- `QT_LUMA` (R37). -/
  qtLuma : Vector Nat 64
  /-- `QT_CHROMA` (R37). -/
  qtChroma : Vector Nat 64
  /-- `RGB[c][y][x]` (R39). -/
  rgb : Sparse Byte
  /-- `YCC[c][y][x]` (R39). -/
  ycc : Sparse ExactNum
  /-- The configuration (R21), codebooks `CB[...]` among it; no step changes it. -/
  cfg : CheckedConfig
  /-- The model's own: how many free values have been drawn. -/
  freeCtr : Nat
  /-- The model's own: what the host does next at the ports, first action first. -/
  host : List HostAct
  deriving DecidableEq, Repr

/-- Why the machine stops with a fault. -/
inductive Fault where
  /-- Raised by `step` when the host touches a register, the `BLK` or `PLANE` port or a stream while `STATUS.STATE` is
  `BUSY`: 20_memory.md R80 (c) forbids it and no rule says what it does. Safe: the machine stops. No state that a run
  from reset reaches is `BUSY` between steps. -/
  | hostAccessWhileBusy
  deriving DecidableEq, Repr

/-- Why an instruction is refused. -/
inductive Refusal where
  /-- Raised by `exec` for an instruction whose meaning has not been written. Safe. No arm does so now. -/
  | notModelled (mnemonic : String)
  deriving DecidableEq, Repr

/-- No writer: `WBYTE` and `WCNT` 0 (R42). -/
def Writer.closed : Writer := ⟨false, 0, 0⟩

/-- No reader: `RCNT` 8, `REXH` 0; `RBYTE` is unspecified and stands at 0 (R42; log 2). -/
def Reader.closed : Reader := ⟨false, 0, 8, false⟩

/-- The coder at the start of a plane, and where none exists (R42). -/
def Coder.fresh : Coder := ⟨0, [], [], 0⟩

/-- A register or element that nothing has written since reset. -/
def Reg.unwritten {α : Type} (v : α) : Reg α := ⟨v, false⟩

/-- A register or element that has been written. -/
def Reg.of {α : Type} (v : α) : Reg α := ⟨v, true⟩

/-- Power-on reset (R42, R350). What R42 calls unspecified stands at 0 and is marked unwritten (log 2). No stream is attached yet: `IN`
holds no byte (log 20) and `OUT` is empty and not open (log 10), both DESIGN CHOICE. -/
def State.reset : State where
  a := .unwritten 0
  n := .unwritten 0
  res := .unwritten 0
  res2 := .unwritten 0
  quality := .unwritten 0
  windowBits := .unwritten 0
  maxMatchBits := .unwritten 0
  minMatchLen := .unwritten 0
  height := .unwritten 0
  width := .unwritten 0
  sel := .of 0
  mode := .of 0
  run := .idle
  qvalid := false
  err := none
  errinfo := 0
  phase := .none
  io := ⟨⟨[], 0⟩, ⟨[], .idle⟩, .closed, .closed, false⟩
  eng := .none
  blk := ⟨.replicate 64 (.unwritten (.ofInt 0)), .replicate 64 (.unwritten 0), .replicate 64 (.unwritten 0), .fresh⟩
  qtLuma := .replicate 64 0
  qtChroma := .replicate 64 0
  rgb := []
  ycc := []
  cfg := checkedDefault
  freeCtr := 0
  host := []

end Sys2Proof.Machine
end

