-- ==== Sys2Proof/Machine/Flags.lean ====
section
/-! DEFINITION. `STATUS` (10_state.md R23): its fields' codes, the register as the host reads it, and the writes of its
flags. -/

namespace Sys2Proof.Machine

/-- `STATE`, bits 1:0 (R23). -/
def RunState.code : RunState → Nat
  | .idle => 0 | .busy => 1 | .done => 2 | .error => 3

/-- The value of `ERRCODE` (60_exceptions.md R321). -/
def Exc.code : Exc → Nat
  | .illegalCommand => 1 | .badOperand => 2 | .malformedHeader => 3
  | .corruptCodeword => 4 | .truncatedStream => 5 | .dictFull => 6

/-- `ERRCODE`, bits 7:4: 0 where there is no exception (R23). -/
def State.errCode (s : State) : Nat :=
  match s.err with
  | none => 0
  | some e => e.code

/-- The `STATUS` register: `STATE` in bits 1:0, `EOS` bit 2, `QVALID` bit 3, `ERRCODE` bits 7:4 (R23). -/
def State.statusWord (s : State) : BitVec 8 :=
  BitVec.ofNat 8 (s.run.code + 4 * s.io.eos.toNat + 8 * s.qvalid.toNat + 16 * s.errCode)

/-- `STATUS.EOS <- v`. -/
def Io.setEos (v : Bool) (io : Io) : Io := { io with eos := v }

/-- `STATUS.QVALID <- 1` (44_dct_quant_zigzag.md R225). -/
def State.setQvalid (s : State) : State := { s with qvalid := true }

end Sys2Proof.Machine
end

