-- ==== Sys2Proof/Machine/Operands.lean ====
section
/-! DEFINITION. The operands of the commands: the fields of `SEL` and `MODE`, the tables they select, and the checks of
60_exceptions.md R321 and R330. A check answers the indices that offend; 255 stands for what is no register. -/

namespace Sys2Proof.Machine

/-- `SEL.CHROMA`, bit 0 (10_state.md R22). -/
def State.chroma (s : State) : Bool := s.sel.val.testBit 0

/-- `SEL[1:0]`, the codebook index (45_huffman.md R246). -/
def State.tableIndex (s : State) : Nat := s.sel.val % 4

/-- `MODE.EMBEDDED`, bit 0 (R22). -/
def State.embedded (s : State) : Bool := s.mode.val.testBit 0

/-- The DC codebook of a plane: luminance for Y, chrominance for Cb and Cr (R246). -/
def dcTrie (cfg : Config) (chroma : Bool) : Trie := if chroma then cfg.dcChroma else cfg.dcLuma

/-- The AC codebook of a plane (R246). -/
def acTrie (cfg : Config) (chroma : Bool) : Trie := if chroma then cfg.acChroma else cfg.acLuma

/-- `CB[t]` for t = `SEL[1:0]`: bit 0 `CHROMA`, bit 1 `AC` (R246). -/
def codebook (cfg : Config) (t : Nat) : Trie :=
  if t.testBit 1 then acTrie cfg (t.testBit 0) else dcTrie cfg (t.testBit 0)

/-- The quantisation table that `CHROMA` selects (44_dct_quant_zigzag.md R228). -/
def State.qt (s : State) (chroma : Bool) : Vector Nat 64 := if chroma then s.qtChroma else s.qtLuma

/-- `ERRINFO` of a `BadOperand` that is no register (R321). -/
def notRegister : Nat := 255

/-- A register that a command reads offends when nothing has written it (R330) or when its value is outside the range its
rule gives (R321). -/
def Reg.offends {α : Type} (r : Reg α) (index : Nat) (outside : α → Bool) : List Nat :=
  if r.written && !(outside r.val) then [] else [index]

/-- A register for which the rule gives no further range. -/
def Reg.unread {α : Type} (r : Reg α) (index : Nat) : List Nat := r.offends index (fun _ => false)

/-- A condition that is not about a register (R321: 255). -/
def offUnless (ok : Bool) : List Nat := if ok then [] else [notRegister]

/-- Every element of a block buffer has been written (R330; log 7). -/
def allWritten {α : Type} (v : Vector (Reg α) 64) : Bool := v.all (fun r => r.written)

/-- The values of a block buffer. -/
def blockVals {α : Type} (v : Vector (Reg α) 64) : Vector α 64 := v.map (fun r => r.val)

/-- A block buffer with every element written. -/
def blockOf {α : Type} (v : Vector α 64) : Vector (Reg α) 64 := v.map Reg.of

/-- A width within `VALUE_MAX_WIDTH` (40_bitchannel.md R132, R134); no bound by default. -/
def withinBound (bound : Option Nat) (v : Nat) : Bool :=
  match bound with
  | none => true
  | some m => decide (v ≤ m)

end Sys2Proof.Machine
end

