-- ==== Sys2Proof/Machine/Ops.lean ====
section
/-! DEFINITION. The shared operations: a command's run, its start, its two ends (completion, and the raising of an exception), the
streams, the BitChannel primitives (40_bitchannel.md), the bit sink and bit source of the image path, and the plane memories. -/

namespace Sys2Proof.Machine

/-- `raise X(info)` (60_exceptions.md R322); `info = none` where the rule names nothing. -/
structure Raise where
  exc : Exc
  info : Option Int
  deriving DecidableEq, Repr

/-- A piece of a command's pseudocode over a part σ of the state: it goes on with a value and the new part, or raises, and what it
had written by then stays written (R322 (4), R324). -/
abbrev Run (σ α : Type) := EStateM Raise σ α

/-- `raise X(i)`. -/
def raise {σ α : Type} (e : Exc) (i : Int) : Run σ α := throw ⟨e, some i⟩

/-- `raise X` with nothing named. -/
def raiseBare {σ α : Type} (e : Exc) : Run σ α := throw ⟨e, none⟩

/-- Run a piece over one part of a larger state. -/
def Run.on {σ τ α : Type} (get : τ → σ) (put : τ → σ → τ) (m : Run σ α) : Run τ α := fun t =>
  match m (get t) with
  | .ok a p => .ok a (put t p)
  | .error r p => .error r (put t p)

/-- Run over the streams and the BitChannel. -/
def onIo {α : Type} (m : Run Io α) : Run State α := m.on State.io (fun s io => { s with io := io })

/-- Run over the block buffers and the coder. -/
def onBlk {α : Type} (m : Run BlockUnit α) : Run State α := m.on State.blk (fun s b => { s with blk := b })

/-- Run over the coder. -/
def onCoder {α : Type} (m : Run Coder α) : Run BlockUnit α := m.on BlockUnit.coder (fun b c => { b with coder := c })

/-! ### The streams (20_memory.md R61, R62) -/

/-- `InByte()`: the next byte, or `none` for `EOS`; reading consumes (R61). -/
def inByte (io : Io) : Option Byte × Io :=
  match io.inp.rest with
  | [] => (none, io)
  | b :: rest => (some b, { io with inp := ⟨rest, io.inp.consumed + 1⟩ })

/-- `OutByte(b)` (R62). -/
def outByte (b : Byte) (io : Io) : Io := { io with out := { io.out with bytes := io.out.bytes ++ [b] } }

/-- `for each b in P: OutByte(b)`. -/
def outBytes (bs : List Byte) (io : Io) : Io := { io with out := { io.out with bytes := io.out.bytes ++ bs } }

/-- Opening `OUT` for an invocation: a sink left open by an embedded entry, or still being written, is appended to; otherwise
the stream starts empty (R62, R358; log 10). -/
def OutStream.opened (o : OutStream) : OutStream :=
  match o.sink with
  | .writing => o
  | .flushed => ⟨o.bytes, .writing⟩
  | .idle => ⟨[], .writing⟩
  | .closed => ⟨[], .writing⟩

/-- `if MODE.EMBEDDED = 0: close OUT else: flush OUT, leave it open` (R62, R136). -/
def OutStream.settled (embedded : Bool) (o : OutStream) : OutStream :=
  ⟨o.bytes, if embedded then .flushed else .closed⟩

/-- The end of `OUT` when a command ends: only a stream that is being written ends (R62). -/
def OutStream.ended (embedded : Bool) (o : OutStream) : OutStream :=
  if o.sink = .writing then o.settled embedded else o

/-- Opening `OUT`. -/
def openOut (io : Io) : Io := { io with out := io.out.opened }

/-! ### The BitChannel (40_bitchannel.md) -/

/-- `WBYTE <- 0; WCNT <- 0; writer <- open on OUT` (R137). -/
def openWriter (io : Io) : Io := { io with wtr := ⟨true, 0, 0⟩, out := io.out.opened }

/-- `RCNT <- 8; REXH <- 0; reader <- open on IN` (R141); `RBYTE` becomes the given unspecified byte (R42). -/
def openReader (free : Byte) (io : Io) : Io := { io with rdr := ⟨true, free, 8, false⟩ }

/-- One turn of `WRBITS` (R131): the bit goes below the `WCNT` bits already placed; a full byte goes to `OUT`. -/
def wrBit (io : Io) (b : Bool) : Io :=
  let full := io.wtr.byte ||| ((if b then 1#8 else 0#8) <<< (7 - io.wtr.cnt))
  if io.wtr.cnt + 1 = 8 then outByte full { io with wtr := { io.wtr with byte := 0, cnt := 0 } }
  else { io with wtr := { io.wtr with byte := full, cnt := io.wtr.cnt + 1 } }

/-- `WRBITS(s)` (R131). -/
def wrBits (s : Bits) (io : Io) : Io := s.foldl wrBit io

/-- `WRVAL(v, n)` (R132, R133). -/
def wrVal (v : Int) (n : Nat) (io : Io) : Io := wrBits (binN n (fieldValue v)) io

/-- `return −1`: the sentinel sets `REXH` and `STATUS.EOS` (R134, R135). -/
def sentinel (io : Io) : Io := { io with rdr := { io.rdr with exh := true }, eos := true }

/-- One turn of the loop of `RDBITS` (R134): `none` when the source is exhausted. -/
def rdBit (io : Io) : Option Bool × Io :=
  if io.rdr.cnt = 8 then
    match inByte io with
    | (none, io') => (none, sentinel io')
    | (some b, io') => (some (b.getLsbD 7), { io' with rdr := { io'.rdr with byte := b, cnt := 1 } })
  else
    (some (io.rdr.byte.getLsbD (7 - io.rdr.cnt)), { io with rdr := { io.rdr with cnt := io.rdr.cnt + 1 } })

/-- The loop of `RDBITS`: n bits, the first the most significant. -/
def rdLoop : Nat → Nat → Io → Option Nat × Io
  | 0, v, io => (some v, io)
  | n + 1, v, io =>
    match rdBit io with
    | (none, io') => (none, io')
    | (some b, io') => rdLoop n (2 * v + b.toNat) io'

/-- `RDBITS(n)` (R134): `none` is the sentinel −1, which is sticky (R135). -/
def rdBits (n : Nat) (io : Io) : Option Nat × Io :=
  if io.rdr.exh then (none, sentinel io) else rdLoop n 0 io

/-- `CLOSE()` (R136): the partial byte is flushed, zero-padded, and the sink closed or flushed; a reader just closes. -/
def closeChannel (embedded : Bool) (io : Io) : Io :=
  if io.wtr.isOpen then
    { io with
      out := (if 0 < io.wtr.cnt then (outByte io.wtr.byte io).out else io.out).settled embedded
      wtr := .closed
      rdr := .closed }
  else { io with rdr := .closed }

/-- The primitives as pieces of a run. -/
def getByte : Run Io (Option Byte) := fun io => .ok (inByte io).1 (inByte io).2
def readBits (n : Nat) : Run Io (Option Nat) := fun io => .ok (rdBits n io).1 (rdBits n io).2
def writeBits (s : Bits) : Run Io Unit := modify (wrBits s)
def writeVal (v : Int) (n : Nat) : Run Io Unit := modify (wrVal v n)
def emitBytes (bs : List Byte) : Run Io Unit := modify (outBytes bs)

/-- The bits an input stream still holds: no loop that reads at least one a turn runs longer (R140). -/
def unreadBits (io : Io) : Nat := 8 * io.inp.rest.length

/-! ### Bits as characters (45_huffman.md R257) -/

/-- `PutBits(s)`: to the coder's `BITS`. -/
def putBits (s : Bits) : Run Coder Unit := modify fun c => { c with bits := c.bits ++ s }

/-- `NextBit()`: the next character as a bit, `none` for `EOL` (the end of the characters, or a line feed); any other character
raises `CorruptCodeword` with it (R257, 47_image_pipeline.md R301, R303). -/
def nextBit : Run Coder (Option Bool) := fun c =>
  match c.line with
  | [] => .ok none c
  | ch :: rest =>
    if ch = 0x30 then .ok (some false) { c with line := rest, pos := c.pos + 1 }
    else if ch = 0x31 then .ok (some true) { c with line := rest, pos := c.pos + 1 }
    else if ch = lineFeed then .ok none { c with line := rest, pos := c.pos + 1 }
    else .error ⟨.corruptCodeword, some ch.toNat⟩ { c with line := rest, pos := c.pos + 1 }

/-- A stand-alone coding command's sink is `OUT`: one byte 0x30 + bit for each bit put, also for those put before an exception
(R257, 46_rle_entropy.md R272). -/
def flushBits (s : State) : State :=
  { s with io := outBytes (s.blk.coder.bits.map bitChar) s.io }

/-- Run a coder piece with `OUT` as its sink. -/
def withSink {α : Type} (m : Run BlockUnit α) : Run State α := fun s =>
  match onBlk m { s with io := openOut s.io, blk := { s.blk with coder := .fresh } } with
  | .ok a t => .ok a (flushBits t)
  | .error r t => .error r (flushBits t)

/-- The bytes a stand-alone decoding command took from `IN` are consumed, the others are left (R257, R61). -/
def takeLine (s : State) : State :=
  { s with io := { s.io with inp := ⟨s.blk.coder.line, s.io.inp.consumed + s.blk.coder.pos⟩ } }

/-- Run a coder piece with `IN` as its source. -/
def withSource {α : Type} (m : Run BlockUnit α) : Run State α := fun s =>
  match onBlk m { s with blk := { s.blk with coder := { Coder.fresh with line := s.io.inp.rest } } } with
  | .ok a t => .ok a (takeLine t)
  | .error r t => .error r (takeLine t)

/-! ### The plane memories (10_state.md R39, 20_memory.md R63) -/

/-- The order of addresses: by plane, then row, then column. -/
def Key.lt (k l : Key) : Bool :=
  decide (k.c < l.c) || (k.c == l.c && (decide (k.y < l.y) || (k.y == l.y && decide (k.x < l.x))))

/-- Reading one element: `none` where nothing has written it. -/
def Sparse.read {α : Type} : Sparse α → Key → Option α
  | [], _ => none
  | (l, v) :: m, k => if l = k then some v else Sparse.read m k

/-- Writing one element, keeping the addresses rising. -/
def Sparse.write {α : Type} : Sparse α → Key → α → Sparse α
  | [], k, v => [(k, v)]
  | (l, w) :: m, k, v =>
    if k.lt l then (k, v) :: (l, w) :: m
    else if k = l then (k, v) :: m
    else (l, w) :: Sparse.write m k v

/-- The canonical form of a plane memory: addresses strictly rising. -/
def Sparse.wf {α : Type} : Sparse α → Bool
  | [] => true
  | [_] => true
  | (k, _) :: (l, v) :: m => k.lt l && Sparse.wf ((l, v) :: m)

/-- Every pixel of an image, row by row, from pixel number i on, n of them: the first that fails ends the search. -/
def allPixels (p : Nat → Nat → Bool) (w : Nat) : Nat → Nat → Bool
  | 0, _ => true
  | n + 1, i => p (i / w) (i % w) && allPixels p w n (i + 1)

/-- Every element of the three planes inside `HEIGHT × WIDTH` has been written (R330; log 7). -/
def planesWritten {α : Type} (m : Sparse α) (h w : Nat) : Bool :=
  allPixels (fun y x => (m.read ⟨0, y, x⟩).isSome && (m.read ⟨1, y, x⟩).isSome && (m.read ⟨2, y, x⟩).isSome) w (h * w) 0

/-! ### A command's start and ends (10_state.md R41, R42, 60_exceptions.md R321 to R325) -/

/-- Command start (R42): `STATE <- BUSY`, `EOS <- 0`, `ERRCODE <- 0`, `ERRINFO` unspecified, `PHASE` the first phase. -/
def State.start (p : Phase) (s : State) : State :=
  { s with
    run := .busy
    err := none
    errinfo := freeErrInfo s.freeCtr
    freeCtr := s.freeCtr + 1
    phase := p
    io := { s.io with eos := false } }

/-- TAKING AN EXCEPTION (R322 (2)): `ERRCODE`, `ERRINFO`, `STATE <- ERROR`, `PHASE <- NONE`, everything else as it was written;
control goes nowhere and nothing is saved (R327). Where the rule names no information `ERRINFO` is a free value (R24). -/
def State.raised (r : Raise) (s : State) : State :=
  match r.info with
  | some i => { s with run := .error, err := some r.exc, errinfo := i, phase := .none }
  | none =>
    { s with
      run := .error
      err := some r.exc
      errinfo := freeErrInfo s.freeCtr
      freeCtr := s.freeCtr + 1
      phase := .none }

/-- LEAVING `ERROR` (R328): there is no return instruction; the next accepted command's `State.start` clears it. Normal completion
(R323): `STATE <- DONE`, `ERRCODE <- 0`, `PHASE <- NONE`. -/
def State.completed (s : State) : State := { s with run := .done, err := none, phase := .none }

/-- What a command of a unit other than BitChannel drops: the engine state it created (R41, R322 (3)), a partial byte unflushed;
the end of its `OUT` is signalled (R62). -/
def State.released (s : State) : State :=
  { s with
    eng := .none
    blk := { s.blk with coder := .fresh }
    io := { s.io with wtr := .closed, rdr := .closed, out := s.io.out.ended s.embedded } }

/-- The start of a command of another unit ends a BitChannel the host had opened, its partial byte unflushed (R41, R356). -/
def State.dropChannel (s : State) : State := { s with io := { s.io with wtr := .closed, rdr := .closed } }

/-- A BitChannel command (R41): the channel outlives it. `bad` lists the operands that offend, lowest first (R321, R325). -/
def runChannel (bad : State → List Nat) (body : Run State Unit) (s : State) : Host.Outcome State Fault Refusal :=
  match bad s with
  | i :: _ => .next ((s.start .compute).raised ⟨.badOperand, some i⟩)
  | [] =>
    match body (s.start .compute) with
    | .ok _ t => .next t.completed
    | .error r t => .next (t.raised r)

/-- A command of any other unit: it starts by ending a host-opened BitChannel and ends by dropping its own engine state. -/
def runUnit (p : Phase) (bad : State → List Nat) (body : Run State Unit) (s : State) : Host.Outcome State Fault Refusal :=
  match bad s with
  | i :: _ => .next ((s.start p).dropChannel.released.raised ⟨.badOperand, some i⟩)
  | [] =>
    match body (s.start p).dropChannel with
    | .ok _ t => .next t.released.completed
    | .error r t => .next (t.released.raised r)

/-- A command whose work cannot raise once its operands are right. -/
def always (f : State → State) : Run State Unit := fun s => .ok () (f s)

/-- `PHASE <- p` (R25; log 21). -/
def setPhase (p : Phase) : Run State Unit := modify fun s => { s with phase := p }

/-- The engine state a running command holds (R41). -/
def setEngine (e : Engine) : Run State Unit := modify fun s => { s with eng := e }

/-- `for each c of IN: f(c)`: the encoders' loop `c <- InByte(); if c = EOS: break; …` (R61), given the bytes `IN` still holds. Every turn
starts in `RECORD` and leaves the engine as f made it. -/
def forInput {ε : Type} (engine : ε → Engine) (f : Byte → ε → Run State ε) : List Byte → ε → Run State ε
  | [], e => pure e
  | c :: cs, e => do
    setPhase .record
    let _ ← onIo getByte
    let e' ← f c e
    setEngine (engine e')
    forInput engine f cs e'

/-- `open reader` inside a command: `RBYTE` is a free value (R42). -/
def openReaderFree (s : State) : State :=
  { s with io := openReader (freeByte s.freeCtr) s.io, freeCtr := s.freeCtr + 1 }

end Sys2Proof.Machine
end

