-- ==== Sys2Proof/Machine/BitChannel.lean ====
section
/-! DEFINITION. The BitChannel commands (40_bitchannel.md). -/

namespace Sys2Proof.Machine

/-- BC.OPENW (R137). A partial byte of a writer already open is discarded (R356). -/
def execBcOpenw (s : State) : Host.Outcome State Fault Refusal :=
  runChannel (fun _ => []) (onIo (modify openWriter)) s

/-- BC.OPENR (R141). -/
def execBcOpenr (s : State) : Host.Outcome State Fault Refusal :=
  runChannel (fun _ => []) (always openReaderFree) s

/-- The operands of BC.WRBITS (R131): `0 ≤ A < 2^N`, a writer open. -/
def wrbitsBad (s : State) : List Nat :=
  s.a.offends 0 (fun a => decide (a < 0) || (s.n.written && decide (2 ^ s.n.val ≤ a)))
    ++ s.n.unread 1 ++ offUnless s.io.wtr.isOpen

/-- BC.WRBITS (R131): `WRBITS(bin_N(A))`. -/
def execBcWrbits (s : State) : Host.Outcome State Fault Refusal :=
  runChannel wrbitsBad (onIo (writeBits (binN s.n.val s.a.val.toNat))) s

/-- The operands of BC.WRVAL (R132, R133): `A ≥ −128`, `N ≤ VALUE_MAX_WIDTH`, a writer open. -/
def wrvalBad (s : State) : List Nat :=
  s.a.offends 0 (fun a => decide (a < -128))
    ++ s.n.offends 1 (fun n => !withinBound s.cfg.valueMaxWidth n) ++ offUnless s.io.wtr.isOpen

/-- BC.WRVAL (R132): `WRVAL(A, N)`. -/
def execBcWrval (s : State) : Host.Outcome State Fault Refusal :=
  runChannel wrvalBad (onIo (writeVal s.a.val s.n.val)) s

/-- The operands of BC.RDBITS (R134): `N ≤ VALUE_MAX_WIDTH`, a reader open. -/
def rdbitsBad (s : State) : List Nat :=
  s.n.offends 1 (fun n => !withinBound s.cfg.valueMaxWidth n) ++ offUnless s.io.rdr.isOpen

/-- `RES` after a read: the value, or the sentinel −1 (R134). -/
def readResult : Option Nat → Int
  | none => -1
  | some v => v

/-- BC.RDBITS (R134): `RES <- RDBITS(N)`. -/
def execBcRdbits (s : State) : Host.Outcome State Fault Refusal :=
  runChannel rdbitsBad
    (do
      let v ← onIo (readBits s.n.val)
      modify fun t => { t with res := .of (readResult v) })
    s

/-- BC.CLOSE (R136). -/
def execBcClose (s : State) : Host.Outcome State Fault Refusal :=
  runChannel (fun _ => []) (onIo (modify (closeChannel s.embedded))) s

end Sys2Proof.Machine
end

