-- ==== Sys2Proof/Machine/Block.lean ====
section
/-! DEFINITION. The block units (44_dct_quant_zigzag.md): the 8×8 transform, the quantiser, the zigzag permutation. Each command's
body is an operation on the block buffers, which the image pass runs too (47_image_pipeline.md R292). -/

namespace Sys2Proof.Machine

/-- A block with the same amount added to every element. -/
def shiftBlock (m : Numeric) (d : Int) (x : Vector ExactNum 64) : Vector ExactNum 64 := x.map (fun v => m.add v (.ofInt d))

/-- Body of DCT.FWD (R218): level shift, then `F = C·M·Cᵗ`, `C·M` formed first (R221; log 22). -/
def BlockUnit.dctFwd (m : Numeric) (b : BlockUnit) : BlockUnit :=
  { b with blkf := blockOf (m.matMul (m.matMul m.basisMatrix (shiftBlock m (-128) (blockVals b.blkf))) m.basisTransposed) }

/-- Body of DCT.INV (R219): `M = Cᵗ·F·C`, `Cᵗ·F` formed first, then the level shift undone. -/
def BlockUnit.dctInv (m : Numeric) (b : BlockUnit) : BlockUnit :=
  { b with blkf := blockOf (shiftBlock m 128 (m.matMul (m.matMul m.basisTransposed (blockVals b.blkf)) m.basisMatrix)) }

/-- Body of Q.QUANT (R229): `BLKI[i][j] <- round(BLKF[i][j] / QT[i][j])`; `NUMERIC` is the arithmetic of the division (R8). -/
def BlockUnit.quant (m : Numeric) (mode : RoundMode) (qt : Vector Nat 64) (b : BlockUnit) : BlockUnit :=
  { b with blki := blockOf (Vector.ofFn fun k : Fin 64 => m.round mode (m.div (blockVals b.blkf)[k.1] qt[k.1])) }

/-- Body of Q.DEQUANT (R230): `BLKF[i][j] <- BLKI[i][j] · QT[i][j]`, the exact integer product whatever `NUMERIC` is (log 22). -/
def BlockUnit.dequant (qt : Vector Nat 64) (b : BlockUnit) : BlockUnit :=
  { b with blkf := blockOf (Vector.ofFn fun k : Fin 64 => ExactNum.ofInt ((blockVals b.blki)[k.1] * (qt[k.1] : Int))) }

/-- Body of ZZ.FWD (R235): `SEQ[k] <- BLKI[ZIGZAG[k]]`. -/
def BlockUnit.zzFwd (zigzag : Vector (Fin 64) 64) (b : BlockUnit) : BlockUnit :=
  { b with seq := Vector.ofFn fun k : Fin 64 => Reg.of b.blki[zigzag[k.1]].val }

/-- Body of ZZ.INV (R236): `for k in 0..63: BLKI[ZIGZAG[k]] <- SEQ[k]`. -/
def BlockUnit.zzInv (zigzag : Vector (Fin 64) 64) (b : BlockUnit) : BlockUnit :=
  { b with
    blki := (List.finRange 64).foldl
      (fun m k => m.set zigzag[k.1].1 (Reg.of b.seq[k.1].val) (zigzag[k.1]).2) b.blki }

/-- A block command that only changes the block buffers. -/
def onBlock (f : BlockUnit → BlockUnit) : Run State Unit := always fun s => { s with blk := f s.blk }

/-- A command that reads all of `BLKF` (R330). -/
def blkfBad (s : State) : List Nat := offUnless (allWritten s.blk.blkf)

/-- DCT.FWD (R218). -/
def execDctFwd (s : State) : Host.Outcome State Fault Refusal :=
  runUnit .compute blkfBad (onBlock (BlockUnit.dctFwd s.cfg.numeric)) s

/-- DCT.INV (R219). -/
def execDctInv (s : State) : Host.Outcome State Fault Refusal :=
  runUnit .compute blkfBad (onBlock (BlockUnit.dctInv s.cfg.numeric)) s

/-- The scale factor (R224), integer division; a quality of 0 is treated as 1. -/
def qualityScale (quality : Nat) : Nat :=
  if max quality 1 < 50 then 5000 / max quality 1 else 200 - 2 * max quality 1

/-- One table entry (R225). -/
def qualityEntry (scale base : Nat) : Nat := max 1 ((scale * base + 50) / 100)

/-- Body of Q.SETQ (R225). -/
def State.setTables (s : State) : State :=
  { s with
    qtLuma := s.cfg.baseLuma.map (qualityEntry (qualityScale s.quality.val))
    qtChroma := s.cfg.baseChroma.map (qualityEntry (qualityScale s.quality.val)) }.setQvalid

/-- The operand of Q.SETQ (R225, R330): `QUALITY` written and at most 100. -/
def setqBad (s : State) : List Nat := s.quality.offends 4 (fun q => decide (100 < q))

/-- Q.SETQ (R225). -/
def execQSetq (s : State) : Host.Outcome State Fault Refusal :=
  runUnit .compute setqBad (always State.setTables) s

/-- The operands of Q.QUANT: `BLKF` written, the tables valid (R228, R330). -/
def quantBad (s : State) : List Nat := offUnless (allWritten s.blk.blkf && s.qvalid)

/-- Q.QUANT (R229). -/
def execQQuant (s : State) : Host.Outcome State Fault Refusal :=
  runUnit .compute quantBad (onBlock (BlockUnit.quant s.cfg.numeric s.cfg.round (s.qt s.chroma))) s

/-- The operands of Q.DEQUANT: `BLKI` written, the tables valid (R228, R330). -/
def dequantBad (s : State) : List Nat := offUnless (allWritten s.blk.blki && s.qvalid)

/-- Q.DEQUANT (R230). -/
def execQDequant (s : State) : Host.Outcome State Fault Refusal :=
  runUnit .compute dequantBad (onBlock (BlockUnit.dequant (s.qt s.chroma))) s

/-- A command that reads all of `BLKI` (R330). -/
def blkiBad (s : State) : List Nat := offUnless (allWritten s.blk.blki)

/-- A command that reads all of `SEQ` (R330). -/
def seqBad (s : State) : List Nat := offUnless (allWritten s.blk.seq)

/-- ZZ.FWD (R235). -/
def execZzFwd (s : State) : Host.Outcome State Fault Refusal :=
  runUnit .compute blkiBad (onBlock (BlockUnit.zzFwd s.cfg.zigzag)) s

/-- ZZ.INV (R236). -/
def execZzInv (s : State) : Host.Outcome State Fault Refusal :=
  runUnit .compute seqBad (onBlock (BlockUnit.zzInv s.cfg.zigzag)) s

end Sys2Proof.Machine
end

