-- ==== Sys2Proof/Machine/Huffman.lean ====
section
/-! DEFINITION. The Huffman encoder and decoder (45_huffman.md). The codebooks and the two lookups are in Tables.lean. -/

namespace Sys2Proof.Machine

/-- `LookupDC` for a DC table, `LookupAC` for an AC table, of `CB[t]` (R250 to R252). -/
def lookupSymbol (cfg : Config) (t : Nat) (sym : Int) : Option Bits :=
  if t.testBit 1 then lookupAc (codebook cfg t) sym else lookupDc (codebook cfg t) sym

/-- `PutBits` of a symbol's codeword, or the lookup's `CorruptCodeword` (R250, R251). -/
def putCode (code : Option Bits) (sym : Int) : Run Coder Unit :=
  match code with
  | some c => putBits c
  | none => raise .corruptCodeword sym

/-- HUF.ENC (R252). -/
def execHufEnc (s : State) : Host.Outcome State Fault Refusal :=
  runUnit .compute (fun s => s.a.unread 0)
    (do
      withSink (onCoder (putCode (lookupSymbol s.cfg.toConfig s.tableIndex s.a.val) s.a.val))
      modify fun t =>
        { t with res := .of (valOf t.blk.coder.bits), res2 := .of t.blk.coder.bits.length })
    s

/-- `HuffDecode(t)` (R253): descend bit by bit; `used` counts the bits of this codeword consumed so far. -/
def huffDecode : Trie → Nat → Run Coder Nat
  | .leaf sym _, _ => pure sym
  | .empty, used => raise .corruptCodeword used
  | .node l r _, used => do
    match ← nextBit with
    | none => raiseBare .truncatedStream
    | some false => huffDecode l (used + 1)
    | some true => huffDecode r (used + 1)

/-- HUF.DEC (R254). -/
def execHufDec (s : State) : Host.Outcome State Fault Refusal :=
  runUnit .compute (fun _ => [])
    (do
      let sym ← withSource (onCoder (huffDecode (codebook s.cfg.toConfig s.tableIndex) 0))
      modify fun t => { t with res := .of (sym : Int) })
    s

end Sys2Proof.Machine
end

