-- ==== Sys2Proof/Machine/Rle.lean ====
section
/-! DEFINITION. The run-length and entropy coder of one block (46_rle_entropy.md). -/

namespace Sys2Proof.Machine

/-- ENT.ENC (R267). -/
def execEntEnc (s : State) : Host.Outcome State Fault Refusal :=
  runUnit .compute (fun s => s.a.unread 0)
    (do
      withSink (onCoder (putBits (entBits s.a.val)))
      modify fun t =>
        { t with res := .of (valOf t.blk.coder.bits), res2 := .of t.blk.coder.bits.length })
    s

/-- The n raw bits of a value field, or `TruncatedStream` (R268, R279). -/
def takeBits : Nat → Run Coder Bits
  | 0 => pure []
  | n + 1 => do
    match ← nextBit with
    | none => raiseBare .truncatedStream
    | some b => do
      let bs ← takeBits n
      pure (b :: bs)

/-- `EntDecode(n)` (R268). -/
def entDecode (n : Nat) : Run Coder Int := do
  let bs ← takeBits n
  pure (entValue bs)

/-- ENT.DEC (R268). -/
def execEntDec (s : State) : Host.Outcome State Fault Refusal :=
  runUnit .compute (fun s => s.n.unread 1)
    (do
      let v ← withSource (onCoder (entDecode s.n.val))
      modify fun t => { t with res := .of v })
    s

/-- The end-of-block symbol (0,0) and the sixteen-zeros symbol (15,0) (R271). -/
def symEob : Int := 0x00
def symZrl : Int := 0xF0

/-- The AC loop of `EncodeBlock` (R270) over the coefficients from the current position to 63: the all-zero test first, then the
zero count, then the pair. Past coefficient 63 nothing is written. -/
def encodeAc (ac : Trie) : List Int → Run Coder Unit
  | [] => pure ()
  | v :: rest =>
    if (v :: rest).all (fun x => x == 0) then putCode (lookupAc ac symEob) symEob
    else if v = 0 then do
      modify fun c => { c with zrun := c.zrun + 1 }
      if (← get).zrun = 16 then do
        putCode (lookupAc ac symZrl) symZrl
        modify fun c => { c with zrun := 0 }
        encodeAc ac rest
      else encodeAc ac rest
    else if 15 < bitLengthInt v then raise .corruptCodeword v
    else do
      let sym : Int := 16 * (← get).zrun + bitLengthInt v
      putCode (lookupAc ac sym) sym
      putBits (entBits v)
      modify fun c => { c with zrun := 0 }
      encodeAc ac rest

/-- `EncodeBlock(c)` (R269, R270) of the coefficients `SEQ[0]` and `SEQ[1..63]`. -/
def encodeBlock (dc ac : Trie) (first : Int) (rest : List Int) : Run Coder Unit := do
  putCode (lookupDc dc (bitLengthInt first)) (bitLengthInt first)
  putBits (entBits first)
  modify fun c => { c with zrun := 0 }
  encodeAc ac rest

/-- `EncodeBlock(c)` on the block unit's `SEQ`. -/
def BlockUnit.encodeSeq (cfg : Config) (chroma : Bool) : Run BlockUnit Unit := fun b =>
  onCoder (encodeBlock (dcTrie cfg chroma) (acTrie cfg chroma) b.seq[0].val
    ((blockVals b.seq).toList.drop 1)) b

/-- RLE.ENC (R272). -/
def execRleEnc (s : State) : Host.Outcome State Fault Refusal :=
  runUnit .compute (fun s => offUnless (allWritten s.blk.seq))
    (withSink (BlockUnit.encodeSeq s.cfg.toConfig s.chroma)) s

/-- `SEQ[i] <- v`; every caller has checked `i ≤ 63` (R278). -/
def setSeq (i : Nat) (v : Int) : Run BlockUnit Unit :=
  modify fun b => { b with seq := b.seq.setIfInBounds i (.of v) }

/-- `SEQ[i .. i+n−1] <- 0`. -/
def zeroSeq : Nat → Nat → Run BlockUnit Unit
  | _, 0 => pure ()
  | i, n + 1 => do
    setSeq i 0
    zeroSeq (i + 1) n

/-- The loop of `DecodeBlock` (R276, R278) from position i on; each turn advances i, so 63 units of fuel are enough.
A symbol above 255, which a configured table may hold, fails the run check at every position (R276; log 13). -/
def decodeAc (ac : Trie) : Nat → Nat → Run BlockUnit Unit
  | 0, _ => pure ()
  | fuel + 1, i =>
    if 63 < i then pure ()
    else do
      let rs ← onCoder (huffDecode ac 0)
      if rs % 16 = 0 then
        if rs / 16 = 0 then zeroSeq i (64 - i)
        else if rs / 16 = 15 then
          if 64 < i + 16 then raise .corruptCodeword rs
          else do
            zeroSeq i 16
            decodeAc ac fuel (i + 16)
        else raise .corruptCodeword rs
      else if 63 < i + rs / 16 ∨ 255 < rs then raise .corruptCodeword rs
      else do
        zeroSeq i (rs / 16)
        let v ← onCoder (entDecode (rs % 16))
        setSeq (i + rs / 16) v
        decodeAc ac fuel (i + rs / 16 + 1)

/-- `DecodeBlock(c)` (R276). -/
def decodeBlock (cfg : Config) (chroma : Bool) : Run BlockUnit Unit := do
  let k ← onCoder (huffDecode (dcTrie cfg chroma) 0)
  let v ← onCoder (entDecode k)
  setSeq 0 v
  decodeAc (acTrie cfg chroma) 63 1

/-- After an exception of RLE.DEC `SEQ` is unspecified (R277): its elements hold free values (log 5); which of them have been
written is as the pseudocode left it (60_exceptions.md R322 (4)). -/
def State.forgetSeq (s : State) : State :=
  { s with
    blk := { s.blk with seq := Vector.ofFn fun k : Fin 64 => ⟨freeSeq s.freeCtr k.1, s.blk.seq[k.1].written⟩ }
    freeCtr := s.freeCtr + 1 }

/-- The body of RLE.DEC. -/
def rleDecBody (cfg : Config) (chroma : Bool) : Run State Unit := fun s =>
  match withSource (decodeBlock cfg chroma) s with
  | .ok _ t => .ok () t
  | .error r t => .error r t.forgetSeq

/-- RLE.DEC (R277). -/
def execRleDec (s : State) : Host.Outcome State Fault Refusal :=
  runUnit .compute (fun _ => []) (rleDecBody s.cfg.toConfig s.chroma) s

end Sys2Proof.Machine
end

