-- ==== Sys2Proof/Machine/Image.lean ====
section
/-! DEFINITION. The colour transform, the block split and the image pass (47_image_pipeline.md). -/

namespace Sys2Proof.Machine

/-- The colour planes' numbers in order: R, G, B and Y, Cb, Cr (10_state.md R39). -/
def planes : List (Fin 3) := [0, 1, 2]

/-- The chrominance flag of a plane: 0 for Y, 1 for Cb and Cr (R292). -/
def planeChroma (p : Fin 3) : Bool := p != 0

/-- Y, Cb, Cr of a pixel (R286): the sums left to right, each decimal constant times its sample first (log 22). -/
def lumaOf (m : Numeric) (r g b : ExactNum) : ExactNum :=
  m.add (m.add (m.scale (299 / 1000) r) (m.scale (587 / 1000) g)) (m.scale (114 / 1000) b)
def cbOf (m : Numeric) (r g b : ExactNum) : ExactNum :=
  m.add (m.add (m.sub (m.scale (-(1687 / 10000)) r) (m.scale (3313 / 10000) g)) (m.scale (1 / 2) b)) (.ofInt 128)
def crOf (m : Numeric) (r g b : ExactNum) : ExactNum :=
  m.add (m.sub (m.sub (m.scale (1 / 2) r) (m.scale (4187 / 10000) g)) (m.scale (813 / 10000) b)) (.ofInt 128)

/-- R, G, B of a pixel before clamping (R287). -/
def redOf (m : Numeric) (y _cb cr : ExactNum) : ExactNum := m.add y (m.scale (1402 / 1000) (m.sub cr (.ofInt 128)))
def greenOf (m : Numeric) (y cb cr : ExactNum) : ExactNum :=
  m.sub (m.sub y (m.scale (34414 / 100000) (m.sub cb (.ofInt 128)))) (m.scale (71414 / 100000) (m.sub cr (.ofInt 128)))
def blueOf (m : Numeric) (y cb _cr : ExactNum) : ExactNum := m.add y (m.scale (1772 / 1000) (m.sub cb (.ofInt 128)))

/-- An element of a plane the command has checked to be written (R330); the 0 and `ofInt 0` below are never used. -/
def rgbAt (m : Sparse Byte) (c : Fin 3) (y x : Nat) : ExactNum := .ofInt ((m.read ⟨c, y, x⟩).getD 0).toNat
def yccAt (m : Sparse ExactNum) (c : Fin 3) (y x : Nat) : ExactNum := (m.read ⟨c, y, x⟩).getD (.ofInt 0)

/-- One pixel of CT.FWD (R286). -/
def ctFwdPixel (m : Numeric) (rgb : Sparse Byte) (y x : Nat) (ycc : Sparse ExactNum) : Sparse ExactNum :=
  let r := rgbAt rgb 0 y x
  let g := rgbAt rgb 1 y x
  let b := rgbAt rgb 2 y x
  ((ycc.write ⟨0, y, x⟩ (lumaOf m r g b)).write ⟨1, y, x⟩ (cbOf m r g b)).write ⟨2, y, x⟩ (crOf m r g b)

/-- One pixel of CT.INV (R287). -/
def ctInvPixel (m : Numeric) (ycc : Sparse ExactNum) (y x : Nat) (rgb : Sparse Byte) : Sparse Byte :=
  let l := yccAt ycc 0 y x
  let cb := yccAt ycc 1 y x
  let cr := yccAt ycc 2 y x
  ((rgb.write ⟨0, y, x⟩ (sampleByte (redOf m l cb cr))).write ⟨1, y, x⟩ (sampleByte (greenOf m l cb cr))).write ⟨2, y, x⟩
    (sampleByte (blueOf m l cb cr))

/-- `for y in 0..HEIGHT−1, x in 0..WIDTH−1`: n pixels from number i on, row by row. -/
def forPixels {α : Type} (f : Nat → Nat → α → α) (w : Nat) : Nat → Nat → α → α
  | 0, _, acc => acc
  | n + 1, i, acc => forPixels f w n (i + 1) (f (i / w) (i % w) acc)

/-- Body of CT.FWD (R286). -/
def State.ctFwd (s : State) : State :=
  { s with ycc := forPixels (ctFwdPixel s.cfg.numeric s.rgb) s.width.val (s.height.val * s.width.val) 0 s.ycc }

/-- Body of CT.INV (R287). -/
def State.ctInv (s : State) : State :=
  { s with rgb := forPixels (ctInvPixel s.cfg.numeric s.ycc) s.width.val (s.height.val * s.width.val) 0 s.rgb }

/-- `HEIGHT` and `WIDTH` of a command that reads a plane: written and not 0 (R286, R287, R330). -/
def sidesBad (s : State) : List Nat :=
  s.height.offends 8 (fun h => decide (h < 1)) ++ s.width.offends 9 (fun w => decide (w < 1))

/-- The operands of CT.FWD. -/
def ctFwdBad (s : State) : List Nat :=
  if (sidesBad s).isEmpty then offUnless (planesWritten s.rgb s.height.val s.width.val) else sidesBad s

/-- CT.FWD (R286). -/
def execCtFwd (s : State) : Host.Outcome State Fault Refusal :=
  runUnit .compute ctFwdBad (always State.ctFwd) s

/-- The operands of CT.INV. -/
def ctInvBad (s : State) : List Nat :=
  if (sidesBad s).isEmpty then offUnless (planesWritten s.ycc s.height.val s.width.val) else sidesBad s

/-- CT.INV (R287). -/
def execCtInv (s : State) : Host.Outcome State Fault Refusal :=
  runUnit .compute ctInvBad (always State.ctInv) s

/-! ### Tiles (R290 to R292) -/

/-- `ceil(n/8)`: the tiles along a side of n samples (R290). -/
def tilesAlong (n : Nat) : Nat := (n + 7) / 8

/-- `LoadTile(p, by, bx)` (R291): outside the image the last valid row and column are repeated (R290). -/
def State.loadTile (p : Fin 3) (ty tx : Nat) (s : State) : State :=
  { s with
    blk := { s.blk with
      blkf := Vector.ofFn fun k : Fin 64 =>
        Reg.of (yccAt s.ycc p (min (8 * ty + k.1 / 8) (s.height.val - 1)) (min (8 * tx + k.1 % 8) (s.width.val - 1))) } }

/-- One element of `StoreTile` (R291): only samples inside the image are kept. -/
def storeSample (h w : Nat) (p : Fin 3) (ty tx : Nat) (f : Vector (Reg ExactNum) 64) (m : Sparse ExactNum) (k : Fin 64) : Sparse ExactNum :=
  if 8 * ty + k.1 / 8 < h ∧ 8 * tx + k.1 % 8 < w then
    m.write ⟨p, 8 * ty + k.1 / 8, 8 * tx + k.1 % 8⟩ f[k.1].val
  else m

/-- `StoreTile(p, by, bx)` (R291). -/
def State.storeTile (p : Fin 3) (ty tx : Nat) (s : State) : State :=
  { s with ycc := (List.finRange 64).foldl (storeSample s.height.val s.width.val p ty tx s.blk.blkf) s.ycc }

/-- `EncodeTile(p, by, bx, c)` (R292). -/
def encodeTile (p : Fin 3) (ty tx : Nat) : Run State Unit := do
  modify (State.loadTile p ty tx)
  let s ← get
  onBlk (modify fun b =>
    ((b.dctFwd s.cfg.numeric).quant s.cfg.numeric s.cfg.round (s.qt (planeChroma p))).zzFwd s.cfg.zigzag)
  onBlk (BlockUnit.encodeSeq s.cfg.toConfig (planeChroma p))

/-- `DecodeTile(p, by, bx, c)` (R292). -/
def decodeTile (p : Fin 3) (ty tx : Nat) : Run State Unit := do
  let s ← get
  onBlk (decodeBlock s.cfg.toConfig (planeChroma p))
  onBlk (modify fun b => ((b.zzInv s.cfg.zigzag).dequant (s.qt (planeChroma p))).dctInv s.cfg.numeric)
  modify (State.storeTile p ty tx)

/-- The tiles of a plane in row-major order (R290): n of them from number i on, `across` in a row. -/
def forTiles (m : Nat → Nat → Run State Unit) (across : Nat) : Nat → Nat → Run State Unit
  | 0, _ => pure ()
  | n + 1, i => do
    m (i / across) (i % across)
    forTiles m across n (i + 1)

/-- Every tile of a plane of the image whose sides the registers hold. -/
def allTiles (m : Nat → Nat → Run State Unit) : Run State Unit := do
  let s ← get
  forTiles m (tilesAlong s.width.val) (tilesAlong s.height.val * tilesAlong s.width.val) 0

/-! ### The header line and the lines (R293 to R295) -/

/-- The header line without its line feed (R293). -/
def headerChars (h w q : Nat) : List Byte :=
  (binShort h).map bitChar ++ space :: (binShort w).map bitChar ++ space :: (binShort q).map bitChar

/-- `ParseHeader(line)` (R295). -/
def parseHeader (line : List Byte) : Option (Nat × Nat × Nat) :=
  match splitSpaces line with
  | [f0, f1, f2] =>
    match parseBin f0, parseBin f1, parseBin f2 with
    | some h, some w, some q => if h = 0 ∨ w = 0 ∨ 100 < q then none else some (h, w, q)
    | _, _, _ => none
  | _ => none

/-- The bytes before the first line feed, and what follows it where there is one (R294). -/
def splitLine : List Byte → List Byte × Option (List Byte)
  | [] => ([], none)
  | c :: cs => if c = lineFeed then ([], some cs) else (c :: (splitLine cs).1, (splitLine cs).2)

/-- `ReadLine()` (R294): the line feed is consumed; the end of `IN` ends a line too and sets `STATUS.EOS`. -/
def readLine : Run Io (List Byte) := fun io =>
  match splitLine io.inp.rest with
  | (line, some rest) => .ok line { io with inp := ⟨rest, io.inp.consumed + line.length + 1⟩ }
  | (line, none) => .ok line { io with inp := ⟨[], io.inp.consumed + line.length⟩, eos := true }

/-! ### The image commands (R296, R301) -/

/-- The operands of IMG.ENC (R296): `QUALITY`, `HEIGHT`, `WIDTH`, then the planes. -/
def imgEncBad (s : State) : List Nat := setqBad s ++ ctFwdBad s

/-- One plane of IMG.ENC (R296): its tiles into `BITS`, then the line. -/
def encodePlane (p : Fin 3) : Run State Unit := do
  setPhase .record
  onBlk (onCoder (set Coder.fresh))
  allTiles (encodeTile p)
  setPhase .flush
  let s ← get
  onIo (emitBytes (s.blk.coder.bits.map bitChar ++ [lineFeed]))

/-- `for p in (Y, Cb, Cr)`. -/
def forPlanes (m : Fin 3 → Run State Unit) : List (Fin 3) → Run State Unit
  | [] => pure ()
  | p :: ps => do
    m p
    forPlanes m ps

/-- IMG.ENC (R296). -/
def execImgEnc (s : State) : Host.Outcome State Fault Refusal :=
  runUnit .compute imgEncBad
    (do
      onIo (modify openOut)
      modify State.ctFwd
      modify State.setTables
      setPhase .header
      onIo (emitBytes (headerChars s.height.val s.width.val s.quality.val ++ [lineFeed]))
      forPlanes encodePlane planes)
    s

/-- One plane of IMG.DEC (R301): its line is the bit source, and nothing may be left on it (R303). -/
def decodePlane (p : Fin 3) : Run State Unit := do
  let line ← onIo readLine
  onBlk (onCoder (set { Coder.fresh with line := line }))
  allTiles (decodeTile p)
  let s ← get
  if s.blk.coder.line.isEmpty then pure () else raise .corruptCodeword s.blk.coder.pos

/-- IMG.DEC (R301). -/
def execImgDec (s : State) : Host.Outcome State Fault Refusal :=
  runUnit .header (fun _ => [])
    (do
      let line ← onIo readLine
      match parseHeader line with
      | none => raise .malformedHeader 0
      | some (h, w, q) => do
        modify fun t => { t with height := .of h, width := .of w, quality := .of q }
        setPhase .compute
        modify State.setTables
        setPhase .record
        forPlanes decodePlane planes
        setPhase .compute
        modify State.ctInv)
    s

end Sys2Proof.Machine
end

