-- ==== Sys2Proof/Machine/Lz78.lean ====
section
/-! DEFINITION. The LZ78 dictionary engine (41_lz78.md). -/

namespace Sys2Proof.Machine

/-- The engine at the start of an encode: empty dictionary, next code 1, empty phrase (10_state.md R42). -/
def Lz78Enc.fresh : Lz78Enc := ⟨[], 1, 0⟩

/-- The engine at the start of a decode. -/
def Lz78Dec.fresh : Lz78Dec := ⟨[], 1⟩

/-- The width of the code field of the record that assigns code `next` (R151). -/
def lz78Width (cfg : Config) (next : Nat) : Nat := bitLength (next + cfg.lz78WidthBias)

/-- One record: the code field, then the 16-bit literal (30_encoding.md R99). -/
def lz78Record (cfg : Config) (next code : Nat) (literal : Byte) : Run State Unit := do
  onIo (writeVal code (lz78Width cfg next))
  setPhase .literal
  onIo (writeVal literal.toNat 16)

/-- One input symbol (R152): extend the phrase while it is known; on a miss insert it and emit its record. -/
def lz78EncByte (cfg : Config) (c : Byte) (e : Lz78Enc) : Run State Lz78Enc :=
  match e.dict.lookup (e.cur, c) with
  | some k => pure { e with cur := k }
  | none =>
    if withinBound cfg.lz78MaxCode e.next then do
      lz78Record cfg e.next e.cur c
      pure ⟨((e.cur, c), e.next) :: e.dict, e.next + 1, 0⟩
    else raise .dictFull e.next

/-- The key of the dictionary whose value is a code (R153). -/
def keyOf (d : Dict) (code : Nat) : Option (Nat × Byte) :=
  (d.find? (fun entry => entry.2 == code)).map (fun entry => entry.1)

/-- The end-of-input record (R153): nothing is inserted. -/
def lz78Flush (cfg : Config) (e : Lz78Enc) : Run State Unit :=
  if e.cur = 0 then pure ()
  else match keyOf e.dict e.cur with
    | some (p, c) => lz78Record cfg e.next p c
    | none => pure ()

/-- LZ78.ENC (R152). -/
def execLz78Enc (s : State) : Host.Outcome State Fault Refusal :=
  runUnit .record (fun _ => [])
    (do
      onIo (modify openWriter)
      setEngine (.lz78Enc .fresh)
      let e ← forInput .lz78Enc (lz78EncByte s.cfg.toConfig) s.io.inp.rest .fresh
      setPhase .flush
      lz78Flush s.cfg.toConfig e
      setPhase .close
      onIo (modify (closeChannel s.embedded)))
    s

/-- The phrase of a record with code k and literal l: the literal, after the phrase of k where k is not 0 (R156). -/
def lz78Phrase (e : Lz78Dec) (k : Nat) (l : Byte) : Option (List Byte) :=
  if k = 0 then some [l]
  else if k < e.next then (e.table.lookup k).map (fun p => p ++ [l])
  else none

/-- The loop of LZ78.DEC (R156), for as many records as the fuel allows; there is never more than one a bit (R160). -/
def lz78DecLoop (cfg : Config) : Nat → Lz78Dec → Run State Unit
  | 0, _ => pure ()
  | fuel + 1, e => do
    setEngine (.lz78Dec e)
    setPhase .record
    match ← onIo (readBits (lz78Width cfg e.next)) with
    | none => pure ()
    | some k => do
      setPhase .literal
      match ← onIo (readBits 16) with
      | none => if k = 0 then pure () else raise .truncatedStream k
      | some l =>
        if 255 < l then raise .corruptCodeword l
        else match lz78Phrase e k (BitVec.ofNat 8 l) with
          | none => raise .corruptCodeword k
          | some p => do
            onIo (emitBytes p)
            if withinBound cfg.lz78MaxCode e.next then
              lz78DecLoop cfg fuel ⟨(e.next, p) :: e.table, e.next + 1⟩
            else raise .dictFull e.next

/-- LZ78.DEC (R156 to R158). -/
def execLz78Dec (s : State) : Host.Outcome State Fault Refusal :=
  runUnit .record (fun _ => [])
    (do
      modify openReaderFree
      onIo (modify openOut)
      lz78DecLoop s.cfg.toConfig (unreadBits s.io + 1) .fresh
      setPhase .close)
    s

end Sys2Proof.Machine
end

