-- ==== Sys2Proof/Machine/Lzss.lean ====
section
/-! DEFINITION. The LZSS sliding-window matcher and its decoder (43_lzss.md). -/

namespace Sys2Proof.Machine

/-- The engine at the start of an encode: empty window, no candidate (10_state.md R42). -/
def LzssEnc.fresh : LzssEnc := ⟨[], [], 0⟩

/-- `W`, `M`, `MIN` of an encode (R191). -/
structure LzssParams where
  w : Nat
  m : Nat
  min : Nat
  deriving DecidableEq, Repr

/-- `LZSS_LMAX(M) = 2^M − 1` (R192). -/
def lzssLmax (m : Nat) : Nat := 2 ^ m - 1

/-- `trim(X)`: the oldest symbols go while there are more than `2^W` (R194). -/
def lzssTrim (w : Nat) (x : List Byte) : List Byte := x.drop (x.length - 2 ^ w)

/-- `find(WIN, S)` from index t on: the first place where S lies wholly inside the window (R193). -/
def lzssFindFrom (s : List Byte) : Nat → List Byte → Option Nat
  | t, [] => if s.isEmpty then some t else none
  | t, b :: rest => if s.isPrefixOf (b :: rest) then some t else lzssFindFrom s (t + 1) rest

/-- `find(WIN, S)` (R193). -/
def lzssFind (win s : List Byte) : Option Nat := lzssFindFrom s 0 win

/-- `EmitLiteral(b)` (R194): the flag, the byte, and the window after it. -/
def lzssLiteral (p : LzssParams) (b : Byte) (win : List Byte) : Run State (List Byte) := do
  setPhase .literal
  onIo (writeBits [false])
  onIo (writeVal b.toNat 8)
  pure (lzssTrim p.w (win ++ [b]))

/-- `EmitMatch(t, S)` (R194). -/
def lzssMatch (p : LzssParams) (t : Nat) (s win : List Byte) : Run State (List Byte) := do
  onIo (writeBits [true])
  onIo (writeVal t p.w)
  onIo (writeVal s.length p.m)
  pure (lzssTrim p.w (win ++ s))

/-- The fallback of R195 (b): the pending symbols go out as literals from the front until the rest is found in the window or
nothing is pending. -/
def lzssFallback (p : LzssParams) : List Byte → List Byte → Run State LzssEnc
  | [], win => pure ⟨win, [], 0⟩
  | b :: rest, win => do
    let win' ← lzssLiteral p b win
    if rest.isEmpty then pure ⟨win', [], 0⟩
    else match lzssFind win' rest with
      | some t => pure ⟨win', rest, t⟩
      | none => lzssFallback p rest win'

/-- The extension test of `Process(c)` (R196): a longer match, if there is one below the maximum length. -/
def lzssExtend (p : LzssParams) (c : Byte) (e : LzssEnc) : Option LzssEnc :=
  if e.cand.length < lzssLmax p.m then
    (lzssFind e.win (e.cand ++ [c])).map (fun t => ⟨e.win, e.cand ++ [c], t⟩)
  else none

/-- `Process(c)` for a candidate shorter than `MIN` (R196, R195 (b)). -/
def lzssShort (p : LzssParams) (c : Byte) (e : LzssEnc) : Run State LzssEnc :=
  match lzssExtend p c e with
  | some e' => pure e'
  | none => lzssFallback p (e.cand ++ [c]) e.win

/-- `Process(c)` (R196): extend; else a long enough candidate is emitted and c starts the next one (R195 (a)), where no further
nesting is possible because `MIN ≥ 1` (R208); else the fallback. -/
def lzssProcess (p : LzssParams) (c : Byte) (e : LzssEnc) : Run State LzssEnc :=
  match lzssExtend p c e with
  | some e' => pure e'
  | none =>
    if p.min ≤ e.cand.length then do
      let win' ← lzssMatch p e.idx e.cand e.win
      lzssShort p c ⟨win', [], e.idx⟩
    else lzssFallback p (e.cand ++ [c]) e.win

/-- `for each b in CAND: EmitLiteral(b)`. -/
def lzssLiterals (p : LzssParams) : List Byte → List Byte → Run State (List Byte)
  | [], win => pure win
  | b :: rest, win => do
    let win' ← lzssLiteral p b win
    lzssLiterals p rest win'

/-- The end of the input (R195 (c)). -/
def lzssFlush (p : LzssParams) (e : LzssEnc) : Run State LzssEnc :=
  if p.min ≤ e.cand.length then do
    let win' ← lzssMatch p e.idx e.cand e.win
    pure ⟨win', [], 0⟩
  else do
    let win' ← lzssLiterals p e.cand e.win
    pure ⟨win', [], 0⟩

/-- The header (30_encoding.md R103, R206). -/
def lzssHeader (p : LzssParams) : Run Io Unit := do
  writeVal p.w 8
  writeVal p.m 8

/-- The parameters the registers hold. -/
def State.lzssParams (s : State) : LzssParams := ⟨s.windowBits.val, s.maxMatchBits.val, s.minMatchLen.val⟩

/-- The operands of LZSS.ENC (R191, R196). -/
def lzssEncBad (s : State) : List Nat :=
  s.windowBits.offends 5 (fun v => decide (255 < v)) ++ s.maxMatchBits.offends 6 (fun v => decide (255 < v))
    ++ s.minMatchLen.offends 7 (fun v => decide (v < 1))

/-- LZSS.ENC (R196). -/
def execLzssEnc (s : State) : Host.Outcome State Fault Refusal :=
  runUnit .header lzssEncBad
    (do
      onIo (modify openWriter)
      setEngine (.lzssEnc .fresh)
      onIo (lzssHeader s.lzssParams)
      let e ← forInput .lzssEnc (lzssProcess s.lzssParams) s.io.inp.rest .fresh
      setPhase .flush
      let e' ← lzssFlush s.lzssParams e
      setEngine (.lzssEnc e')
      setPhase .close
      onIo (modify (closeChannel s.embedded)))
    s

/-- `WIN[t .. t+l)`. -/
def lzssSlice (win : List Byte) (t l : Nat) : List Byte := (win.drop t).take l

/-- The loop of LZSS.DEC (R203), one record for each unit of fuel. -/
def lzssDecLoop (w m : Nat) : Nat → List Byte → Run State Unit
  | 0, _ => pure ()
  | fuel + 1, win => do
    setEngine (.lzssDec win)
    setPhase .record
    match ← onIo (readBits 1) with
    | none => pure ()
    | some 0 => do
      setPhase .literal
      match ← onIo (readBits 8) with
      | none => pure ()
      | some b => do
        onIo (emitBytes [BitVec.ofNat 8 b])
        lzssDecLoop w m fuel (lzssTrim w (win ++ [BitVec.ofNat 8 b]))
    | some (_ + 1) => do
      let t ← onIo (readBits w)
      let l ← onIo (readBits m)
      match t, l with
      | some t, some l =>
        if win.length < t + l then raise .corruptCodeword ((t * 2 ^ m + l : Nat) : Int)
        else do
          onIo (emitBytes (lzssSlice win t l))
          lzssDecLoop w m fuel (lzssTrim w (win ++ lzssSlice win t l))
      | _, _ => raiseBare .truncatedStream

/-- The two header bytes, read at the byte level before the reader exists (R203, R206). -/
def lzssReadHeader : Run Io (Byte × Byte) := do
  let h0 ← getByte
  let h1 ← getByte
  match h0, h1 with
  | some w, some m => pure (w, m)
  | _, _ => raiseBare .truncatedStream

/-- LZSS.DEC (R203 to R205). -/
def execLzssDec (s : State) : Host.Outcome State Fault Refusal :=
  runUnit .header (fun _ => [])
    (do
      onIo (modify openOut)
      let h ← onIo lzssReadHeader
      modify fun t => { t with windowBits := .of h.1.toNat, maxMatchBits := .of h.2.toNat }
      modify openReaderFree
      lzssDecLoop h.1.toNat h.2.toNat (unreadBits s.io + 1) []
      setPhase .close)
    s

end Sys2Proof.Machine
end

