-- ==== Sys2Proof/Machine/Lzw.lean ====
section
/-! DEFINITION. The LZW dictionary engine and its code-width logic (42_lzw.md). The 256 one-byte phrases are the codes below 256
(R171); the dictionaries hold the longer ones. -/

namespace Sys2Proof.Machine

/-- The engine at the start of an encode (R171). -/
def LzwEnc.fresh : LzwEnc := ⟨[], 257, 9, none⟩

/-- The engine at the start of a decode. -/
def LzwDec.fresh : LzwDec := ⟨[], 257, none⟩

/-- The end marker (30_encoding.md R117). -/
def lzwEndCode : Nat := 256

/-- Width growth (R173): one bit more when the largest code assigned exceeds `2^WIDTH − 1`. -/
def lzwGrow (largest width : Nat) : Nat := if 2 ^ width - 1 < largest then width + 1 else width

/-- One input symbol (R172). -/
def lzwEncByte (cfg : Config) (c : Byte) (e : LzwEnc) : Run State LzwEnc :=
  match e.cur with
  | none => pure { e with cur := some c.toNat }
  | some cur =>
    match e.dict.lookup (cur, c) with
    | some k => pure { e with cur := some k }
    | none => do
      onIo (writeVal cur e.width)
      if withinBound cfg.lzwMaxCode e.next then
        pure ⟨((cur, c), e.next) :: e.dict, e.next + 1, lzwGrow e.next e.width, some c.toNat⟩
      else raise .dictFull e.next

/-- The width of the end marker: that of the final code, or with `LZW_MARKER_ALIGN` one insertion further (R172, R176). -/
def lzwMarkerWidth (cfg : Config) (e : LzwEnc) : Nat :=
  if cfg.lzwMarkerAlign && e.cur.isSome then lzwGrow e.next e.width else e.width

/-- The final code and the end marker (R172). -/
def lzwFlush (cfg : Config) (e : LzwEnc) : Run Io Unit := do
  match e.cur with
  | none => pure ()
  | some cur => writeVal cur e.width
  writeVal lzwEndCode (lzwMarkerWidth cfg e)

/-- LZW.ENC (R172). -/
def execLzwEnc (s : State) : Host.Outcome State Fault Refusal :=
  runUnit .record (fun _ => [])
    (do
      onIo (modify openWriter)
      setEngine (.lzwEnc .fresh)
      let e ← forInput .lzwEnc (lzwEncByte s.cfg.toConfig) s.io.inp.rest .fresh
      setPhase .flush
      onIo (lzwFlush s.cfg.toConfig e)
      setPhase .close
      onIo (modify (closeChannel s.embedded)))
    s

/-- The phrase of a stored code: a seed, or an entry of the table; 256 is the code of no phrase (R171). -/
def lzwStored (e : LzwDec) (k : Nat) : Option (List Byte) :=
  if k < 256 then some [BitVec.ofNat 8 k] else e.table.lookup k

/-- The phrase of a code read after the phrase `prev` (R177): a stored one, or the deferred entry, the previous phrase and its own
first symbol (R175); no other code has one (R180). -/
def lzwPhrase (e : LzwDec) (prev : List Byte) (k : Nat) : Option (List Byte) :=
  if k < 256 ∨ (257 ≤ k ∧ k < e.next) then lzwStored e k
  else if k = e.next then some (prev ++ prev.take 1)
  else none

/-- The loop of LZW.DEC (R177), one code for each unit of fuel; the width read is `bitLength(NEXT)` (R178). -/
def lzwDecLoop (cfg : Config) : Nat → LzwDec → Run State Unit
  | 0, _ => pure ()
  | fuel + 1, e => do
    setEngine (.lzwDec e)
    match ← onIo (readBits (bitLength e.next)) with
    | none => raise .truncatedStream e.next
    | some k =>
      if k = lzwEndCode then pure ()
      else match e.prev with
        | none =>
          if 255 < k then raise .corruptCodeword k
          else do
            onIo (emitBytes [BitVec.ofNat 8 k])
            lzwDecLoop cfg fuel { e with prev := some [BitVec.ofNat 8 k] }
        | some prev =>
          match lzwPhrase e prev k with
          | none => raise .corruptCodeword k
          | some p =>
            if withinBound cfg.lzwMaxCode e.next then do
              onIo (emitBytes p)
              lzwDecLoop cfg fuel ⟨(e.next, prev ++ p.take 1) :: e.table, e.next + 1, some p⟩
            else raise .dictFull e.next

/-- LZW.DEC (R177 to R181). -/
def execLzwDec (s : State) : Host.Outcome State Fault Refusal :=
  runUnit .record (fun _ => [])
    (do
      modify openReaderFree
      onIo (modify openOut)
      lzwDecLoop s.cfg.toConfig (unreadBits s.io + 1) .fresh
      setPhase .close)
    s

end Sys2Proof.Machine
end

