-- ==== Sys2Proof/Machine/Dispatch.lean ====
section
/-! DEFINITION. The meaning of every command (30_encoding.md R94): one arm for each constructor of `Instr`. -/

namespace Sys2Proof.Machine

/-- Run one command to its end. -/
def exec (i : Instr) (s : State) : Host.Outcome State Fault Refusal :=
  match i with
  | .bcOpenw => Sys2Proof.Machine.execBcOpenw s
  | .bcOpenr => Sys2Proof.Machine.execBcOpenr s
  | .bcWrbits => Sys2Proof.Machine.execBcWrbits s
  | .bcWrval => Sys2Proof.Machine.execBcWrval s
  | .bcRdbits => Sys2Proof.Machine.execBcRdbits s
  | .bcClose => Sys2Proof.Machine.execBcClose s
  | .lz78Enc => Sys2Proof.Machine.execLz78Enc s
  | .lz78Dec => Sys2Proof.Machine.execLz78Dec s
  | .lzwEnc => Sys2Proof.Machine.execLzwEnc s
  | .lzwDec => Sys2Proof.Machine.execLzwDec s
  | .lzssEnc => Sys2Proof.Machine.execLzssEnc s
  | .lzssDec => Sys2Proof.Machine.execLzssDec s
  | .dctFwd => Sys2Proof.Machine.execDctFwd s
  | .dctInv => Sys2Proof.Machine.execDctInv s
  | .qSetq => Sys2Proof.Machine.execQSetq s
  | .qQuant => Sys2Proof.Machine.execQQuant s
  | .qDequant => Sys2Proof.Machine.execQDequant s
  | .zzFwd => Sys2Proof.Machine.execZzFwd s
  | .zzInv => Sys2Proof.Machine.execZzInv s
  | .hufEnc => Sys2Proof.Machine.execHufEnc s
  | .hufDec => Sys2Proof.Machine.execHufDec s
  | .entEnc => Sys2Proof.Machine.execEntEnc s
  | .entDec => Sys2Proof.Machine.execEntDec s
  | .rleEnc => Sys2Proof.Machine.execRleEnc s
  | .rleDec => Sys2Proof.Machine.execRleDec s
  | .ctFwd => Sys2Proof.Machine.execCtFwd s
  | .ctInv => Sys2Proof.Machine.execCtInv s
  | .imgEnc => Sys2Proof.Machine.execImgEnc s
  | .imgDec => Sys2Proof.Machine.execImgDec s

end Sys2Proof.Machine
end

