-- ==== Sys2Proof/Machine/Ports.lean ====
section
/-! DEFINITION. What the host does at the ports (10_state.md R22, 20_memory.md R61 to R63), and the instruction bytes placed where the
next command is taken from (30_encoding.md R90). -/

namespace Sys2Proof.Machine

/-- Power-on reset (10_state.md R42, 70_reset_and_hazards.md R352, R353): the configuration is not reset, the streams are the host's and
keep their bytes, a partial byte is not flushed. -/
def State.powerOn (s : State) : State :=
  { State.reset with
    cfg := s.cfg
    freeCtr := s.freeCtr
    host := s.host
    io := { State.reset.io with inp := s.io.inp, out := ⟨s.io.out.bytes, .idle⟩ } }

/-- A byte that is no command raises `IllegalCommand` with the byte; nothing but `STATUS` and `ERRINFO` changes (30_encoding.md R95). -/
def State.illegalCommand (b : Byte) (s : State) : State := s.raised ⟨.illegalCommand, some b.toNat⟩

/-- A host action other than a command or a reset, while no command runs (R22, R61 to R63). A
value for `BLKF` or `YCC` is of kind `NUMERIC` (R36, R39; log 22). -/
def State.hostWrite (act : HostAct) (s : State) : State :=
  match act with
  | .cmd _ => s
  | .setA v => { s with a := .of v }
  | .setN v => { s with n := .of v }
  | .setRes v => { s with res := .of v }
  | .setRes2 v => { s with res2 := .of v }
  | .setQuality v => { s with quality := .of v }
  | .setWindowBits v => { s with windowBits := .of v }
  | .setMaxMatchBits v => { s with maxMatchBits := .of v }
  | .setMinMatchLen v => { s with minMatchLen := .of v }
  | .setHeight v => { s with height := .of v }
  | .setWidth v => { s with width := .of v }
  | .setSel v => { s with sel := .of v }
  | .setMode v => { s with mode := .of v }
  | .writeBlkf k v => { s with blk := { s.blk with blkf := s.blk.blkf.set k.1 (.of (s.cfg.numeric.fit v)) k.2 } }
  | .writeBlki k v => { s with blk := { s.blk with blki := s.blk.blki.set k.1 (.of v) k.2 } }
  | .writeSeq k v => { s with blk := { s.blk with seq := s.blk.seq.set k.1 (.of v) k.2 } }
  | .writeRgb k v => { s with rgb := s.rgb.write k v }
  | .writeYcc k v => { s with ycc := s.ycc.write k (s.cfg.numeric.fit v) }
  | .attachIn bytes => { s with io := { s.io with inp := ⟨bytes, 0⟩ } }
  | .attachOut => { s with io := { s.io with out := ⟨[], if s.io.wtr.isOpen then .writing else .idle⟩ } }
  | .powerOnReset => s.powerOn

/-- The host's next actions with the bytes of an instruction written to `CMD` first (R90: one byte). -/
def fetchQueue (bytes : List Byte) (host : List HostAct) : List HostAct := bytes.map HostAct.cmd ++ host

/-- `CMD` takes a command only when none runs (60_exceptions.md R329). -/
def RunState.ready (r : RunState) : RunState := if r = .busy then .idle else r

/-- The command byte is decoded and its command run; a byte that is none raises `IllegalCommand` (R95, R325). -/
def State.command (b : Byte) (s : State) : Host.Outcome State Fault Refusal :=
  match decode b with
  | .ok i => exec i s
  | .error _ => .next (s.illegalCommand b)

/-- One host action. While `BUSY` a command is dropped (R329), a reset abandons the command (R353), and anything else is
forbidden (R80 (c)). -/
def State.act (act : HostAct) (s : State) : Host.Outcome State Fault Refusal :=
  match act with
  | .cmd b => if s.run = .busy then .next s else s.command b
  | .powerOnReset => .next s.powerOn
  | other => if s.run = .busy then .fault .hostAccessWhileBusy else .next (s.hostWrite other)

/-- The host's next action is taken from the head of its queue; with none the sequencer is idle and does nothing (R351). -/
def State.hostStep (s : State) : Host.Outcome State Fault Refusal :=
  match s.host with
  | [] => .next s
  | act :: rest => ({ s with host := rest } : State).act act

end Sys2Proof.Machine
end

