-- ==== Sys2Proof/Machine/Step.lean ====
section
/-! DEFINITION. One step: the host's next action at the ports (10_state.md R25). -/

namespace Sys2Proof.Machine

/-- One step: the host's next action; with none the sequencer is idle and does nothing (70_reset_and_hazards.md R351). -/
def step (s : State) : Host.Outcome State Fault Refusal := s.hostStep

/-- The state in which the host's next action writes this instruction to `CMD`, and `CMD` takes it. -/
def State.withFetchWord (s : State) (nbits w : Nat) : State :=
  { s with run := s.run.ready, host := fetchQueue (tableBytes nbits w) s.host }

end Sys2Proof.Machine
end

