-- ==== Sys2Proof/Safety.lean ====
section
/-! DEFINITION. What counts as a sound state and a safe step, and the words the statements are said in. -/

namespace Sys2Proof.Machine

/-- No command runs, and nothing of one is left (10_state.md R25, R41): `STATE` is not `BUSY`, `PHASE` is `NONE`, no engine and no
coder state exists. -/
def State.Quiet (s : State) : Prop := s.run ≠ .busy ∧ s.phase = .none ∧ s.eng = .none ∧ s.blk.coder = .fresh

/-- `ERRCODE` names an exception exactly when `STATE` is `ERROR` (R23). -/
def State.StatusSound (s : State) : Prop := s.run = .error ↔ s.err.isSome

/-- The writer's part of 40_bitchannel.md R138: `0 ≤ WCNT ≤ 7`, and the bits of `WBYTE` not yet written are 0. -/
def Writer.Sound (w : Writer) : Prop :=
  w.cnt ≤ 7 ∧ (∀ k, k < 8 - w.cnt → w.byte.getLsbD k = false) ∧ (w.isOpen = false → w = .closed)

/-- The reader (10_state.md R27): `0 ≤ RCNT ≤ 8`; a closed reader holds nothing. -/
def Reader.Sound (r : Reader) : Prop := r.cnt ≤ 8 ∧ (r.isOpen = false → r = .closed)

/-- The quantisation tables (R37): with `QVALID` set every entry is at least 1. -/
def State.TablesSound (s : State) : Prop :=
  s.qvalid = true → ∀ k : Fin 64, 1 ≤ s.qtLuma[k.1] ∧ 1 ≤ s.qtChroma[k.1]

/-- The plane memories are in canonical form. -/
def State.PlanesSound (s : State) : Prop := s.rgb.wf = true ∧ s.ycc.wf = true

/-- `SEL` and `MODE` hold a value from reset on (R42). -/
def State.SelectsWritten (s : State) : Prop := s.sel.written = true ∧ s.mode.written = true

/-- The invariant of the machine between steps. -/
structure State.Inv (s : State) : Prop where
  quiet : s.Quiet
  status : s.StatusSound
  writer : s.io.wtr.Sound
  reader : s.io.rdr.Sound
  tables : s.TablesSound
  planes : s.PlanesSound
  selects : s.SelectsWritten

/-- A step from this state does not end in a fault. -/
def State.SafeStep (s : State) : Prop := ∀ f, step s ≠ .fault f

/-! ### The real number that a number of the image path stands for (00_scope.md R14) -/

/-- `a + b·√2` as a real number. -/
noncomputable def Quad.real (x : Quad) : ℝ := (x.a : ℝ) + (x.b : ℝ) * √2

/-- `a + b·√(2+√2)` as a real number. -/
noncomputable def Quartic.real (x : Quartic) : ℝ := x.a.real + x.b.real * √(2 + √2)

/-- `a + b·√(2+√(2+√2))` as a real number. -/
noncomputable def ExactNum.real (x : ExactNum) : ℝ := x.a.real + x.b.real * √(2 + √(2 + √2))

end Sys2Proof.Machine

namespace Sys2Proof.Claims

open Sys2Proof.Machine

/-! ### What a command leaves alone -/

/-- t is s after a command of a unit other than BitChannel that completed with the streams `io`: `STATUS` says `DONE`, no engine
and no coder state is left, and everything else is as in s. `ERRINFO` is unspecified (10_state.md R24), so it is t's own. -/
def Completed (s : State) (io : Io) (t : State) : Prop :=
  t = { s with
    run := .done, err := none, errinfo := t.errinfo, freeCtr := t.freeCtr, phase := .none
    eng := .none, blk := { s.blk with coder := .fresh }, io := io }

/-- The same for a BitChannel command. -/
def ChannelDone (s : State) (io : Io) (t : State) : Prop :=
  t = { s with
    run := .done, err := none, errinfo := t.errinfo, freeCtr := t.freeCtr, phase := .none, io := io }

/-- t is s after a command of a unit other than BitChannel that raised e with the information `info`. -/
def Raised (s : State) (io : Io) (e : Exc) (info : Int) (t : State) : Prop :=
  t = { s with
    run := .error, err := some e, errinfo := info, freeCtr := t.freeCtr, phase := .none
    eng := .none, blk := { s.blk with coder := .fresh }, io := io }

/-- The streams after a command that leaves `OUT`'s bytes alone: the input as given, a host-opened channel ended. -/
def readOnly (s : State) (inp : InStream) (eos : Bool) : Io :=
  ⟨inp, s.io.out.ended s.embedded, .closed, .closed, eos⟩

/-- The streams after a command that appended `bs` to its `OUT` and ended it as `MODE.EMBEDDED` says (20_memory.md R62). -/
def wrote (s : State) (bs : List Byte) (inp : InStream) (eos : Bool) : Io :=
  ⟨inp, ⟨s.io.out.opened.bytes ++ bs, if s.embedded then .flushed else .closed⟩, .closed, .closed, eos⟩

/-- `IN` with all its bytes consumed. -/
def allRead (s : State) : InStream := ⟨[], s.io.inp.consumed + s.io.inp.rest.length⟩

/-- `IN` with `rest` left of it. -/
def leaving (s : State) (rest : List Byte) : InStream :=
  ⟨rest, s.io.inp.consumed + (s.io.inp.rest.length - rest.length)⟩

/-! ### Streams as bits (00_scope.md R15, 20_memory.md R66) -/

/-- The bits of a byte in stream order, bit 7 first. -/
def byteBits (b : Byte) : Bits := binN 8 b.toNat

/-- The bits of a stream. -/
def streamBits (bs : List Byte) : Bits := bs.flatMap byteBits

/-- How many padding bits `CLOSE` adds (R17, 40_bitchannel.md R139). -/
def padLength (bits : Bits) : Nat := (8 - bits.length % 8) % 8

/-- The bits that have reached the sink as whole bytes; the others wait in `WBYTE` (R43). -/
def wholeBytes (bits : Bits) : Bits := bits.take (8 * (bits.length / 8))

/-- Bits with their padding. -/
def padded (bits : Bits) : Bits := bits ++ List.replicate (padLength bits) false

/-- Everything written so far: the bytes on `OUT`, then the bits waiting in `WBYTE` (10_state.md R43). -/
def writtenBits (io : Io) : Bits := streamBits io.out.bytes ++ (byteBits io.wtr.byte).take io.wtr.cnt

/-- Everything a reader can still deliver: the rest of `RBYTE`, then the bytes of `IN` (R43). -/
def pendingBits (io : Io) : Bits := (byteBits io.rdr.byte).drop io.rdr.cnt ++ streamBits io.inp.rest

/-- Successive reads of the given widths. -/
def readAll : List Nat → Io → List (Option Nat) × Io
  | [], io => ([], io)
  | n :: ns, io => ((rdBits n io).1 :: (readAll ns (rdBits n io).2).1, (readAll ns (rdBits n io).2).2)

/-- A bit-string as characters (20_memory.md R69). -/
def chars (bits : Bits) : List Byte := bits.map bitChar

/-! ### LZ78 streams (30_encoding.md R99, R100; 41_lz78.md R150) -/

/-- The records from number n on, each a code and a literal. -/
def lz78Bits (bias : Nat) : Nat → List (Nat × Byte) → Bits
  | _, [] => []
  | n, (k, c) :: rs => binN (bitLength (n + bias)) k ++ binN 16 c.toNat ++ lz78Bits bias (n + 1) rs

/-- The phrases the records spell, given those of the records before; `none` where a code names no phrase yet. -/
def lz78Spell : List (List Byte) → List (Nat × Byte) → Option (List (List Byte))
  | _, [] => some []
  | phrases, (k, c) :: rs =>
    match ([] :: phrases)[k]? with
    | none => none
    | some p => (lz78Spell (phrases ++ [p ++ [c]]) rs).map (fun ps => (p ++ [c]) :: ps)

/-- The code of a phrase: 0 for the empty one, else its place in the dictionary counted from 1. -/
def lz78Code (dict : List (List Byte)) (p : List Byte) : Nat := if p = [] then 0 else dict.idxOf p + 1

/-- The records of an input, by the source's words (R150): extend the working phrase w while it is known; on a miss insert the
phrase and emit the code of its prefix and its last symbol; at the end emit a pending phrase the same way. -/
def lz78Parse : List (List Byte) → List Byte → List Byte → List (Nat × Byte)
  | dict, w, [] =>
    match w.getLast? with
    | none => []
    | some c => [(lz78Code dict w.dropLast, c)]
  | dict, w, c :: cs =>
    if w ++ [c] ∈ dict then lz78Parse dict (w ++ [c]) cs
    else (lz78Code dict w, c) :: lz78Parse (dict ++ [w ++ [c]]) [] cs

/-- How many phrases an input makes LZ78.ENC insert: one for each miss (R150). -/
def lz78Inserts : List (List Byte) → List Byte → List Byte → Nat
  | _, _, [] => 0
  | dict, w, c :: cs =>
    if w ++ [c] ∈ dict then lz78Inserts dict (w ++ [c]) cs else lz78Inserts (dict ++ [w ++ [c]]) [] cs + 1

/-- What may follow the last record of a stream that ends normally (R157): fewer bits than the next code field has, or that field
with the value 0 and a literal cut short. -/
def Lz78End (width : Nat) (tail : Bits) : Prop :=
  tail.length < width ∨ ∃ more : Bits, tail = List.replicate width false ++ more ∧ more.length < 16

/-! ### LZW streams (30_encoding.md R101, R102; 42_lzw.md R170, R174, R178) -/

/-- The data codes from number i on, each in `bitLength(255 + i)` bits. -/
def lzwBits : Nat → List Nat → Bits
  | _, [] => []
  | i, k :: ks => binN (bitLength (255 + i)) k ++ lzwBits (i + 1) ks

/-- The width of the marker the encoder writes after m codes (R174, R176). -/
def lzwMarkerBits (align : Bool) (m : Nat) : Nat :=
  if m = 0 then 9 else if align then bitLength (256 + m) else bitLength (255 + m)

/-- The code of a phrase: a byte's own value, or 257 and its place among the longer phrases. -/
def lzwCode (dict : List (List Byte)) (p : List Byte) : Nat :=
  match p with
  | [b] => b.toNat
  | p => 257 + dict.idxOf p

/-- The data codes of an input, by the source's words (R170). -/
def lzwParse : List (List Byte) → List Byte → List Byte → List Nat
  | dict, w, [] => if w = [] then [] else [lzwCode dict w]
  | dict, w, c :: cs =>
    if w = [] ∨ w ++ [c] ∈ dict then lzwParse dict (w ++ [c]) cs
    else lzwCode dict w :: lzwParse (dict ++ [w ++ [c]]) [c] cs

/-- The phrase a code stands for after the phrase `prev` (R175, R177): a byte, an entry, or the deferred entry. -/
def lzwMeaning (dict : List (List Byte)) (prev : List Byte) (k : Nat) : Option (List Byte) :=
  if k < 256 then some [BitVec.ofNat 8 k]
  else if k = 257 + dict.length then some (prev ++ prev.take 1)
  else if k = 256 then none
  else dict[k - 257]?

/-- The phrases of the codes that follow the phrase `prev`. -/
def lzwSpellRest : List (List Byte) → List Byte → List Nat → Option (List (List Byte))
  | _, _, [] => some []
  | dict, prev, k :: ks =>
    match lzwMeaning dict prev k with
    | none => none
    | some p => (lzwSpellRest (dict ++ [prev ++ p.take 1]) p ks).map (fun ps => p :: ps)

/-- The phrases of a sequence of data codes; the first must be a byte (R180). -/
def lzwSpell : List Nat → Option (List (List Byte))
  | [] => some []
  | k :: ks =>
    if k < 256 then (lzwSpellRest [] [BitVec.ofNat 8 k] ks).map (fun ps => [BitVec.ofNat 8 k] :: ps) else none

/-- The decoder's `NEXT` after m data codes (R177). -/
def lzwNext (m : Nat) : Nat := max 257 (256 + m)

/-- The first insertion that a dictionary with the greatest code `max` has no room for: the i-th insertion assigns `256 + i`
(R172, R174). -/
def lzwOverflow (max : Nat) : Nat := Nat.max 1 (max - 255)

/-- A dictionary with these bounds holds what a sequence of codes inserts: one phrase fewer than there are codes. -/
def LzwRoom (bound : Option Nat) (codes : List Nat) : Prop := ∀ max ∈ bound, codes.length ≤ 1 ∨ 255 + codes.length ≤ max

/-- The inputs that do not round-trip with the default marker (R176): `256 + m = 2^k` for some `k ≥ 9`. -/
def lzwCorner (m : Nat) : Prop := ∃ k, 9 ≤ k ∧ 256 + m = 2 ^ k

/-! ### LZSS streams (30_encoding.md R104 to R106) -/

/-- A record. -/
inductive LzssRecord where
  | literal (b : Byte)
  | copy (offset length : Nat)
  deriving DecidableEq, Repr

/-- The bits of records. -/
def lzssBits (w m : Nat) : List LzssRecord → Bits
  | [] => []
  | .literal b :: rs => false :: binN 8 b.toNat ++ lzssBits w m rs
  | .copy t l :: rs => true :: binN w t ++ binN m l ++ lzssBits w m rs

/-- The last `2^w` symbols. -/
def lastSymbols (w : Nat) (x : List Byte) : List Byte := x.drop (x.length - 2 ^ w)

/-- The oldest place of a sequence inside the window (43_lzss.md R193). -/
def oldest (win x : List Byte) : Option Nat :=
  (List.range (win.length + 1 - x.length)).find? (fun t => decide ((win.drop t).take x.length = x))

/-- The pending symbols go out as literals from the front until the rest of them lies inside the window or none is left (R195 (b)):
the literals, the symbols sent by then, the rest. -/
def lzssDrain (w : Nat) : List Byte → List Byte → List LzssRecord × List Byte × List Byte
  | done, [] => ([], done, [])
  | done, b :: rest =>
    if rest = [] ∨ (oldest (lastSymbols w (done ++ [b])) rest).isSome then ([.literal b], done ++ [b], rest)
    else (.literal b :: (lzssDrain w (done ++ [b]) rest).1, (lzssDrain w (done ++ [b]) rest).2)

/-- The match record of a candidate (R194). -/
def lzssCopy (w : Nat) (done cand : List Byte) : LzssRecord := .copy ((oldest (lastSymbols w done) cand).getD 0) cand.length

/-- The records of an input by the choices of R195 and R196, given the symbols sent so far and the candidate: extend below the maximum
length `2^M − 1` while the window holds the longer sequence; otherwise a candidate of at least `MIN` symbols is a match and
the new symbol starts the next candidate, and a shorter one drains with the new symbol; at the end a candidate is a match or literals. -/
def lzssParse (w m min : Nat) : List Byte → List Byte → List Byte → List LzssRecord
  | done, cand, [] => if min ≤ cand.length then [lzssCopy w done cand] else cand.map .literal
  | done, cand, c :: cs =>
    if cand.length < 2 ^ m - 1 ∧ (oldest (lastSymbols w done) (cand ++ [c])).isSome then lzssParse w m min done (cand ++ [c]) cs
    else if min ≤ cand.length then
      lzssCopy w done cand ::
        if 1 < 2 ^ m ∧ (oldest (lastSymbols w (done ++ cand)) [c]).isSome then lzssParse w m min (done ++ cand) [c] cs
        else .literal c :: lzssParse w m min (done ++ cand ++ [c]) [] cs
    else
      let d := lzssDrain w done (cand ++ [c])
      d.1 ++ lzssParse w m min d.2.1 d.2.2 cs

/-- What may follow the last record of a stream that ends normally (R204): nothing, or a literal record cut short. -/
def LzssEnd (tail : Bits) : Prop := tail = [] ∨ ∃ more : Bits, tail = false :: more ∧ more.length < 8

/-- What records spell after the symbols `done` (43_lzss.md R199): a copy must lie inside the window and fit its fields. -/
def lzssSpell (w m : Nat) : List Byte → List LzssRecord → Option (List Byte)
  | _, [] => some []
  | done, .literal b :: rs => (lzssSpell w m (done ++ [b]) rs).map (fun x => b :: x)
  | done, .copy t l :: rs =>
    if t + l ≤ (lastSymbols w done).length ∧ t < 2 ^ w ∧ l < 2 ^ m then
      (lzssSpell w m (done ++ ((lastSymbols w done).drop t).take l) rs).map
        (fun x => ((lastSymbols w done).drop t).take l ++ x)
    else none

/-- The two header bytes (R103). -/
def lzssHeaderBytes (s : State) : List Byte :=
  [BitVec.ofNat 8 s.windowBits.val, BitVec.ofNat 8 s.maxMatchBits.val]

/-- The operands of LZSS.ENC that 43_lzss.md R191 accepts. -/
def LzssReady (s : State) : Prop :=
  s.windowBits.written = true ∧ s.windowBits.val ≤ 255 ∧ s.maxMatchBits.written = true ∧ s.maxMatchBits.val ≤ 255
    ∧ s.minMatchLen.written = true ∧ 1 ≤ s.minMatchLen.val

/-! ### Codebooks (10_state.md R38) -/

/-- The leaves of a trie, left to right: symbol and codeword. -/
def leaves : Trie → List (Nat × Bits)
  | .empty => []
  | .leaf sym code => [(sym, code)]
  | .node l r _ => leaves l ++ leaves r

/-- The categories increase from left to right (45_huffman.md R256). -/
def Increasing (t : Trie) : Prop := ((leaves t).map Prod.fst).Pairwise (· < ·)

/-- The codebooks of a plane hold every symbol that coefficients of at most 11 (DC) and 10 (AC) bits need; the default tables
do (46_rle_entropy.md R272, 95_test_vectors.md V47.10). -/
def CodesSymbols (cfg : Config) (chroma : Bool) : Prop :=
  (∀ k : Fin 12, (lookupDc (dcTrie cfg chroma) k.1).isSome = true)
    ∧ (lookupAc (acTrie cfg chroma) 0x00).isSome = true ∧ (lookupAc (acTrie cfg chroma) 0xF0).isSome = true
    ∧ ∀ (r : Fin 16) (n : Fin 10), (lookupAc (acTrie cfg chroma) (16 * r.1 + (n.1 + 1) : Nat)).isSome = true

/-- Coefficients of those sizes. -/
def SizesFit (seq : Vector (Reg Int) 64) : Prop :=
  bitLengthInt seq[0].val ≤ 11 ∧ ∀ k : Fin 64, k ≠ 0 → bitLengthInt seq[k.1].val ≤ 10

/-! ### Block codes (46_rle_entropy.md R266, R269 to R271) -/

/-- One symbol of a block code: its codeword where the codebook holds one, the value whose bits follow it, and the number that
`CorruptCodeword` names where it does not. -/
structure BlockItem where
  code : Option Bits
  value : Int
  blame : Int

/-- The pair (run, size) of a coefficient; no symbol has a size above 15. -/
def acItem (ac : Trie) (run : Nat) (v : Int) : BlockItem :=
  if 15 < bitLengthInt v then ⟨none, v, v⟩
  else ⟨lookupAc ac (16 * run + bitLengthInt v : Nat), v, (16 * run + bitLengthInt v : Nat)⟩

/-- The symbols of coefficients that follow `gap` zeros: a (15,0) for each sixteen zeros before a coefficient that is not 0, its pair,
and one (0,0) for the zeros after the last. -/
def acItems (ac : Trie) : Nat → List Int → List BlockItem
  | gap, [] => if gap = 0 then [] else [⟨lookupAc ac 0x00, 0, 0x00⟩]
  | gap, v :: vs =>
    if v = 0 then acItems ac (gap + 1) vs
    else List.replicate (gap / 16) ⟨lookupAc ac 0xF0, 0, 0xF0⟩ ++ acItem ac (gap % 16) v :: acItems ac 0 vs

/-- The symbols of a block: the category of coefficient 0, then the AC symbols. -/
def blockItems (dc ac : Trie) (seq : List Int) : List BlockItem :=
  match seq with
  | [] => []
  | first :: rest => ⟨lookupDc dc (bitLengthInt first), first, bitLengthInt first⟩ :: acItems ac 0 rest

/-- The symbols of the block in `SEQ`, by the codebooks that `SEL.CHROMA` selects. -/
def seqItems (s : State) : List BlockItem :=
  blockItems (dcTrie s.cfg.toConfig s.chroma) (acTrie s.cfg.toConfig s.chroma) (s.blk.seq.toList.map Reg.val)

/-- The codebooks hold every symbol. -/
def Held (items : List BlockItem) : Prop := ∀ x ∈ items, x.code.isSome = true

/-- The block code: each codeword and its value bits. -/
def itemBits (items : List BlockItem) : Bits := items.flatMap fun x => x.code.getD [] ++ entBits x.value

/-- The codebook of the next symbol of a block of which the coefficients `done` have been read. -/
def nextTrie (s : State) (done : List Int) : Trie :=
  if done = [] then dcTrie s.cfg.toConfig s.chroma else acTrie s.cfg.toConfig s.chroma

/-- A symbol that goes on after the coefficients `done`, with the zeros it stands for and the size of the value that follows (R271,
R276, R278); (0,0) does not go on. -/
def SymbolFits (done : List Int) (sym zeros size : Nat) : Prop :=
  if done = [] then zeros = 0 ∧ size = sym
  else (sym = 0xF0 ∧ zeros = 16 ∧ size = 0 ∧ done.length + 16 ≤ 64)
    ∨ (sym ≤ 255 ∧ sym % 16 ≠ 0 ∧ zeros = sym / 16 ∧ size = sym % 16 ∧ done.length + sym / 16 ≤ 63)

/-- A symbol that cannot stand after the coefficients `done` (R276, R278). -/
def SymbolIllegal (done : List Int) (sym : Nat) : Prop :=
  done ≠ [] ∧ ((sym % 16 ≠ 0 ∧ (63 < done.length + sym / 16 ∨ 255 < sym)) ∨ (sym = 0xF0 ∧ 64 < done.length + 16)
    ∨ (sym % 16 = 0 ∧ sym / 16 ≠ 0 ∧ sym / 16 ≠ 15))

/-- The first symbols of a block code and the coefficients they stand for. -/
inductive BlockPrefix (s : State) : List Int → Bits → Prop
  | start : BlockPrefix s [] []
  | zeros {done : List Int} {bits code : Bits} {sym n : Nat} : BlockPrefix s done bits → done ≠ [] →
      (sym, code) ∈ leaves (nextTrie s done) → SymbolFits done sym n 0 →
      BlockPrefix s (done ++ List.replicate n 0) (bits ++ code)
  | value {done : List Int} {bits code raw : Bits} {sym n : Nat} : BlockPrefix s done bits →
      (sym, code) ∈ leaves (nextTrie s done) → SymbolFits done sym n raw.length → (done = [] ∨ raw ≠ []) →
      BlockPrefix s (done ++ List.replicate n 0 ++ [entValue raw]) (bits ++ code ++ raw)

/-- What stands where a bit should: the end of the line is `TruncatedStream` (R279), another character `CorruptCodeword` with it
(45_huffman.md R257); t is s after the command that met it. -/
def StopsAt (s : State) (stop : List Byte) (t : State) : Prop :=
  match stop with
  | [] => Raised s (readOnly s (allRead s) false) .truncatedStream t.errinfo t
  | c :: rest =>
    c ∉ [0x30, 0x31] ∧ if c = lineFeed then Raised s (readOnly s (leaving s rest) false) .truncatedStream t.errinfo t
      else Raised s (readOnly s (leaving s rest) false) .corruptCodeword (c.toNat : Int) t

/-! ### Planes and images -/

/-- Every element of an image's planes has been written (60_exceptions.md R330). -/
def PlanesReady {α : Type} (m : Sparse α) (h w : Nat) : Prop :=
  ∀ (c : Fin 3) (y x : Nat), y < h → x < w → (m.read ⟨c, y, x⟩).isSome = true

/-- `HEIGHT` and `WIDTH` hold the sides of an image. -/
def SidesReady (s : State) : Prop :=
  s.height.written = true ∧ 1 ≤ s.height.val ∧ s.width.written = true ∧ 1 ≤ s.width.val

/-- A sample of `RGB` as a rational number. -/
def sampleAt (m : Sparse Byte) (c : Fin 3) (y x : Nat) : Rat := (((m.read ⟨c, y, x⟩).getD 0).toNat : Rat)

/-- The header line (47_image_pipeline.md R293). -/
def headerLine (h w q : Nat) : List Byte :=
  chars (binShort h) ++ [space] ++ chars (binShort w) ++ [space] ++ chars (binShort q) ++ [lineFeed]

/-- A field of the header line that `ParseBin` accepts as n (R293). -/
def BinaryField (f : List Byte) (n : Nat) : Prop := ∃ bits : Bits, bits ≠ [] ∧ f = chars bits ∧ valOf bits = n

/-- A header line that `ParseHeader` accepts as (h, w, q) (R295). -/
def GoodHeader (line : List Byte) (h w q : Nat) : Prop :=
  ∃ f0 f1 f2 : List Byte, line = f0 ++ [space] ++ f1 ++ [space] ++ f2
    ∧ BinaryField f0 h ∧ BinaryField f1 w ∧ BinaryField f2 q ∧ 1 ≤ h ∧ 1 ≤ w ∧ q ≤ 100

/-- The entries that Q.SETQ computes from a base table (44_dct_quant_zigzag.md R224, R225). -/
def scaledTable (quality : Nat) (base : Vector Nat 64) : Vector Nat 64 :=
  base.map fun b =>
    max 1 (((if max quality 1 < 50 then 5000 / max quality 1 else 200 - 2 * max quality 1) * b + 50) / 100)

/-- A state in which IMG.ENC's operands are right (47_image_pipeline.md R296). -/
def ImgReady (s : State) : Prop :=
  s.quality.written = true ∧ s.quality.val ≤ 100 ∧ SidesReady s ∧ PlanesReady s.rgb s.height.val s.width.val

/-- The number of tiles of a plane (R290). -/
def tileCount (s : State) : Nat := (s.height.val + 7) / 8 * ((s.width.val + 7) / 8)

/-- A command runs to its normal end. -/
def Runs (i : Instr) (s t : State) : Prop := exec i s = .next t ∧ t.run = .done

/-- The tiles along a side of n samples (R290). -/
def tileSide (n : Nat) : Nat := (n + 7) / 8

/-- `SEL` for a plane: 0 for Y, 1 for Cb and Cr (R292). -/
def planeSel (p : Fin 3) : Reg Nat := ⟨if p = 0 then 0 else 1, true⟩

/-- The samples of tile n of plane p in row-major order, the last valid row and column repeated outside the image (R290, R291). -/
def tileSamples (s : State) (p : Fin 3) (n : Nat) : Vector (Reg ExactNum) 64 :=
  Vector.ofFn fun k : Fin 64 =>
    ⟨(s.ycc.read ⟨p, min (8 * (n / tileSide s.width.val) + k.1 / 8) (s.height.val - 1),
      min (8 * (n % tileSide s.width.val) + k.1 % 8) (s.width.val - 1)⟩).getD (.ofInt 0), true⟩

/-- The block commands of R292 on tile n of plane p, run one by one up to `SEQ`. -/
def TileQuantised (s : State) (p : Fin 3) (n : Nat) (t : State) : Prop :=
  ∃ a b, Runs .dctFwd { s with
      sel := planeSel p, blk := { s.blk with blkf := tileSamples s p n }, io := { s.io with out := ⟨[], .idle⟩ } } a
    ∧ Runs .qQuant a b ∧ Runs .zzFwd b t

/-- Tile n of plane p coded by DCT.FWD, Q.QUANT, ZZ.FWD and RLE.ENC run one by one (R292). -/
def TileCoded (s : State) (p : Fin 3) (n : Nat) (code : Bits) (t : State) : Prop :=
  ∃ c, TileQuantised s p n c ∧ Runs .rleEnc c t ∧ t.io.out.bytes = chars code

/-- The block commands of R292 from `SEQ` back to samples, run one by one. -/
def TileRestored (s t : State) : Prop := ∃ a b, Runs .zzInv s a ∧ Runs .qDequant a b ∧ Runs .dctInv b t

/-- Successive tiles of plane p decoded from the characters x by RLE.DEC, ZZ.INV, Q.DEQUANT and DCT.INV run one by one (R292): the samples
of each, and the characters left. -/
inductive TilesDecoded (s : State) (p : Fin 3) : List Byte → List (Vector (Reg ExactNum) 64) → List Byte → Prop
  | done (x : List Byte) : TilesDecoded s p x [] x
  | tile {x y : List Byte} {a b : State} {rest : List (Vector (Reg ExactNum) 64)} :
      Runs .rleDec { s with sel := planeSel p, io := { s.io with inp := ⟨x, 0⟩ } } a → TileRestored a b →
      TilesDecoded s p a.io.inp.rest rest y → TilesDecoded s p x (b.blk.blkf :: rest) y

/-- Tiles stand in a plane memory: every sample inside the image is that of its tile (R291). -/
def PlaneHolds (m : Sparse ExactNum) (h w : Nat) (p : Fin 3) (tiles : Nat → Option (Vector (Reg ExactNum) 64)) : Prop :=
  ∀ y x : Nat, y < h → x < w → ∀ b, tiles (y / 8 * tileSide w + x / 8) = some b →
    m.read ⟨p, y, x⟩ = some (b[8 * (y % 8) + x % 8]'(by omega)).val

/-- `ReadLine` (R294): the bytes before the first line feed or the end, and what follows. -/
def firstLine (x : List Byte) : List Byte := x.takeWhile (fun c => c != lineFeed)
def afterLine (x : List Byte) : List Byte := (x.dropWhile (fun c => c != lineFeed)).tail

/-- What is left after n lines, and whether the end of `IN` ended one of them. -/
def afterLines (n : Nat) (x : List Byte) : List Byte := afterLine^[n] x
def linesHitEnd (n : Nat) (x : List Byte) : Bool := decide (x.count lineFeed < n)

/-- The line of plane p of an image stream: the lines after the header's (R301). -/
def planeLine (p : Fin 3) (x : List Byte) : List Byte := firstLine (afterLines (p.1 + 1) x)

/-- s with what IMG.DEC takes from the header before the planes (R301): the registers, and the tables of Q.SETQ. -/
def headed (s : State) (h w q : Nat) : State :=
  { s with
    height := ⟨h, true⟩, width := ⟨w, true⟩, quality := ⟨q, true⟩
    qtLuma := scaledTable q s.cfg.baseLuma, qtChroma := scaledTable q s.cfg.baseChroma, qvalid := true }

/-! ### Operands (60_exceptions.md R321, R330) -/

/-- A register that nothing has written, or whose value its rule does not allow. -/
def Wrong {α : Type} (r : Reg α) (allowed : α → Prop) : Prop := r.written = false ∨ ¬ allowed r.val

/-- The index that `ERRINFO` records offends for the command i, read off the rules of the commands: a register number, or 255. -/
def Offends (i : Instr) (s : State) (k : Nat) : Prop :=
  match i with
  | .bcWrbits =>
    (k = 0 ∧ Wrong s.a (fun a => 0 ≤ a ∧ (s.n.written = true → a < 2 ^ s.n.val))) ∨ (k = 1 ∧ s.n.written = false)
      ∨ (k = 255 ∧ s.io.wtr.isOpen = false)
  | .bcWrval =>
    (k = 0 ∧ Wrong s.a (fun a => -128 ≤ a)) ∨ (k = 1 ∧ Wrong s.n (fun n => ∀ m ∈ s.cfg.valueMaxWidth, n ≤ m))
      ∨ (k = 255 ∧ s.io.wtr.isOpen = false)
  | .bcRdbits =>
    (k = 1 ∧ Wrong s.n (fun n => ∀ m ∈ s.cfg.valueMaxWidth, n ≤ m)) ∨ (k = 255 ∧ s.io.rdr.isOpen = false)
  | .lzssEnc =>
    (k = 5 ∧ Wrong s.windowBits (fun w => w ≤ 255)) ∨ (k = 6 ∧ Wrong s.maxMatchBits (fun m => m ≤ 255))
      ∨ (k = 7 ∧ Wrong s.minMatchLen (fun m => 1 ≤ m))
  | .dctFwd | .dctInv => k = 255 ∧ ∃ j : Fin 64, s.blk.blkf[j.1].written = false
  | .qSetq => k = 4 ∧ Wrong s.quality (fun q => q ≤ 100)
  | .qQuant => k = 255 ∧ (s.qvalid = false ∨ ∃ j : Fin 64, s.blk.blkf[j.1].written = false)
  | .qDequant => k = 255 ∧ (s.qvalid = false ∨ ∃ j : Fin 64, s.blk.blki[j.1].written = false)
  | .zzFwd => k = 255 ∧ ∃ j : Fin 64, s.blk.blki[j.1].written = false
  | .zzInv | .rleEnc => k = 255 ∧ ∃ j : Fin 64, s.blk.seq[j.1].written = false
  | .hufEnc | .entEnc => k = 0 ∧ s.a.written = false
  | .entDec => k = 1 ∧ s.n.written = false
  | .ctFwd =>
    (k = 8 ∧ Wrong s.height (fun h => 1 ≤ h)) ∨ (k = 9 ∧ Wrong s.width (fun w => 1 ≤ w))
      ∨ (k = 255 ∧ SidesReady s ∧ ¬ PlanesReady s.rgb s.height.val s.width.val)
  | .ctInv =>
    (k = 8 ∧ Wrong s.height (fun h => 1 ≤ h)) ∨ (k = 9 ∧ Wrong s.width (fun w => 1 ≤ w))
      ∨ (k = 255 ∧ SidesReady s ∧ ¬ PlanesReady s.ycc s.height.val s.width.val)
  | .imgEnc =>
    (k = 4 ∧ Wrong s.quality (fun q => q ≤ 100)) ∨ (k = 8 ∧ Wrong s.height (fun h => 1 ≤ h))
      ∨ (k = 9 ∧ Wrong s.width (fun w => 1 ≤ w))
      ∨ (k = 255 ∧ SidesReady s ∧ ¬ PlanesReady s.rgb s.height.val s.width.val)
  | .bcOpenw | .bcOpenr | .bcClose | .lz78Enc | .lz78Dec | .lzwEnc | .lzwDec | .lzssDec | .hufDec | .rleDec | .imgDec => False

/-- The commands that the table of 60_exceptions.md R333 lets raise an exception; for `BadOperand` also those that read state
which can be unwritten (R330). -/
def MayRaise (cfg : Config) (e : Exc) (i : Instr) : Prop :=
  match e with
  | .illegalCommand => False
  | .badOperand =>
    i ∈ [Instr.bcWrbits, .bcWrval, .bcRdbits, .lzssEnc, .dctFwd, .dctInv, .qSetq, .qQuant, .qDequant, .zzFwd, .zzInv,
      .hufEnc, .entEnc, .entDec, .rleEnc, .ctFwd, .ctInv, .imgEnc]
  | .malformedHeader => i = .imgDec
  | .corruptCodeword =>
    i ∈ [Instr.lz78Dec, .lzwDec, .lzssDec, .hufEnc, .hufDec, .entDec, .rleEnc, .rleDec, .imgEnc, .imgDec]
  | .truncatedStream => i ∈ [Instr.lz78Dec, .lzwDec, .lzssDec, .hufDec, .entDec, .rleDec, .imgDec]
  | .dictFull =>
    (i ∈ [Instr.lz78Enc, .lz78Dec] ∧ cfg.lz78MaxCode ≠ none) ∨ (i ∈ [Instr.lzwEnc, .lzwDec] ∧ cfg.lzwMaxCode ≠ none)

/-- The BitChannel commands. -/
def channelCommands : List Instr := [.bcOpenw, .bcOpenr, .bcWrbits, .bcWrval, .bcRdbits, .bcClose]

end Sys2Proof.Claims
end

