-- ==== Sys2Proof/Certificates/Slice0/Obligations.lean ====
section
/-! DEFINITION. The statements for the provers. Their words (streams as bits, the records of the LZ streams, the leaves of a codebook,
what a command leaves alone, the real number behind an `ExactNum`) are defined in Safety.lean. Where a statement speaks of bytes of `IN`
consumed (`leaving`, `allRead`), which characters count as consumed is log 9. -/

open Sys2Proof Sys2Proof.Machine Sys2Proof.Claims

/-! ### Commands: encoding, issue, reset -/

/-- 30_encoding.md R90, R91, R94: every command's byte decodes to it, whatever follows, and a byte that decodes to a command is that
command's byte: no bit of the encoding is dropped. -/
def Obligations.DecodeInvertsEncode : Prop :=
  (∀ (i : Instr) (rest : List Byte), i.wellFormed = true ∧ decodeBytes (encode i :: rest) = .ok (i, rest))
    ∧ ∀ (bs rest : List Byte) (i : Instr), decodeBytes bs = .ok (i, rest) → bs = encode i :: rest

/-- Some bytes of the table of 30_encoding.md R94, `unit` in bits 7:4 and `func` in bits 3:0 (R91), with what they are. -/
def Obligations.DecodeSampleBytes : Prop :=
  decode 0b00000000 = .ok .bcOpenw ∧ decode 0b00000101 = .ok .bcClose ∧ decode 0b00010001 = .ok .lz78Dec
    ∧ decode 0b00100000 = .ok .lzwEnc ∧ decode 0b00110001 = .ok .lzssDec ∧ decode 0b01000000 = .ok .dctFwd
    ∧ decode 0b01010010 = .ok .qDequant ∧ decode 0b01100001 = .ok .zzInv ∧ decode 0b01110000 = .ok .hufEnc
    ∧ decode 0b10000011 = .ok .rleDec ∧ decode 0b10010010 = .ok .imgEnc
    ∧ decode 0b10100000 = .error (.reservedUnit 0b10100000) ∧ decode 0b00010010 = .error (.reservedFunc 0b00010010)

/-- 30_encoding.md R95: a byte that is no command's, written to `CMD` while no command runs, raises `IllegalCommand` with the byte;
only `STATUS` and `ERRINFO` change (the action itself leaves the host's queue). That `STATUS.EOS` and `QVALID` stay, and that `PHASE`
becomes `NONE` as 60_exceptions.md R322 has it for every `raise`, is the model's reading (DEDUCED, log 12). -/
def Obligations.ReservedByteRaisesIllegalCommand : Prop :=
  ∀ (s : State) (b : Byte) (rest : List HostAct), s.host = .cmd b :: rest → s.run ≠ .busy → (∀ i, b ≠ encode i) →
    step s = .next { s with
      host := rest, run := .error, err := some .illegalCommand, errinfo := (b.toNat : Int), phase := .none }

/-- A step at whose head the host writes a command's byte runs that command on the state whose queue has moved on, while no command
runs (30_encoding.md R94, 60_exceptions.md R325). -/
def Obligations.StepRunsDecodedCommand : Prop :=
  ∀ (s : State) (b : Byte) (rest : List HostAct) (i : Instr), s.host = .cmd b :: rest → s.run ≠ .busy → decode b = .ok i →
    step s = exec i { s with host := rest }

/-- 60_exceptions.md R329: a command written while `BUSY` is dropped; 70_reset_and_hazards.md R351: with nothing written the sequencer
does nothing; 20_memory.md R80 (c): another access while `BUSY` is forbidden, and the model stops there (log 8). 10_state.md R22,
20_memory.md R61 to R63: a host access while no command runs writes the one thing it names and nothing else; a number for `BLKF` or
`YCC` is taken as `NUMERIC` holds it (log 22). That attaching `IN` leaves the cursor of an open reader alone and starts the count of
consumed bytes at 0, and that attaching `OUT` leaves an open writer with its pending bits, is the model's choice (log 20). -/
def Obligations.PortActions : Prop :=
  (∀ (s : State) (b : Byte) (rest : List HostAct), s.run = .busy → s.host = .cmd b :: rest →
      step s = .next { s with host := rest })
    ∧ (∀ s : State, s.host = [] → step s = .next s)
    ∧ (∀ (s : State) (act : HostAct) (rest : List HostAct), s.run = .busy → s.host = act :: rest →
        (∀ b, act ≠ .cmd b) → act ≠ .powerOnReset → step s = .fault .hostAccessWhileBusy)
    ∧ ∀ (s : State) (rest : List HostAct), s.run ≠ .busy →
        (∀ v, s.host = .setA v :: rest → step s = .next { s with host := rest, a := ⟨v, true⟩ })
        ∧ (∀ v, s.host = .setN v :: rest → step s = .next { s with host := rest, n := ⟨v, true⟩ })
        ∧ (∀ v, s.host = .setRes v :: rest → step s = .next { s with host := rest, res := ⟨v, true⟩ })
        ∧ (∀ v, s.host = .setRes2 v :: rest → step s = .next { s with host := rest, res2 := ⟨v, true⟩ })
        ∧ (∀ v, s.host = .setQuality v :: rest → step s = .next { s with host := rest, quality := ⟨v, true⟩ })
        ∧ (∀ v, s.host = .setWindowBits v :: rest → step s = .next { s with host := rest, windowBits := ⟨v, true⟩ })
        ∧ (∀ v, s.host = .setMaxMatchBits v :: rest → step s = .next { s with host := rest, maxMatchBits := ⟨v, true⟩ })
        ∧ (∀ v, s.host = .setMinMatchLen v :: rest → step s = .next { s with host := rest, minMatchLen := ⟨v, true⟩ })
        ∧ (∀ v, s.host = .setHeight v :: rest → step s = .next { s with host := rest, height := ⟨v, true⟩ })
        ∧ (∀ v, s.host = .setWidth v :: rest → step s = .next { s with host := rest, width := ⟨v, true⟩ })
        ∧ (∀ v, s.host = .setSel v :: rest → step s = .next { s with host := rest, sel := ⟨v, true⟩ })
        ∧ (∀ v, s.host = .setMode v :: rest → step s = .next { s with host := rest, mode := ⟨v, true⟩ })
        ∧ (∀ k v, s.host = .writeBlkf k v :: rest →
            step s = .next { s with host := rest, blk := { s.blk with blkf := s.blk.blkf.set k.1 ⟨s.cfg.numeric.fit v, true⟩ k.2 } })
        ∧ (∀ k v, s.host = .writeBlki k v :: rest →
            step s = .next { s with host := rest, blk := { s.blk with blki := s.blk.blki.set k.1 ⟨v, true⟩ k.2 } })
        ∧ (∀ k v, s.host = .writeSeq k v :: rest →
            step s = .next { s with host := rest, blk := { s.blk with seq := s.blk.seq.set k.1 ⟨v, true⟩ k.2 } })
        ∧ (∀ k v, s.host = .writeRgb k v :: rest →
            ∃ m, step s = .next { s with host := rest, rgb := m } ∧ ∀ l, m.read l = if l = k then some v else s.rgb.read l)
        ∧ (∀ k v, s.host = .writeYcc k v :: rest →
            ∃ m, step s = .next { s with host := rest, ycc := m }
              ∧ ∀ l, m.read l = if l = k then some (s.cfg.numeric.fit v) else s.ycc.read l)
        ∧ (∀ bytes, s.host = .attachIn bytes :: rest →
            step s = .next { s with host := rest, io := { s.io with inp := ⟨bytes, 0⟩ } })
        ∧ (s.host = .attachOut :: rest →
            ∃ sink, step s = .next { s with host := rest, io := { s.io with out := ⟨[], sink⟩ } })

/-- 10_state.md R42, 70_reset_and_hazards.md R350: what power-on reset leaves, for everything to which the spec gives a reset value;
what it calls unspecified is marked unwritten. -/
def Obligations.ResetValues : Prop :=
  State.reset.sel = ⟨0, true⟩ ∧ State.reset.mode = ⟨0, true⟩ ∧ State.reset.run = .idle ∧ State.reset.io.eos = false
    ∧ State.reset.qvalid = false ∧ State.reset.errCode = 0 ∧ State.reset.statusWord = 0 ∧ State.reset.phase = .none
    ∧ State.reset.io.wtr.isOpen = false ∧ State.reset.io.wtr.byte = 0 ∧ State.reset.io.wtr.cnt = 0
    ∧ State.reset.io.rdr.isOpen = false ∧ State.reset.io.rdr.cnt = 8 ∧ State.reset.io.rdr.exh = false
    ∧ State.reset.eng = .none ∧ State.reset.blk.coder = ⟨0, [], [], 0⟩
    ∧ State.reset.a.written = false ∧ State.reset.n.written = false ∧ State.reset.res.written = false
    ∧ State.reset.res2.written = false ∧ State.reset.quality.written = false ∧ State.reset.windowBits.written = false
    ∧ State.reset.maxMatchBits.written = false ∧ State.reset.minMatchLen.written = false
    ∧ State.reset.height.written = false ∧ State.reset.width.written = false
    ∧ State.reset.rgb = [] ∧ State.reset.ycc = []
    ∧ ∀ k : Fin 64, State.reset.blk.blkf[k.1].written = false ∧ State.reset.blk.blki[k.1].written = false
        ∧ State.reset.blk.seq[k.1].written = false

/-- 70_reset_and_hazards.md R350, R352, R353: a power-on reset, in any state, `BUSY` or not: the registers, flags and units of R42 take
their reset values, the configuration does not change, and the bytes on `OUT` stay. R353 says the last of a reset
during `BUSY`; that they stay in every other state too is the model's reading (DEDUCED, log 12). -/
def Obligations.PowerOnResetKeepsConfiguration : Prop :=
  ∀ (s : State) (rest : List HostAct), s.host = .powerOnReset :: rest →
    ∃ t, step s = .next t ∧ t.cfg = s.cfg ∧ t.io.out.bytes = s.io.out.bytes ∧ t.host = rest
      ∧ t.statusWord = 0 ∧ t.run = .idle ∧ t.sel = ⟨0, true⟩ ∧ t.mode = ⟨0, true⟩ ∧ t.phase = .none
      ∧ t.io.wtr = ⟨false, 0, 0⟩ ∧ t.io.rdr.isOpen = false ∧ t.io.rdr.cnt = 8 ∧ t.io.rdr.exh = false ∧ t.eng = .none
      ∧ t.blk.coder = ⟨0, [], [], 0⟩ ∧ t.a.written = false ∧ t.quality.written = false ∧ t.rgb = [] ∧ t.ycc = []
      ∧ ∀ k : Fin 64, t.blk.blkf[k.1].written = false ∧ t.blk.blki[k.1].written = false ∧ t.blk.seq[k.1].written = false

/-- The invariant holds after reset. -/
def Obligations.InvariantAtReset : Prop := State.reset.Inv

/-! ### Rules over all commands and all steps -/

/-- The invariant of Safety.lean is kept by every step: nothing of a command survives it (10_state.md R41), `ERRCODE` is 0 unless
`STATE` is `ERROR` (R23), the cursors stay in range and unwritten bits of `WBYTE` 0 (R26, R27, 40_bitchannel.md R138), tables marked
valid have entries ≥ 1 (R37), the plane memories keep their canonical form. -/
def Obligations.InvariantKeptByStep : Prop :=
  ∀ s t : State, s.Inv → step s = .next t → t.Inv

/-- 60_exceptions.md R331, R322 (2) and (3), R323: every command ends, in `DONE` with `ERRCODE` 0 or in `ERROR` with an exception, and with
`PHASE` `NONE`; after a command of another unit than BitChannel no engine, coder or channel is left (10_state.md R41), and `OUT`'s
sink is not left being written. That the sink is settled at every end of such a command, and the host's channel ended even by one
that raises `BadOperand`, is the model's choice (log 10). -/
def Obligations.EveryCommandEnds : Prop :=
  ∀ (i : Instr) (s : State), ∃ t, exec i s = .next t ∧ t.phase = .none
    ∧ ((t.run = .done ∧ t.errCode = 0) ∨ (t.run = .error ∧ ∃ e, t.err = some e ∧ t.errCode = e.code))
    ∧ (i ∉ channelCommands → t.eng = .none ∧ t.blk.coder = ⟨0, [], [], 0⟩ ∧ t.io.wtr.isOpen = false
        ∧ t.io.rdr.isOpen = false ∧ t.io.out.sink ≠ .writing)

/-- 60_exceptions.md R333: which exceptions each command can raise. -/
def Obligations.CommandsRaiseOnlyTheirExceptions : Prop :=
  ∀ (i : Instr) (s t : State) (e : Exc), exec i s = .next t → t.err = some e → MayRaise s.cfg.toConfig e i

/-- 60_exceptions.md R321, R325, R330: when an operand offends, the command raises `BadOperand` with the lowest offending index and has
no other effect, but that a command of another unit than BitChannel ends a channel the host had opened (10_state.md R41, log 10);
when none offends, it does not raise `BadOperand`. `Offends` follows the model's readings of log 7 (a block or plane offends when any of its
elements is unwritten), log 9 (BC.WRBITS reads `N`; planes are looked at only when the sides are right) and log 14 (an operand is
checked against every rule that names it). -/
def Obligations.BadOperandBeforeAnyEffect : Prop :=
  ∀ (i : Instr) (s : State),
    (∀ k : Nat, Offends i s k → (∀ j, Offends i s j → k ≤ j) →
      ∃ t, exec i s = .next t
        ∧ if i ∈ channelCommands then
            t = { s with
              run := .error, err := some .badOperand, errinfo := (k : Int), freeCtr := t.freeCtr, phase := .none
              io := { s.io with eos := false } }
          else Raised s (readOnly s s.io.inp false) .badOperand k t)
    ∧ ((∀ k, ¬ Offends i s k) → ∃ t, exec i s = .next t ∧ t.err ≠ some .badOperand)

/-- 60_exceptions.md R328: the `ERROR` state needs no acknowledgement: what a command does never depends on how the last one
ended. -/
def Obligations.LastOutcomeIsForgotten : Prop :=
  ∀ (i : Instr) (s : State) (r : RunState) (e : Option Exc) (info : Int) (p : Phase) (eos : Bool),
    exec i { s with run := r, err := e, errinfo := info, phase := p, io := { s.io with eos := eos } } = exec i s

/-- 10_state.md R22 (column "written by"), R21: which commands write the operand and parameter registers; no command writes the
configuration, or the host's queue. 30_encoding.md R94 (columns "reads" and "writes"), with the side effects that 47_image_pipeline.md
R296 and R301 add: which commands write the memories, the tables and the streams; an IMG.DEC that raised leaves `RGB` alone (R301,
70_reset_and_hazards.md R366). -/
def Obligations.StateWrittenOnlyAsListed : Prop :=
  ∀ (i : Instr) (s t : State), exec i s = .next t →
    t.cfg = s.cfg ∧ t.host = s.host
    ∧ t.a = s.a ∧ t.n = s.n ∧ t.minMatchLen = s.minMatchLen ∧ t.sel = s.sel ∧ t.mode = s.mode
    ∧ (i ∉ [Instr.bcRdbits, .hufDec, .hufEnc, .entEnc, .entDec] → t.res = s.res)
    ∧ (i ∉ [Instr.hufEnc, .entEnc] → t.res2 = s.res2)
    ∧ (i ≠ .imgDec → t.quality = s.quality ∧ t.height = s.height ∧ t.width = s.width)
    ∧ (i ≠ .lzssDec → t.windowBits = s.windowBits ∧ t.maxMatchBits = s.maxMatchBits)
    ∧ (i ∉ [Instr.dctFwd, .dctInv, .qDequant, .imgEnc, .imgDec] → t.blk.blkf = s.blk.blkf)
    ∧ (i ∉ [Instr.qQuant, .zzInv, .imgEnc, .imgDec] → t.blk.blki = s.blk.blki)
    ∧ (i ∉ [Instr.zzFwd, .rleDec, .imgEnc, .imgDec] → t.blk.seq = s.blk.seq)
    ∧ (i ∉ [Instr.qSetq, .imgEnc, .imgDec] → t.qtLuma = s.qtLuma ∧ t.qtChroma = s.qtChroma ∧ t.qvalid = s.qvalid)
    ∧ (i ∉ [Instr.ctInv, .imgDec] → t.rgb = s.rgb) ∧ (i = .imgDec → t.run = .error → t.rgb = s.rgb)
    ∧ (i ∉ [Instr.ctFwd, .imgEnc, .imgDec] → t.ycc = s.ycc)
    ∧ (i ∉ [Instr.bcOpenw, .bcWrbits, .bcWrval, .bcClose, .lz78Enc, .lz78Dec, .lzwEnc, .lzwDec, .lzssEnc, .lzssDec, .hufEnc,
        .entEnc, .rleEnc, .imgEnc] → t.io.out.bytes = s.io.out.bytes)
    ∧ (i ∉ [Instr.bcRdbits, .lz78Enc, .lz78Dec, .lzwEnc, .lzwDec, .lzssEnc, .lzssDec, .hufDec, .entDec, .rleDec, .imgDec] →
        t.io.inp = s.io.inp)

/-- 20_memory.md R61, R62: a command consumes a first part of `IN`, in order; while `OUT` is open it only appends to it. -/
def Obligations.StreamsOnlyMoveForward : Prop :=
  ∀ (i : Instr) (s t : State), exec i s = .next t →
    (∃ read, s.io.inp.rest = read ++ t.io.inp.rest ∧ t.io.inp.consumed = s.io.inp.consumed + read.length)
    ∧ (s.io.out.sink = .writing ∨ s.io.out.sink = .flushed → ∃ bs, t.io.out.bytes = s.io.out.bytes ++ bs)

/-! ### BitChannel -/

/-- BC.OPENW (40_bitchannel.md R137, 70_reset_and_hazards.md R356): an empty partial byte, whatever was open. BC.OPENR (R141): `RCNT` 8,
`REXH` 0, `EOS` 0; `RBYTE` is unspecified (10_state.md R42). What BC.OPENW does to the bytes and the sink of `OUT` (`opened`) is the model's choice (log
10). -/
def Obligations.OpensStartFresh : Prop :=
  (∀ s : State, ∃ t, exec .bcOpenw s = .next t
    ∧ ChannelDone s { s.io with wtr := ⟨true, 0, 0⟩, out := s.io.out.opened, eos := false } t)
  ∧ (∀ s : State, ∃ t, exec .bcOpenr s = .next t
    ∧ ChannelDone s { s.io with rdr := ⟨true, t.io.rdr.byte, 8, false⟩, eos := false } t)

/-- BC.WRBITS (40_bitchannel.md R131, R138): the bits `bin_N(A)` follow the bits written before, whatever the boundary. BC.WRVAL (R132, R133):
the N low bits of A do, a negative A as its 8-bit form. -/
def Obligations.WritesAppendBits : Prop :=
  (∀ s : State, s.a.written = true → s.n.written = true → 0 ≤ s.a.val → s.a.val < 2 ^ s.n.val → s.io.wtr.isOpen = true →
    s.io.wtr.Sound →
    ∃ t, exec .bcWrbits s = .next t
      ∧ ChannelDone s { s.io with out := ⟨t.io.out.bytes, s.io.out.sink⟩, wtr := t.io.wtr, eos := false } t
      ∧ writtenBits t.io = writtenBits s.io ++ binN s.n.val s.a.val.toNat ∧ t.io.wtr.isOpen = true ∧ t.io.wtr.Sound)
  ∧ (∀ s : State, s.a.written = true → s.n.written = true → -128 ≤ s.a.val → (∀ m ∈ s.cfg.valueMaxWidth, s.n.val ≤ m) →
    s.io.wtr.isOpen = true → s.io.wtr.Sound →
    ∃ t, exec .bcWrval s = .next t
      ∧ ChannelDone s { s.io with out := ⟨t.io.out.bytes, s.io.out.sink⟩, wtr := t.io.wtr, eos := false } t
      ∧ writtenBits t.io
        = writtenBits s.io ++ binN s.n.val (if 0 ≤ s.a.val then s.a.val else s.a.val + 256).toNat
      ∧ t.io.wtr.isOpen = true ∧ t.io.wtr.Sound)

/-- BC.RDBITS (40_bitchannel.md R134, R135): the value of the next N bits, or −1 when fewer are left or the reader is exhausted; the
sentinel sets `REXH` and `EOS` and stays. -/
def Obligations.RdbitsReadsField : Prop :=
  ∀ s : State, s.n.written = true → (∀ m ∈ s.cfg.valueMaxWidth, s.n.val ≤ m) → s.io.rdr.isOpen = true → s.io.rdr.Sound →
    ∃ t, exec .bcRdbits s = .next t
      ∧ ChannelDone { s with res := t.res } { s.io with inp := t.io.inp, rdr := t.io.rdr, eos := t.io.eos } t
      ∧ t.res.written = true ∧ t.io.rdr.isOpen = true ∧ t.io.rdr.Sound
      ∧ (s.io.rdr.exh = false → s.n.val ≤ (pendingBits s.io).length →
          t.res.val = valOf ((pendingBits s.io).take s.n.val) ∧ pendingBits t.io = (pendingBits s.io).drop s.n.val
            ∧ t.io.rdr.exh = false ∧ t.io.eos = false)
      ∧ (s.io.rdr.exh = false → (pendingBits s.io).length < s.n.val →
          t.res.val = -1 ∧ t.io.inp.rest = [] ∧ t.io.rdr.exh = true ∧ t.io.eos = true)
      ∧ (s.io.rdr.exh = true → t.res.val = -1 ∧ t.io.inp = s.io.inp ∧ t.io.rdr = s.io.rdr ∧ t.io.eos = true)

/-- BC.CLOSE (40_bitchannel.md R136): the partial byte goes out padded with zeros, `OUT` is closed or flushed, the channels are closed;
with no writer open `OUT` is left alone. -/
def Obligations.CloseFlushesPartialByte : Prop :=
  ∀ s : State, s.io.wtr.Sound →
    ∃ t, exec .bcClose s = .next t
      ∧ (s.io.wtr.isOpen = true →
          ChannelDone s ⟨s.io.inp, ⟨t.io.out.bytes, if s.embedded then .flushed else .closed⟩, .closed, .closed, false⟩ t
            ∧ streamBits t.io.out.bytes = padded (writtenBits s.io))
      ∧ (s.io.wtr.isOpen = false → ChannelDone s ⟨s.io.inp, s.io.out, .closed, .closed, false⟩ t)

/-- 40_bitchannel.md R139: strings written through a fresh writer and closed stand on `OUT` packed and padded; a fresh reader on those
bytes gives back their values, then the zeros of the padding, then the sentinel. -/
def Obligations.ChannelRoundTrip : Prop :=
  ∀ (io io' : Io) (strings : List Bits) (embedded : Bool) (free : Byte) (n : Nat), io.out.opened.bytes = [] →
    let closed := closeChannel embedded (strings.foldl (fun c s => wrBits s c) (openWriter io))
    let reader := openReader free { io' with inp := ⟨closed.out.bytes, 0⟩ }
    let widths := strings.map List.length
    streamBits closed.out.bytes = padded strings.flatten
      ∧ closed.out.bytes.length = (strings.flatten.length + 7) / 8
      ∧ (readAll widths reader).1 = strings.map (fun s => some (valOf s))
      ∧ (rdBits n (readAll widths reader).2).1 = if n ≤ padLength strings.flatten then some 0 else none

/-! ### LZ78 -/

/-- LZ78.ENC (41_lz78.md R150 to R154): the whole input is consumed and `OUT` gets the records of the greedy parse, packed and padded, when
the dictionary has room for them; past `LZ78_MAX_CODE` (10_state.md R44) the miss that has no code left raises `DictFull` with that
code, the symbols up to it consumed and the whole bytes of the records before it on `OUT`. `OUT` is opened and ended as log 10 says. -/
def Obligations.Lz78EncWritesRecords : Prop :=
  (∀ s : State, (∀ max ∈ s.cfg.lz78MaxCode, lz78Inserts [] [] s.io.inp.rest ≤ max) →
    ∃ t bs, exec .lz78Enc s = .next t ∧ Completed s (wrote s bs (allRead s) false) t
      ∧ streamBits bs = padded (lz78Bits s.cfg.lz78WidthBias 1 (lz78Parse [] [] s.io.inp.rest)))
  ∧ ∀ (s : State) (max : Nat) (read rest : List Byte), s.cfg.lz78MaxCode = some max → s.io.inp.rest = read ++ rest →
    lz78Inserts [] [] read = max + 1 → lz78Inserts [] [] read.dropLast = max →
    ∃ t bs, exec .lz78Enc s = .next t ∧ Raised s (wrote s bs (leaving s rest) false) .dictFull (max + 1 : Nat) t
      ∧ streamBits bs = wholeBytes (lz78Bits s.cfg.lz78WidthBias 1 ((lz78Parse [] [] read).take max))

/-- LZ78.DEC (41_lz78.md R156, R157): a packed record sequence is decoded to the phrases it spells, and what is too short to be another
record ends it normally: padding, a cut in the code field, or a cut in the literal after a code field of 0. The record past
`LZ78_MAX_CODE` (10_state.md R44) is output and then raises `DictFull` with the code it could not get. `OUT` is opened and ended as log
10 says. -/
def Obligations.Lz78DecReadsRecords : Prop :=
  (∀ (s : State) (records : List (Nat × Byte)) (phrases : List (List Byte)) (tail : Bits),
    (∀ max ∈ s.cfg.lz78MaxCode, records.length ≤ max) → lz78Spell [] records = some phrases →
    streamBits s.io.inp.rest = lz78Bits s.cfg.lz78WidthBias 1 records ++ tail →
    Lz78End (bitLength (records.length + 1 + s.cfg.lz78WidthBias)) tail →
    ∃ t, exec .lz78Dec s = .next t ∧ Completed s (wrote s phrases.flatten (allRead s) true) t)
  ∧ ∀ (s : State) (records : List (Nat × Byte)) (phrases : List (List Byte)) (more : Bits) (max : Nat),
    s.cfg.lz78MaxCode = some max → records.length = max + 1 → lz78Spell [] records = some phrases →
    streamBits s.io.inp.rest = lz78Bits s.cfg.lz78WidthBias 1 records ++ more →
    ∃ t, exec .lz78Dec s = .next t
      ∧ Raised s (wrote s phrases.flatten
          (leaving s (s.io.inp.rest.drop (((lz78Bits s.cfg.lz78WidthBias 1 records).length + 7) / 8))) false)
          .dictFull (max + 1 : Nat) t

/-- 41_lz78.md R159: for every byte sequence and either width bias, decoding what LZ78.ENC wrote gives the sequence back. `OUT` is opened
and ended as log 10 says. -/
def Obligations.Lz78RoundTrip : Prop :=
  ∀ s : State, s.cfg.lz78MaxCode = none →
    ∃ t bs, exec .lz78Enc s = .next t ∧ Completed s (wrote s bs (allRead s) false) t
      ∧ ∀ u : State, u.cfg = s.cfg → u.io.inp.rest = bs →
          ∃ v, exec .lz78Dec u = .next v ∧ Completed u (wrote u s.io.inp.rest (allRead u) true) v

/-- 41_lz78.md R157, R158: after any valid records, a literal above 255, else a code that names no phrase yet, is `CorruptCodeword`; a
non-zero code whose literal is cut is `TruncatedStream`; each with the value the rule names, the phrases before it on `OUT`. `OUT` is
opened and ended as log 10 says. -/
def Obligations.Lz78DecRejects : Prop :=
  ∀ (s : State) (records : List (Nat × Byte)) (phrases : List (List Byte)) (k l : Nat) (more : Bits),
    (∀ max ∈ s.cfg.lz78MaxCode, records.length ≤ max) → lz78Spell [] records = some phrases →
    k < 2 ^ bitLength (records.length + 1 + s.cfg.lz78WidthBias) →
    let field := binN (bitLength (records.length + 1 + s.cfg.lz78WidthBias)) k
    (l < 2 ^ 16 → (255 < l ∨ records.length < k) →
      streamBits s.io.inp.rest = lz78Bits s.cfg.lz78WidthBias 1 records ++ field ++ binN 16 l ++ more →
      ∃ t, exec .lz78Dec s = .next t
        ∧ Raised s (wrote s phrases.flatten t.io.inp false) .corruptCodeword (if 255 < l then l else k) t)
    ∧ (0 < k → more.length < 16 →
      streamBits s.io.inp.rest = lz78Bits s.cfg.lz78WidthBias 1 records ++ field ++ more →
      ∃ t, exec .lz78Dec s = .next t
        ∧ Raised s (wrote s phrases.flatten (allRead s) true) .truncatedStream k t)

/-- 41_lz78.md R156, 43_lzss.md R203: on any input whatever, a decode that ends normally ended by the sentinel. -/
def Obligations.DecodersEndBySentinel : Prop :=
  ∀ s t : State, (exec .lz78Dec s = .next t ∨ exec .lzssDec s = .next t) → t.run = .done →
    t.io.eos = true ∧ t.io.inp.rest = []

/-! ### LZW -/

/-- LZW.ENC (42_lzw.md R170, R172, R174, R176): the codes of the greedy parse, the i-th in `bitLength(255 + i)` bits, then the marker, when
the dictionary has room for what they insert; the insertion past `LZW_MAX_CODE` (10_state.md R44) raises `DictFull` with the code it
could not assign, after the code it follows was written. `OUT` is opened and ended as log 10 says. -/
def Obligations.LzwEncWritesCodes : Prop :=
  (∀ s : State, LzwRoom s.cfg.lzwMaxCode (lzwParse [] [] s.io.inp.rest) →
    ∃ t bs, exec .lzwEnc s = .next t ∧ Completed s (wrote s bs (allRead s) false) t
      ∧ streamBits bs
        = padded (lzwBits 1 (lzwParse [] [] s.io.inp.rest)
            ++ binN (lzwMarkerBits s.cfg.lzwMarkerAlign (lzwParse [] [] s.io.inp.rest).length) 256))
  ∧ ∀ (s : State) (max : Nat) (read rest : List Byte), s.cfg.lzwMaxCode = some max → s.io.inp.rest = read ++ rest →
    (lzwParse [] [] read).length = lzwOverflow max + 1 → (lzwParse [] [] read.dropLast).length = lzwOverflow max →
    ∃ t bs, exec .lzwEnc s = .next t ∧ Raised s (wrote s bs (leaving s rest) false) .dictFull (256 + lzwOverflow max : Nat) t
      ∧ streamBits bs = wholeBytes (lzwBits 1 ((lzwParse [] [] read).take (lzwOverflow max)))

/-- LZW.DEC (42_lzw.md R177, R178): codes and a marker, each at the width of the decoder's own `NEXT`, decode to the phrases the codes
stand for; the bytes after the marker's are not read, and `EOS` stays 0. The code whose insertion would pass `LZW_MAX_CODE` (10_state.md
R44) raises `DictFull` before its phrase is output. `OUT` is opened and ended as log 10 says. -/
def Obligations.LzwDecReadsCodes : Prop :=
  (∀ (s : State) (codes : List Nat) (phrases : List (List Byte)) (rest : List Byte) (tail : Bits),
    LzwRoom s.cfg.lzwMaxCode codes → lzwSpell codes = some phrases → tail.length < 8 →
    (∃ bs, s.io.inp.rest = bs ++ rest
      ∧ streamBits bs = lzwBits 1 codes ++ binN (bitLength (lzwNext codes.length)) 256 ++ tail) →
    ∃ t, exec .lzwDec s = .next t ∧ Completed s (wrote s phrases.flatten (leaving s rest) false) t)
  ∧ ∀ (s : State) (codes : List Nat) (phrases : List (List Byte)) (more : Bits) (max : Nat),
    s.cfg.lzwMaxCode = some max → codes.length = lzwOverflow max + 1 → lzwSpell codes = some phrases →
    streamBits s.io.inp.rest = lzwBits 1 codes ++ more →
    ∃ t, exec .lzwDec s = .next t
      ∧ Raised s (wrote s phrases.dropLast.flatten (leaving s (s.io.inp.rest.drop (((lzwBits 1 codes).length + 7) / 8))) false)
          .dictFull (256 + lzwOverflow max : Nat) t

/-- 42_lzw.md R179: the round trip, for every byte sequence with `LZW_MARKER_ALIGN`, and without it for every one whose number of codes is
not at the corner of R176. `OUT` is opened and ended as log 10 says. -/
def Obligations.LzwRoundTrip : Prop :=
  ∀ s : State, s.cfg.lzwMaxCode = none →
    (s.cfg.lzwMarkerAlign = true ∨ ¬ lzwCorner (lzwParse [] [] s.io.inp.rest).length) →
    ∃ t bs, exec .lzwEnc s = .next t ∧ Completed s (wrote s bs (allRead s) false) t
      ∧ ∀ u : State, u.cfg = s.cfg → u.io.inp.rest = bs →
          ∃ v, exec .lzwDec u = .next v ∧ Completed u (wrote u s.io.inp.rest (allRead u) false) v

/-- 42_lzw.md R180, R181: after any valid codes, a code above `NEXT` (or a first code above 255 that is not the marker) is
`CorruptCodeword` with the code, and the end of the input is `TruncatedStream` with `NEXT`. `OUT` is opened and ended as log 10 says. -/
def Obligations.LzwDecRejects : Prop :=
  ∀ (s : State) (codes : List Nat) (phrases : List (List Byte)) (k : Nat) (more : Bits), LzwRoom s.cfg.lzwMaxCode codes →
    lzwSpell codes = some phrases →
    let width := bitLength (lzwNext codes.length)
    (k < 2 ^ width → (lzwNext codes.length < k ∨ (codes = [] ∧ 256 < k)) →
      streamBits s.io.inp.rest = lzwBits 1 codes ++ binN width k ++ more →
      ∃ t, exec .lzwDec s = .next t
        ∧ Raised s (wrote s phrases.flatten t.io.inp false) .corruptCodeword k t)
    ∧ (more.length < width → streamBits s.io.inp.rest = lzwBits 1 codes ++ more →
      ∃ t, exec .lzwDec s = .next t
        ∧ Raised s (wrote s phrases.flatten (allRead s) true) .truncatedStream (lzwNext codes.length) t)

/-! ### LZSS -/

/-- `find` (43_lzss.md R193): the smallest index at which the sequence lies wholly inside the window. -/
def Obligations.FindTakesOldestMatch : Prop :=
  ∀ win s : List Byte, s ≠ [] →
    match lzssFind win s with
    | some t => t + s.length ≤ win.length ∧ (win.drop t).take s.length = s
        ∧ ∀ t', t' + s.length ≤ win.length → (win.drop t').take s.length = s → t ≤ t'
    | none => ∀ t, t + s.length ≤ win.length → (win.drop t).take s.length ≠ s

/-- LZSS.ENC (43_lzss.md R191, R193 to R196, R197 (b), R199): for every parameter triple R191 accepts, `OUT` gets the header and the packed
records of the choices of R195 and R196, which are a valid coding of the whole input with no match shorter than `MIN_MATCH_LEN`.
`OUT` is opened and ended as log 10 says. -/
def Obligations.LzssEncWritesValidCoding : Prop :=
  ∀ s : State, LzssReady s →
    let records := lzssParse s.windowBits.val s.maxMatchBits.val s.minMatchLen.val [] [] s.io.inp.rest
    ∃ t bs, exec .lzssEnc s = .next t ∧ Completed s (wrote s (lzssHeaderBytes s ++ bs) (allRead s) false) t
      ∧ streamBits bs = padded (lzssBits s.windowBits.val s.maxMatchBits.val records)
      ∧ lzssSpell s.windowBits.val s.maxMatchBits.val [] records = some s.io.inp.rest
      ∧ ∀ o l, LzssRecord.copy o l ∈ records → s.minMatchLen.val ≤ l

/-- LZSS.DEC (43_lzss.md R199, R203, R204): a header and packed valid records decode to what the records spell; the header is loaded into
the registers; the end of the bits between records, or inside a literal record (padding or a cut), ends the decode normally. `OUT` is
opened and ended as log 10 says. -/
def Obligations.LzssDecReadsRecords : Prop :=
  ∀ (s : State) (w m : Byte) (bs symbols : List Byte) (records : List LzssRecord) (tail : Bits), s.io.inp.rest = w :: m :: bs →
    lzssSpell w.toNat m.toNat [] records = some symbols →
    streamBits bs = lzssBits w.toNat m.toNat records ++ tail → LzssEnd tail →
    ∃ t, exec .lzssDec s = .next t
      ∧ Completed { s with windowBits := ⟨w.toNat, true⟩, maxMatchBits := ⟨m.toNat, true⟩ } (wrote s symbols (allRead s) true) t

/-- 43_lzss.md R207: for every byte sequence and every parameter triple, decoding what LZSS.ENC wrote gives the sequence back. `OUT` is
opened and ended as log 10 says. -/
def Obligations.LzssRoundTrip : Prop :=
  ∀ s : State, LzssReady s →
    ∃ t bs, exec .lzssEnc s = .next t ∧ Completed s (wrote s bs (allRead s) false) t
      ∧ ∀ u : State, u.io.inp.rest = bs →
          ∃ v, exec .lzssDec u = .next v
            ∧ Completed { u with windowBits := ⟨s.windowBits.val, true⟩, maxMatchBits := ⟨s.maxMatchBits.val, true⟩ }
                (wrote u s.io.inp.rest (allRead u) true) v

/-- 43_lzss.md R204, R205: fewer than two header bytes, and a match record cut in its fields, are `TruncatedStream`; a match that reaches
outside the window is `CorruptCodeword` with the field bits as one integer. `OUT` is opened and ended as log 10 says. -/
def Obligations.LzssDecRejects : Prop :=
  (∀ s : State, s.io.inp.rest.length < 2 →
    ∃ t, exec .lzssDec s = .next t ∧ Raised s (wrote s [] (allRead s) false) .truncatedStream t.errinfo t)
  ∧ ∀ (s : State) (w m : Byte) (bs symbols : List Byte) (records : List LzssRecord) (o l : Nat) (more : Bits),
    s.io.inp.rest = w :: m :: bs → lzssSpell w.toNat m.toNat [] records = some symbols →
    let loaded := { s with windowBits := ⟨w.toNat, true⟩, maxMatchBits := ⟨m.toNat, true⟩ }
    (o < 2 ^ w.toNat → l < 2 ^ m.toNat → (lastSymbols w.toNat symbols).length < o + l →
      streamBits bs = lzssBits w.toNat m.toNat records ++ true :: (binN w.toNat o ++ binN m.toNat l ++ more) →
      ∃ t, exec .lzssDec s = .next t
        ∧ Raised loaded (wrote s symbols t.io.inp false) .corruptCodeword ((o * 2 ^ m.toNat + l : Nat) : Int) t)
    ∧ (more.length < w.toNat + m.toNat → streamBits bs = lzssBits w.toNat m.toNat records ++ true :: more →
      ∃ t, exec .lzssDec s = .next t
        ∧ Raised loaded (wrote s symbols (allRead s) true) .truncatedStream t.errinfo t)

/-! ### The block units -/

/-- 00_scope.md R14, 44_dct_quant_zigzag.md R221: the model's numbers compute as the exact reals they stand for (log 6): sums, products,
order and `floor`. -/
def Obligations.NumbersAreExactReals : Prop :=
  ∀ (x y : ExactNum) (q : Rat) (n : Int),
    (x.add y).real = x.real + y.real ∧ (x.sub y).real = x.real - y.real ∧ x.neg.real = -x.real
      ∧ (x.mul y).real = x.real * y.real ∧ (x.smul q).real = q * x.real
      ∧ (ExactNum.ofRat q).real = q ∧ (ExactNum.ofInt n).real = n
      ∧ (x.le y = true ↔ x.real ≤ y.real) ∧ (x.lt y = true ↔ x.real < y.real) ∧ x.floor = ⌊x.real⌋

/-- 44_dct_quant_zigzag.md R216, R217: the basis matrix is the one of the formula, and it is orthonormal. -/
def Obligations.BasisIsOrthonormalCosine : Prop :=
  (∀ i j : Fin 8, (dctBasis i.1 j.1).real
      = if i.1 = 0 then 1 / √8 else Real.cos (Real.pi * i.1 * (2 * j.1 + 1) / 16) / 2)
    ∧ (∀ i k : Fin 8, ∑ j : Fin 8, (dctBasis i.1 j.1).real * (dctBasis k.1 j.1).real = if i = k then 1 else 0)
    ∧ ∀ j l : Fin 8, ∑ i : Fin 8, (dctBasis i.1 j.1).real * (dctBasis i.1 l.1).real = if j = l then 1 else 0

/-- 00_scope.md R8, 44_dct_quant_zigzag.md R221: with `NUMERIC` = binary64 every result of the colour transform, the DCT and the quantiser
division is the binary64 number nearest to the exact one, a tie to the even significand, and the basis matrix is as near as one unit
below 1/2. Which results are rounded, and in which order, is the model's choice (log 22). -/
def Obligations.Binary64RoundsToNearest : Prop :=
  (∀ x : ExactNum, |x.real| < 2 ^ 1024 - 2 ^ 970 →
    ∃ m e : Int, (Numeric.binary64.fit x).real = m * 2 ^ e ∧ |m| < 2 ^ 53 ∧ -1074 ≤ e ∧ e ≤ 971 ∧ (2 ^ 52 ≤ |m| ∨ e = -1074)
      ∧ ∀ m' e' : Int, |m'| < 2 ^ 53 → -1074 ≤ e' → e' ≤ 971 →
          |x.real - m * 2 ^ e| ≤ |x.real - m' * 2 ^ e'|
          ∧ (|x.real - m * 2 ^ e| = |x.real - m' * 2 ^ e'| → (m' * 2 ^ e' : ℝ) = m * 2 ^ e ∨ Even m))
  ∧ ∀ i j : Fin 8, |(Numeric.binary64.basis i.1 j.1).real - (dctBasis i.1 j.1).real| ≤ 1 / 2 ^ 54

/-- DCT.FWD and DCT.INV (44_dct_quant_zigzag.md R218, R219): `F = C·(M − 128)·Cᵗ` and `M = Cᵗ·F·C + 128`, exactly with `NUMERIC` = exact, and
with binary64 within the tolerance of R220 for elements up to 4096 (R221; log 22). `OUT` is opened and ended as log 10 says. -/
def Obligations.DctTransformsBlock : Prop :=
  (∀ s : State, (∀ k : Fin 64, s.blk.blkf[k.1].written = true) →
    ∃ t, exec .dctFwd s = .next t
      ∧ Completed { s with blk := { s.blk with blkf := t.blk.blkf } } (readOnly s s.io.inp false) t
      ∧ ∀ k : Fin 64, t.blk.blkf[k.1].written = true
        ∧ (let product := ∑ i : Fin 8, ∑ j : Fin 8,
            (dctBasis (k.1 / 8) i.1).real * (s.blk.blkf[8 * i.1 + j.1].val.real - 128) * (dctBasis (k.1 % 8) j.1).real
          (s.cfg.numeric = .exact → t.blk.blkf[k.1].val.real = product)
            ∧ (s.cfg.numeric = .binary64 → (∀ l : Fin 64, |s.blk.blkf[l.1].val.real| ≤ 4096) →
                |t.blk.blkf[k.1].val.real - product| ≤ 1 / 10 ^ 9)))
  ∧ (∀ s : State, (∀ k : Fin 64, s.blk.blkf[k.1].written = true) →
    ∃ t, exec .dctInv s = .next t
      ∧ Completed { s with blk := { s.blk with blkf := t.blk.blkf } } (readOnly s s.io.inp false) t
      ∧ ∀ k : Fin 64, t.blk.blkf[k.1].written = true
        ∧ (let sample := (∑ u : Fin 8, ∑ v : Fin 8,
            (dctBasis u.1 (k.1 / 8)).real * s.blk.blkf[8 * u.1 + v.1].val.real * (dctBasis v.1 (k.1 % 8)).real) + 128
          (s.cfg.numeric = .exact → t.blk.blkf[k.1].val.real = sample)
            ∧ (s.cfg.numeric = .binary64 → (∀ l : Fin 64, |s.blk.blkf[l.1].val.real| ≤ 4096) →
                |t.blk.blkf[k.1].val.real - sample| ≤ 1 / 10 ^ 9)))

/-- 44_dct_quant_zigzag.md R217, R220: DCT.INV after DCT.FWD restores the block, with no error at all over exact reals, and in binary64 within
1e-9 for samples in 0..255 (R221; log 22). -/
def Obligations.DctRoundTripIsExact : Prop :=
  ∀ s : State, (∀ k : Fin 64, s.blk.blkf[k.1].written = true) →
    ∃ t u, exec .dctFwd s = .next t ∧ exec .dctInv t = .next u
      ∧ (s.cfg.numeric = .exact → u.blk.blkf = s.blk.blkf)
      ∧ (s.cfg.numeric = .binary64 → (∀ k : Fin 64, 0 ≤ s.blk.blkf[k.1].val.real ∧ s.blk.blkf[k.1].val.real ≤ 255) →
          ∀ k : Fin 64, |u.blk.blkf[k.1].val.real - s.blk.blkf[k.1].val.real| ≤ 1 / 10 ^ 9)

/-- Q.SETQ (44_dct_quant_zigzag.md R224, R225, R226): both tables from the quality, `QVALID` set; at quality 50 they are the base tables.
`OUT` is opened and ended as log 10 says. -/
def Obligations.SetqComputesTables : Prop :=
  ∀ s : State, s.quality.written = true → s.quality.val ≤ 100 →
    ∃ t, exec .qSetq s = .next t
      ∧ Completed { s with
          qtLuma := scaledTable s.quality.val s.cfg.baseLuma, qtChroma := scaledTable s.quality.val s.cfg.baseChroma
          qvalid := true } (readOnly s s.io.inp false) t
      ∧ (s.quality.val = 50 → t.qtLuma = s.cfg.baseLuma ∧ t.qtChroma = s.cfg.baseChroma)

/-- Q.QUANT (44_dct_quant_zigzag.md R228, R229): each coefficient divided by its table entry and rounded; over exact reals the default
`ROUND` is `floor(x + 1/2)` and every mode gives a nearest integer, and in binary64 (log 22) the result misses by no more than the
rounding of the quotient and of the sum. Q.DEQUANT (R228, R230): the exact integer product. R231: the two together move no coefficient by more
than half its table entry, up to that rounding. The values of `ROUND` beside the default are the model's (log 15). `OUT` is opened and
ended as log 10 says. -/
def Obligations.QuantAndDequantUseSelectedTable : Prop :=
  (∀ s : State, (∀ k : Fin 64, s.blk.blkf[k.1].written = true) → s.qvalid = true →
    ∃ t, exec .qQuant s = .next t
      ∧ Completed { s with blk := { s.blk with blki := t.blk.blki } } (readOnly s s.io.inp false) t
      ∧ ∀ k : Fin 64, t.blk.blki[k.1].written = true
        ∧ (let entry := if s.sel.val % 2 = 1 then s.qtChroma[k.1] else s.qtLuma[k.1]
           let quotient := s.blk.blkf[k.1].val.real / entry
           (s.cfg.numeric = .exact → |quotient - t.blk.blki[k.1].val| ≤ 1 / 2
             ∧ (s.cfg.round = .halfUp → t.blk.blki[k.1].val = ⌊quotient + 1 / 2⌋))
           ∧ (s.cfg.numeric = .binary64 → |s.blk.blkf[k.1].val.real| ≤ 2 ^ 1000 →
              |quotient - t.blk.blki[k.1].val| ≤ 1 / 2 + (|quotient| + 1) / 2 ^ 52)))
  ∧ (∀ s : State, (∀ k : Fin 64, s.blk.blki[k.1].written = true) → s.qvalid = true →
    ∃ t, exec .qDequant s = .next t
      ∧ Completed { s with blk := { s.blk with blkf := t.blk.blkf } } (readOnly s s.io.inp false) t
      ∧ ∀ k : Fin 64, t.blk.blkf[k.1].written = true
        ∧ t.blk.blkf[k.1].val.real
          = s.blk.blki[k.1].val * (if s.sel.val % 2 = 1 then s.qtChroma[k.1] else s.qtLuma[k.1]))
  ∧ ∀ s : State, (∀ k : Fin 64, s.blk.blkf[k.1].written = true) → s.qvalid = true → s.TablesSound →
    ∃ t u, exec .qQuant s = .next t ∧ exec .qDequant t = .next u
      ∧ ∀ k : Fin 64,
          let entry := if s.sel.val % 2 = 1 then s.qtChroma[k.1] else s.qtLuma[k.1]
          let moved := |u.blk.blkf[k.1].val.real - s.blk.blkf[k.1].val.real|
          (s.cfg.numeric = .exact → moved ≤ (entry : ℝ) / 2)
            ∧ (s.cfg.numeric = .binary64 → |s.blk.blkf[k.1].val.real| ≤ 2 ^ 1000 →
                moved ≤ (entry : ℝ) / 2 + (|s.blk.blkf[k.1].val.real| + entry) / 2 ^ 52)

/-- ZZ.FWD and ZZ.INV (44_dct_quant_zigzag.md R235, R236): values are moved along the permutation, every element written once. `OUT` is
opened and ended as log 10 says. -/
def Obligations.ZigzagMovesAlongPermutation : Prop :=
  (∀ s : State, (∀ k : Fin 64, s.blk.blki[k.1].written = true) →
    ∃ t, exec .zzFwd s = .next t
      ∧ Completed { s with blk := { s.blk with seq := t.blk.seq } } (readOnly s s.io.inp false) t
      ∧ ∀ k : Fin 64, t.blk.seq[k.1] = s.blk.blki[s.cfg.zigzag[k.1]])
  ∧ (∀ s : State, (∀ k : Fin 64, s.blk.seq[k.1].written = true) →
    ∃ t, exec .zzInv s = .next t
      ∧ Completed { s with blk := { s.blk with blki := t.blk.blki } } (readOnly s s.io.inp false) t
      ∧ ∀ k : Fin 64, t.blk.blki[s.cfg.zigzag[k.1]] = s.blk.seq[k.1])

/-- 44_dct_quant_zigzag.md R237: each of the two undoes the other, for every content and every configured permutation. -/
def Obligations.ZigzagRoundTrip : Prop :=
  (∀ s : State, (∀ k : Fin 64, s.blk.blki[k.1].written = true) →
    ∃ t u, exec .zzFwd s = .next t ∧ exec .zzInv t = .next u ∧ u.blk.blki = s.blk.blki)
  ∧ ∀ s : State, (∀ k : Fin 64, s.blk.seq[k.1].written = true) →
    ∃ t u, exec .zzInv s = .next t ∧ exec .zzFwd t = .next u ∧ u.blk.seq = s.blk.seq

/-! ### Huffman codebooks and values -/

/-- HUF.ENC (45_huffman.md R250 to R252, R256, R257): the codeword of the first leaf, left to right, that holds the symbol goes out as
characters, its value and length to `RES` and `RES2`; without such a leaf it is `CorruptCodeword` with nothing written. For a DC table the
pruned walk finds that leaf when the categories increase from left to right; on any table it answers no other category's codeword. For a
negative `A` the exception is the model's reading (DEDUCED, log 13). `OUT`
is opened and ended as log 10 says. -/
def Obligations.HufEncPutsCodeword : Prop :=
  (∀ s : State, s.a.written = true →
    (s.tableIndex = 2 ∨ s.tableIndex = 3 ∨ Increasing (codebook s.cfg.toConfig s.tableIndex)) →
    match (leaves (codebook s.cfg.toConfig s.tableIndex)).find? (fun l => decide ((l.1 : Int) = s.a.val)) with
    | some (_, code) =>
      ∃ t, exec .hufEnc s = .next t
        ∧ Completed { s with res := ⟨valOf code, true⟩, res2 := ⟨code.length, true⟩ } (wrote s (chars code) s.io.inp false) t
    | none =>
      ∃ t, exec .hufEnc s = .next t ∧ Raised s (wrote s [] s.io.inp false) .corruptCodeword s.a.val t)
  ∧ (∀ (t : Trie) (k : Int) (code : Bits), lookupDc t k = some code → ∃ sym : Nat, (sym : Int) = k ∧ (sym, code) ∈ leaves t)

/-- HUF.DEC (45_huffman.md R253, R254, R258): a codeword of the selected table decodes to its symbol and what follows is left unread; when
the bits end before a codeword does, it is `TruncatedStream` if a codeword begins with them, else `CorruptCodeword` with the number of
bits after which none does. `OUT` is opened and ended as log 10 says. -/
def Obligations.HufDecReadsCodeword : Prop :=
  (∀ (s : State) (sym : Nat) (code : Bits) (rest : List Byte), (sym, code) ∈ leaves (codebook s.cfg.toConfig s.tableIndex) →
    s.io.inp.rest = chars code ++ rest →
    ∃ t, exec .hufDec s = .next t
      ∧ Completed { s with res := ⟨(sym : Int), true⟩ } (readOnly s (leaving s rest) false) t)
  ∧ (∀ (s : State) (bits : Bits) (sym : Nat) (code : Bits), (sym, code) ∈ leaves (codebook s.cfg.toConfig s.tableIndex) →
    bits <+: code → bits ≠ code → s.io.inp.rest = chars bits →
    ∃ t, exec .hufDec s = .next t ∧ Raised s (readOnly s (allRead s) false) .truncatedStream t.errinfo t)
  ∧ ∀ (s : State) (bits : Bits) (rest : List Byte), s.io.inp.rest = chars bits ++ rest →
    (∀ l ∈ leaves (codebook s.cfg.toConfig s.tableIndex), ¬ bits <+: l.2) →
    (bits ≠ [] → ∃ l ∈ leaves (codebook s.cfg.toConfig s.tableIndex), bits.dropLast <+: l.2 ∧ bits.dropLast ≠ l.2) →
    ∃ t, exec .hufDec s = .next t ∧ Raised s (readOnly s (leaving s rest) false) .corruptCodeword (bits.length : Int) t

/-- ENT.ENC (46_rle_entropy.md R266, R267). `OUT` is opened and ended as log 10 says. -/
def Obligations.EntEncPutsValueBits : Prop :=
  ∀ s : State, s.a.written = true →
    ∃ t bits, exec .entEnc s = .next t
      ∧ Completed { s with res := ⟨valOf bits, true⟩, res2 := ⟨bitLengthInt s.a.val, true⟩ }
          (wrote s (chars bits) s.io.inp false) t
      ∧ (s.a.val = 0 → bits = [])
      ∧ (s.a.val ≠ 0 → 2 ^ (bits.length - 1) ≤ s.a.val.natAbs ∧ s.a.val.natAbs < 2 ^ bits.length
          ∧ valOf bits = if 0 < s.a.val then s.a.val.natAbs else 2 ^ bits.length - 1 - s.a.val.natAbs)

/-- ENT.DEC (46_rle_entropy.md R268, 45_huffman.md R257): N characters read as a value, the rest left; too few of them are
`TruncatedStream`, another character is `CorruptCodeword` with it. `OUT` is opened and ended as log 10 says. -/
def Obligations.EntDecReadsValue : Prop :=
  (∀ (s : State) (bits : Bits) (rest : List Byte), s.n.written = true → bits.length = s.n.val →
    s.io.inp.rest = chars bits ++ rest →
    ∃ t, exec .entDec s = .next t
      ∧ Completed { s with res := t.res } (readOnly s (leaving s rest) false) t ∧ t.res.written = true
      ∧ t.res.val = match bits with
          | [] => 0
          | true :: _ => (valOf bits : Int)
          | false :: _ => (valOf bits : Int) - (2 ^ s.n.val - 1))
  ∧ (∀ (s : State) (bits : Bits), s.n.written = true → bits.length < s.n.val → s.io.inp.rest = chars bits →
    ∃ t, exec .entDec s = .next t ∧ Raised s (readOnly s (allRead s) false) .truncatedStream t.errinfo t)
  ∧ ∀ (s : State) (bits : Bits) (c : Byte) (rest : List Byte), s.n.written = true → bits.length < s.n.val →
    s.io.inp.rest = chars bits ++ c :: rest → c ∉ [0x30, 0x31] →
    ∃ t, exec .entDec s = .next t
      ∧ (c = 0x0A → Raised s (readOnly s (leaving s rest) false) .truncatedStream t.errinfo t)
      ∧ (c ≠ 0x0A → Raised s (readOnly s (leaving s rest) false) .corruptCodeword (c.toNat : Int) t)

/-- 46_rle_entropy.md R275: the value code is a bijection between the integers of size n and the strings of n bits, positive values on the
strings that start with 1, and `EntDecode` on the characters of a value's bits returns the value and leaves what follows. -/
def Obligations.ValueCodeIsBijection : Prop :=
  (∀ v : Int, entValue (entBits v) = v ∧ (entBits v).length = bitLengthInt v)
    ∧ (∀ bits : Bits, bitLengthInt (entValue bits) = bits.length ∧ entBits (entValue bits) = bits)
    ∧ (∀ (v : Int) (b : Bool) (bits : Bits), entBits v = b :: bits → (b = true ↔ 0 < v))
    ∧ ∀ (v : Int) (rest : List Byte) (c : Coder), c.line = chars (entBits v) ++ rest →
        entDecode (bitLengthInt v) c = .ok v { c with line := rest, pos := c.pos + bitLengthInt v }

/-! ### The run-length coder -/

/-- RLE.ENC and RLE.DEC (46_rle_entropy.md R270, R272, R276, R277, R280): a block whose symbols the selected codebooks hold is coded as
its symbols' codewords and value bits, and decoding the characters, whatever follows them, gives the block back and leaves the rest
unread. Codebooks with the symbols of coefficients of at most 11 (DC) and 10 (AC) bits hold every such block. `OUT` is opened and ended as log
10 says. -/
def Obligations.BlockCodeRoundTrip : Prop :=
  (∀ s : State, (∀ k : Fin 64, s.blk.seq[k.1].written = true) → Held (seqItems s) →
    ∃ t, exec .rleEnc s = .next t ∧ Completed s (wrote s (chars (itemBits (seqItems s))) s.io.inp false) t
      ∧ ∀ (u : State) (rest : List Byte), u.cfg = s.cfg → u.chroma = s.chroma →
          u.io.inp.rest = chars (itemBits (seqItems s)) ++ rest →
          ∃ v, exec .rleDec u = .next v
            ∧ Completed { u with blk := { u.blk with seq := s.blk.seq } } (readOnly u (leaving u rest) false) v)
  ∧ ∀ s : State, CodesSymbols s.cfg.toConfig s.chroma → SizesFit s.blk.seq → Held (seqItems s)

/-- RLE.ENC (46_rle_entropy.md R269 to R272): the first symbol of the block that its codebook does not hold is `CorruptCodeword` with it (a
DC category, an AC symbol, or a coefficient of a size above 15, which has no symbol), the bits before it on `OUT`. An all-zero block is
the DC codeword of category 0 and the end-of-block codeword. `OUT` is opened and ended as log 10 says. -/
def Obligations.BlockCodeEdges : Prop :=
  (∀ (s : State) (before after : List BlockItem) (item : BlockItem), (∀ k : Fin 64, s.blk.seq[k.1].written = true) →
    seqItems s = before ++ item :: after → Held before → item.code = none →
    ∃ t, exec .rleEnc s = .next t
      ∧ Raised s (wrote s (chars (itemBits before)) s.io.inp false) .corruptCodeword item.blame t)
  ∧ ∀ (s : State) (dc eob : Bits), (∀ k : Fin 64, s.blk.seq[k.1] = ⟨0, true⟩) →
    lookupDc (dcTrie s.cfg.toConfig s.chroma) 0 = some dc → lookupAc (acTrie s.cfg.toConfig s.chroma) 0x00 = some eob →
    ∃ t, exec .rleEnc s = .next t ∧ Completed s (wrote s (chars (dc ++ eob)) s.io.inp false) t

/-- RLE.DEC (46_rle_entropy.md R276, R277, R278): after any valid beginning of a block code, a symbol above 255 or one whose coefficient
would pass position 63, a (15,0) that would, and a pair (r,0) with r neither 0 nor 15 are `CorruptCodeword` with the symbol; bits that
begin no codeword are `CorruptCodeword` (45_huffman.md R253) with their number, counted from the start of that codeword: that R253's "bits
consumed so far" are those of this codeword, not of the whole line, is the model's reading (DEDUCED, log 13), and so is that a symbol
above 255 fails at every position (R276; DEDUCED, log 13). `OUT` is opened and ended as log 10 says. -/
def Obligations.IllegalBlockCodeRejected : Prop :=
  ∀ (s : State) (done : List Int) (bits : Bits) (rest : List Byte), BlockPrefix s done bits → done.length < 64 →
    (∀ (sym : Nat) (code : Bits), (sym, code) ∈ leaves (nextTrie s done) → SymbolIllegal done sym →
      s.io.inp.rest = chars (bits ++ code) ++ rest →
      ∃ t, exec .rleDec s = .next t
        ∧ Raised { s with blk := { s.blk with seq := t.blk.seq } } (readOnly s (leaving s rest) false) .corruptCodeword (sym : Int) t)
    ∧ ∀ part : Bits, (∀ l ∈ leaves (nextTrie s done), ¬ part <+: l.2) →
      (part ≠ [] → ∃ l ∈ leaves (nextTrie s done), part.dropLast <+: l.2 ∧ part.dropLast ≠ l.2) →
      s.io.inp.rest = chars (bits ++ part) ++ rest →
      ∃ t, exec .rleDec s = .next t
        ∧ Raised { s with blk := { s.blk with seq := t.blk.seq } } (readOnly s (leaving s rest) false) .corruptCodeword
            (part.length : Int) t

/-- RLE.DEC (46_rle_entropy.md R276, R277, R279; 45_huffman.md R257): any valid block code, one that fills position 63 or one that (0,0)
ends, gives its coefficients and leaves the rest unread; when the characters end inside a codeword or a value it is
`TruncatedStream`, and another character there is `CorruptCodeword` with it. `OUT` is opened and ended as log 10 says. -/
def Obligations.RleDecReadsBlockCode : Prop :=
  ∀ (s : State) (done : List Int) (bits : Bits), BlockPrefix s done bits →
    (∀ (seq : Vector Int 64) (rest : List Byte) (eob : Bits),
      (done = seq.toList ∧ eob = [])
        ∨ (done ≠ [] ∧ done.length < 64 ∧ (0x00, eob) ∈ leaves (nextTrie s done)
            ∧ done ++ List.replicate (64 - done.length) 0 = seq.toList) →
      s.io.inp.rest = chars (bits ++ eob) ++ rest →
      ∃ t, exec .rleDec s = .next t
        ∧ Completed { s with blk := { s.blk with seq := seq.map fun v => ⟨v, true⟩ } } (readOnly s (leaving s rest) false) t)
    ∧ (done.length < 64 → ∀ (sym : Nat) (code part : Bits) (stop : List Byte), (sym, code) ∈ leaves (nextTrie s done) →
      (part <+: code ∧ part ≠ code)
        ∨ (∃ (zeros size : Nat) (raw : Bits), SymbolFits done sym zeros size ∧ raw.length < size ∧ part = code ++ raw) →
      (∀ c ∈ stop.head?, c ∉ [0x30, 0x31]) → s.io.inp.rest = chars (bits ++ part) ++ stop →
      ∃ t, exec .rleDec s = .next t ∧ StopsAt { s with blk := { s.blk with seq := t.blk.seq } } stop t)

/-! ### The image path -/

/-- CT.FWD (47_image_pipeline.md R286): the three linear forms of every pixel, exactly with `NUMERIC` = exact and within 1e-12 in either
arithmetic (44_dct_quant_zigzag.md R221; log 22); nothing outside the image changes. `OUT` is opened and ended as log 10 says. -/
def Obligations.CtFwdTransformsPixels : Prop :=
  ∀ s : State, SidesReady s → PlanesReady s.rgb s.height.val s.width.val →
    ∃ t, exec .ctFwd s = .next t ∧ Completed { s with ycc := t.ycc } (readOnly s s.io.inp false) t
      ∧ (∀ y x : Nat, y < s.height.val → x < s.width.val →
          let r := sampleAt s.rgb 0 y x
          let g := sampleAt s.rgb 1 y x
          let b := sampleAt s.rgb 2 y x
          let form : Fin 3 → Rat := fun c =>
            if c = 0 then 299 / 1000 * r + 587 / 1000 * g + 114 / 1000 * b
            else if c = 1 then -(1687 / 10000) * r - 3313 / 10000 * g + 1 / 2 * b + 128
            else 1 / 2 * r - 4187 / 10000 * g - 813 / 10000 * b + 128
          ∀ c : Fin 3, ∃ v, t.ycc.read ⟨c, y, x⟩ = some v ∧ (s.cfg.numeric = .exact → v = .ofRat (form c))
            ∧ |v.real - form c| ≤ 1 / 10 ^ 12)
      ∧ ∀ k : Key, ¬ (k.y < s.height.val ∧ k.x < s.width.val) → t.ycc.read k = s.ycc.read k

/-- CT.INV (47_image_pipeline.md R287, R288): the three linear forms of every pixel, clamped to 0..255 and truncated; with `NUMERIC` =
binary64 what is clamped is within 1e-11 of the form for elements up to 1024 (44_dct_quant_zigzag.md R221; log 22). Nothing outside the
image changes. `OUT` is opened and ended as log 10 says. -/
def Obligations.CtInvTransformsPixels : Prop :=
  ∀ s : State, SidesReady s → PlanesReady s.ycc s.height.val s.width.val →
    ∃ t, exec .ctInv s = .next t ∧ Completed { s with rgb := t.rgb } (readOnly s s.io.inp false) t
      ∧ (∀ (y x : Nat) (l cb cr : ExactNum), y < s.height.val → x < s.width.val →
          s.ycc.read ⟨0, y, x⟩ = some l → s.ycc.read ⟨1, y, x⟩ = some cb → s.ycc.read ⟨2, y, x⟩ = some cr →
          let form : Fin 3 → ℝ := fun c =>
            if c = 0 then l.real + 1.402 * (cr.real - 128)
            else if c = 1 then l.real - 0.34414 * (cb.real - 128) - 0.71414 * (cr.real - 128)
            else l.real + 1.772 * (cb.real - 128)
          ∀ c : Fin 3, ∃ (v : Byte) (channel : ℝ), t.rgb.read ⟨c, y, x⟩ = some v
            ∧ (v.toNat : Int) = ⌊max 0 (min 255 channel)⌋ ∧ (s.cfg.numeric = .exact → channel = form c)
            ∧ (s.cfg.numeric = .binary64 → |l.real| ≤ 1024 → |cb.real| ≤ 1024 → |cr.real| ≤ 1024 →
                |channel - form c| ≤ 1 / 10 ^ 11))
      ∧ ∀ k : Key, ¬ (k.y < s.height.val ∧ k.x < s.width.val) → t.rgb.read k = s.rgb.read k

/-- 47_image_pipeline.md R289: CT.INV after CT.FWD gives every channel of every pixel back, or that value less 1; a gray pixel exactly. The
rule speaks of exact arithmetic; in binary64 a gray pixel can lose 1 too (R306). -/
def Obligations.ColourRoundTripLosesAtMostOne : Prop :=
  ∀ s : State, s.cfg.numeric = .exact → SidesReady s → PlanesReady s.rgb s.height.val s.width.val →
    ∃ t u, exec .ctFwd s = .next t ∧ exec .ctInv t = .next u
      ∧ ∀ y x : Nat, y < s.height.val → x < s.width.val →
          (∀ (c : Fin 3) (before after : Byte), s.rgb.read ⟨c, y, x⟩ = some before → u.rgb.read ⟨c, y, x⟩ = some after →
            after.toNat = before.toNat ∨ after.toNat + 1 = before.toNat)
          ∧ ∀ g : Byte, (∀ c : Fin 3, s.rgb.read ⟨c, y, x⟩ = some g) → ∀ c : Fin 3, u.rgb.read ⟨c, y, x⟩ = some g

/-- IMG.ENC (47_image_pipeline.md R290 to R293, R296, R297): `YCC` and the tables are those of CT.FWD and Q.SETQ; when every tile of the three
planes has a code, by DCT.FWD, Q.QUANT, ZZ.FWD and RLE.ENC run one by one on its padded samples, `OUT` gets the header line and for Y, Cb
and Cr a line of its tiles' codes in row-major order, and the block buffers hold the last tile. The first tile at which RLE.ENC
raises ends IMG.ENC the same way, with the header and the finished lines on `OUT`. Over exact reals, with codebooks complete for the
sizes that samples can give (95_test_vectors.md V47.10), every tile has a code. `OUT` is opened and ended as log 10 says. -/
def Obligations.ImgEncWritesFourLines : Prop :=
  ∀ s : State, ImgReady s →
    ∃ a u, Runs .ctFwd s a ∧ Runs .qSetq a u
      ∧ (∀ codes : Fin 3 → Nat → Bits, (∀ p n, n < tileCount s → ∃ b, TileCoded u p n (codes p n) b) →
          let line := fun p => chars ((List.range (tileCount s)).flatMap (codes p)) ++ [lineFeed]
          ∃ t b, exec .imgEnc s = .next t ∧ TileCoded u 2 (tileCount s - 1) (codes 2 (tileCount s - 1)) b
            ∧ Completed { headed s s.height.val s.width.val s.quality.val with ycc := u.ycc, blk := b.blk }
                (wrote s (headerLine s.height.val s.width.val s.quality.val ++ line 0 ++ line 1 ++ line 2) s.io.inp false) t)
      ∧ (∀ (codes : Fin 3 → Nat → Bits) (p : Fin 3) (n : Nat) (b c : State), n < tileCount s →
          (∀ p' n', n' < tileCount s → p' < p ∨ (p' = p ∧ n' < n) → ∃ d, TileCoded u p' n' (codes p' n') d) →
          TileQuantised u p n b → exec .rleEnc b = .next c → c.run = .error →
          let line := fun p => chars ((List.range (tileCount s)).flatMap (codes p)) ++ [lineFeed]
          ∃ t, exec .imgEnc s = .next t
            ∧ Raised { headed s s.height.val s.width.val s.quality.val with ycc := u.ycc, blk := c.blk }
                (wrote s (headerLine s.height.val s.width.val s.quality.val
                  ++ (([0, 1, 2] : List (Fin 3)).filter (· < p)).flatMap line) s.io.inp false) .corruptCodeword c.errinfo t)
      ∧ (s.cfg.numeric = .exact → CodesSymbols s.cfg.toConfig false → CodesSymbols s.cfg.toConfig true →
          (∀ p n, n < tileCount s → ∃ code b, TileCoded u p n code b) ∧ ∃ t, Runs .imgEnc s t)

/-- 47_image_pipeline.md R301, R307: decoding what a completed IMG.ENC wrote completes, with the same height, width and quality, and reads
no byte after the third line; every element of `YCC` inside the image is that of its tile, quantised by the encoder's commands and
restored by ZZ.INV, Q.DEQUANT and DCT.INV, and `RGB` is what CT.INV makes of it. `OUT` is opened and ended as log 10 says. -/
def Obligations.ImgDecReadsWhatImgEncWrote : Prop :=
  ∀ s t : State, ImgReady s → Runs .imgEnc s t →
    ∃ a u bs, Runs .ctFwd s a ∧ Runs .qSetq a u ∧ t.io.out.bytes = s.io.out.opened.bytes ++ bs
      ∧ ∀ (d : State) (rest : List Byte), d.cfg = s.cfg → d.io.inp.rest = bs ++ rest →
          let loaded := headed d s.height.val s.width.val s.quality.val
          ∃ v w, exec .imgDec d = .next v ∧ Runs .ctInv { loaded with ycc := v.ycc } w
            ∧ Completed { loaded with ycc := v.ycc, rgb := w.rgb, blk := v.blk } (readOnly d (leaving d rest) false) v
            ∧ (∀ p : Fin 3, ∃ tiles : Nat → State,
                (∀ n, n < tileCount s → ∃ c, TileQuantised u p n c ∧ TileRestored c (tiles n))
                ∧ PlaneHolds v.ycc s.height.val s.width.val p (fun n => some (tiles n).blk.blkf))
            ∧ (∀ k : Key, ¬ (k.y < s.height.val ∧ k.x < s.width.val) → v.ycc.read k = d.ycc.read k)
            ∧ PlanesReady v.rgb s.height.val s.width.val

/-- IMG.DEC (47_image_pipeline.md R290 to R295, R301, R303; 46_rle_entropy.md R279), on any stream with a good header line: the registers and the
tables are set from it; when each of the next three lines decodes, by RLE.DEC, ZZ.INV, Q.DEQUANT and DCT.INV run one by one, to as many tiles
as the image has and nothing is left of it, `YCC` inside the image holds those tiles and `RGB` is what CT.INV makes of it. A tile at
which RLE.DEC raises ends IMG.DEC with the same exception, so a line that is too short or missing is `TruncatedStream` and a stray
character `CorruptCodeword` with it; what is left of a line is `CorruptCodeword` with `POS`; then `RGB` is unchanged. That undefined
bits give the same `ERRINFO` as in RLE.DEC, counted from their codeword and not from the line's start, is the model's reading (DEDUCED,
log 13). `OUT` is opened and ended as log 10 says. -/
def Obligations.ImgDecDecodesTiles : Prop :=
  ∀ (s : State) (h w q : Nat), GoodHeader (firstLine s.io.inp.rest) h w q →
    let count := tileSide h * tileSide w
    let u := headed s h w q
    let input := fun n => readOnly s (leaving s (afterLines n s.io.inp.rest)) (linesHitEnd n s.io.inp.rest)
    (∀ tiles : Fin 3 → List (Vector (Reg ExactNum) 64),
      (∀ p, (tiles p).length = count ∧ TilesDecoded u p (planeLine p s.io.inp.rest) (tiles p) []) →
      ∃ t v, exec .imgDec s = .next t ∧ Runs .ctInv { u with ycc := t.ycc } v
        ∧ Completed { u with ycc := t.ycc, rgb := v.rgb, blk := t.blk } (input 4) t
        ∧ (∀ p, PlaneHolds t.ycc h w p (fun n => (tiles p)[n]?))
        ∧ ∀ k : Key, ¬ (k.y < h ∧ k.x < w) → t.ycc.read k = s.ycc.read k)
    ∧ ∀ (p : Fin 3) (tiles : Fin 3 → List (Vector (Reg ExactNum) 64)) (before : List (Vector (Reg ExactNum) 64)) (left : List Byte),
      (∀ p', p' < p → (tiles p').length = count ∧ TilesDecoded u p' (planeLine p' s.io.inp.rest) (tiles p') []) →
      TilesDecoded u p (planeLine p s.io.inp.rest) before left →
      (∀ (c : State) (e : Exc), before.length < count →
        exec .rleDec { u with sel := planeSel p, io := { u.io with inp := ⟨left, 0⟩ } } = .next c → c.run = .error →
        c.err = some e →
        ∃ t, exec .imgDec s = .next t
          ∧ Raised { u with ycc := t.ycc, blk := t.blk } (input (p.1 + 2)) e t.errinfo t
          ∧ (e = .corruptCodeword → t.errinfo = c.errinfo))
      ∧ (before.length = count → left ≠ [] →
        ∃ t, exec .imgDec s = .next t
          ∧ Raised { u with ycc := t.ycc, blk := t.blk } (input (p.1 + 2)) .corruptCodeword
              ((planeLine p s.io.inp.rest).length - left.length : Nat) t)

/-- 47_image_pipeline.md R305, for any sides, any quality and any tables that code category 0 and the end of block: an image of solid gray
128 is coded as that pair of codewords for every tile, and decodes to exactly 128 everywhere, in
binary64 too (log 22). `OUT` is opened and ended as log 10 says. -/
def Obligations.SolidGrayRoundTrip : Prop :=
  ∀ (s : State) (dcY eobY dcC eobC : Bits), ImgReady s →
    (∀ (c : Fin 3) (y x : Nat), y < s.height.val → x < s.width.val → s.rgb.read ⟨c, y, x⟩ = some 128) →
    lookupDc s.cfg.dcLuma 0 = some dcY → lookupAc s.cfg.acLuma 0x00 = some eobY →
    lookupDc s.cfg.dcChroma 0 = some dcC → lookupAc s.cfg.acChroma 0x00 = some eobC →
    let lineY := chars (List.replicate (tileCount s) (dcY ++ eobY)).flatten ++ [lineFeed]
    let lineC := chars (List.replicate (tileCount s) (dcC ++ eobC)).flatten ++ [lineFeed]
    ∃ t, exec .imgEnc s = .next t ∧ t.run = .done
      ∧ t.io.out.bytes
        = s.io.out.opened.bytes ++ (headerLine s.height.val s.width.val s.quality.val ++ lineY ++ lineC ++ lineC)
      ∧ ∀ u : State, u.cfg = s.cfg →
          u.io.inp.rest = headerLine s.height.val s.width.val s.quality.val ++ lineY ++ lineC ++ lineC →
          ∃ v, exec .imgDec u = .next v ∧ v.run = .done
            ∧ ∀ (c : Fin 3) (y x : Nat), y < s.height.val → x < s.width.val → v.rgb.read ⟨c, y, x⟩ = some 128

/-- 47_image_pipeline.md R295, R302: a header line that is not three binary numbers in range is `MalformedHeader` with `ERRINFO` 0, before
any register or memory is written. `OUT` is opened and ended as log 10 says. -/
def Obligations.MalformedHeaderRejected : Prop :=
  ∀ (s : State) (line rest : List Byte), lineFeed ∉ line →
    (s.io.inp.rest = line ++ lineFeed :: rest ∨ (s.io.inp.rest = line ∧ rest = [])) →
    (∀ h w q, ¬ GoodHeader line h w q) →
    ∃ t, exec .imgDec s = .next t ∧ Raised s (readOnly s (leaving s rest) t.io.eos) .malformedHeader 0 t
      ∧ (t.io.eos = true ↔ s.io.inp.rest = line)
end

