-- ==== Sys2Proof/Laws/Bits.lean ====
section
/-! SUPPORT. Integers and bit-strings: `bin_n` and `val` undo each other, and the bits of a byte. -/

namespace Sys2Proof.Machine

open Sys2Proof.Claims

@[simp] theorem binN_length (n v : Nat) : (binN n v).length = n := by
  induction n with
  | zero => rfl
  | succ n ih => simp [binN, ih]

/-- Reading a longer string: the value so far, shifted, and the value of the rest. -/
theorem valOf_foldl (s : Bits) (v : Nat) : s.foldl (fun v b => 2 * v + b.toNat) v = v * 2 ^ s.length + valOf s := by
  induction s generalizing v with
  | nil => simp [valOf]
  | cons b s ih =>
    simp only [List.foldl_cons, List.length_cons, valOf]
    rw [ih, ih (2 * 0 + b.toNat)]
    ring

@[simp] theorem valOf_nil : valOf [] = 0 := rfl

theorem valOf_cons (b : Bool) (s : Bits) : valOf (b :: s) = b.toNat * 2 ^ s.length + valOf s := by
  have := valOf_foldl s b.toNat
  simpa [valOf] using this

theorem valOf_append (s t : Bits) : valOf (s ++ t) = valOf s * 2 ^ t.length + valOf t := by
  unfold valOf
  rw [List.foldl_append]
  exact valOf_foldl t _

theorem valOf_lt (s : Bits) : valOf s < 2 ^ s.length := by
  induction s with
  | nil => simp
  | cons b s ih =>
    rw [valOf_cons, List.length_cons, pow_succ]
    cases b <;> simp <;> omega

/-- `val(bin_n(v)) = v mod 2^n` (00_scope.md R10). -/
theorem valOf_binN (n v : Nat) : valOf (binN n v) = v % 2 ^ n := by
  induction n with
  | zero => simp [binN, Nat.mod_one]
  | succ n ih =>
    rw [binN, valOf_cons, ih, binN_length, pow_succ, Nat.mod_mul, Nat.testBit_eq_decide_div_mod_eq]
    rcases Nat.mod_two_eq_zero_or_one (v / 2 ^ n) with h | h
    · simp [h]
    · simp [h]; ring

/-- `bin_n` looks at the n low bits only. -/
theorem binN_mod (n v : Nat) : binN n (v % 2 ^ n) = binN n v := by
  have key : ∀ m, m ≤ n → binN m (v % 2 ^ n) = binN m v := by
    intro m
    induction m with
    | zero => intro _; rfl
    | succ m ih =>
      intro h
      rw [binN, binN, ih (by omega), Nat.testBit_mod_two_pow]
      simp [show m < n by omega]
  exact key n le_rfl

/-- `bin_{|s|}(val(s)) = s`. -/
theorem binN_valOf (s : Bits) : binN s.length (valOf s) = s := by
  induction s with
  | nil => rfl
  | cons b s ih =>
    have hlt := valOf_lt s
    rw [List.length_cons, binN, valOf_cons]
    congr 1
    · rw [Nat.testBit_eq_decide_div_mod_eq, Nat.mul_comm, Nat.mul_add_div (by positivity), Nat.div_eq_of_lt hlt]
      cases b <;> simp
    · rw [← binN_mod, Nat.mul_comm, Nat.mul_add_mod, Nat.mod_eq_of_lt hlt, ih]

/-- `bitLength(v) ≤ n` exactly when v fits n bits (R11). -/
theorem bitLength_le (v n : Nat) : bitLength v ≤ n ↔ v < 2 ^ n := by
  unfold bitLength
  split
  · next h => simp [h]
  · next h => rw [Nat.succ_le_iff, Nat.log2_lt h]

theorem lt_pow_bitLength (v : Nat) : v < 2 ^ bitLength v := (bitLength_le v _).1 le_rfl

/-- For v ≥ 1 the n of R11: `2^(n−1) ≤ v`. -/
theorem pow_bitLength_le {v : Nat} (h : v ≠ 0) : 2 ^ (bitLength v - 1) ≤ v := by
  have := (Nat.le_log2 h).1 le_rfl
  simpa [bitLength, h] using this

theorem bitLength_pos {v : Nat} (h : v ≠ 0) : 0 < bitLength v := by simp [bitLength, h]

theorem bitLength_mono {v w : Nat} (h : v ≤ w) : bitLength v ≤ bitLength w :=
  (bitLength_le v _).2 (lt_of_le_of_lt h (lt_pow_bitLength w))

@[simp] theorem byteBits_length (b : Byte) : (byteBits b).length = 8 := binN_length _ _

/-- The bits of a byte spell it. -/
theorem valOf_byteBits (b : Byte) : valOf (byteBits b) = b.toNat := by
  rw [byteBits, valOf_binN, Nat.mod_eq_of_lt (by simpa using b.isLt)]

@[simp] theorem streamBits_nil : streamBits [] = [] := rfl

@[simp] theorem streamBits_cons (b : Byte) (bs : List Byte) : streamBits (b :: bs) = byteBits b ++ streamBits bs := rfl

@[simp] theorem streamBits_append (bs cs : List Byte) : streamBits (bs ++ cs) = streamBits bs ++ streamBits cs := by
  simp [streamBits]

@[simp] theorem streamBits_length (bs : List Byte) : (streamBits bs).length = 8 * bs.length := by
  induction bs with
  | nil => rfl
  | cons b bs ih => simp [ih]; omega

/-- Different streams have different bits. -/
theorem streamBits_injective {bs cs : List Byte} (h : streamBits bs = streamBits cs) : bs = cs := by
  induction bs generalizing cs with
  | nil =>
    cases cs with
    | nil => rfl
    | cons c cs => have := congrArg List.length h; simp at this; omega
  | cons b bs ih =>
    cases cs with
    | nil => have := congrArg List.length h; simp at this
    | cons c cs =>
      simp only [streamBits_cons] at h
      obtain ⟨h1, h2⟩ := List.append_inj h (by simp)
      have : b.toNat = c.toNat := by rw [← valOf_byteBits, ← valOf_byteBits, h1]
      rw [BitVec.eq_of_toNat_eq this, ih h2]

@[simp] theorem padded_length (bits : Bits) : (padded bits).length = bits.length + padLength bits := by simp [padded]

/-- The padded length is a whole number of bytes, and there are at most seven padding bits. -/
theorem padded_length_mod (bits : Bits) : (padded bits).length % 8 = 0 ∧ padLength bits < 8 := by
  simp only [padded_length, padLength]
  omega

end Sys2Proof.Machine
end

