-- ==== Sys2Proof/Laws/State.lean ====
section
/-! SUPPORT. What each update of the state leaves in each field, so that no later proof unfolds a record update. -/

namespace Sys2Proof.Machine

/-! ### `start` -/

@[simp] theorem State.start_a (p : Phase) (s : State) : (s.start p).a = s.a := rfl
@[simp] theorem State.start_n (p : Phase) (s : State) : (s.start p).n = s.n := rfl
@[simp] theorem State.start_res (p : Phase) (s : State) : (s.start p).res = s.res := rfl
@[simp] theorem State.start_res2 (p : Phase) (s : State) : (s.start p).res2 = s.res2 := rfl
@[simp] theorem State.start_quality (p : Phase) (s : State) : (s.start p).quality = s.quality := rfl
@[simp] theorem State.start_windowBits (p : Phase) (s : State) : (s.start p).windowBits = s.windowBits := rfl
@[simp] theorem State.start_maxMatchBits (p : Phase) (s : State) : (s.start p).maxMatchBits = s.maxMatchBits := rfl
@[simp] theorem State.start_minMatchLen (p : Phase) (s : State) : (s.start p).minMatchLen = s.minMatchLen := rfl
@[simp] theorem State.start_height (p : Phase) (s : State) : (s.start p).height = s.height := rfl
@[simp] theorem State.start_width (p : Phase) (s : State) : (s.start p).width = s.width := rfl
@[simp] theorem State.start_sel (p : Phase) (s : State) : (s.start p).sel = s.sel := rfl
@[simp] theorem State.start_mode (p : Phase) (s : State) : (s.start p).mode = s.mode := rfl
@[simp] theorem State.start_run (p : Phase) (s : State) : (s.start p).run = .busy := rfl
@[simp] theorem State.start_qvalid (p : Phase) (s : State) : (s.start p).qvalid = s.qvalid := rfl
@[simp] theorem State.start_err (p : Phase) (s : State) : (s.start p).err = none := rfl
@[simp] theorem State.start_errinfo (p : Phase) (s : State) : (s.start p).errinfo = freeErrInfo s.freeCtr := rfl
@[simp] theorem State.start_phase (p : Phase) (s : State) : (s.start p).phase = p := rfl
@[simp] theorem State.start_io (p : Phase) (s : State) : (s.start p).io = { s.io with eos := false } := rfl
@[simp] theorem State.start_eng (p : Phase) (s : State) : (s.start p).eng = s.eng := rfl
@[simp] theorem State.start_blk (p : Phase) (s : State) : (s.start p).blk = s.blk := rfl
@[simp] theorem State.start_qtLuma (p : Phase) (s : State) : (s.start p).qtLuma = s.qtLuma := rfl
@[simp] theorem State.start_qtChroma (p : Phase) (s : State) : (s.start p).qtChroma = s.qtChroma := rfl
@[simp] theorem State.start_rgb (p : Phase) (s : State) : (s.start p).rgb = s.rgb := rfl
@[simp] theorem State.start_ycc (p : Phase) (s : State) : (s.start p).ycc = s.ycc := rfl
@[simp] theorem State.start_cfg (p : Phase) (s : State) : (s.start p).cfg = s.cfg := rfl
@[simp] theorem State.start_freeCtr (p : Phase) (s : State) : (s.start p).freeCtr = s.freeCtr + 1 := rfl
@[simp] theorem State.start_host (p : Phase) (s : State) : (s.start p).host = s.host := rfl

/-! ### `completed` -/

@[simp] theorem State.completed_a (s : State) : s.completed.a = s.a := rfl
@[simp] theorem State.completed_n (s : State) : s.completed.n = s.n := rfl
@[simp] theorem State.completed_res (s : State) : s.completed.res = s.res := rfl
@[simp] theorem State.completed_res2 (s : State) : s.completed.res2 = s.res2 := rfl
@[simp] theorem State.completed_quality (s : State) : s.completed.quality = s.quality := rfl
@[simp] theorem State.completed_windowBits (s : State) : s.completed.windowBits = s.windowBits := rfl
@[simp] theorem State.completed_maxMatchBits (s : State) : s.completed.maxMatchBits = s.maxMatchBits := rfl
@[simp] theorem State.completed_minMatchLen (s : State) : s.completed.minMatchLen = s.minMatchLen := rfl
@[simp] theorem State.completed_height (s : State) : s.completed.height = s.height := rfl
@[simp] theorem State.completed_width (s : State) : s.completed.width = s.width := rfl
@[simp] theorem State.completed_sel (s : State) : s.completed.sel = s.sel := rfl
@[simp] theorem State.completed_mode (s : State) : s.completed.mode = s.mode := rfl
@[simp] theorem State.completed_run (s : State) : s.completed.run = .done := rfl
@[simp] theorem State.completed_qvalid (s : State) : s.completed.qvalid = s.qvalid := rfl
@[simp] theorem State.completed_err (s : State) : s.completed.err = none := rfl
@[simp] theorem State.completed_errinfo (s : State) : s.completed.errinfo = s.errinfo := rfl
@[simp] theorem State.completed_phase (s : State) : s.completed.phase = .none := rfl
@[simp] theorem State.completed_io (s : State) : s.completed.io = s.io := rfl
@[simp] theorem State.completed_eng (s : State) : s.completed.eng = s.eng := rfl
@[simp] theorem State.completed_blk (s : State) : s.completed.blk = s.blk := rfl
@[simp] theorem State.completed_qtLuma (s : State) : s.completed.qtLuma = s.qtLuma := rfl
@[simp] theorem State.completed_qtChroma (s : State) : s.completed.qtChroma = s.qtChroma := rfl
@[simp] theorem State.completed_rgb (s : State) : s.completed.rgb = s.rgb := rfl
@[simp] theorem State.completed_ycc (s : State) : s.completed.ycc = s.ycc := rfl
@[simp] theorem State.completed_cfg (s : State) : s.completed.cfg = s.cfg := rfl
@[simp] theorem State.completed_freeCtr (s : State) : s.completed.freeCtr = s.freeCtr := rfl
@[simp] theorem State.completed_host (s : State) : s.completed.host = s.host := rfl

/-! ### `released` -/

@[simp] theorem State.released_a (s : State) : s.released.a = s.a := rfl
@[simp] theorem State.released_n (s : State) : s.released.n = s.n := rfl
@[simp] theorem State.released_res (s : State) : s.released.res = s.res := rfl
@[simp] theorem State.released_res2 (s : State) : s.released.res2 = s.res2 := rfl
@[simp] theorem State.released_quality (s : State) : s.released.quality = s.quality := rfl
@[simp] theorem State.released_windowBits (s : State) : s.released.windowBits = s.windowBits := rfl
@[simp] theorem State.released_maxMatchBits (s : State) : s.released.maxMatchBits = s.maxMatchBits := rfl
@[simp] theorem State.released_minMatchLen (s : State) : s.released.minMatchLen = s.minMatchLen := rfl
@[simp] theorem State.released_height (s : State) : s.released.height = s.height := rfl
@[simp] theorem State.released_width (s : State) : s.released.width = s.width := rfl
@[simp] theorem State.released_sel (s : State) : s.released.sel = s.sel := rfl
@[simp] theorem State.released_mode (s : State) : s.released.mode = s.mode := rfl
@[simp] theorem State.released_run (s : State) : s.released.run = s.run := rfl
@[simp] theorem State.released_qvalid (s : State) : s.released.qvalid = s.qvalid := rfl
@[simp] theorem State.released_err (s : State) : s.released.err = s.err := rfl
@[simp] theorem State.released_errinfo (s : State) : s.released.errinfo = s.errinfo := rfl
@[simp] theorem State.released_phase (s : State) : s.released.phase = s.phase := rfl
@[simp] theorem State.released_io (s : State) : s.released.io = { s.io with wtr := .closed, rdr := .closed, out := s.io.out.ended s.embedded } := rfl
@[simp] theorem State.released_eng (s : State) : s.released.eng = .none := rfl
@[simp] theorem State.released_blk (s : State) : s.released.blk = { s.blk with coder := .fresh } := rfl
@[simp] theorem State.released_qtLuma (s : State) : s.released.qtLuma = s.qtLuma := rfl
@[simp] theorem State.released_qtChroma (s : State) : s.released.qtChroma = s.qtChroma := rfl
@[simp] theorem State.released_rgb (s : State) : s.released.rgb = s.rgb := rfl
@[simp] theorem State.released_ycc (s : State) : s.released.ycc = s.ycc := rfl
@[simp] theorem State.released_cfg (s : State) : s.released.cfg = s.cfg := rfl
@[simp] theorem State.released_freeCtr (s : State) : s.released.freeCtr = s.freeCtr := rfl
@[simp] theorem State.released_host (s : State) : s.released.host = s.host := rfl

/-! ### `dropChannel` -/

@[simp] theorem State.dropChannel_a (s : State) : s.dropChannel.a = s.a := rfl
@[simp] theorem State.dropChannel_n (s : State) : s.dropChannel.n = s.n := rfl
@[simp] theorem State.dropChannel_res (s : State) : s.dropChannel.res = s.res := rfl
@[simp] theorem State.dropChannel_res2 (s : State) : s.dropChannel.res2 = s.res2 := rfl
@[simp] theorem State.dropChannel_quality (s : State) : s.dropChannel.quality = s.quality := rfl
@[simp] theorem State.dropChannel_windowBits (s : State) : s.dropChannel.windowBits = s.windowBits := rfl
@[simp] theorem State.dropChannel_maxMatchBits (s : State) : s.dropChannel.maxMatchBits = s.maxMatchBits := rfl
@[simp] theorem State.dropChannel_minMatchLen (s : State) : s.dropChannel.minMatchLen = s.minMatchLen := rfl
@[simp] theorem State.dropChannel_height (s : State) : s.dropChannel.height = s.height := rfl
@[simp] theorem State.dropChannel_width (s : State) : s.dropChannel.width = s.width := rfl
@[simp] theorem State.dropChannel_sel (s : State) : s.dropChannel.sel = s.sel := rfl
@[simp] theorem State.dropChannel_mode (s : State) : s.dropChannel.mode = s.mode := rfl
@[simp] theorem State.dropChannel_run (s : State) : s.dropChannel.run = s.run := rfl
@[simp] theorem State.dropChannel_qvalid (s : State) : s.dropChannel.qvalid = s.qvalid := rfl
@[simp] theorem State.dropChannel_err (s : State) : s.dropChannel.err = s.err := rfl
@[simp] theorem State.dropChannel_errinfo (s : State) : s.dropChannel.errinfo = s.errinfo := rfl
@[simp] theorem State.dropChannel_phase (s : State) : s.dropChannel.phase = s.phase := rfl
@[simp] theorem State.dropChannel_io (s : State) : s.dropChannel.io = { s.io with wtr := .closed, rdr := .closed } := rfl
@[simp] theorem State.dropChannel_eng (s : State) : s.dropChannel.eng = s.eng := rfl
@[simp] theorem State.dropChannel_blk (s : State) : s.dropChannel.blk = s.blk := rfl
@[simp] theorem State.dropChannel_qtLuma (s : State) : s.dropChannel.qtLuma = s.qtLuma := rfl
@[simp] theorem State.dropChannel_qtChroma (s : State) : s.dropChannel.qtChroma = s.qtChroma := rfl
@[simp] theorem State.dropChannel_rgb (s : State) : s.dropChannel.rgb = s.rgb := rfl
@[simp] theorem State.dropChannel_ycc (s : State) : s.dropChannel.ycc = s.ycc := rfl
@[simp] theorem State.dropChannel_cfg (s : State) : s.dropChannel.cfg = s.cfg := rfl
@[simp] theorem State.dropChannel_freeCtr (s : State) : s.dropChannel.freeCtr = s.freeCtr := rfl
@[simp] theorem State.dropChannel_host (s : State) : s.dropChannel.host = s.host := rfl

/-! ### `setTables` -/

@[simp] theorem State.setTables_a (s : State) : s.setTables.a = s.a := rfl
@[simp] theorem State.setTables_n (s : State) : s.setTables.n = s.n := rfl
@[simp] theorem State.setTables_res (s : State) : s.setTables.res = s.res := rfl
@[simp] theorem State.setTables_res2 (s : State) : s.setTables.res2 = s.res2 := rfl
@[simp] theorem State.setTables_quality (s : State) : s.setTables.quality = s.quality := rfl
@[simp] theorem State.setTables_windowBits (s : State) : s.setTables.windowBits = s.windowBits := rfl
@[simp] theorem State.setTables_maxMatchBits (s : State) : s.setTables.maxMatchBits = s.maxMatchBits := rfl
@[simp] theorem State.setTables_minMatchLen (s : State) : s.setTables.minMatchLen = s.minMatchLen := rfl
@[simp] theorem State.setTables_height (s : State) : s.setTables.height = s.height := rfl
@[simp] theorem State.setTables_width (s : State) : s.setTables.width = s.width := rfl
@[simp] theorem State.setTables_sel (s : State) : s.setTables.sel = s.sel := rfl
@[simp] theorem State.setTables_mode (s : State) : s.setTables.mode = s.mode := rfl
@[simp] theorem State.setTables_run (s : State) : s.setTables.run = s.run := rfl
@[simp] theorem State.setTables_qvalid (s : State) : s.setTables.qvalid = true := rfl
@[simp] theorem State.setTables_err (s : State) : s.setTables.err = s.err := rfl
@[simp] theorem State.setTables_errinfo (s : State) : s.setTables.errinfo = s.errinfo := rfl
@[simp] theorem State.setTables_phase (s : State) : s.setTables.phase = s.phase := rfl
@[simp] theorem State.setTables_io (s : State) : s.setTables.io = s.io := rfl
@[simp] theorem State.setTables_eng (s : State) : s.setTables.eng = s.eng := rfl
@[simp] theorem State.setTables_blk (s : State) : s.setTables.blk = s.blk := rfl
@[simp] theorem State.setTables_qtLuma (s : State) : s.setTables.qtLuma = s.cfg.baseLuma.map (qualityEntry (qualityScale s.quality.val)) := rfl
@[simp] theorem State.setTables_qtChroma (s : State) : s.setTables.qtChroma = s.cfg.baseChroma.map (qualityEntry (qualityScale s.quality.val)) := rfl
@[simp] theorem State.setTables_rgb (s : State) : s.setTables.rgb = s.rgb := rfl
@[simp] theorem State.setTables_ycc (s : State) : s.setTables.ycc = s.ycc := rfl
@[simp] theorem State.setTables_cfg (s : State) : s.setTables.cfg = s.cfg := rfl
@[simp] theorem State.setTables_freeCtr (s : State) : s.setTables.freeCtr = s.freeCtr := rfl
@[simp] theorem State.setTables_host (s : State) : s.setTables.host = s.host := rfl

/-! ### `openReaderFree` -/

@[simp] theorem State.openReaderFree_a (s : State) : (openReaderFree s).a = s.a := rfl
@[simp] theorem State.openReaderFree_n (s : State) : (openReaderFree s).n = s.n := rfl
@[simp] theorem State.openReaderFree_res (s : State) : (openReaderFree s).res = s.res := rfl
@[simp] theorem State.openReaderFree_res2 (s : State) : (openReaderFree s).res2 = s.res2 := rfl
@[simp] theorem State.openReaderFree_quality (s : State) : (openReaderFree s).quality = s.quality := rfl
@[simp] theorem State.openReaderFree_windowBits (s : State) : (openReaderFree s).windowBits = s.windowBits := rfl
@[simp] theorem State.openReaderFree_maxMatchBits (s : State) : (openReaderFree s).maxMatchBits = s.maxMatchBits := rfl
@[simp] theorem State.openReaderFree_minMatchLen (s : State) : (openReaderFree s).minMatchLen = s.minMatchLen := rfl
@[simp] theorem State.openReaderFree_height (s : State) : (openReaderFree s).height = s.height := rfl
@[simp] theorem State.openReaderFree_width (s : State) : (openReaderFree s).width = s.width := rfl
@[simp] theorem State.openReaderFree_sel (s : State) : (openReaderFree s).sel = s.sel := rfl
@[simp] theorem State.openReaderFree_mode (s : State) : (openReaderFree s).mode = s.mode := rfl
@[simp] theorem State.openReaderFree_run (s : State) : (openReaderFree s).run = s.run := rfl
@[simp] theorem State.openReaderFree_qvalid (s : State) : (openReaderFree s).qvalid = s.qvalid := rfl
@[simp] theorem State.openReaderFree_err (s : State) : (openReaderFree s).err = s.err := rfl
@[simp] theorem State.openReaderFree_errinfo (s : State) : (openReaderFree s).errinfo = s.errinfo := rfl
@[simp] theorem State.openReaderFree_phase (s : State) : (openReaderFree s).phase = s.phase := rfl
@[simp] theorem State.openReaderFree_io (s : State) : (openReaderFree s).io = openReader (freeByte s.freeCtr) s.io := rfl
@[simp] theorem State.openReaderFree_eng (s : State) : (openReaderFree s).eng = s.eng := rfl
@[simp] theorem State.openReaderFree_blk (s : State) : (openReaderFree s).blk = s.blk := rfl
@[simp] theorem State.openReaderFree_qtLuma (s : State) : (openReaderFree s).qtLuma = s.qtLuma := rfl
@[simp] theorem State.openReaderFree_qtChroma (s : State) : (openReaderFree s).qtChroma = s.qtChroma := rfl
@[simp] theorem State.openReaderFree_rgb (s : State) : (openReaderFree s).rgb = s.rgb := rfl
@[simp] theorem State.openReaderFree_ycc (s : State) : (openReaderFree s).ycc = s.ycc := rfl
@[simp] theorem State.openReaderFree_cfg (s : State) : (openReaderFree s).cfg = s.cfg := rfl
@[simp] theorem State.openReaderFree_freeCtr (s : State) : (openReaderFree s).freeCtr = s.freeCtr + 1 := rfl
@[simp] theorem State.openReaderFree_host (s : State) : (openReaderFree s).host = s.host := rfl

/-! ### `flushBits` -/

@[simp] theorem State.flushBits_a (s : State) : (flushBits s).a = s.a := rfl
@[simp] theorem State.flushBits_n (s : State) : (flushBits s).n = s.n := rfl
@[simp] theorem State.flushBits_res (s : State) : (flushBits s).res = s.res := rfl
@[simp] theorem State.flushBits_res2 (s : State) : (flushBits s).res2 = s.res2 := rfl
@[simp] theorem State.flushBits_quality (s : State) : (flushBits s).quality = s.quality := rfl
@[simp] theorem State.flushBits_windowBits (s : State) : (flushBits s).windowBits = s.windowBits := rfl
@[simp] theorem State.flushBits_maxMatchBits (s : State) : (flushBits s).maxMatchBits = s.maxMatchBits := rfl
@[simp] theorem State.flushBits_minMatchLen (s : State) : (flushBits s).minMatchLen = s.minMatchLen := rfl
@[simp] theorem State.flushBits_height (s : State) : (flushBits s).height = s.height := rfl
@[simp] theorem State.flushBits_width (s : State) : (flushBits s).width = s.width := rfl
@[simp] theorem State.flushBits_sel (s : State) : (flushBits s).sel = s.sel := rfl
@[simp] theorem State.flushBits_mode (s : State) : (flushBits s).mode = s.mode := rfl
@[simp] theorem State.flushBits_run (s : State) : (flushBits s).run = s.run := rfl
@[simp] theorem State.flushBits_qvalid (s : State) : (flushBits s).qvalid = s.qvalid := rfl
@[simp] theorem State.flushBits_err (s : State) : (flushBits s).err = s.err := rfl
@[simp] theorem State.flushBits_errinfo (s : State) : (flushBits s).errinfo = s.errinfo := rfl
@[simp] theorem State.flushBits_phase (s : State) : (flushBits s).phase = s.phase := rfl
@[simp] theorem State.flushBits_io (s : State) : (flushBits s).io = outBytes (s.blk.coder.bits.map bitChar) s.io := rfl
@[simp] theorem State.flushBits_eng (s : State) : (flushBits s).eng = s.eng := rfl
@[simp] theorem State.flushBits_blk (s : State) : (flushBits s).blk = s.blk := rfl
@[simp] theorem State.flushBits_qtLuma (s : State) : (flushBits s).qtLuma = s.qtLuma := rfl
@[simp] theorem State.flushBits_qtChroma (s : State) : (flushBits s).qtChroma = s.qtChroma := rfl
@[simp] theorem State.flushBits_rgb (s : State) : (flushBits s).rgb = s.rgb := rfl
@[simp] theorem State.flushBits_ycc (s : State) : (flushBits s).ycc = s.ycc := rfl
@[simp] theorem State.flushBits_cfg (s : State) : (flushBits s).cfg = s.cfg := rfl
@[simp] theorem State.flushBits_freeCtr (s : State) : (flushBits s).freeCtr = s.freeCtr := rfl
@[simp] theorem State.flushBits_host (s : State) : (flushBits s).host = s.host := rfl

/-! ### `takeLine` -/

@[simp] theorem State.takeLine_a (s : State) : (takeLine s).a = s.a := rfl
@[simp] theorem State.takeLine_n (s : State) : (takeLine s).n = s.n := rfl
@[simp] theorem State.takeLine_res (s : State) : (takeLine s).res = s.res := rfl
@[simp] theorem State.takeLine_res2 (s : State) : (takeLine s).res2 = s.res2 := rfl
@[simp] theorem State.takeLine_quality (s : State) : (takeLine s).quality = s.quality := rfl
@[simp] theorem State.takeLine_windowBits (s : State) : (takeLine s).windowBits = s.windowBits := rfl
@[simp] theorem State.takeLine_maxMatchBits (s : State) : (takeLine s).maxMatchBits = s.maxMatchBits := rfl
@[simp] theorem State.takeLine_minMatchLen (s : State) : (takeLine s).minMatchLen = s.minMatchLen := rfl
@[simp] theorem State.takeLine_height (s : State) : (takeLine s).height = s.height := rfl
@[simp] theorem State.takeLine_width (s : State) : (takeLine s).width = s.width := rfl
@[simp] theorem State.takeLine_sel (s : State) : (takeLine s).sel = s.sel := rfl
@[simp] theorem State.takeLine_mode (s : State) : (takeLine s).mode = s.mode := rfl
@[simp] theorem State.takeLine_run (s : State) : (takeLine s).run = s.run := rfl
@[simp] theorem State.takeLine_qvalid (s : State) : (takeLine s).qvalid = s.qvalid := rfl
@[simp] theorem State.takeLine_err (s : State) : (takeLine s).err = s.err := rfl
@[simp] theorem State.takeLine_errinfo (s : State) : (takeLine s).errinfo = s.errinfo := rfl
@[simp] theorem State.takeLine_phase (s : State) : (takeLine s).phase = s.phase := rfl
@[simp] theorem State.takeLine_io (s : State) : (takeLine s).io = { s.io with inp := ⟨s.blk.coder.line, s.io.inp.consumed + s.blk.coder.pos⟩ } := rfl
@[simp] theorem State.takeLine_eng (s : State) : (takeLine s).eng = s.eng := rfl
@[simp] theorem State.takeLine_blk (s : State) : (takeLine s).blk = s.blk := rfl
@[simp] theorem State.takeLine_qtLuma (s : State) : (takeLine s).qtLuma = s.qtLuma := rfl
@[simp] theorem State.takeLine_qtChroma (s : State) : (takeLine s).qtChroma = s.qtChroma := rfl
@[simp] theorem State.takeLine_rgb (s : State) : (takeLine s).rgb = s.rgb := rfl
@[simp] theorem State.takeLine_ycc (s : State) : (takeLine s).ycc = s.ycc := rfl
@[simp] theorem State.takeLine_cfg (s : State) : (takeLine s).cfg = s.cfg := rfl
@[simp] theorem State.takeLine_freeCtr (s : State) : (takeLine s).freeCtr = s.freeCtr := rfl
@[simp] theorem State.takeLine_host (s : State) : (takeLine s).host = s.host := rfl

/-! ### `ctFwd` -/

@[simp] theorem State.ctFwd_a (s : State) : s.ctFwd.a = s.a := rfl
@[simp] theorem State.ctFwd_n (s : State) : s.ctFwd.n = s.n := rfl
@[simp] theorem State.ctFwd_res (s : State) : s.ctFwd.res = s.res := rfl
@[simp] theorem State.ctFwd_res2 (s : State) : s.ctFwd.res2 = s.res2 := rfl
@[simp] theorem State.ctFwd_quality (s : State) : s.ctFwd.quality = s.quality := rfl
@[simp] theorem State.ctFwd_windowBits (s : State) : s.ctFwd.windowBits = s.windowBits := rfl
@[simp] theorem State.ctFwd_maxMatchBits (s : State) : s.ctFwd.maxMatchBits = s.maxMatchBits := rfl
@[simp] theorem State.ctFwd_minMatchLen (s : State) : s.ctFwd.minMatchLen = s.minMatchLen := rfl
@[simp] theorem State.ctFwd_height (s : State) : s.ctFwd.height = s.height := rfl
@[simp] theorem State.ctFwd_width (s : State) : s.ctFwd.width = s.width := rfl
@[simp] theorem State.ctFwd_sel (s : State) : s.ctFwd.sel = s.sel := rfl
@[simp] theorem State.ctFwd_mode (s : State) : s.ctFwd.mode = s.mode := rfl
@[simp] theorem State.ctFwd_run (s : State) : s.ctFwd.run = s.run := rfl
@[simp] theorem State.ctFwd_qvalid (s : State) : s.ctFwd.qvalid = s.qvalid := rfl
@[simp] theorem State.ctFwd_err (s : State) : s.ctFwd.err = s.err := rfl
@[simp] theorem State.ctFwd_errinfo (s : State) : s.ctFwd.errinfo = s.errinfo := rfl
@[simp] theorem State.ctFwd_phase (s : State) : s.ctFwd.phase = s.phase := rfl
@[simp] theorem State.ctFwd_io (s : State) : s.ctFwd.io = s.io := rfl
@[simp] theorem State.ctFwd_eng (s : State) : s.ctFwd.eng = s.eng := rfl
@[simp] theorem State.ctFwd_blk (s : State) : s.ctFwd.blk = s.blk := rfl
@[simp] theorem State.ctFwd_qtLuma (s : State) : s.ctFwd.qtLuma = s.qtLuma := rfl
@[simp] theorem State.ctFwd_qtChroma (s : State) : s.ctFwd.qtChroma = s.qtChroma := rfl
@[simp] theorem State.ctFwd_rgb (s : State) : s.ctFwd.rgb = s.rgb := rfl
@[simp] theorem State.ctFwd_ycc (s : State) : s.ctFwd.ycc = forPixels (ctFwdPixel s.cfg.numeric s.rgb) s.width.val (s.height.val * s.width.val) 0 s.ycc := rfl
@[simp] theorem State.ctFwd_cfg (s : State) : s.ctFwd.cfg = s.cfg := rfl
@[simp] theorem State.ctFwd_freeCtr (s : State) : s.ctFwd.freeCtr = s.freeCtr := rfl
@[simp] theorem State.ctFwd_host (s : State) : s.ctFwd.host = s.host := rfl

/-! ### `ctInv` -/

@[simp] theorem State.ctInv_a (s : State) : s.ctInv.a = s.a := rfl
@[simp] theorem State.ctInv_n (s : State) : s.ctInv.n = s.n := rfl
@[simp] theorem State.ctInv_res (s : State) : s.ctInv.res = s.res := rfl
@[simp] theorem State.ctInv_res2 (s : State) : s.ctInv.res2 = s.res2 := rfl
@[simp] theorem State.ctInv_quality (s : State) : s.ctInv.quality = s.quality := rfl
@[simp] theorem State.ctInv_windowBits (s : State) : s.ctInv.windowBits = s.windowBits := rfl
@[simp] theorem State.ctInv_maxMatchBits (s : State) : s.ctInv.maxMatchBits = s.maxMatchBits := rfl
@[simp] theorem State.ctInv_minMatchLen (s : State) : s.ctInv.minMatchLen = s.minMatchLen := rfl
@[simp] theorem State.ctInv_height (s : State) : s.ctInv.height = s.height := rfl
@[simp] theorem State.ctInv_width (s : State) : s.ctInv.width = s.width := rfl
@[simp] theorem State.ctInv_sel (s : State) : s.ctInv.sel = s.sel := rfl
@[simp] theorem State.ctInv_mode (s : State) : s.ctInv.mode = s.mode := rfl
@[simp] theorem State.ctInv_run (s : State) : s.ctInv.run = s.run := rfl
@[simp] theorem State.ctInv_qvalid (s : State) : s.ctInv.qvalid = s.qvalid := rfl
@[simp] theorem State.ctInv_err (s : State) : s.ctInv.err = s.err := rfl
@[simp] theorem State.ctInv_errinfo (s : State) : s.ctInv.errinfo = s.errinfo := rfl
@[simp] theorem State.ctInv_phase (s : State) : s.ctInv.phase = s.phase := rfl
@[simp] theorem State.ctInv_io (s : State) : s.ctInv.io = s.io := rfl
@[simp] theorem State.ctInv_eng (s : State) : s.ctInv.eng = s.eng := rfl
@[simp] theorem State.ctInv_blk (s : State) : s.ctInv.blk = s.blk := rfl
@[simp] theorem State.ctInv_qtLuma (s : State) : s.ctInv.qtLuma = s.qtLuma := rfl
@[simp] theorem State.ctInv_qtChroma (s : State) : s.ctInv.qtChroma = s.qtChroma := rfl
@[simp] theorem State.ctInv_rgb (s : State) : s.ctInv.rgb = forPixels (ctInvPixel s.cfg.numeric s.ycc) s.width.val (s.height.val * s.width.val) 0 s.rgb := rfl
@[simp] theorem State.ctInv_ycc (s : State) : s.ctInv.ycc = s.ycc := rfl
@[simp] theorem State.ctInv_cfg (s : State) : s.ctInv.cfg = s.cfg := rfl
@[simp] theorem State.ctInv_freeCtr (s : State) : s.ctInv.freeCtr = s.freeCtr := rfl
@[simp] theorem State.ctInv_host (s : State) : s.ctInv.host = s.host := rfl

/-! ### Taking an exception: what `raised` changes, whether or not the rule names the information -/

@[simp] theorem State.raised_a (r : Raise) (s : State) : (s.raised r).a = s.a := by
  unfold State.raised; split <;> rfl
@[simp] theorem State.raised_n (r : Raise) (s : State) : (s.raised r).n = s.n := by
  unfold State.raised; split <;> rfl
@[simp] theorem State.raised_res (r : Raise) (s : State) : (s.raised r).res = s.res := by
  unfold State.raised; split <;> rfl
@[simp] theorem State.raised_res2 (r : Raise) (s : State) : (s.raised r).res2 = s.res2 := by
  unfold State.raised; split <;> rfl
@[simp] theorem State.raised_quality (r : Raise) (s : State) : (s.raised r).quality = s.quality := by
  unfold State.raised; split <;> rfl
@[simp] theorem State.raised_windowBits (r : Raise) (s : State) : (s.raised r).windowBits = s.windowBits := by
  unfold State.raised; split <;> rfl
@[simp] theorem State.raised_maxMatchBits (r : Raise) (s : State) : (s.raised r).maxMatchBits = s.maxMatchBits := by
  unfold State.raised; split <;> rfl
@[simp] theorem State.raised_minMatchLen (r : Raise) (s : State) : (s.raised r).minMatchLen = s.minMatchLen := by
  unfold State.raised; split <;> rfl
@[simp] theorem State.raised_height (r : Raise) (s : State) : (s.raised r).height = s.height := by
  unfold State.raised; split <;> rfl
@[simp] theorem State.raised_width (r : Raise) (s : State) : (s.raised r).width = s.width := by
  unfold State.raised; split <;> rfl
@[simp] theorem State.raised_sel (r : Raise) (s : State) : (s.raised r).sel = s.sel := by
  unfold State.raised; split <;> rfl
@[simp] theorem State.raised_mode (r : Raise) (s : State) : (s.raised r).mode = s.mode := by
  unfold State.raised; split <;> rfl
@[simp] theorem State.raised_run (r : Raise) (s : State) : (s.raised r).run = .error := by
  unfold State.raised; split <;> rfl
@[simp] theorem State.raised_qvalid (r : Raise) (s : State) : (s.raised r).qvalid = s.qvalid := by
  unfold State.raised; split <;> rfl
@[simp] theorem State.raised_err (r : Raise) (s : State) : (s.raised r).err = some r.exc := by
  unfold State.raised; split <;> rfl
@[simp] theorem State.raised_phase (r : Raise) (s : State) : (s.raised r).phase = .none := by
  unfold State.raised; split <;> rfl
@[simp] theorem State.raised_io (r : Raise) (s : State) : (s.raised r).io = s.io := by
  unfold State.raised; split <;> rfl
@[simp] theorem State.raised_eng (r : Raise) (s : State) : (s.raised r).eng = s.eng := by
  unfold State.raised; split <;> rfl
@[simp] theorem State.raised_blk (r : Raise) (s : State) : (s.raised r).blk = s.blk := by
  unfold State.raised; split <;> rfl
@[simp] theorem State.raised_qtLuma (r : Raise) (s : State) : (s.raised r).qtLuma = s.qtLuma := by
  unfold State.raised; split <;> rfl
@[simp] theorem State.raised_qtChroma (r : Raise) (s : State) : (s.raised r).qtChroma = s.qtChroma := by
  unfold State.raised; split <;> rfl
@[simp] theorem State.raised_rgb (r : Raise) (s : State) : (s.raised r).rgb = s.rgb := by
  unfold State.raised; split <;> rfl
@[simp] theorem State.raised_ycc (r : Raise) (s : State) : (s.raised r).ycc = s.ycc := by
  unfold State.raised; split <;> rfl
@[simp] theorem State.raised_cfg (r : Raise) (s : State) : (s.raised r).cfg = s.cfg := by
  unfold State.raised; split <;> rfl
@[simp] theorem State.raised_host (r : Raise) (s : State) : (s.raised r).host = s.host := by
  unfold State.raised; split <;> rfl

/-- The named information reaches `ERRINFO` (60_exceptions.md R322). -/
theorem State.raised_errinfo (e : Exc) (i : Int) (s : State) : (s.raised ⟨e, some i⟩).errinfo = i := rfl

/-! ### `setEos` -/

@[simp] theorem Io.setEos_inp (v : Bool) (io : Io) : (io.setEos v).inp = io.inp := rfl
@[simp] theorem Io.setEos_out (v : Bool) (io : Io) : (io.setEos v).out = io.out := rfl
@[simp] theorem Io.setEos_wtr (v : Bool) (io : Io) : (io.setEos v).wtr = io.wtr := rfl
@[simp] theorem Io.setEos_rdr (v : Bool) (io : Io) : (io.setEos v).rdr = io.rdr := rfl
@[simp] theorem Io.setEos_eos (v : Bool) (io : Io) : (io.setEos v).eos = v := rfl

/-! ### `outByte` -/

@[simp] theorem Io.outByte_inp (b : Byte) (io : Io) : (outByte b io).inp = io.inp := rfl
@[simp] theorem Io.outByte_out (b : Byte) (io : Io) : (outByte b io).out = ⟨io.out.bytes ++ [b], io.out.sink⟩ := rfl
@[simp] theorem Io.outByte_wtr (b : Byte) (io : Io) : (outByte b io).wtr = io.wtr := rfl
@[simp] theorem Io.outByte_rdr (b : Byte) (io : Io) : (outByte b io).rdr = io.rdr := rfl
@[simp] theorem Io.outByte_eos (b : Byte) (io : Io) : (outByte b io).eos = io.eos := rfl

/-! ### `outBytes` -/

@[simp] theorem Io.outBytes_inp (bs : List Byte) (io : Io) : (outBytes bs io).inp = io.inp := rfl
@[simp] theorem Io.outBytes_out (bs : List Byte) (io : Io) : (outBytes bs io).out = ⟨io.out.bytes ++ bs, io.out.sink⟩ := rfl
@[simp] theorem Io.outBytes_wtr (bs : List Byte) (io : Io) : (outBytes bs io).wtr = io.wtr := rfl
@[simp] theorem Io.outBytes_rdr (bs : List Byte) (io : Io) : (outBytes bs io).rdr = io.rdr := rfl
@[simp] theorem Io.outBytes_eos (bs : List Byte) (io : Io) : (outBytes bs io).eos = io.eos := rfl

/-! ### `openOut` -/

@[simp] theorem Io.openOut_inp (io : Io) : (openOut io).inp = io.inp := rfl
@[simp] theorem Io.openOut_out (io : Io) : (openOut io).out = io.out.opened := rfl
@[simp] theorem Io.openOut_wtr (io : Io) : (openOut io).wtr = io.wtr := rfl
@[simp] theorem Io.openOut_rdr (io : Io) : (openOut io).rdr = io.rdr := rfl
@[simp] theorem Io.openOut_eos (io : Io) : (openOut io).eos = io.eos := rfl

/-! ### `openWriter` -/

@[simp] theorem Io.openWriter_inp (io : Io) : (openWriter io).inp = io.inp := rfl
@[simp] theorem Io.openWriter_out (io : Io) : (openWriter io).out = io.out.opened := rfl
@[simp] theorem Io.openWriter_wtr (io : Io) : (openWriter io).wtr = ⟨true, 0, 0⟩ := rfl
@[simp] theorem Io.openWriter_rdr (io : Io) : (openWriter io).rdr = io.rdr := rfl
@[simp] theorem Io.openWriter_eos (io : Io) : (openWriter io).eos = io.eos := rfl

/-! ### `openReader` -/

@[simp] theorem Io.openReader_inp (b : Byte) (io : Io) : (openReader b io).inp = io.inp := rfl
@[simp] theorem Io.openReader_out (b : Byte) (io : Io) : (openReader b io).out = io.out := rfl
@[simp] theorem Io.openReader_wtr (b : Byte) (io : Io) : (openReader b io).wtr = io.wtr := rfl
@[simp] theorem Io.openReader_rdr (b : Byte) (io : Io) : (openReader b io).rdr = ⟨true, b, 8, false⟩ := rfl
@[simp] theorem Io.openReader_eos (b : Byte) (io : Io) : (openReader b io).eos = io.eos := rfl

/-! ### `sentinel` -/

@[simp] theorem Io.sentinel_inp (io : Io) : (sentinel io).inp = io.inp := rfl
@[simp] theorem Io.sentinel_out (io : Io) : (sentinel io).out = io.out := rfl
@[simp] theorem Io.sentinel_wtr (io : Io) : (sentinel io).wtr = io.wtr := rfl
@[simp] theorem Io.sentinel_rdr (io : Io) : (sentinel io).rdr = { io.rdr with exh := true } := rfl
@[simp] theorem Io.sentinel_eos (io : Io) : (sentinel io).eos = true := rfl

end Sys2Proof.Machine
end

