-- ==== Sys2Proof/Laws/Channel.lean ====
section
/-! SUPPORT. The BitChannel as a stream of bits (40_bitchannel.md R138): everything written so far, everything still to be read, and what
each primitive does to them. -/

namespace Sys2Proof.Machine

open Sys2Proof.Claims

/-- The eight bits of a byte, bit 7 first. -/
theorem byteBits_eq (b : Byte) :
    byteBits b = [b.getLsbD 7, b.getLsbD 6, b.getLsbD 5, b.getLsbD 4, b.getLsbD 3, b.getLsbD 2, b.getLsbD 1, b.getLsbD 0] := by
  simp [byteBits, binN, BitVec.getLsbD]

/-- One bit written: it follows what was written before; the writer stays sound and open. -/
theorem wrBit_spec (io : Io) (b : Bool) (hw : io.wtr.Sound) (ho : io.wtr.isOpen = true) :
    writtenBits (wrBit io b) = writtenBits io ++ [b] ∧ (wrBit io b).wtr.Sound ∧ (wrBit io b).wtr.isOpen = true
      ∧ (wrBit io b).inp = io.inp ∧ (wrBit io b).rdr = io.rdr ∧ (wrBit io b).eos = io.eos
      ∧ (wrBit io b).out.sink = io.out.sink := by
  obtain ⟨hc, hz, -⟩ := hw
  unfold wrBit
  by_cases h : io.wtr.cnt + 1 = 8
  · have h7 : io.wtr.cnt = 7 := by omega
    have h0 := hz 0 (by omega)
    refine ⟨?_, ?_, ?_, ?_⟩
    · simp only [h, if_true, writtenBits, Io.outByte_out, Io.outByte_wtr, streamBits_append, streamBits_cons, streamBits_nil,
        List.append_nil, List.take_zero, List.append_assoc, byteBits_eq]
      congr 1
      simp only [h7, List.take_succ_cons, List.take_zero, List.cons_append, List.nil_append]
      have h0' : io.wtr.byte[0] = false := h0
      cases b <;> simp [h0']
    · simp only [h, if_true, Io.outByte_wtr]
      exact ⟨by simp, fun k _ => by simp, fun hf => by simp [ho] at hf⟩
    · simp [h, ho]
    · simp [h]
  · refine ⟨?_, ?_, ?_, ?_⟩
    · simp only [h, if_false, writtenBits, byteBits_eq, List.append_assoc]
      congr 1
      have hz' : ∀ k (hk : k < 8), k < 8 - io.wtr.cnt → io.wtr.byte[k] = false := fun k _ => hz k
      generalize io.wtr.cnt = c at *
      have hc' : c ≤ 6 := by omega
      interval_cases c <;> cases b <;> simp [List.take_succ_cons, hz']
    · simp only [h, if_false]
      refine ⟨by simp; omega, fun k hk => ?_, fun hf => by simp [ho] at hf⟩
      have h1 := hz k (by simp at hk; omega)
      simp only [BitVec.getLsbD_or, h1, Bool.false_or, BitVec.getLsbD_shiftLeft]
      have : k < 7 - io.wtr.cnt := by simp at hk; omega
      simp [this]
    · simp [h, ho]
    · simp [h]

/-- A string written: it follows what was written before, whatever the byte boundaries (40_bitchannel.md R131). -/
theorem wrBits_spec (s : Bits) (io : Io) (hw : io.wtr.Sound) (ho : io.wtr.isOpen = true) :
    writtenBits (wrBits s io) = writtenBits io ++ s ∧ (wrBits s io).wtr.Sound ∧ (wrBits s io).wtr.isOpen = true
      ∧ (wrBits s io).inp = io.inp ∧ (wrBits s io).rdr = io.rdr ∧ (wrBits s io).eos = io.eos
      ∧ (wrBits s io).out.sink = io.out.sink := by
  induction s generalizing io with
  | nil => simp [wrBits, hw, ho]
  | cons b s ih =>
    obtain ⟨h1, h2, h3, h4, h5, h6, h7⟩ := wrBit_spec io b hw ho
    obtain ⟨g1, g2, g3, g4, g5, g6, g7⟩ := ih (wrBit io b) h2 h3
    simp only [wrBits] at *
    exact ⟨by simp only [List.foldl_cons]; rw [g1, h1]; simp, g2, g3, g4.trans h4, g5.trans h5, g6.trans h6, g7.trans h7⟩

/-- A field written (40_bitchannel.md R132). -/
theorem wrVal_spec (v : Int) (n : Nat) (io : Io) (hw : io.wtr.Sound) (ho : io.wtr.isOpen = true) :
    writtenBits (wrVal v n io) = writtenBits io ++ binN n (fieldValue v) ∧ (wrVal v n io).wtr.Sound
      ∧ (wrVal v n io).wtr.isOpen = true ∧ (wrVal v n io).inp = io.inp ∧ (wrVal v n io).rdr = io.rdr
      ∧ (wrVal v n io).eos = io.eos ∧ (wrVal v n io).out.sink = io.out.sink :=
  wrBits_spec _ io hw ho

/-- A fresh writer is sound, and what it has written is what stood on `OUT`. -/
theorem openWriter_spec (io : Io) :
    (openWriter io).wtr.Sound ∧ writtenBits (openWriter io) = streamBits io.out.opened.bytes := by
  refine ⟨⟨by simp, by simp, by simp⟩, by simp [writtenBits]⟩

/-- Closing: the bits written, with their padding, are all on `OUT` (40_bitchannel.md R136). -/
theorem closeChannel_spec (e : Bool) (io : Io) (hw : io.wtr.Sound) (ho : io.wtr.isOpen = true) :
    streamBits (closeChannel e io).out.bytes = padded (writtenBits io) ∧ (closeChannel e io).wtr = .closed
      ∧ (closeChannel e io).rdr = .closed ∧ (closeChannel e io).inp = io.inp ∧ (closeChannel e io).eos = io.eos
      ∧ (closeChannel e io).out.sink = if e then .flushed else .closed := by
  obtain ⟨hc, hz, -⟩ := hw
  simp only [closeChannel, ho, if_true, OutStream.settled, and_true]
  by_cases h : 0 < io.wtr.cnt
  · simp only [h, if_true, Io.outByte_out, streamBits_append, streamBits_cons, streamBits_nil, List.append_nil]
    simp only [padded, padLength, writtenBits, List.append_assoc, List.length_append, streamBits_length, List.length_take,
      byteBits_length]
    congr 1
    have hz' : ∀ k (hk : k < 8), k < 8 - io.wtr.cnt → io.wtr.byte[k] = false := fun k _ => hz k
    generalize io.wtr.cnt = c at *
    rw [Nat.mul_add_mod]
    have h0 : io.wtr.byte[0] = false := hz' 0 (by omega) (by omega)
    interval_cases c <;> simp_all [byteBits_eq, List.replicate]
  · have : io.wtr.cnt = 0 := by omega
    simp [padded, padLength, writtenBits, this]

/-- One bit read: the first pending bit, or the sentinel when there is none (40_bitchannel.md R134). -/
theorem rdBit_spec (io : Io) (hr : io.rdr.cnt ≤ 8) :
    match pendingBits io with
    | [] => rdBit io = (none, sentinel io)
    | b :: rest => (rdBit io).1 = some b ∧ pendingBits (rdBit io).2 = rest ∧ (rdBit io).2.rdr.cnt ≤ 8
        ∧ (rdBit io).2.rdr.exh = io.rdr.exh ∧ (rdBit io).2.rdr.isOpen = io.rdr.isOpen ∧ (rdBit io).2.wtr = io.wtr
        ∧ (rdBit io).2.out = io.out ∧ (rdBit io).2.eos = io.eos := by
  by_cases h : io.rdr.cnt = 8
  · cases hi : io.inp.rest with
    | nil => simp [pendingBits, h, hi, rdBit, inByte, byteBits_eq]
    | cons c cs => simp [pendingBits, h, hi, rdBit, inByte, byteBits_eq]
  · have hlt : io.rdr.cnt < 8 := by omega
    have : pendingBits io
        = io.rdr.byte.getLsbD (7 - io.rdr.cnt) :: ((byteBits io.rdr.byte).drop (io.rdr.cnt + 1) ++ streamBits io.inp.rest) := by
      simp only [pendingBits]
      generalize io.rdr.cnt = c at *
      interval_cases c <;> simp [byteBits_eq]
    rw [this]
    simp [rdBit, h, pendingBits]
    omega

/-- The loop of `RDBITS` on n pending bits: their value, and they are gone. -/
theorem rdLoop_ok (n v : Nat) (io : Io) (hr : io.rdr.cnt ≤ 8) (hn : n ≤ (pendingBits io).length) :
    (rdLoop n v io).1 = some (v * 2 ^ n + valOf ((pendingBits io).take n))
      ∧ pendingBits (rdLoop n v io).2 = (pendingBits io).drop n ∧ (rdLoop n v io).2.rdr.cnt ≤ 8
      ∧ (rdLoop n v io).2.rdr.exh = io.rdr.exh ∧ (rdLoop n v io).2.rdr.isOpen = io.rdr.isOpen
      ∧ (rdLoop n v io).2.wtr = io.wtr ∧ (rdLoop n v io).2.out = io.out ∧ (rdLoop n v io).2.eos = io.eos := by
  induction n generalizing v io with
  | zero => simp [rdLoop, hr]
  | succ n ih =>
    have hb := rdBit_spec io hr
    cases hp : pendingBits io with
    | nil => simp [hp] at hn
    | cons b rest =>
      rw [hp] at hb hn
      obtain ⟨h1, h2, h3, h4, h5, h6, h7, h8⟩ := hb
      have hd : rdBit io = (some b, (rdBit io).2) := by rw [← h1]
      obtain ⟨g1, g2, g3, g4, g5, g6, g7, g8⟩ := ih (2 * v + b.toNat) (rdBit io).2 h3 (by rw [h2]; simpa using hn)
      rw [rdLoop, hd]
      refine ⟨?_, by rw [g2, h2, List.drop_succ_cons], g3, g4.trans h4, g5.trans h5, g6.trans h6, g7.trans h7, g8.trans h8⟩
      rw [g1, h2, List.take_succ_cons, valOf_cons, List.length_take]
      rw [Nat.min_eq_left (by simpa using hn), pow_succ]
      congr 1
      ring

/-- The loop of `RDBITS` on fewer pending bits than it wants: the sentinel, and nothing is left. -/
theorem rdLoop_sentinel (n v : Nat) (io : Io) (hr : io.rdr.cnt ≤ 8) (hn : (pendingBits io).length < n) :
    (rdLoop n v io).1 = none ∧ (rdLoop n v io).2.inp.rest = [] ∧ pendingBits (rdLoop n v io).2 = []
      ∧ (rdLoop n v io).2.rdr.cnt ≤ 8 ∧ (rdLoop n v io).2.rdr.exh = true ∧ (rdLoop n v io).2.eos = true
      ∧ (rdLoop n v io).2.rdr.isOpen = io.rdr.isOpen ∧ (rdLoop n v io).2.wtr = io.wtr ∧ (rdLoop n v io).2.out = io.out := by
  induction n generalizing v io with
  | zero => omega
  | succ n ih =>
    have hb := rdBit_spec io hr
    cases hp : pendingBits io with
    | nil =>
      rw [hp] at hb
      have hrest : io.inp.rest = [] := by
        have := congrArg List.length hp
        rw [pendingBits, List.length_append, streamBits_length, List.length_nil] at this
        exact List.length_eq_zero_iff.1 (by omega)
      rw [rdLoop, hb]
      simp [hrest, hr]
      simpa [pendingBits] using hp
    | cons b rest =>
      rw [hp] at hb hn
      obtain ⟨h1, h2, h3, h4, h5, h6, h7, h8⟩ := hb
      have hd : rdBit io = (some b, (rdBit io).2) := by rw [← h1]
      obtain ⟨g1, g2, g3, g4, g5, g6, g7, g8, g9⟩ := ih (2 * v + b.toNat) (rdBit io).2 h3 (by rw [h2]; simpa using hn)
      rw [rdLoop, hd]
      exact ⟨g1, g2, g3, g4, g5, g6, g7.trans h5, g8.trans h6, g9.trans h7⟩

/-- `RDBITS(n)` with n bits pending (40_bitchannel.md R134). -/
theorem rdBits_ok (n : Nat) (io : Io) (hr : io.rdr.cnt ≤ 8) (he : io.rdr.exh = false) (hn : n ≤ (pendingBits io).length) :
    (rdBits n io).1 = some (valOf ((pendingBits io).take n)) ∧ pendingBits (rdBits n io).2 = (pendingBits io).drop n
      ∧ (rdBits n io).2.rdr.cnt ≤ 8 ∧ (rdBits n io).2.rdr.exh = false ∧ (rdBits n io).2.rdr.isOpen = io.rdr.isOpen
      ∧ (rdBits n io).2.wtr = io.wtr ∧ (rdBits n io).2.out = io.out ∧ (rdBits n io).2.eos = io.eos := by
  have h := rdLoop_ok n 0 io hr hn
  simp only [rdBits, he, Nat.zero_mul, Nat.zero_add] at *
  simpa [he] using h

/-- `RDBITS(n)` with fewer than n bits pending. -/
theorem rdBits_sentinel (n : Nat) (io : Io) (hr : io.rdr.cnt ≤ 8) (he : io.rdr.exh = false)
    (hn : (pendingBits io).length < n) :
    (rdBits n io).1 = none ∧ (rdBits n io).2.inp.rest = [] ∧ (rdBits n io).2.rdr.cnt ≤ 8 ∧ (rdBits n io).2.rdr.exh = true
      ∧ (rdBits n io).2.eos = true ∧ (rdBits n io).2.rdr.isOpen = io.rdr.isOpen ∧ (rdBits n io).2.wtr = io.wtr
      ∧ (rdBits n io).2.out = io.out := by
  obtain ⟨h1, h2, -, h4, h5, h6, h7, h8, h9⟩ := rdLoop_sentinel n 0 io hr hn
  simp only [rdBits, he]
  exact ⟨h1, h2, h4, h5, h6, h7, h8, h9⟩

/-- `RDBITS(n)` once exhausted (40_bitchannel.md R135). -/
theorem rdBits_exhausted (n : Nat) (io : Io) (he : io.rdr.exh = true) : rdBits n io = (none, { io with eos := true }) := by
  cases io with
  | mk inp out wtr rdr eos => cases rdr; simp_all [rdBits, sentinel]

end Sys2Proof.Machine
end

