-- ==== Sys2Proof/Laws/Checks.lean ====
section
/-! SUPPORT. When the checks of a command's operands find nothing (60_exceptions.md R321, R330), the written marks of blocks and
planes, and the lines of `IN`. -/

namespace Sys2Proof.Machine

open Sys2Proof.Claims

variable {α : Type}

@[simp] theorem Reg.offends_nil (r : Reg α) (k : Nat) (f : α → Bool) :
    r.offends k f = [] ↔ r.written = true ∧ f r.val = false := by
  simp [Reg.offends]

@[simp] theorem Reg.unread_nil (r : Reg α) (k : Nat) : r.unread k = [] ↔ r.written = true := by simp [Reg.unread]

@[simp] theorem offUnless_nil (b : Bool) : offUnless b = [] ↔ b = true := by simp [offUnless]

/-- What a register check can answer. -/
theorem Reg.offends_eq (r : Reg α) (k : Nat) (f : α → Bool) : r.offends k f = [] ∨ r.offends k f = [k] := by
  unfold Reg.offends; split <;> simp

theorem offUnless_eq (b : Bool) : offUnless b = [] ∨ offUnless b = [255] := by cases b <;> simp [offUnless, notRegister]

theorem allWritten_iff (v : Vector (Reg α) 64) : allWritten v = true ↔ ∀ k : Fin 64, v[k.1].written = true := by
  simp only [allWritten, Vector.all_eq_true]
  exact ⟨fun h k => h k.1 k.2, fun h i hi => h ⟨i, hi⟩⟩

theorem allPixels_iff (p : Nat → Nat → Bool) (w n i : Nat) :
    allPixels p w n i = true ↔ ∀ j, i ≤ j → j < i + n → p (j / w) (j % w) = true := by
  induction n generalizing i with
  | zero => simp only [allPixels, true_iff]; exact fun j h h' => by omega
  | succ n ih =>
    simp only [allPixels, Bool.and_eq_true, ih]
    constructor
    · intro h j h1 h2
      rcases Nat.eq_or_lt_of_le h1 with rfl | h1
      · exact h.1
      · exact h.2 j h1 (by omega)
    · exact fun h => ⟨h i (Nat.le_refl i) (by omega), fun j h1 h2 => h j (by omega) (by omega)⟩

/-- The check of a plane command is `PlanesReady`. -/
theorem planesWritten_iff (m : Sparse α) (h w : Nat) : planesWritten m h w = true ↔ PlanesReady m h w := by
  simp only [planesWritten, allPixels_iff, Bool.and_eq_true]
  constructor
  · intro hp c y x hy hx
    have hw : 0 < w := by omega
    have hd : (w * y + x) / w = y := by
      rw [Nat.mul_add_div hw, Nat.div_eq_of_lt hx, Nat.add_zero]
    have hm : (w * y + x) % w = x := by rw [Nat.mul_add_mod, Nat.mod_eq_of_lt hx]
    have hlt : w * y + x < 0 + h * w := by
      have : w * y + w ≤ w * h := by rw [← Nat.mul_succ]; exact Nat.mul_le_mul_left w hy
      rw [Nat.zero_add, Nat.mul_comm h w]; omega
    have := hp (w * y + x) (Nat.zero_le _) hlt
    rw [hd, hm] at this
    fin_cases c
    · exact this.1.1
    · exact this.1.2
    · exact this.2
  · intro hr j _ hj
    rw [Nat.zero_add] at hj
    have hw : 0 < w := Nat.pos_of_ne_zero (by rintro rfl; simp at hj)
    have hy : j / w < h := (Nat.div_lt_iff_lt_mul hw).2 hj
    have hx : j % w < w := Nat.mod_lt _ hw
    exact ⟨⟨hr 0 _ _ hy hx, hr 1 _ _ hy hx⟩, hr 2 _ _ hy hx⟩

/-- The line before a line feed, and what follows it. -/
theorem splitLine_lineFeed (line rest : List Byte) (h : lineFeed ∉ line) :
    splitLine (line ++ lineFeed :: rest) = (line, some rest) := by
  induction line with
  | nil => simp [splitLine]
  | cons c cs ih =>
    have hc : c ≠ lineFeed := fun e => h (e ▸ List.mem_cons_self)
    simp [splitLine, hc, ih (fun e => h (List.mem_cons_of_mem _ e))]

/-- A line that the end of `IN` ends. -/
theorem splitLine_end (line : List Byte) (h : lineFeed ∉ line) : splitLine line = (line, none) := by
  induction line with
  | nil => rfl
  | cons c cs ih =>
    have hc : c ≠ lineFeed := fun e => h (e ▸ List.mem_cons_self)
    simp [splitLine, hc, ih (fun e => h (List.mem_cons_of_mem _ e))]

/-- `ReadLine()` on a line that a line feed ends (47_image_pipeline.md R294). -/
theorem readLine_lineFeed {io : Io} {line rest : List Byte} (hl : io.inp.rest = line ++ lineFeed :: rest) (h : lineFeed ∉ line) :
    readLine io = .ok line { io with inp := ⟨rest, io.inp.consumed + line.length + 1⟩ } := by
  simp [readLine, hl, splitLine_lineFeed line rest h]

/-- `ReadLine()` on a line that the end of `IN` ends (R294). -/
theorem readLine_end {io : Io} {line : List Byte} (hl : io.inp.rest = line) (h : lineFeed ∉ line) :
    readLine io = .ok line { io with inp := ⟨[], io.inp.consumed + line.length⟩, eos := true } := by
  simp [readLine, hl, splitLine_end line h]

end Sys2Proof.Machine
end

