-- ==== Sys2Proof/Laws/Run.lean ====
section
/-! SUPPORT. The pieces of a command's pseudocode: how each primitive runs, what the two frames `runChannel` and `runUnit` can answer,
and one principle, `Run.Does`, that carries a reflexive and transitive relation and a bound on the exceptions through every piece. -/

namespace Sys2Proof.Machine

variable {σ τ α β : Type}

/-! ### How the primitives run -/

@[simp] theorem Run.pure_apply (a : α) (p : σ) : (pure a : Run σ α) p = .ok a p := rfl

@[simp] theorem Run.raise_apply (e : Exc) (i : Int) (p : σ) : (raise e i : Run σ α) p = .error ⟨e, some i⟩ p := rfl

@[simp] theorem Run.raiseBare_apply (e : Exc) (p : σ) : (raiseBare e : Run σ α) p = .error ⟨e, none⟩ p := rfl

@[simp] theorem Run.modify_apply (f : σ → σ) (p : σ) : (modify f : Run σ Unit) p = .ok () (f p) := rfl

@[simp] theorem Run.get_apply (p : σ) : (get : Run σ σ) p = .ok p p := rfl

@[simp] theorem Run.set_apply (q p : σ) : (set q : Run σ Unit) p = .ok () q := rfl

@[simp] theorem Run.getByte_apply (io : Io) : getByte io = .ok (inByte io).1 (inByte io).2 := rfl

@[simp] theorem Run.readBits_apply (n : Nat) (io : Io) : readBits n io = .ok (rdBits n io).1 (rdBits n io).2 := rfl

@[simp] theorem Run.writeBits_apply (s : Bits) (io : Io) : writeBits s io = .ok () (wrBits s io) := rfl

@[simp] theorem Run.writeVal_apply (v : Int) (n : Nat) (io : Io) : writeVal v n io = .ok () (wrVal v n io) := rfl

@[simp] theorem Run.emitBytes_apply (bs : List Byte) (io : Io) : emitBytes bs io = .ok () (outBytes bs io) := rfl

@[simp] theorem Run.putBits_apply (s : Bits) (c : Coder) : putBits s c = .ok () { c with bits := c.bits ++ s } := rfl

@[simp] theorem Run.setPhase_apply (p : Phase) (s : State) : setPhase p s = .ok () { s with phase := p } := rfl

@[simp] theorem Run.setEngine_apply (e : Engine) (s : State) : setEngine e s = .ok () { s with eng := e } := rfl

@[simp] theorem Run.always_apply (f : State → State) (s : State) : always f s = .ok () (f s) := rfl

/-- Two pieces in a row: the second runs where the first left off, and an exception of the first is the exception of both. -/
@[simp] theorem Run.bind_apply (m : Run σ α) (f : α → Run σ β) (p : σ) :
    (m >>= f) p = match m p with
      | .ok a q => f a q
      | .error r q => .error r q := by
  change EStateM.bind m f p = _
  unfold EStateM.bind
  cases m p <;> rfl

/-- Mapping a run's value. -/
@[simp] theorem Run.map_apply (f : α → β) (m : Run σ α) (p : σ) :
    (f <$> m) p = match m p with
      | .ok a q => .ok (f a) q
      | .error r q => .error r q := by
  show EStateM.map f m p = _
  unfold EStateM.map
  cases m p <;> rfl

/-- A sequence that goes on: both pieces went on. -/
theorem Run.bind_ok {m : Run σ α} {f : α → Run σ β} {p q : σ} {b : β} :
    (m >>= f) p = .ok b q ↔ ∃ a u, m p = .ok a u ∧ f a u = .ok b q := by
  rw [Run.bind_apply]
  cases h : m p <;> simp

/-- A sequence that raises: the first piece raised, or it went on and the second did. -/
theorem Run.bind_error {m : Run σ α} {f : α → Run σ β} {p q : σ} {r : Raise} :
    (m >>= f) p = .error r q ↔ m p = .error r q ∨ ∃ a u, m p = .ok a u ∧ f a u = .error r q := by
  rw [Run.bind_apply]
  cases h : m p <;> simp

@[simp] theorem Run.on_apply (get : τ → σ) (put : τ → σ → τ) (m : Run σ α) (t : τ) :
    m.on get put t = match m (get t) with
      | .ok a p => .ok a (put t p)
      | .error r p => .error r (put t p) := rfl

theorem onIo_apply (m : Run Io α) (s : State) :
    onIo m s = match m s.io with
      | .ok a io => .ok a { s with io := io }
      | .error r io => .error r { s with io := io } := by
  cases h : m s.io <;> simp [onIo, h]

theorem onBlk_apply (m : Run BlockUnit α) (s : State) :
    onBlk m s = match m s.blk with
      | .ok a b => .ok a { s with blk := b }
      | .error r b => .error r { s with blk := b } := by
  cases h : m s.blk <;> simp [onBlk, h]

theorem onCoder_apply (m : Run Coder α) (b : BlockUnit) :
    onCoder m b = match m b.coder with
      | .ok a c => .ok a { b with coder := c }
      | .error r c => .error r { b with coder := c } := by
  cases h : m b.coder <;> simp [onCoder, h]

/-! ### The two frames of a command -/

/-- Everything a BitChannel command can answer. -/
theorem runChannel_cases (bad : State → List Nat) (body : Run State Unit) (s t : State)
    (h : runChannel bad body s = .next t) :
    (∃ i rest, bad s = i :: rest ∧ t = (s.start .compute).raised ⟨.badOperand, some i⟩)
    ∨ (bad s = [] ∧ ∃ u, body (s.start .compute) = .ok () u ∧ t = u.completed)
    ∨ (bad s = [] ∧ ∃ r u, body (s.start .compute) = .error r u ∧ t = u.raised r) := by
  unfold runChannel at h
  split at h
  · next i rest hb => exact .inl ⟨i, rest, hb, by simpa using h.symm⟩
  · next hb =>
    split at h
    · next u hu => exact .inr (.inl ⟨hb, u, hu, by simpa using h.symm⟩)
    · next r u hu => exact .inr (.inr ⟨hb, r, u, hu, by simpa using h.symm⟩)

/-- Everything a command of another unit can answer. -/
theorem runUnit_cases (p : Phase) (bad : State → List Nat) (body : Run State Unit) (s t : State)
    (h : runUnit p bad body s = .next t) :
    (∃ i rest, bad s = i :: rest ∧ t = (s.start p).dropChannel.released.raised ⟨.badOperand, some i⟩)
    ∨ (bad s = [] ∧ ∃ u, body (s.start p).dropChannel = .ok () u ∧ t = u.released.completed)
    ∨ (bad s = [] ∧ ∃ r u, body (s.start p).dropChannel = .error r u ∧ t = u.released.raised r) := by
  unfold runUnit at h
  split at h
  · next i rest hb => exact .inl ⟨i, rest, hb, by simpa using h.symm⟩
  · next hb =>
    split at h
    · next u hu => exact .inr (.inl ⟨hb, u, hu, by simpa using h.symm⟩)
    · next r u hu => exact .inr (.inr ⟨hb, r, u, hu, by simpa using h.symm⟩)

/-- A BitChannel command always answers a next state. -/
theorem runChannel_next (bad : State → List Nat) (body : Run State Unit) (s : State) :
    ∃ t, runChannel bad body s = .next t := by
  unfold runChannel
  split
  · exact ⟨_, rfl⟩
  · split <;> exact ⟨_, rfl⟩

/-- A command of another unit always answers a next state. -/
theorem runUnit_next (p : Phase) (bad : State → List Nat) (body : Run State Unit) (s : State) :
    ∃ t, runUnit p bad body s = .next t := by
  unfold runUnit
  split
  · exact ⟨_, rfl⟩
  · split <;> exact ⟨_, rfl⟩

/-- A BitChannel command whose operands are right and whose work goes on. -/
theorem runChannel_ok {bad : State → List Nat} {body : Run State Unit} {s u : State} (hb : bad s = [])
    (h : body (s.start .compute) = .ok () u) : runChannel bad body s = .next u.completed := by
  simp [runChannel, hb, h]

/-- A command of another unit whose operands are right and whose work goes on. -/
theorem runUnit_ok {p : Phase} {bad : State → List Nat} {body : Run State Unit} {s u : State} (hb : bad s = [])
    (h : body (s.start p).dropChannel = .ok () u) : runUnit p bad body s = .next u.released.completed := by
  simp [runUnit, hb, h]

/-- A command of another unit whose operands are right and whose work raises. -/
theorem runUnit_error {p : Phase} {bad : State → List Nat} {body : Run State Unit} {s u : State} {r : Raise} (hb : bad s = [])
    (h : body (s.start p).dropChannel = .error r u) : runUnit p bad body s = .next (u.released.raised r) := by
  simp [runUnit, hb, h]

/-! ### One principle for what a piece can do -/

/-- Whatever piece m does, it leads from p to some q with `R p q`, and an exception it raises satisfies E. -/
def Run.Does (R : σ → σ → Prop) (E : Exc → Prop) (m : Run σ α) : Prop :=
  ∀ p, match m p with
    | .ok _ q => R p q
    | .error r q => R p q ∧ E r.exc

theorem Run.Does.mono {R R' : σ → σ → Prop} {E E' : Exc → Prop} {m : Run σ α} (h : m.Does R E)
    (hR : ∀ p q, R p q → R' p q) (hE : ∀ e, E e → E' e) : m.Does R' E' := by
  intro p
  have := h p
  cases hm : m p <;> simp only [hm] at this ⊢
  · exact hR _ _ this
  · exact ⟨hR _ _ this.1, hE _ this.2⟩

theorem Run.Does.done {R : σ → σ → Prop} {E : Exc → Prop} (hr : ∀ p, R p p) (a : α) :
    (pure a : Run σ α).Does R E := fun p => hr p

theorem Run.Does.stop {R : σ → σ → Prop} {E : Exc → Prop} (hr : ∀ p, R p p) {e : Exc} (he : E e) (i : Int) :
    (raise e i : Run σ α).Does R E := fun p => ⟨hr p, he⟩

theorem Run.Does.stopBare {R : σ → σ → Prop} {E : Exc → Prop} (hr : ∀ p, R p p) {e : Exc} (he : E e) :
    (raiseBare e : Run σ α).Does R E := fun p => ⟨hr p, he⟩

theorem Run.Does.update {R : σ → σ → Prop} {E : Exc → Prop} {f : σ → σ} (h : ∀ p, R p (f p)) :
    (modify f : Run σ Unit).Does R E := fun p => h p

theorem Run.Does.bind {R : σ → σ → Prop} {E : Exc → Prop} (ht : ∀ p q r, R p q → R q r → R p r) {m : Run σ α}
    {f : α → Run σ β} (hm : m.Does R E) (hf : ∀ a, (f a).Does R E) : (m >>= f).Does R E := by
  intro p
  have h1 := hm p
  rw [Run.bind_apply]
  cases h : m p with
  | error r q => simpa only [h] using h1
  | ok a q =>
    simp only [h] at h1 ⊢
    have h2 := hf a q
    cases h' : f a q <;> simp only [h'] at h2 ⊢
    · exact ht _ _ _ h1 h2
    · exact ⟨ht _ _ _ h1 h2.1, h2.2⟩

theorem Run.Does.on {R : σ → σ → Prop} {S : τ → τ → Prop} {E : Exc → Prop} {get : τ → σ} {put : τ → σ → τ} {m : Run σ α}
    (hm : m.Does R E) (h : ∀ t p, R (get t) p → S t (put t p)) : (m.on get put).Does S E := by
  intro t
  have h1 := hm (get t)
  rw [Run.on_apply]
  cases hg : m (get t) <;> simp only [hg] at h1 ⊢
  · exact h _ _ h1
  · exact ⟨h _ _ h1.1, h1.2⟩

theorem Run.Does.phase {R : State → State → Prop} {E : Exc → Prop} (h : ∀ s p, R s { s with phase := p }) (p : Phase) :
    (setPhase p).Does R E := fun s => h s p

theorem Run.Does.engine {R : State → State → Prop} {E : Exc → Prop} (h : ∀ s e, R s { s with eng := e }) (e : Engine) :
    (setEngine e).Does R E := fun s => h s e

/-- The encoders' loop does what one turn does: the steps of a turn are `PHASE`, a byte of `IN`, the symbol, the engine. -/
theorem Run.Does.forInput {ε : Type} {engine : ε → Engine} {R : State → State → Prop} {E : Exc → Prop} (hr : ∀ p, R p p)
    (ht : ∀ p q r, R p q → R q r → R p r) (hp : ∀ s p, R s { s with phase := p }) (he : ∀ s e, R s { s with eng := e })
    (hg : ∀ s : State, R s { s with io := (inByte s.io).2 }) {f : Byte → ε → Run State ε} (hf : ∀ c e, (f c e).Does R E) :
    ∀ (cs : List Byte) (e : ε), (Machine.forInput engine f cs e).Does R E
  | [], e => Run.Does.done hr e
  | _ :: cs, _ =>
    Run.Does.bind ht (Run.Does.phase hp _) fun _ =>
      Run.Does.bind ht (fun s => hg s) fun _ =>
        Run.Does.bind ht (hf _ _) fun e' =>
          Run.Does.bind ht (Run.Does.engine he _) fun _ => Run.Does.forInput hr ht hp he hg hf cs e'

end Sys2Proof.Machine
end

