-- ==== Sys2Proof/Laws/Coder.lean ====
section
/-! SUPPORT. The character-level operations of the image path (45_huffman.md R253, R257, 46_rle_entropy.md R268): what taking a bit,
a value field and a codeword does, and the leaves of a codebook. -/

namespace Sys2Proof.Machine

open Sys2Proof.Claims

theorem nextBit_bit {c : Coder} {b : Bool} {rest : List Byte} (h : c.line = bitChar b :: rest) :
    nextBit c = .ok (some b) { c with line := rest, pos := c.pos + 1 } := by
  cases b <;> simp [nextBit, h, bitChar]

theorem nextBit_end {c : Coder} (h : c.line = []) : nextBit c = .ok none c := by simp [nextBit, h]

theorem nextBit_lineFeed {c : Coder} {rest : List Byte} (h : c.line = lineFeed :: rest) :
    nextBit c = .ok none { c with line := rest, pos := c.pos + 1 } := by simp [nextBit, h, lineFeed]

theorem nextBit_stray {c : Coder} {ch : Byte} {rest : List Byte} (h : c.line = ch :: rest) (h0 : ch ≠ 0x30) (h1 : ch ≠ 0x31)
    (hl : ch ≠ lineFeed) :
    nextBit c = .error ⟨.corruptCodeword, some ch.toNat⟩ { c with line := rest, pos := c.pos + 1 } := by
  simp only [nextBit, h]
  rw [if_neg h0, if_neg h1, if_neg hl]

@[simp] theorem chars_nil : chars [] = [] := rfl
@[simp] theorem chars_cons (b : Bool) (s : Bits) : chars (b :: s) = bitChar b :: chars s := rfl
@[simp] theorem chars_append (s t : Bits) : chars (s ++ t) = chars s ++ chars t := by simp [chars]
@[simp] theorem chars_length (s : Bits) : (chars s).length = s.length := by simp [chars]

/-- A value field that is there is taken whole. -/
theorem takeBits_chars (bits : Bits) (rest : List Byte) (c : Coder) (h : c.line = chars bits ++ rest) :
    takeBits bits.length c = .ok bits { c with line := rest, pos := c.pos + bits.length } := by
  induction bits generalizing c with
  | nil => cases c; simp_all [takeBits]
  | cons b bs ih =>
    have hb := nextBit_bit (c := c) (b := b) (rest := chars bs ++ rest) (by simpa using h)
    simp [takeBits, hb, ih { c with line := chars bs ++ rest, pos := c.pos + 1 } rfl, Nat.add_comm, Nat.add_left_comm]

/-- A value field that the source ends is `TruncatedStream`. -/
theorem takeBits_short (bits : Bits) (n : Nat) (c d : Coder) (tail : List Byte) (h : c.line = chars bits ++ tail) (hn : bits.length < n)
    (he : nextBit { c with line := tail, pos := c.pos + bits.length } = .ok none d) :
    takeBits n c = .error ⟨.truncatedStream, none⟩ d := by
  induction bits generalizing c n with
  | nil =>
    obtain ⟨n, rfl⟩ : ∃ m, n = m + 1 := ⟨n - 1, by simp at hn; omega⟩
    have hc : ({ c with line := tail, pos := c.pos + 0 } : Coder) = c := by cases c; simp_all
    simp only [List.length_nil, hc] at he
    simp [takeBits, he]
  | cons b bs ih =>
    obtain ⟨n, rfl⟩ : ∃ m, n = m + 1 := ⟨n - 1, by simp at hn; omega⟩
    have hb := nextBit_bit (c := c) (b := b) (rest := chars bs ++ tail) (by simpa using h)
    have := ih n { c with line := chars bs ++ tail, pos := c.pos + 1 } rfl (by simpa using hn)
      (by rw [← he]; simp [Nat.add_comm, Nat.add_left_comm])
    simp [takeBits, hb, this]

/-- A value field that meets a stray character raises what taking it raised. -/
theorem takeBits_stray (bits : Bits) (n : Nat) (c d : Coder) (r : Raise) (tail : List Byte) (h : c.line = chars bits ++ tail)
    (hn : bits.length < n) (he : nextBit { c with line := tail, pos := c.pos + bits.length } = .error r d) :
    takeBits n c = .error r d := by
  induction bits generalizing c n with
  | nil =>
    obtain ⟨n, rfl⟩ : ∃ m, n = m + 1 := ⟨n - 1, by simp at hn; omega⟩
    have hc : ({ c with line := tail, pos := c.pos + 0 } : Coder) = c := by cases c; simp_all
    simp only [List.length_nil, hc] at he
    simp [takeBits, he]
  | cons b bs ih =>
    obtain ⟨n, rfl⟩ : ∃ m, n = m + 1 := ⟨n - 1, by simp at hn; omega⟩
    have hb := nextBit_bit (c := c) (b := b) (rest := chars bs ++ tail) (by simpa using h)
    have := ih n { c with line := chars bs ++ tail, pos := c.pos + 1 } rfl (by simpa using hn)
      (by rw [← he]; simp [Nat.add_comm, Nat.add_left_comm])
    simp [takeBits, hb, this]

/-- In a trie that some table built, the leaf at the end of a path carries that path as its codeword. -/
theorem Trie.leaf_path {dc : Bool} {t : Trie} {path : Bits} (h : Trie.wfAt dc path t = true) {l : Nat × Bits} (hl : l ∈ leaves t) :
    ∃ s, l.2 = path.reverse ++ s := by
  induction t generalizing path with
  | empty => simp [leaves] at hl
  | leaf sym code =>
    simp only [Trie.wfAt, beq_iff_eq] at h
    simp only [leaves, List.mem_singleton] at hl
    exact ⟨[], by simp [hl, h]⟩
  | node l r b ihl ihr =>
    simp only [Trie.wfAt, Bool.and_eq_true] at h
    simp only [leaves, List.mem_append] at hl
    rcases hl with hl | hl
    · obtain ⟨s, hs⟩ := ihl h.1.2 hl
      exact ⟨false :: s, by simp [hs]⟩
    · obtain ⟨s, hs⟩ := ihr h.2 hl
      exact ⟨true :: s, by simp [hs]⟩

/-- Descending from a node along the rest of a leaf's codeword finds the leaf's symbol. -/
theorem huffDecode_leaf {dc : Bool} {t : Trie} {path : Bits} (h : Trie.wfAt dc path t = true) {sym : Nat} {s : Bits}
    (hl : (sym, path.reverse ++ s) ∈ leaves t) (used : Nat) (c : Coder) (rest : List Byte) (hc : c.line = chars s ++ rest) :
    huffDecode t used c = .ok sym { c with line := rest, pos := c.pos + s.length } := by
  induction t generalizing path s used c with
  | empty => simp [leaves] at hl
  | leaf sym' code =>
    simp only [Trie.wfAt, beq_iff_eq] at h
    simp only [leaves, List.mem_singleton, Prod.mk.injEq] at hl
    obtain rfl : s = [] := by simpa [h] using hl.2
    cases c
    simp_all [huffDecode]
  | node l r b ihl ihr =>
    simp only [Trie.wfAt, Bool.and_eq_true] at h
    simp only [leaves, List.mem_append] at hl
    rcases hl with hl | hl
    · obtain ⟨u, hu⟩ := Trie.leaf_path h.1.2 hl
      obtain rfl : s = false :: u := by simpa using hu
      have hb := nextBit_bit (c := c) (b := false) (rest := chars u ++ rest) (by simpa using hc)
      have := ihl h.1.2 (s := u) (by simpa using hl) (used + 1) { c with line := chars u ++ rest, pos := c.pos + 1 } rfl
      simp [huffDecode, hb, this, Nat.add_comm, Nat.add_left_comm]
    · obtain ⟨u, hu⟩ := Trie.leaf_path h.2 hl
      obtain rfl : s = true :: u := by simpa using hu
      have hb := nextBit_bit (c := c) (b := true) (rest := chars u ++ rest) (by simpa using hc)
      have := ihr h.2 (s := u) (by simpa using hl) (used + 1) { c with line := chars u ++ rest, pos := c.pos + 1 } rfl
      simp [huffDecode, hb, this, Nat.add_comm, Nat.add_left_comm]

/-- A codebook of a checked configuration: its root is no leaf, and every node's path holds. -/
theorem Trie.wfAt_of_wf {dc : Bool} {t : Trie} (h : t.wf dc = true) : Trie.wfAt dc [] t = true := by
  cases t <;> simp_all [Trie.wf, Trie.wfAt]

/-- Every codebook that `SEL` selects meets its check. -/
theorem codebook_wf (cfg : CheckedConfig) (t : Nat) : (codebook cfg.toConfig t).wf (!t.testBit 1) = true := by
  have h := cfg.ok
  simp only [Config.wf, Bool.and_eq_true] at h
  unfold codebook
  split
  · rename_i ht
    simp only [acTrie, ht, Bool.not_true]
    split <;> simp_all
  · rename_i ht
    simp only [dcTrie, eq_false_of_ne_true ht, Bool.not_false]
    split <;> simp_all

/-- The depth-first search answers the first leaf, left to right, that carries the symbol (45_huffman.md R251). -/
theorem lookupAc_eq_find (t : Trie) (rs : Int) :
    lookupAc t rs = ((leaves t).find? (fun l => decide ((l.1 : Int) = rs))).map Prod.snd := by
  induction t with
  | empty => rfl
  | leaf sym code => by_cases h : (sym : Int) = rs <;> simp [lookupAc, leaves, h]
  | node l r b ihl ihr =>
    simp only [lookupAc, leaves, List.find?_append, ihl, ihr]
    cases (leaves l).find? (fun l => decide ((l.1 : Int) = rs)) <;> simp

/-- Putting a codeword: the coder's bits grow by it, or the symbol is refused. -/
theorem putCode_apply (code : Option Bits) (k : Int) (c : Coder) :
    putCode code k c = match code with
      | some s => .ok () { c with bits := c.bits ++ s }
      | none => .error ⟨.corruptCodeword, some k⟩ c := by
  cases code <;> rfl

end Sys2Proof.Machine
end

