-- ==== Sys2Proof/Laws/Numeric.lean ====
section
/-! SUPPORT. `NUMERIC`: over exact reals the operations of the image path are those of `ExactNum`, no result is rounded and a zero block
transforms to a zero block; a number without roots has the floor of its rational. -/

namespace Sys2Proof

open Machine

@[simp] theorem Numeric.fit_exact (x : ExactNum) : Numeric.exact.fit x = x := rfl
@[simp] theorem Numeric.const_exact (q : Rat) : Numeric.exact.const q = q := rfl
@[simp] theorem Numeric.add_exact (x y : ExactNum) : Numeric.exact.add x y = x.add y := rfl
@[simp] theorem Numeric.sub_exact (x y : ExactNum) : Numeric.exact.sub x y = x.sub y := rfl
@[simp] theorem Numeric.mul_exact (x y : ExactNum) : Numeric.exact.mul x y = x.mul y := rfl
@[simp] theorem Numeric.scale_exact (q : Rat) (x : ExactNum) : Numeric.exact.scale q x = x.smul q := rfl
@[simp] theorem Numeric.div_exact (x : ExactNum) (n : Nat) : Numeric.exact.div x n = x.smul (1 / (n : Rat)) := rfl
@[simp] theorem Numeric.basis_exact (i j : Nat) : Numeric.exact.basis i j = dctBasis i j := rfl
@[simp] theorem Numeric.round_exact_halfUp (x : ExactNum) : Numeric.exact.round .halfUp x = roundHalfUp x := rfl

/-- Every result in binary64 is the rational number that the rounding gives. -/
@[simp] theorem Numeric.fit_binary64 (x : ExactNum) : Numeric.binary64.fit x = .ofRat (round64 x) := rfl

namespace Machine

@[simp] theorem ExactNum.isRat_ofRat (q : Rat) : (ExactNum.ofRat q).isRat = true := by
  simp [ExactNum.isRat, ExactNum.ofRat, Quartic.ofRat, Quad.ofRat]

/-- A number without roots is the rational in its first place. -/
theorem ExactNum.eq_ofRat {x : ExactNum} (h : x.isRat = true) : x = .ofRat x.a.a.a := by simpa [ExactNum.isRat] using h

@[simp] theorem ExactNum.floor_ofRat (q : Rat) : (ExactNum.ofRat q).floor = q.floor := by
  simp [ExactNum.floor, ExactNum.ofRat, Quartic.ofRat, Quad.ofRat, ExactNum.isRat]

@[simp] theorem ExactNum.mul_zero (x : ExactNum) : x.mul (.ofInt 0) = .ofInt 0 := by
  simp [ExactNum.mul, ExactNum.ofInt, ExactNum.ofRat, Quartic.ofRat, Quad.ofRat, Quartic.mul, Quad.mul, Quartic.add, Quad.add]

@[simp] theorem ExactNum.zero_mul (x : ExactNum) : (ExactNum.ofInt 0).mul x = .ofInt 0 := by
  simp [ExactNum.mul, ExactNum.ofInt, ExactNum.ofRat, Quartic.ofRat, Quad.ofRat, Quartic.mul, Quad.mul, Quartic.add, Quad.add,
    Quartic.root, Quad.root]

@[simp] theorem ExactNum.add_zero (x : ExactNum) : x.add (.ofInt 0) = x := by
  simp [ExactNum.add, ExactNum.ofInt, ExactNum.ofRat, Quartic.ofRat, Quad.ofRat, Quartic.add, Quad.add]

/-- A sum of zeros. -/
theorem sum_exact_zero (n : Nat) : Numeric.exact.sum (List.replicate n (.ofInt 0)) = .ofInt 0 := by
  unfold Numeric.sum
  induction n with
  | zero => rfl
  | succ n ih => simpa [List.replicate_succ] using ih

theorem sum_exact_zero_eight :
    Numeric.exact.sum [.ofInt 0, .ofInt 0, .ofInt 0, .ofInt 0, .ofInt 0, .ofInt 0, .ofInt 0, .ofInt 0] = .ofInt 0 := sum_exact_zero 8

/-- The zero block. -/
def zeroBlock : Vector ExactNum 64 := Vector.ofFn fun _ => .ofInt 0

theorem matMul_exact_zero (x : Vector ExactNum 64) : Numeric.exact.matMul x zeroBlock = zeroBlock := by
  unfold Numeric.matMul
  simp [zeroBlock, sum_exact_zero_eight]

theorem zero_matMul_exact (x : Vector ExactNum 64) : Numeric.exact.matMul zeroBlock x = zeroBlock := by
  unfold Numeric.matMul
  simp [zeroBlock, sum_exact_zero_eight]

end Machine

end Sys2Proof
end

