-- ==== Sys2Proof/Laws/PerInstr.lean ====
section
/-! SUPPORT. The family `RoundTrip` of LAWS.json: a command's byte decodes to it (30_encoding.md R94), one lemma for each command. -/

namespace Sys2Proof.Laws.RoundTrip

/-- The command is well formed, and decoding its byte gives it back with nothing left over. -/
def Statement (i : Instr) : Prop := i.wellFormed = true ∧ decodeBytes [encode i] = .ok (i, [])

theorem bcOpenw : Statement .bcOpenw := ⟨rfl, rfl⟩
theorem bcOpenr : Statement .bcOpenr := ⟨rfl, rfl⟩
theorem bcWrbits : Statement .bcWrbits := ⟨rfl, rfl⟩
theorem bcWrval : Statement .bcWrval := ⟨rfl, rfl⟩
theorem bcRdbits : Statement .bcRdbits := ⟨rfl, rfl⟩
theorem bcClose : Statement .bcClose := ⟨rfl, rfl⟩
theorem lz78Enc : Statement .lz78Enc := ⟨rfl, rfl⟩
theorem lz78Dec : Statement .lz78Dec := ⟨rfl, rfl⟩
theorem lzwEnc : Statement .lzwEnc := ⟨rfl, rfl⟩
theorem lzwDec : Statement .lzwDec := ⟨rfl, rfl⟩
theorem lzssEnc : Statement .lzssEnc := ⟨rfl, rfl⟩
theorem lzssDec : Statement .lzssDec := ⟨rfl, rfl⟩
theorem dctFwd : Statement .dctFwd := ⟨rfl, rfl⟩
theorem dctInv : Statement .dctInv := ⟨rfl, rfl⟩
theorem qSetq : Statement .qSetq := ⟨rfl, rfl⟩
theorem qQuant : Statement .qQuant := ⟨rfl, rfl⟩
theorem qDequant : Statement .qDequant := ⟨rfl, rfl⟩
theorem zzFwd : Statement .zzFwd := ⟨rfl, rfl⟩
theorem zzInv : Statement .zzInv := ⟨rfl, rfl⟩
theorem hufEnc : Statement .hufEnc := ⟨rfl, rfl⟩
theorem hufDec : Statement .hufDec := ⟨rfl, rfl⟩
theorem entEnc : Statement .entEnc := ⟨rfl, rfl⟩
theorem entDec : Statement .entDec := ⟨rfl, rfl⟩
theorem rleEnc : Statement .rleEnc := ⟨rfl, rfl⟩
theorem rleDec : Statement .rleDec := ⟨rfl, rfl⟩
theorem ctFwd : Statement .ctFwd := ⟨rfl, rfl⟩
theorem ctInv : Statement .ctInv := ⟨rfl, rfl⟩
theorem imgEnc : Statement .imgEnc := ⟨rfl, rfl⟩
theorem imgDec : Statement .imgDec := ⟨rfl, rfl⟩

end Sys2Proof.Laws.RoundTrip
end

