-- ==== Sys2Proof/Laws/Sparse.lean ====
section
/-! SUPPORT. The plane memories: reading after a write, and the canonical form that every write keeps. -/

namespace Sys2Proof.Machine

variable {α : Type}

/-- The address order is total and strict. -/
theorem Key.lt_iff (k l : Key) :
    k.lt l = true ↔ k.c < l.c ∨ (k.c = l.c ∧ (k.y < l.y ∨ (k.y = l.y ∧ k.x < l.x))) := by
  simp [Key.lt]

theorem Key.lt_irrefl (k : Key) : k.lt k = false := by simp [Key.lt]

theorem Key.lt_trans {k l m : Key} (h : k.lt l = true) (h' : l.lt m = true) : k.lt m = true := by
  rw [Key.lt_iff] at *
  omega

theorem Key.lt_of_not {k l : Key} (h : k.lt l = false) (hne : k ≠ l) : l.lt k = true := by
  have h' : ¬ (k.lt l = true) := by simp [h]
  rw [Key.lt_iff] at *
  have : ¬ (k.c = l.c ∧ k.y = l.y ∧ k.x = l.x) := by
    rintro ⟨hc, hy, hx⟩
    exact hne (by cases k; cases l; simp_all)
  omega

/-- One read after one write: the written element at its address, every other element as before. -/
theorem Sparse.read_write (m : Sparse α) (k : Key) (v : α) (l : Key) :
    (m.write k v).read l = if l = k then some v else m.read l := by
  induction m with
  | nil => simp [Sparse.write, Sparse.read, eq_comm]
  | cons e m ih =>
    obtain ⟨j, w⟩ := e
    simp only [Sparse.write]
    split
    · simp only [Sparse.read]
      by_cases h : k = l
      · simp [h]
      · simp [h, Ne.symm h]
    · split
      · next _ hk =>
        subst hk
        simp only [Sparse.read]
        by_cases h : k = l
        · simp [h]
        · simp [h, Ne.symm h]
      · next _ hk =>
        simp only [Sparse.read]
        by_cases h : j = l
        · subst h
          simp [Ne.symm hk]
        · simp [h, ih]

/-- The addresses of a memory in canonical form that follow an address rise from it. -/
theorem Sparse.wf_cons (k : Key) (v : α) (m : Sparse α) :
    Sparse.wf ((k, v) :: m) = true ↔ Sparse.wf m = true ∧ ∀ e, m.head? = some e → k.lt e.1 = true := by
  cases m with
  | nil => simp [Sparse.wf]
  | cons e m =>
    obtain ⟨l, w⟩ := e
    simp [Sparse.wf, and_comm]

/-- The first address after a write is the old first one or the written one. -/
theorem Sparse.head_write (m : Sparse α) (k : Key) (v : α) (e : Key × α) (h : (m.write k v).head? = some e) :
    e.1 = k ∨ ∃ e', m.head? = some e' ∧ e.1 = e'.1 := by
  cases m with
  | nil => simp [Sparse.write] at h; simp [← h]
  | cons d m =>
    obtain ⟨l, w⟩ := d
    simp only [Sparse.write] at h
    split at h
    · simp at h; simp [← h]
    · split at h
      · simp at h; simp [← h]
      · simp at h; simp [← h]

/-- A write keeps the canonical form. -/
theorem Sparse.write_wf (m : Sparse α) (k : Key) (v : α) (h : m.wf = true) : (m.write k v).wf = true := by
  induction m with
  | nil => rfl
  | cons e m ih =>
    obtain ⟨l, w⟩ := e
    rw [Sparse.wf_cons] at h
    simp only [Sparse.write]
    split
    · next hk => rw [Sparse.wf_cons, Sparse.wf_cons]; exact ⟨h, by simpa using hk⟩
    · split
      · next _ hk => subst hk; rw [Sparse.wf_cons]; exact h
      · next hk hne =>
        rw [Sparse.wf_cons]
        refine ⟨ih h.1, fun e he => ?_⟩
        rcases Sparse.head_write m k v e he with h' | ⟨e', he', h'⟩
        · rw [h']; exact Key.lt_of_not (by simpa using hk) hne
        · rw [h']; exact h.2 e' he'

/-- A canonical memory holds no address twice, so reading is looking up: nothing stands below its first address. -/
theorem Sparse.read_below (m : Sparse α) (k : Key) (h : m.wf = true) (hk : ∀ e, m.head? = some e → k.lt e.1 = true) :
    m.read k = none := by
  induction m with
  | nil => rfl
  | cons e m ih =>
    obtain ⟨l, w⟩ := e
    have hl : k.lt l = true := hk (l, w) rfl
    rw [Sparse.wf_cons] at h
    have hne : l ≠ k := by rintro rfl; simp [Key.lt_irrefl] at hl
    simp only [Sparse.read, hne, if_false]
    exact ih h.1 fun e he => Key.lt_trans hl (h.2 e he)

/-- Equal memories are equal data: two canonical memories that read alike are the same list. -/
theorem Sparse.ext_read (m m' : Sparse α) (h : m.wf = true) (h' : m'.wf = true) (hr : ∀ k, m.read k = m'.read k) :
    m = m' := by
  induction m generalizing m' with
  | nil =>
    cases m' with
    | nil => rfl
    | cons e m' => have := hr e.1; simp [Sparse.read] at this
  | cons e m ih =>
    obtain ⟨k, v⟩ := e
    cases m' with
    | nil => have := hr k; simp [Sparse.read] at this
    | cons e' m' =>
      obtain ⟨l, w⟩ := e'
      have hkl : k = l := by
        by_contra hne
        rcases Bool.eq_false_or_eq_true (k.lt l) with hlt | hlt
        · have h1 := hr k
          rw [Sparse.read_below ((l, w) :: m') k h' (by simpa using hlt)] at h1
          simp [Sparse.read] at h1
        · have h1 := hr l
          rw [Sparse.read_below ((k, v) :: m) l h (by simpa using Key.lt_of_not hlt hne)] at h1
          simp [Sparse.read] at h1
      subst hkl
      have hv : v = w := by have := hr k; simpa [Sparse.read] using this
      subst hv
      rw [Sparse.wf_cons] at h h'
      congr 1
      refine ih m' h.1 h'.1 fun j => ?_
      by_cases hj : k = j
      · subst hj
        rw [Sparse.read_below m k h.1 h.2, Sparse.read_below m' k h'.1 h'.2]
      · have := hr j
        simpa [Sparse.read, hj] using this

/-- The reset memories are canonical. -/
theorem State.reset_planes : State.reset.PlanesSound := ⟨rfl, rfl⟩

end Sys2Proof.Machine
end

