-- ==== Sys2Proof/Tests/Slice0.lean ====
section
/-! SUPPORT. Tests. Expected results are those of spec/95_test_vectors.md (the vector is named beside each test) or are read by
hand from the rule named. At the end, a concrete case for the hypotheses of every statement that has any. -/

open Sys2Proof Sys2Proof.Machine Sys2Proof.Claims

namespace Sys2Proof.Tests

set_option Elab.async false

/-! ### Well-formedness: each check refuses an ill-formed term (48_default_tables.md R317, 45_huffman.md R247) -/

theorem test_wf_every_command : ∀ i ∈ Instr.all, i.wellFormed = true := by decide
theorem test_wf_empty_codeword_refused : TableDef.wf [(1, [false]), (2, [])] = false := by decide
theorem test_wf_equal_codewords_refused : TableDef.wf [(1, [true, false]), (2, [true, false])] = false := by decide
theorem test_wf_prefix_codeword_refused : TableDef.wf [(1, [true, false]), (2, [true])] = false := by decide
theorem test_wf_prefix_free_accepted : TableDef.wf [(1, [true, false]), (2, [false]), (2, [true, true])] = true := by decide
theorem test_wf_build_refuses_prefix : trieBuild [(1, [true, false]), (2, [true])] = none := by decide
theorem test_wf_build_refuses_empty : trieBuild [(2, [])] = none := by decide
theorem test_wf_base_table_zero_refused : baseTableWf (Vector.replicate 64 0) = false := by decide +kernel
theorem test_wf_zigzag_constant_refused : zigzagWf (Vector.replicate 64 0) = false := by decide +kernel
theorem test_wf_zigzag_not_from_zero_refused : zigzagWf (Vector.ofFn fun k : Fin 64 => 63 - k) = false := by decide +kernel
theorem test_wf_trie_root_leaf_refused : Trie.wf true (.leaf 3 []) = false := by decide
theorem test_wf_trie_wrong_codeword_refused : Trie.wf true (.node (.leaf 3 [true]) .empty 3) = false := by decide
theorem test_wf_trie_bare_node_refused : Trie.wf true (.node .empty .empty (-1)) = false := by decide
theorem test_wf_trie_wrong_bound_refused : Trie.wf true (.node (.leaf 3 [false]) .empty 2) = false := by decide
theorem test_wf_trie_accepted : Trie.wf true (.node (.leaf 3 [false]) .empty 3) = true := by decide
theorem test_wf_bias_refused : ({ defaultConfig with lz78WidthBias := 2 } : Config).wf = false := by decide +kernel
theorem test_wf_default_dc_tables : ([dcLumaRows, dcChromaRows].all (fun t => (tableOf t).wf)) = true := by decide +kernel

/-! ### Decoding: the words of 30_encoding.md R94, `unit` in bits 7:4, `func` in bits 3:0 -/

theorem test_decode_bitchannel :
    [0b00000000, 0b00000001, 0b00000010, 0b00000011, 0b00000100, 0b00000101].map decode
      = [Instr.bcOpenw, .bcOpenr, .bcWrbits, .bcWrval, .bcRdbits, .bcClose].map .ok := by decide
theorem test_decode_lz :
    [0b00010000, 0b00010001, 0b00100000, 0b00100001, 0b00110000, 0b00110001].map decode
      = [Instr.lz78Enc, .lz78Dec, .lzwEnc, .lzwDec, .lzssEnc, .lzssDec].map .ok := by decide
theorem test_decode_block :
    [0b01000000, 0b01000001, 0b01010000, 0b01010001, 0b01010010, 0b01100000, 0b01100001].map decode
      = [Instr.dctFwd, .dctInv, .qSetq, .qQuant, .qDequant, .zzFwd, .zzInv].map .ok := by decide
theorem test_decode_entropy :
    [0b01110000, 0b01110001, 0b10000000, 0b10000001, 0b10000010, 0b10000011].map decode
      = [Instr.hufEnc, .hufDec, .entEnc, .entDec, .rleEnc, .rleDec].map .ok := by decide
theorem test_decode_image :
    [0b10010000, 0b10010001, 0b10010010, 0b10010011].map decode
      = [Instr.ctFwd, .ctInv, .imgEnc, .imgDec].map .ok := by decide
theorem test_decode_reserved_units : ∀ n : Fin 96, decode (BitVec.ofNat 8 (0xA0 + n)) = .error (.reservedUnit (BitVec.ofNat 8 (0xA0 + n))) := by
  decide +kernel
theorem test_decode_reserved_funcs :
    [0x06, 0x0F, 0x12, 0x22, 0x32, 0x42, 0x53, 0x62, 0x72, 0x84, 0x94, 0x9F].map decode
      = [0x06, 0x0F, 0x12, 0x22, 0x32, 0x42, 0x53, 0x62, 0x72, 0x84, 0x94, 0x9F].map (fun b => .error (.reservedFunc b)) := by decide
theorem test_table_word : decodeTableWord 8 0x92 = some .imgEnc ∧ decodeTableWord 8 0xA0 = none := by decide
theorem test_fetch_word_runs : step (State.reset.withFetchWord 8 0x00) = exec .bcOpenw State.reset := by rfl

/-! ### Helpers -/

/-- The state after a command that answers a next state. -/
def after (i : Instr) (s : State) : State :=
  match exec i s with
  | .next t => t
  | .fault _ => s
  | .refused _ => s

/-- Reset, with these bytes on `IN`. -/
def fed (bytes : List Byte) : State := { State.reset with io := { State.reset.io with inp := ⟨bytes, 0⟩ } }

/-- How a command ended: `ERRCODE`, then the bytes on `OUT`. -/
def ending (s : State) : Nat × List Byte := (s.errCode, s.io.out.bytes)

/-- Bits on `IN` as characters. -/
def bitsOf (n v : Nat) : List Byte := chars (binN n v)

/-- A block with these first elements, and this element everywhere else. -/
def blockWith {α : Type} (first : List α) (other : α) : Vector (Reg α) 64 :=
  Vector.ofFn fun k : Fin 64 => .of (first.getD k.1 other)

def withBlkf (first : List Int) (other : Int) (s : State) : State :=
  { s with blk := { s.blk with blkf := blockWith (first.map .ofInt) (.ofInt other) } }
def withBlki (first : List Int) (other : Int) (s : State) : State :=
  { s with blk := { s.blk with blki := blockWith first other } }
def withSeq (first : List Int) (other : Int) (s : State) : State :=
  { s with blk := { s.blk with seq := blockWith first other } }

/-- A one-pixel image in `RGB`. -/
def onePixel (r g b : Byte) (s : State) : State :=
  { s with rgb := [(⟨0, 0, 0⟩, r), (⟨1, 0, 0⟩, g), (⟨2, 0, 0⟩, b)], height := .of 1, width := .of 1 }

/-- A one-pixel image in `YCC`. -/
def onePixelYcc (y cb cr : Rat) (s : State) : State :=
  { s with
    ycc := [(⟨0, 0, 0⟩, .ofRat y), (⟨1, 0, 0⟩, .ofRat cb), (⟨2, 0, 0⟩, .ofRat cr)], height := .of 1, width := .of 1 }

/-- A fresh host-opened writer, a fresh host-opened reader. -/
def writing : State := after .bcOpenw State.reset
def reading (bytes : List Byte) : State := after .bcOpenr (fed bytes)

/-- Registers of LZSS.ENC (V43.1). -/
def lzssRegs (w m min : Nat) (s : State) : State :=
  { s with windowBits := .of w, maxMatchBits := .of m, minMatchLen := .of min }

/-- `MODE.EMBEDDED = 1`. -/
def embedded (s : State) : State := { s with mode := .of 1 }

/-- Small dictionaries, and `NUMERIC` = binary64. -/
def otherConfig : CheckedConfig :=
  ⟨{ defaultConfig with lz78MaxCode := some 1, lzwMaxCode := some 257, numeric := .binary64 }, by decide +kernel⟩
/-- A codebook for luminance DC that holds nothing. -/
def bareConfig : CheckedConfig := ⟨{ defaultConfig with dcLuma := .empty }, by decide +kernel⟩
def under (c : CheckedConfig) (s : State) : State := { s with cfg := c }

/-- Bits as the bytes of a stream. -/
def packed (bits : Bits) : List Byte := (wrBits bits (openWriter State.reset.io)).out.bytes

/-! ### One step of each command -/

/-- R137, R356: the pending bits of an open writer are lost. -/
theorem test_openw_discards :
    (after .bcOpenw { writing with io := { writing.io with wtr := ⟨true, 0xA0, 3⟩ } }).io.wtr = ⟨true, 0, 0⟩ := by decide +kernel
theorem test_openr_fresh : (reading [0xA5]).io.rdr.cnt = 8 ∧ (reading [0xA5]).io.inp.rest = [0xA5] := by decide +kernel
/-- V40.2, both parts. -/
theorem test_wrbits_partial :
    (after .bcWrbits { writing with a := .of 5, n := .of 3 }).io.wtr = ⟨true, 0xA0, 3⟩ := by decide +kernel
theorem test_wrbits_full_byte :
    let t := after .bcWrbits { writing with
      a := .of 31, n := .of 5, io := { writing.io with wtr := ⟨true, 0xA0, 3⟩ } }
    t.io.out.bytes = [0xBF] ∧ t.io.wtr = ⟨true, 0, 0⟩ := by decide +kernel
/-- V40.3: −1 at width 16 is `0000000011111111`; 32 at width 5 is `00000`. -/
theorem test_wrval_negative : (after .bcWrval { writing with a := .of (-1), n := .of 16 }).io.out.bytes = [0x00, 0xFF] := by decide +kernel
theorem test_wrval_low_bits : (after .bcWrval { writing with a := .of 33, n := .of 5 }).io.wtr = ⟨true, 0x08, 5⟩ := by decide +kernel
/-- V40.8, V40.10. -/
theorem test_rdbits_value : (after .bcRdbits { reading [0xA5] with n := .of 4 }).res = .of 10 := by decide +kernel
theorem test_rdbits_sentinel :
    (after .bcRdbits { reading [] with n := .of 1 }).res = .of (-1) ∧ (after .bcRdbits { reading [] with n := .of 1 }).io.eos = true := by
  decide +kernel
/-- V40.1; R62: an embedded writer's sink stays open. -/
theorem test_close_pads :
    (after .bcClose { writing with io := { writing.io with wtr := ⟨true, 0x80, 1⟩ } }).io.out = ⟨[0x80], .closed⟩ := by decide +kernel
theorem test_close_embedded : (after .bcClose (embedded writing)).io.out = ⟨[], .flushed⟩ := by decide +kernel

/-- V41.4, V41.5. -/
theorem test_lz78_enc :
    ending (after .lz78Enc (fed [65, 66, 65, 66, 65, 66, 65]))
      = (0, [0x00, 0x20, 0x80, 0x08, 0x48, 0x02, 0x13, 0x00, 0x41]) := by decide +kernel
theorem test_lz78_enc_flush :
    ending (after .lz78Enc (fed [65, 65, 65, 65, 65, 65])) = (0, [0x00, 0x20, 0xA0, 0x08, 0x30, 0x02, 0x08]) := by decide +kernel
/-- V41.4 decoded; a code that names no phrase yet (E41 vectors: `CorruptCodeword`, ERRINFO the code). -/
theorem test_lz78_dec :
    ending (after .lz78Dec (fed [0x00, 0x20, 0x80, 0x08, 0x48, 0x02, 0x13, 0x00, 0x41]))
      = (0, [65, 66, 65, 66, 65, 66, 65]) := by decide +kernel
theorem test_lz78_dec_bad_code :
    (after .lz78Dec (fed [0x80, 0, 0])).errCode = 4 ∧ (after .lz78Dec (fed [0x80, 0, 0])).errinfo = 1 := by decide +kernel

/-- V42.4, V42.5. -/
theorem test_lzw_enc : ending (after .lzwEnc (fed [65, 65, 65, 65, 65, 65])) = (0, [0x20, 0xC0, 0x60, 0x50, 0x00]) := by
  decide +kernel
theorem test_lzw_enc_deferred :
    ending (after .lzwEnc (fed [65, 66, 65, 66, 65, 66, 65])) = (0, [0x20, 0x90, 0xA0, 0x30, 0x38, 0x00]) := by decide +kernel
/-- V42.5 decoded, V42.12. -/
theorem test_lzw_dec :
    ending (after .lzwDec (fed [0x20, 0x90, 0xA0, 0x30, 0x38, 0x00])) = (0, [65, 66, 65, 66, 65, 66, 65]) := by decide +kernel
theorem test_lzw_dec_stops_at_marker :
    let t := after .lzwDec (fed [0x20, 0xC0, 0x00, 0x41, 0x42])
    ending t = (0, [65]) ∧ t.io.inp.rest = [0x41, 0x42] ∧ t.io.eos = false := by decide +kernel

/-- V43.3, V43.7. -/
theorem test_lzss_enc :
    ending (after .lzssEnc (lzssRegs 12 5 3 (fed [97, 98, 97, 98, 97, 98, 97, 98, 97, 98])))
      = (0, [0x0C, 0x05, 0x30, 0x98, 0x8C, 0x26, 0x28, 0x00, 0x10, 0xC2, 0x62]) := by decide +kernel
theorem test_lzss_enc_small_window :
    ending (after .lzssEnc (lzssRegs 2 2 2 (fed (List.replicate 12 97))))
      = (0, [0x02, 0x02, 0x30, 0x98, 0x65, 0x39, 0xC8]) := by decide +kernel
/-- V43.7 decoded; V43.11. -/
theorem test_lzss_dec :
    ending (after .lzssDec (fed [0x02, 0x02, 0x30, 0x98, 0x65, 0x39, 0xC8])) = (0, List.replicate 12 97) := by decide +kernel
theorem test_lzss_dec_zero_match :
    let t := after .lzssDec (fed [0x0C, 0x05, 0x30, 0xC0, 0x00, 0x00, 0x00])
    ending t = (0, [0x61, 0x00]) ∧ t.windowBits = .of 12 ∧ t.maxMatchBits = .of 5 := by decide +kernel

/-- V44.1; R217: rows 0 and 1 of the basis are orthogonal, row 3 has norm 1. -/
theorem test_dct_fwd_constant : (after .dctFwd (withBlkf [] 130 State.reset)).blk.blkf[0].val = .ofInt 16 := by decide +kernel
theorem test_basis_rows :
    Numeric.exact.sum ((List.range 8).map fun j => (dctBasis 0 j).mul (dctBasis 1 j)) = .ofInt 0
      ∧ Numeric.exact.sum ((List.range 8).map fun j => (dctBasis 3 j).mul (dctBasis 3 j)) = .ofInt 1 := by decide +kernel
/-- V44.4. -/
theorem test_dct_inv_dc : (after .dctInv (withBlkf [16] 0 State.reset)).blk.blkf[63].val = .ofInt 130 := by decide +kernel
/-- V44.7, and R225 for a quality out of range. -/
theorem test_setq_75 :
    (((after .qSetq { State.reset with quality := .of 75 }).qtLuma).toList.take 8) = [8, 6, 5, 8, 12, 20, 26, 31] := by
  decide +kernel
theorem test_setq_101 : (after .qSetq { State.reset with quality := .of 101 }).errinfo = 4 := by decide +kernel
/-- V44.8: a tie goes up; V44.12. -/
theorem test_quant_ties :
    let t := after .qQuant { withBlkf [40, -40, -8] 0 State.reset with qvalid := true, qtLuma := .replicate 64 16 }
    t.blk.blki[0] = .of 3 ∧ t.blk.blki[1] = .of (-2) ∧ t.blk.blki[2] = .of 0 := by decide +kernel
theorem test_quant_no_tables : (after .qQuant (withBlkf [] 0 State.reset)).errinfo = 255 := by decide +kernel
/-- R230, with the chrominance table. -/
theorem test_dequant :
    (after .qDequant { withBlki [-26] 0 State.reset with
      qvalid := true, sel := .of 1, qtChroma := .replicate 64 16 }).blk.blkf[0].val = .ofInt (-416) := by decide +kernel
/-- V44.9, V44.10. -/
theorem test_zz_fwd :
    (((after .zzFwd (withBlki ((List.range 64).map Int.ofNat) 0 State.reset)).blk.seq).toList.take 8).map Reg.val
      = [0, 1, 8, 16, 9, 2, 3, 10] := by decide +kernel
theorem test_zz_inv :
    (((after .zzInv (withSeq ((List.range 64).map Int.ofNat) 0 State.reset)).blk.blki).toList.take 8).map Reg.val
      = [0, 1, 5, 6, 14, 15, 27, 28] := by decide +kernel

/-- V45.1, V45.3. -/
theorem test_huf_enc_dc :
    let t := after .hufEnc { State.reset with a := .of 6 }
    ending t = (0, [0x31, 0x31, 0x31, 0x30]) ∧ t.res = .of 14 ∧ t.res2 = .of 4 := by decide +kernel
theorem test_huf_enc_ac :
    ending (after .hufEnc { State.reset with a := .of 0x21, sel := .of 2 }) = (0, bitsOf 5 0b11100) := by decide +kernel
/-- V45.5, V45.6. -/
theorem test_huf_dec_dc : (after .hufDec (fed (bitsOf 3 0b010))).res = .of 1 := by decide +kernel
theorem test_huf_dec_ac :
    let t := after .hufDec { fed (bitsOf 6 0b101011) with sel := .of 2 }
    t.res = .of 0 ∧ t.io.inp.rest = [0x31, 0x31] := by decide +kernel
/-- V46.1. -/
theorem test_ent_enc_negative :
    let t := after .entEnc { State.reset with a := .of (-5) }
    ending t = (0, bitsOf 3 0b010) ∧ t.res = .of 2 ∧ t.res2 = .of 3 := by decide +kernel
theorem test_ent_enc_zero : ending (after .entEnc { State.reset with a := .of 0 }) = (0, []) := by decide +kernel
/-- V46.2. -/
theorem test_ent_dec : (after .entDec { fed (bitsOf 11 0b01111111111) with n := .of 11 }).res = .of (-1024) := by decide +kernel
/-- V46.3, V46.5. -/
theorem test_rle_enc_zero : ending (after .rleEnc { withSeq [] 0 State.reset with sel := .of 1 }) = (0, bitsOf 4 0) := by decide +kernel
theorem test_rle_enc :
    ending (after .rleEnc (withSeq [0, -13, 0, 0, 0, 0, -1] 0 State.reset)) = (0, bitsOf 21 0b001011001011101101010) := by
  decide +kernel
/-- V46.9; R278: a pair (1,0) is not legal but has no default codeword, so the run check: three (15,0) and (15,1). -/
theorem test_rle_dec :
    let t := after .rleDec (fed (bitsOf 11 0b01011010111))
    t.blk.seq[0] = .of 1 ∧ t.blk.seq[63] = .of 0 ∧ t.io.inp.rest = [0x31, 0x31, 0x31] := by decide +kernel

/-- V47.1: (255, 0, 0). -/
theorem test_ct_fwd :
    ((after .ctFwd (onePixel 255 0 0 State.reset)).ycc).map Prod.snd
      = [.ofRat (76245 / 1000), .ofRat (849815 / 10000), .ofRat (2555 / 10)] := by decide +kernel
/-- R287, its last example. -/
theorem test_ct_inv :
    ((after .ctInv (onePixelYcc (12381 / 100) (75053 / 1000) (46821 / 1000) State.reset)).rgb).map Prod.snd = [9, 200, 29] := by
  decide +kernel
/-- R293, and E47: an image without rows. (Whole images were compared with V47 and P6 outside the package: in the kernel the exact
arithmetic of a tile is too long.) -/
theorem test_img_header : headerChars 1 16 50 = [0x31, 0x20, 0x31, 0x30, 0x30, 0x30, 0x30, 0x20] ++ bitsOf 6 50 := by decide +kernel
theorem test_img_enc_no_rows :
    (after .imgEnc { onePixel 128 128 128 State.reset with quality := .of 50, height := .of 0 }).errinfo = 8 := by decide +kernel
/-- R301, R303: a header without plane lines leaves the sides and the quality written; R302: an empty `IN`. -/
theorem test_img_dec_no_lines :
    let t := after .imgDec (fed ([0x31, 0x20, 0x31, 0x20] ++ bitsOf 6 50 ++ [0x0A]))
    t.height = .of 1 ∧ t.quality = .of 50 ∧ t.errCode = 5 := by decide +kernel
theorem test_img_dec_empty : (after .imgDec (fed [])).errCode = 3 ∧ (after .imgDec (fed [])).io.eos = true := by decide +kernel

/-- R44, R321: the second miss has no code left; the decoder outputs the second phrase first. -/
theorem test_lz78_enc_full :
    let t := after .lz78Enc (under otherConfig (fed [65, 66, 67]))
    t.errCode = 6 ∧ t.errinfo = 2 ∧ t.io.out.bytes = [0x00, 0x20] ∧ t.io.inp.rest = [67] := by decide +kernel
theorem test_lz78_dec_full :
    let t := after .lz78Dec (under otherConfig (fed [0x00, 0x20, 0x80, 0x08, 0x48, 0x02, 0x13, 0x00, 0x41]))
    t.errinfo = 2 ∧ ending t = (6, [65, 66]) := by decide +kernel
theorem test_lzw_enc_full :
    let t := after .lzwEnc (under otherConfig (fed [65, 66, 67, 68]))
    t.errinfo = 258 ∧ ending t = (6, [0x20, 0x90]) ∧ t.io.inp.rest = [68] := by decide +kernel
theorem test_lzw_dec_full :
    let t := after .lzwDec (under otherConfig (fed [0x20, 0x90, 0xA0, 0x30, 0x38, 0x00]))
    t.errinfo = 258 ∧ ending t = (6, [65, 66]) := by decide +kernel
/-- R25 (log 21): a record's literal is the step `LITERAL`, and the error of a decode loop stands there. -/
theorem test_phase_literal :
    (match lz78Record defaultConfig 1 0 65 State.reset with
      | .ok _ t => t.phase
      | .error _ t => t.phase) = .literal
    ∧ (match lz78DecLoop defaultConfig 2 .fresh (reading [0x00, 0x80, 0x00]) with
      | .ok _ t => (t.phase, none)
      | .error r t => (t.phase, some r.exc)) = (.literal, some .corruptCodeword) := by decide +kernel
/-- R276: symbol 257 would be run 16 and size 1. -/
theorem test_rle_dec_symbol_above_255 :
    (match decodeAc (.node (.leaf 257 [false]) .empty (-1)) 63 1 { State.reset.blk with coder := ⟨0, [], [0x30, 0x31], 0⟩ } with
      | .ok _ _ => none
      | .error r _ => some (r.exc, r.info)) = some (.corruptCodeword, some 257) := by decide +kernel
/-- R8: a value between two binary64 numbers, a tie, the least subnormal, the largest finite number (IEEE 754). -/
theorem test_binary64_rounding :
    Numeric.binary64.fit (.ofRat (1 / 10)) = .ofRat (3602879701896397 / 2 ^ 55)
      ∧ Numeric.binary64.fit (.ofInt (2 ^ 53 + 1)) = .ofInt (2 ^ 53) ∧ Numeric.binary64.fit (.ofInt (-(2 ^ 53 + 3))) = .ofInt (-(2 ^ 53 + 4))
      ∧ Numeric.binary64.fit (.ofRat (3 / 2 ^ 1076)) = .ofRat (1 / 2 ^ 1074)
      ∧ Numeric.binary64.fit (.ofInt (2 ^ 1024 - 2 ^ 970 - 1)) = .ofInt (2 ^ 1024 - 2 ^ 971) := by decide +kernel
/-- R216: each constant of the basis is the binary64 number nearest to it, half a unit in its last place away at most; `1/√8` is the
quotient by the rounded root. -/
theorem test_binary64_basis :
    ([(1, 55), (2, 55), (3, 55), (4, 55), (5, 55), (6, 56), (7, 57)].all fun k =>
      let gap := (halfCos64First k.1).sub ((twoCosFirst k.1).smul (1 / 4))
      gap.le (.ofRat (1 / 2 ^ k.2)) && gap.neg.le (.ofRat (1 / 2 ^ k.2))) = true
    ∧ (let root : Rat := 6369051672525773 / 2 ^ 51
       let gap := (ExactNum.ofRat root).sub ((twoCosFirst 4).smul 2)
       gap.le (.ofRat (1 / 2 ^ 52)) = true ∧ gap.neg.le (.ofRat (1 / 2 ^ 52)) = true ∧ Numeric.binary64.fit (.ofRat (1 / root)) = invSqrt8) := by
  decide +kernel
/-- R306: gray 127 gets Y = 126.99999999999999; a quotient just under 1/2 rounds up. -/
theorem test_binary64_gray_127 :
    ((after .ctFwd (under otherConfig (onePixel 127 127 127 State.reset))).ycc.read ⟨0, 0, 0⟩) = some (.ofRat (127 - 1 / 2 ^ 46))
      ∧ Numeric.binary64.round .halfUp (.ofRat (1 / 2 - 1 / 2 ^ 54)) = 1 := by decide +kernel

/-! ### A concrete case for the hypotheses of the statements -/

/-- The host's queue holds this action. -/
def queued (act : HostAct) (s : State) : State := { s with host := [act] }

/-- A state in the midst of a command. -/
def busy : State := { State.reset with run := .busy }

theorem test_hyp_DecodeInvertsEncode : decodeBytes [0x93, 0xFF] = .ok (.imgDec, [0xFF]) := by decide
theorem test_hyp_ReservedByteRaisesIllegalCommand :
    ((queued (.cmd 0x06) State.reset).host = .cmd 0x06 :: [] ∧ (queued (.cmd 0x06) State.reset).run ≠ .busy
      ∧ ∀ i, (0x06 : Byte) ≠ encode i) ∧ ∀ i, (0xFF : Byte) ≠ encode i :=
  ⟨⟨rfl, by decide, fun i => by cases i <;> decide⟩, fun i => by cases i <;> decide⟩
theorem test_hyp_StepRunsDecodedCommand :
    (queued (.cmd 0x93) State.reset).host = .cmd 0x93 :: [] ∧ (queued (.cmd 0x93) State.reset).run ≠ .busy
      ∧ decode 0x93 = .ok .imgDec := by decide
theorem test_hyp_PortActions_busy :
    ((queued (.cmd 0x10) busy).run = .busy ∧ (queued (.cmd 0x10) busy).host = .cmd 0x10 :: []) ∧ State.reset.host = []
      ∧ (queued (.setA 0) busy).run = .busy ∧ (queued (.setA 0) busy).host = .setA 0 :: []
      ∧ (∀ b, HostAct.setA 0 ≠ .cmd b) ∧ HostAct.setA 0 ≠ .powerOnReset :=
  ⟨⟨rfl, rfl⟩, rfl, rfl, rfl, fun b h => (nomatch h), by decide⟩
theorem test_hyp_PortActions :
    ∀ act ∈ [HostAct.setA (-128), .setN 0, .setRes (-1), .setRes2 0, .setQuality 100, .setWindowBits 255, .setMaxMatchBits 255,
        .setMinMatchLen 1, .setHeight 1, .setWidth 1, .setSel 3, .setMode 1, .writeBlkf 63 (.ofInt 130), .writeBlki 0 (-5),
        .writeSeq 63 1, .writeRgb ⟨2, 0, 0⟩ 255, .writeYcc ⟨0, 7, 7⟩ (.ofInt 128), .attachIn [], .attachOut],
      (queued act State.reset).run ≠ .busy ∧ (queued act State.reset).host = act :: [] :=
  fun _ _ => ⟨fun h => (nomatch h), rfl⟩
theorem test_hyp_PowerOnResetKeepsConfiguration : (queued .powerOnReset busy).host = .powerOnReset :: [] := rfl

/-- The state that BC.OPENW leaves meets the invariant, and steps. -/
theorem test_hyp_InvariantKeptByStep :
    (queued (.cmd 0x05) writing).Inv
      ∧ step (queued (.cmd 0x05) writing) = .next (after .bcClose writing) :=
  ⟨⟨⟨by decide, rfl, rfl, rfl⟩, by unfold State.StatusSound; decide, ⟨by decide, by decide +kernel, by decide⟩,
    ⟨by decide, fun _ => rfl⟩, fun h => (nomatch h), ⟨rfl, rfl⟩, ⟨rfl, rfl⟩⟩, rfl⟩

theorem test_hyp_CommandsRaiseOnlyTheirExceptions :
    exec .qSetq State.reset = .next (after .qSetq State.reset) ∧ (after .qSetq State.reset).err = some .badOperand :=
  ⟨rfl, by decide +kernel⟩

/-- Operands just outside their ranges, and the index each offends with. -/
theorem test_hyp_BadOperandBeforeAnyEffect :
    Offends .bcWrbits { writing with a := .of 8, n := .of 3 } 0 ∧ Offends .bcWrbits { writing with a := .of (-1), n := .of 3 } 0
      ∧ Offends .bcWrval { writing with a := .of (-129), n := .of 3 } 0 ∧ Offends .bcRdbits State.reset 1
      ∧ Offends .bcRdbits { State.reset with n := .of 0 } 255
      ∧ Offends .lzssEnc (lzssRegs 256 5 3 State.reset) 5 ∧ Offends .lzssEnc (lzssRegs 12 256 3 State.reset) 6
      ∧ Offends .lzssEnc (lzssRegs 12 5 0 State.reset) 7 ∧ Offends .qSetq { State.reset with quality := .of 101 } 4
      ∧ Offends .dctFwd State.reset 255 ∧ Offends .qQuant (withBlkf [] 0 State.reset) 255 ∧ Offends .zzFwd State.reset 255
      ∧ Offends .rleEnc State.reset 255 ∧ Offends .hufEnc State.reset 0 ∧ Offends .entDec State.reset 1
      ∧ Offends .ctFwd { onePixel 0 0 0 State.reset with height := .of 0 } 8
      ∧ Offends .imgEnc { onePixel 0 0 0 State.reset with quality := .of 101 } 4 := by
  refine ⟨.inl ⟨rfl, .inr ?_⟩, .inl ⟨rfl, .inr ?_⟩, .inl ⟨rfl, .inr ?_⟩, .inl ⟨rfl, .inl rfl⟩, .inr ⟨rfl, rfl⟩,
    .inl ⟨rfl, .inr ?_⟩, .inr (.inl ⟨rfl, .inr ?_⟩), .inr (.inr ⟨rfl, .inr ?_⟩), ⟨rfl, .inr ?_⟩, ⟨rfl, 0, rfl⟩, ⟨rfl, .inl rfl⟩,
    ⟨rfl, 0, rfl⟩, ⟨rfl, 63, rfl⟩, ⟨rfl, rfl⟩, ⟨rfl, rfl⟩, .inl ⟨rfl, .inr ?_⟩, .inl ⟨rfl, .inr ?_⟩⟩
  · exact fun h => absurd (h.2 rfl) (by decide)
  all_goals decide
/-- Operands at the ends of their ranges, with which nothing offends. -/
theorem test_hyp_BadOperandBeforeAnyEffect_none :
    (∀ k, ¬ Offends .lzssEnc (lzssRegs 255 255 1 State.reset) k) ∧ (∀ k, ¬ Offends .qSetq { State.reset with quality := .of 100 } k)
      ∧ ∀ k, ¬ Offends .imgDec State.reset k := by
  refine ⟨fun k h => ?_, fun k h => ?_, fun k h => h⟩
  · rcases h with ⟨-, h | h⟩ | ⟨-, h | h⟩ | ⟨-, h | h⟩ <;> exact absurd h (by decide)
  · rcases h with ⟨-, h | h⟩ <;> exact absurd h (by decide)

theorem test_hyp_StateWrittenOnlyAsListed : exec .bcClose writing = .next (after .bcClose writing) := rfl
theorem test_hyp_StateWrittenOnlyAsListed_error :
    exec .imgDec State.reset = .next (after .imgDec State.reset) ∧ (after .imgDec State.reset).run = .error :=
  ⟨rfl, by decide +kernel⟩
theorem test_hyp_StreamsOnlyMoveForward :
    exec .bcClose writing = .next (after .bcClose writing) ∧ writing.io.out.sink = .writing
      ∧ (after .bcClose (embedded writing)).io.out.sink = .flushed := ⟨rfl, rfl, by decide +kernel⟩

/-- A widest value, and −128. -/
theorem test_hyp_WritesAppendBits :
    let s := { writing with a := .of 7, n := .of 3 }
    (s.a.written = true ∧ s.n.written = true ∧ 0 ≤ s.a.val ∧ s.a.val < 2 ^ s.n.val ∧ s.io.wtr.isOpen = true) ∧ s.io.wtr.Sound
      ∧ -128 ≤ ({ writing with a := .of (-128), n := .of 0 } : State).a.val ∧ ∀ m ∈ s.cfg.valueMaxWidth, s.n.val ≤ m :=
  ⟨by decide +kernel, ⟨by decide, by decide +kernel, by decide⟩, by decide +kernel, fun _ h => (nomatch h)⟩
/-- Exactly the bits that are left, one more than those, and an exhausted reader. -/
theorem test_hyp_RdbitsReadsField :
    let s := { reading [0xA5] with n := .of 8 }
    let e := after .bcRdbits { reading [] with n := .of 1 }
    s.n.written = true ∧ (∀ m ∈ s.cfg.valueMaxWidth, s.n.val ≤ m) ∧ s.io.rdr.isOpen = true ∧ s.io.rdr.Sound
      ∧ s.io.rdr.exh = false ∧ s.n.val ≤ (pendingBits s.io).length
      ∧ (pendingBits s.io).length < ({ s with n := .of 9 } : State).n.val
      ∧ e.io.rdr.exh = true ∧ e.io.rdr.isOpen = true :=
  ⟨by decide, fun _ h => (nomatch h), by decide, ⟨by decide, fun h => (nomatch h)⟩, by decide +kernel, by decide +kernel, by decide +kernel,
    by decide +kernel, by decide +kernel⟩
/-- A full partial byte, and no writer. -/
theorem test_hyp_CloseFlushesPartialByte :
    let w : Writer := ⟨true, 0xFE, 7⟩
    w.Sound ∧ w.isOpen = true ∧ State.reset.io.wtr.Sound ∧ State.reset.io.wtr.isOpen = false :=
  ⟨⟨by decide, by decide +kernel, by decide⟩, rfl, ⟨by decide, by decide +kernel, by decide⟩, rfl⟩
theorem test_hyp_ChannelRoundTrip : State.reset.io.out.opened.bytes = [] := rfl

/-- Room for one insertion, and the second of two. -/
theorem test_hyp_Lz78EncWritesRecords :
    (∀ max ∈ otherConfig.lz78MaxCode, lz78Inserts [] [] [65, 65] ≤ max) ∧ otherConfig.lz78MaxCode = some 1
      ∧ lz78Inserts [] [] [65, 65, 66] = 1 + 1 ∧ lz78Inserts [] [] [65, 65, 66].dropLast = 1 := by
  refine ⟨fun max h => ?_, by decide, by decide, by decide⟩
  obtain rfl : 1 = max := Option.some.inj h
  decide
/-- V41.4 and its records, at a record boundary; six records (110 bits) and two bits of a code field of three, or that field with the
value 0 and fifteen bits; one record with its padding, for which there is room; two records, for which there is none. -/
theorem test_hyp_Lz78DecReadsRecords :
    let six : List (Nat × Byte) := [(0, 65), (0, 66), (0, 67), (0, 68), (0, 69), (0, 70)]
    (lz78Spell [] [(0, 65), (0, 66), (1, 66), (3, 65)] = some [[65], [66], [65, 66], [65, 66, 65]]
      ∧ streamBits [0x00, 0x20, 0x80, 0x08, 0x48, 0x02, 0x13, 0x00, 0x41]
        = lz78Bits State.reset.cfg.lz78WidthBias 1 [(0, 65), (0, 66), (1, 66), (3, 65)] ++ [])
    ∧ (lz78Spell [] six).isSome
    ∧ (∀ tail ∈ [[true, true], List.replicate 18 false],
        streamBits (packed (lz78Bits State.reset.cfg.lz78WidthBias 1 six ++ tail)) = lz78Bits State.reset.cfg.lz78WidthBias 1 six ++ tail)
    ∧ lz78Spell [] [(0, 65), (0, 66)] = some [[65], [66]]
    ∧ streamBits (packed (lz78Bits otherConfig.lz78WidthBias 1 [(0, 65), (0, 66)] ++ List.replicate 5 true))
        = lz78Bits otherConfig.lz78WidthBias 1 [(0, 65), (0, 66)] ++ List.replicate 5 true := by decide +kernel
theorem test_hyp_Lz78DecReadsRecords_end :
    Lz78End 3 [] ∧ Lz78End 3 [true, true] ∧ Lz78End 3 (List.replicate 18 false)
      ∧ (∀ max ∈ State.reset.cfg.lz78MaxCode, 6 ≤ max) ∧ otherConfig.lz78MaxCode = some 1 :=
  ⟨.inl (by decide), .inl (by decide), .inr ⟨List.replicate 15 false, by decide, by decide⟩, fun _ h => (nomatch h), by decide⟩
theorem test_hyp_Lz78RoundTrip : State.reset.cfg.lz78MaxCode = none := by decide +kernel
/-- Literal 256, code 1 as the first record, and that code with its literal cut after 7 bits. -/
theorem test_hyp_Lz78DecRejects :
    (∀ max ∈ State.reset.cfg.lz78MaxCode, ([] : List (Nat × Byte)).length ≤ max) ∧ lz78Spell [] [] = some [] ∧ 1 < 2 ^ bitLength (0 + 1 + State.reset.cfg.lz78WidthBias)
      ∧ streamBits [0x00, 0x80, 0x00]
        = lz78Bits State.reset.cfg.lz78WidthBias 1 [] ++ binN (bitLength (0 + 1 + State.reset.cfg.lz78WidthBias)) 0 ++ binN 16 256
          ++ List.replicate 7 false
      ∧ streamBits [0x80, 0x00, 0x00]
        = lz78Bits State.reset.cfg.lz78WidthBias 1 [] ++ binN (bitLength (0 + 1 + State.reset.cfg.lz78WidthBias)) 1 ++ binN 16 0
          ++ List.replicate 7 false
      ∧ streamBits [0x80]
        = lz78Bits State.reset.cfg.lz78WidthBias 1 [] ++ binN (bitLength (0 + 1 + State.reset.cfg.lz78WidthBias)) 1
          ++ List.replicate 7 false :=
  ⟨fun _ h => (nomatch h), by decide +kernel⟩
theorem test_hyp_DecodersEndBySentinel :
    exec .lz78Dec State.reset = .next (after .lz78Dec State.reset) ∧ (after .lz78Dec State.reset).run = .done
      ∧ exec .lzssDec (fed [12, 5]) = .next (after .lzssDec (fed [12, 5])) ∧ (after .lzssDec (fed [12, 5])).run = .done :=
  ⟨rfl, by decide +kernel, rfl, by decide +kernel⟩

theorem test_hyp_LzwEncWritesCodes :
    LzwRoom State.reset.cfg.lzwMaxCode (List.replicate 999 0) ∧ LzwRoom otherConfig.lzwMaxCode (lzwParse [] [] [65, 66])
      ∧ otherConfig.lzwMaxCode = some 257 ∧ (lzwParse [] [] [65, 66, 67]).length = lzwOverflow 257 + 1
      ∧ (lzwParse [] [] [65, 66, 67].dropLast).length = lzwOverflow 257 := by
  refine ⟨fun _ h => (nomatch h), fun max h => ?_, by decide +kernel, by decide +kernel, by decide +kernel⟩
  obtain rfl : 257 = max := Option.some.inj h
  exact .inr (by decide)
theorem test_hyp_LzwDecReadsCodes :
    LzwRoom State.reset.cfg.lzwMaxCode [65, 66, 257, 259]
      ∧ lzwSpell [65, 66, 257, 259] = some [[65], [66], [65, 66], [65, 66, 65]]
      ∧ streamBits [0x20, 0x90, 0xA0, 0x30, 0x38, 0x00]
        = lzwBits 1 [65, 66, 257, 259] ++ binN (bitLength (lzwNext 4)) 256 ++ List.replicate 3 false
      ∧ otherConfig.lzwMaxCode = some 257 ∧ [65, 66, 257].length = lzwOverflow 257 + 1
      ∧ lzwSpell [65, 66, 257] = some [[65], [66], [65, 66]]
      ∧ streamBits [0x20, 0x90, 0xA0, 0x30] = lzwBits 1 [65, 66, 257] ++ [true, false, false, false, false] := by
  refine ⟨fun _ h => (nomatch h), ?_⟩
  decide +kernel
/-- Four codes are not at the corner. -/
theorem test_hyp_LzwRoundTrip :
    State.reset.cfg.lzwMaxCode = none ∧ ¬ lzwCorner (lzwParse [] [] [65, 66, 65, 66, 65, 66, 65]).length := by
  refine ⟨by decide +kernel, ?_⟩
  rintro ⟨k, hk, h⟩
  have h4 : (lzwParse [] [] [65, 66, 65, 66, 65, 66, 65]).length = 4 := by decide +kernel
  have : 2 ^ 9 ≤ 2 ^ k := Nat.pow_le_pow_right (by decide) hk
  omega
/-- Code 258 after one code (its `NEXT` is 257), code 257 as the first, and the end after one code. -/
theorem test_hyp_LzwDecRejects :
    (LzwRoom State.reset.cfg.lzwMaxCode [65] ∧ LzwRoom State.reset.cfg.lzwMaxCode []) ∧ lzwSpell [65] = some [[65]] ∧ lzwNext 1 < 258 ∧ 258 < 2 ^ bitLength (lzwNext 1)
      ∧ streamBits [0x20, 0xC0, 0x80] = lzwBits 1 [65] ++ binN (bitLength (lzwNext 1)) 258 ++ List.replicate 6 false
      ∧ streamBits [0x80, 0x80] = lzwBits 1 [] ++ binN (bitLength (lzwNext 0)) 257 ++ List.replicate 7 false
      ∧ streamBits [0x20, 0x80] = lzwBits 1 [65] ++ List.replicate 7 false :=
  ⟨⟨fun _ h => (nomatch h), fun _ h => (nomatch h)⟩, by decide +kernel⟩

theorem test_hyp_FindTakesOldestMatch : ([97] : List Byte) ≠ [] := by decide
theorem test_hyp_LzssEncWritesValidCoding : LzssReady (lzssRegs 0 255 1 State.reset) := by unfold LzssReady; decide
/-- V43.7 and its records, with the padding; eight literals, the end between records or seven bits into a ninth. -/
theorem test_hyp_LzssDecReadsRecords :
    let records := [LzssRecord.literal 97, .literal 97, .copy 0 2, .copy 0 3, .copy 0 3, .copy 0 2]
    let eight := List.replicate 8 (LzssRecord.literal 97)
    lzssSpell 2 2 [] records = some (List.replicate 12 97)
      ∧ streamBits [0x30, 0x98, 0x65, 0x39, 0xC8] = lzssBits 2 2 records ++ [false, false]
      ∧ lzssSpell 12 5 [] eight = some (List.replicate 8 97)
      ∧ (∀ tail ∈ [[], false :: List.replicate 7 true], streamBits (packed (lzssBits 12 5 eight ++ tail)) = lzssBits 12 5 eight ++ tail) := by
  decide +kernel
theorem test_hyp_LzssDecReadsRecords_end :
    LzssEnd [] ∧ LzssEnd [false, false] ∧ LzssEnd (false :: List.replicate 7 true) :=
  ⟨.inl rfl, .inr ⟨[false], rfl, by decide⟩, .inr ⟨_, rfl, by decide⟩⟩
/-- A match of one symbol in an empty window, and a match cut after 7 bits. -/
theorem test_hyp_LzssDecRejects :
    (fed [12]).io.inp.rest.length < 2 ∧ lzssSpell 2 2 [] [] = some [] ∧ (lastSymbols 2 []).length < 0 + 1
      ∧ streamBits [0x88] = lzssBits 2 2 [] ++ true :: (binN 2 0 ++ binN 2 1 ++ List.replicate 3 false)
      ∧ streamBits [0x80] = lzssBits 12 5 [] ++ true :: List.replicate 7 false := by decide +kernel

/-- The numbers of the tests as real numbers. -/
theorem real_ofInt (n : Int) : (ExactNum.ofInt n).real = n := by
  simp [ExactNum.ofInt, ExactNum.ofRat, Quartic.ofRat, Quad.ofRat, ExactNum.real, Quartic.real, Quad.real]
/-- The greatest integer below the bound. -/
theorem test_hyp_Binary64RoundsToNearest : |(ExactNum.ofInt (2 ^ 1024 - 2 ^ 970 - 1)).real| < 2 ^ 1024 - 2 ^ 970 := by
  have h : |(2 ^ 1024 - 2 ^ 970 - 1 : Int)| < 2 ^ 1024 - 2 ^ 970 := by decide +kernel
  rw [real_ofInt]
  simpa only [Int.cast_abs, Int.cast_sub, Int.cast_pow, Int.cast_ofNat, Int.cast_one] using (Int.cast_lt (R := ℝ)).mpr h
/-- Elements at the bounds, in either arithmetic. -/
theorem test_hyp_DctTransformsBlock :
    (∀ k : Fin 64, (withBlkf [] 4096 State.reset).blk.blkf[k.1].written = true) ∧ State.reset.cfg.numeric = .exact
      ∧ otherConfig.numeric = .binary64 ∧ ∀ k : Fin 64, |(withBlkf [] 4096 State.reset).blk.blkf[k.1].val.real| ≤ 4096 := by
  refine ⟨by decide +kernel, rfl, rfl, fun k => ?_⟩
  simp [withBlkf, blockWith, Reg.of, real_ofInt]
theorem test_hyp_DctRoundTripIsExact :
    ∀ k : Fin 64, 0 ≤ (withBlkf [0] 255 State.reset).blk.blkf[k.1].val.real ∧ (withBlkf [0] 255 State.reset).blk.blkf[k.1].val.real ≤ 255 := by
  intro k
  rcases Nat.eq_zero_or_pos k.1 with h | h <;>
    simp [withBlkf, blockWith, Reg.of, List.getD, h, Nat.ne_of_gt, real_ofInt]
theorem test_hyp_SetqComputesTables :
    ({ State.reset with quality := .of 100 } : State).quality.written = true
      ∧ ({ State.reset with quality := .of 100 } : State).quality.val ≤ 100
      ∧ ({ State.reset with quality := .of 50 } : State).quality.val = 50 := by decide
/-- With both tables, with the default rounding, at the bound for binary64. -/
theorem test_hyp_QuantAndDequantUseSelectedTable :
    let s := { withBlki [] 3 (withBlkf [] (2 ^ 1000) State.reset) with
      qvalid := true, qtLuma := .replicate 64 16, qtChroma := .replicate 64 1 }
    ((∀ k : Fin 64, s.blk.blkf[k.1].written = true) ∧ (∀ k : Fin 64, s.blk.blki[k.1].written = true) ∧ s.qvalid = true
      ∧ s.cfg.round = .halfUp ∧ s.cfg.numeric = .exact ∧ otherConfig.numeric = .binary64)
      ∧ s.TablesSound ∧ ∀ k : Fin 64, |s.blk.blkf[k.1].val.real| ≤ 2 ^ 1000 := by
  refine ⟨by decide +kernel, fun _ => by decide +kernel, fun k => ?_⟩
  simp only [withBlkf, withBlki, blockWith, Reg.of, Vector.getElem_ofFn, List.map_nil, List.getD_nil, real_ofInt]
  simp only [Int.cast_pow, Int.cast_ofNat, abs_pow, Nat.abs_ofNat, le_refl]
theorem test_hyp_ZigzagRoundTrip :
    (∀ k : Fin 64, (withBlki [] 1 State.reset).blk.blki[k.1].written = true)
      ∧ ∀ k : Fin 64, (withSeq [] 1 State.reset).blk.seq[k.1].written = true := by decide +kernel

/-- The default DC table of luminance: its categories increase; category 11 has a codeword and 12 has none. -/
theorem test_hyp_HufEncPutsCodeword :
    ({ State.reset with a := .of 11 } : State).a.written = true ∧ State.reset.tableIndex = 0
      ∧ (leaves State.reset.cfg.dcLuma).map Prod.fst = [0, 1, 2, 3, 4, 5, 6, 7, 8, 9, 10, 11]
      ∧ ({ State.reset with sel := .of 3 } : State).tableIndex = 3
      ∧ lookupDc State.reset.cfg.dcLuma 11 = some (binN 9 0b111111110) := by decide +kernel
/-- A codeword, two bits of a longer one, and the nine ones that are no codeword's beginning. -/
theorem test_hyp_HufDecReadsCodeword :
    (1, binN 3 0b010) ∈ leaves State.reset.cfg.dcLuma ∧ binN 2 0b01 <+: binN 3 0b010 ∧ binN 2 0b01 ≠ binN 3 0b010
      ∧ (∀ l ∈ leaves State.reset.cfg.dcLuma, ¬ binN 9 0b111111111 <+: l.2)
      ∧ (11, binN 9 0b111111110) ∈ leaves State.reset.cfg.dcLuma ∧ (binN 9 0b111111111).dropLast <+: binN 9 0b111111110
      ∧ (binN 9 0b111111111).dropLast ≠ binN 9 0b111111110 := by decide +kernel
theorem test_hyp_EntEncPutsValueBits : ({ State.reset with a := .of (-1) } : State).a.written = true := by decide
/-- Three bits, two of three bits, and a line feed or a blank as the third. -/
theorem test_hyp_EntDecReadsValue :
    let s := { fed (chars [false, true] ++ 0x20 :: []) with n := .of 3 }
    s.n.written = true ∧ [false, true, true].length = s.n.val ∧ [false, true].length < s.n.val
      ∧ s.io.inp.rest = chars [false, true] ++ 0x20 :: [] ∧ (0x20 : Byte) ∉ [0x30, 0x31] ∧ (0x0A : Byte) ∉ [0x30, 0x31] := by
  decide +kernel

/-- The default codebooks hold the symbols of the largest coefficients, with four (15,0) and without an end of block among them. -/
theorem test_hyp_BlockCodeRoundTrip :
    (∀ k : Fin 64, (withSeq [-2047, 1023] 0 State.reset).blk.seq[k.1].written = true)
      ∧ (∀ x ∈ seqItems (withSeq [-2047, 1023] 0 State.reset), x.code.isSome = true)
      ∧ (∀ x ∈ seqItems (withSeq (List.replicate 63 0) (-1) State.reset), x.code.isSome = true)
      ∧ (seqItems (withSeq (List.replicate 63 0) (-1) State.reset)).length = 5
      ∧ CodesSymbols State.reset.cfg.toConfig true ∧ CodesSymbols State.reset.cfg.toConfig false
      ∧ SizesFit (withSeq [-2047, 1023] 0 State.reset).blk.seq := by
  unfold CodesSymbols SizesFit; decide +kernel
/-- The zero block; a DC coefficient of category 12, an AC coefficient of size 11, and one of size 16. -/
theorem test_hyp_BlockCodeEdges :
    (∀ k : Fin 64, (withSeq [] 0 State.reset).blk.seq[k.1] = ⟨0, true⟩)
      ∧ lookupDc (dcTrie State.reset.cfg.toConfig State.reset.chroma) 0 = some [false, false]
      ∧ lookupAc (acTrie State.reset.cfg.toConfig State.reset.chroma) 0x00 = some (binN 4 0b1010)
      ∧ (∀ k : Fin 64, (withSeq [2048] 0 State.reset).blk.seq[k.1].written = true)
      ∧ (seqItems (withSeq [2048] 0 State.reset)).map (fun x => (x.code, x.blame)) = [(none, 12), (some (binN 4 0b1010), 0)]
      ∧ (seqItems (withSeq [0, 1024] 0 State.reset)).map (fun x => (x.code, x.blame))
          = [(some [false, false], 0), (none, 11), (some (binN 4 0b1010), 0)]
      ∧ (seqItems (withSeq [0, 0, -32768] 0 State.reset)).map (fun x => (x.code, x.blame))
          = [(some [false, false], 0), (none, -32768), (some (binN 4 0b1010), 0)] := by decide +kernel
/-- Category 0, then three (15,0): the next coefficient is number 49. -/
theorem blockPrefix_49 :
    BlockPrefix State.reset ([0] ++ List.replicate 16 0 ++ List.replicate 16 0 ++ List.replicate 16 0)
      ([false, false] ++ binN 11 0b11111111001 ++ binN 11 0b11111111001 ++ binN 11 0b11111111001) := by
  have h0 : BlockPrefix State.reset [0] [false, false] :=
    .value (sym := 0) (n := 0) (code := [false, false]) (raw := []) .start (by decide +kernel) ⟨rfl, rfl⟩ (.inl rfl)
  have h (done : List Int) (hd : done ≠ []) (hl : done.length + 16 ≤ 64) : SymbolFits done 0xF0 16 0 := by
    unfold SymbolFits; rw [if_neg hd]; exact .inl ⟨rfl, rfl, rfl, hl⟩
  have h1 := BlockPrefix.zeros (sym := 0xF0) (n := 16) (code := binN 11 0b11111111001) h0 (by decide) (by decide +kernel)
    (h _ (by decide) (by decide))
  have h2 := BlockPrefix.zeros (sym := 0xF0) (n := 16) (code := binN 11 0b11111111001) h1 (by decide) (by decide +kernel)
    (h _ (by decide) (by decide))
  exact BlockPrefix.zeros (sym := 0xF0) (n := 16) (code := binN 11 0b11111111001) h2 (by decide) (by decide +kernel)
    (h _ (by decide) (by decide))
/-- There (15,1) passes coefficient 63 by one and (15,0) by one; sixteen ones begin no codeword, fifteen do; and in a codebook that holds
them, (1,0) and symbol 257 are illegal after one coefficient. -/
theorem test_hyp_IllegalBlockCodeRejected :
    let done : List Int := [0] ++ List.replicate 16 0 ++ List.replicate 16 0 ++ List.replicate 16 0
    (done.length < 64 ∧ (0xF1, binN 16 0b1111111111110101) ∈ leaves (nextTrie State.reset done)
      ∧ (0xF0, binN 11 0b11111111001) ∈ leaves (nextTrie State.reset done)
      ∧ (∀ l ∈ leaves (nextTrie State.reset done), ¬ binN 16 0xFFFF <+: l.2)
      ∧ (0xFA, binN 16 0xFFFE) ∈ leaves (nextTrie State.reset done) ∧ (binN 16 0xFFFF).dropLast <+: binN 16 0xFFFE
      ∧ (binN 16 0xFFFF).dropLast ≠ binN 16 0xFFFE)
    ∧ SymbolIllegal done 0xF1 ∧ SymbolIllegal done 0xF0 ∧ SymbolIllegal [0] 0x10 ∧ SymbolIllegal [0] 257
    ∧ (buildAc [(0x10, [false]), (257, [true])]).map leaves = some [(0x10, [false]), (257, [true])] := by
  refine ⟨by decide +kernel, ?_, ?_, ?_, ?_, by decide +kernel⟩ <;> unfold SymbolIllegal <;> decide
/-- A full block: (14,1) and its value end at coefficient 63; the end of block after one coefficient; a codeword of one bit too few,
and a value of no bits of one, at the end, at a line feed and at a blank. -/
theorem test_hyp_RleDecReadsBlockCode :
    let done : List Int := [0] ++ List.replicate 16 0 ++ List.replicate 16 0 ++ List.replicate 16 0
    BlockPrefix State.reset (done ++ List.replicate 14 0 ++ [1]) ([false, false] ++ binN 11 0b11111111001 ++ binN 11 0b11111111001
        ++ binN 11 0b11111111001 ++ binN 16 0b1111111111101011 ++ [true])
      ∧ done ++ List.replicate 14 0 ++ [1] = (Vector.ofFn fun k : Fin 64 => if k = 63 then (1 : Int) else 0).toList
      ∧ ([0] : List Int) ≠ [] ∧ ([0] : List Int).length < 64 ∧ (0x00, binN 4 0b1010) ∈ leaves (nextTrie State.reset [0])
      ∧ [0] ++ List.replicate (64 - ([0] : List Int).length) 0 = (Vector.replicate 64 (0 : Int)).toList
      ∧ (binN 3 0b101 <+: binN 4 0b1010 ∧ binN 3 0b101 ≠ binN 4 0b1010)
      ∧ (1, binN 3 0b010) ∈ leaves (nextTrie State.reset []) ∧ SymbolFits [] 1 0 1 ∧ ([] : Bits).length < 1
      ∧ ∀ stop ∈ [[], [lineFeed], [(0x20 : Byte), 0x31]], ∀ c ∈ stop.head?, c ∉ [(0x30 : Byte), 0x31] := by
  refine ⟨?_, by decide +kernel, by decide, by decide, by decide +kernel, by decide +kernel, by decide, by decide +kernel, ⟨rfl, rfl⟩,
    by decide, ?_⟩
  · refine BlockPrefix.value (sym := 0xE1) (n := 14) (code := binN 16 0b1111111111101011) (raw := [true]) blockPrefix_49
      (by decide +kernel) ?_ (.inr (by decide))
    unfold SymbolFits; rw [if_neg (by decide)]; exact .inr (by decide)
  · decide

/-- The elements of a one-pixel image are there. -/
theorem onePixel_ready (r g b : Byte) : PlanesReady (onePixel r g b State.reset).rgb 1 1 := by
  intro c y x hy hx
  obtain rfl : y = 0 := by omega
  obtain rfl : x = 0 := by omega
  fin_cases c <;> rfl
theorem test_hyp_CtFwdTransformsPixels :
    SidesReady (onePixel 1 2 3 State.reset) ∧ PlanesReady (onePixel 1 2 3 State.reset).rgb 1 1 :=
  ⟨⟨rfl, by decide, rfl, by decide⟩, onePixel_ready 1 2 3⟩
/-- Elements at the bounds that binary64 has. -/
theorem test_hyp_CtInvTransformsPixels :
    let s := onePixelYcc 1024 (-1024) 3 State.reset
    (SidesReady s ∧ PlanesReady s.ycc 1 1 ∧ s.ycc.read ⟨0, 0, 0⟩ = some (.ofInt 1024) ∧ s.ycc.read ⟨1, 0, 0⟩ = some (.ofInt (-1024))
      ∧ s.ycc.read ⟨2, 0, 0⟩ = some (.ofInt 3))
    ∧ s.cfg.numeric = .exact ∧ (under otherConfig s).cfg.numeric = .binary64
    ∧ ∀ n ∈ [(1024 : Int), -1024, 3], |(ExactNum.ofInt n).real| ≤ 1024 := by
  refine ⟨⟨⟨rfl, by decide, rfl, by decide⟩, ?_, by decide +kernel, by decide +kernel, by decide +kernel⟩, rfl, rfl, fun n hn => ?_⟩
  · intro c y x hy hx
    obtain rfl : y = 0 := by omega
    obtain rfl : x = 0 := by omega
    fin_cases c <;> rfl
  · rw [real_ofInt]
    have : |n| ≤ 1024 := by revert n; decide
    exact_mod_cast this
theorem test_hyp_ColourRoundTripLosesAtMostOne :
    (State.reset.cfg.numeric = .exact ∧ SidesReady (onePixel 7 7 7 State.reset) ∧ PlanesReady (onePixel 7 7 7 State.reset).rgb 1 1)
      ∧ (onePixel 7 7 7 State.reset).rgb.read ⟨0, 0, 0⟩ = some 7
      ∧ ∀ c : Fin 3, (onePixel 7 7 7 State.reset).rgb.read ⟨c, 0, 0⟩ = some 7 :=
  ⟨⟨rfl, ⟨rfl, by decide, rfl, by decide⟩, onePixel_ready 7 7 7⟩, rfl, by decide⟩

/-! ### One gray pixel, step by step: its tiles transform to zero blocks -/

/-- A command that answers a next state answers that of `after`. -/
theorem exec_after {i : Instr} {s : State} (h : ∃ t, exec i s = .next t) : exec i s = .next (after i s) := by
  obtain ⟨t, ht⟩ := h
  rw [after, ht]

/-- A block of 128, and the blocks of zeros. -/
def block128 : Vector (Reg ExactNum) 64 := Vector.ofFn fun _ => .of (.ofInt 128)
def zeroReals : Vector (Reg ExactNum) 64 := blockOf zeroBlock
def zeroInts : Vector (Reg Int) 64 := Vector.ofFn fun _ => .of 0

/-- A block of 128 shifts to the zero block, which transforms to itself. -/
theorem dctFwd_gray (b : BlockUnit) (h : b.blkf = block128) : b.dctFwd .exact = { b with blkf := zeroReals } := by
  have hs : shiftBlock .exact (-128) (blockVals block128) = zeroBlock := by decide +kernel
  rw [BlockUnit.dctFwd, h, hs, matMul_exact_zero, zero_matMul_exact, zeroReals]
/-- Q.QUANT of zeros. -/
theorem quant_gray (qt : Vector Nat 64) (b : BlockUnit) (h : b.blkf = zeroReals) :
    b.quant .exact .halfUp qt = { b with blki := zeroInts } := by
  have hz : ∀ q : Rat, roundHalfUp ((ExactNum.ofInt 0).smul q) = 0 := fun q => by
    have : (ExactNum.ofInt 0).smul q = .ofInt 0 := by
      simp [ExactNum.smul, ExactNum.ofInt, ExactNum.ofRat, Quartic.ofRat, Quad.ofRat, Quartic.smul, Quad.smul]
    rw [this]; decide +kernel
  rw [BlockUnit.quant, h]
  simp [zeroReals, blockVals, blockOf, zeroBlock, zeroInts, Reg.of, hz]
  rfl
/-- ZZ.FWD of zeros. -/
theorem zzFwd_gray (z : Vector (Fin 64) 64) (b : BlockUnit) (h : b.blki = zeroInts) : b.zzFwd z = { b with seq := zeroInts } := by
  rw [BlockUnit.zzFwd, h]
  simp [zeroInts, Reg.of]
/-- The code of a zero block in the default codebooks: category 0, then the end of block. -/
def grayCode (p : Fin 3) : Bits := if p = 0 then binN 6 0b001010 else binN 4 0
/-- `EncodeBlock` of zeros. -/
theorem encodeSeq_gray (p : Fin 3) (b : BlockUnit) (h : b.seq = zeroInts) :
    BlockUnit.encodeSeq defaultConfig (planeChroma p) b
      = .ok () { b with coder := { b.coder with zrun := 0, bits := b.coder.bits ++ grayCode p } } := by
  have h0 : b.seq[0].val = 0 := by rw [h]; rfl
  have h1 : (blockVals b.seq).toList.drop 1 = List.replicate 63 0 := by rw [h]; decide +kernel
  have hg : [false, false] ++ (grayCode p).drop 2 = grayCode p := by revert p; decide
  have hd : lookupDc (dcTrie defaultConfig (planeChroma p)) (bitLengthInt 0) = some [false, false] := by revert p; decide +kernel
  have ha : lookupAc (acTrie defaultConfig (planeChroma p)) symEob = some ((grayCode p).drop 2) := by revert p; decide +kernel
  have hz : encodeAc (acTrie defaultConfig (planeChroma p)) (List.replicate 63 0) = putBits ((grayCode p).drop 2) := by
    show encodeAc _ (0 :: List.replicate 62 0) = _
    rw [encodeAc, if_pos (by decide), ha, putCode]
  rw [BlockUnit.encodeSeq, h0, h1, encodeBlock, hd, hz, ← hg]
  simp [onCoder_apply, putCode, entBits, show bitLengthInt 0 = 0 from rfl]

/-- The block commands of the encoder on a block of 128. -/
theorem quantised_gray (qt : Vector Nat 64) (z : Vector (Fin 64) 64) (b : BlockUnit) (h : b.blkf = block128) :
    ((b.dctFwd .exact).quant .exact .halfUp qt).zzFwd z = ⟨zeroReals, zeroInts, zeroInts, b.coder⟩ := by
  rw [dctFwd_gray b h]
  have h1 := quant_gray qt { b with blkf := zeroReals } rfl
  have h2 := zzFwd_gray z { b with blkf := zeroReals, blki := zeroInts } rfl
  rw [h1]
  rw [h2]

/-- One gray pixel; what the tiles of IMG.ENC read of it. -/
def gray : State := { onePixel 128 128 128 State.reset with quality := .of 50 }
def GrayLoaded (s : State) : Prop :=
  s.cfg = State.reset.cfg ∧ s.height.val = 1 ∧ s.width.val = 1 ∧ ∀ p, s.ycc.read ⟨p, 0, 0⟩ = some (.ofInt 128)
/-- `LoadTile` repeats the pixel. -/
theorem loadTile_gray (p : Fin 3) (s : State) (h : GrayLoaded s) :
    s.loadTile p 0 0 = { s with blk := { s.blk with blkf := block128 } } := by
  simp [State.loadTile, h.2.1, h.2.2.1, h.2.2.2, yccAt, block128]
/-- `EncodeTile` on it. -/
theorem encodeTile_gray (p : Fin 3) (s : State) (h : GrayLoaded s) :
    ∃ b, encodeTile p 0 0 s = .ok () { s with blk := b } ∧ b.coder.bits = s.blk.coder.bits ++ grayCode p := by
  refine ⟨⟨zeroReals, zeroInts, zeroInts, { s.blk.coder with zrun := 0, bits := s.blk.coder.bits ++ grayCode p }⟩, ?_, rfl⟩
  have hq := quantised_gray (s.qt (planeChroma p)) defaultConfig.zigzag { s.blk with blkf := block128 } rfl
  have he := encodeSeq_gray p ⟨zeroReals, zeroInts, zeroInts, s.blk.coder⟩ rfl
  have hn : defaultConfig.numeric = .exact := rfl
  have hr : defaultConfig.round = .halfUp := rfl
  have hc : s.cfg.toConfig = defaultConfig := by rw [h.1]; rfl
  simp only [encodeTile, Run.bind_apply, Run.modify_apply, Run.get_apply, onBlk_apply, loadTile_gray p s h, hn, hr, hc, State.qt] at hq ⊢
  simp only [hq, he]
/-- One plane, and the three of them. -/
theorem encodePlane_gray (p : Fin 3) (s : State) (h : GrayLoaded s) : ∃ t, encodePlane p s = .ok () t ∧ GrayLoaded t := by
  obtain ⟨b, hb, -⟩ := encodeTile_gray p { s with phase := .record, blk := { s.blk with coder := .fresh } } h
  have ha : allTiles (encodeTile p) { s with phase := .record, blk := { s.blk with coder := .fresh } }
      = .ok () { s with phase := .record, blk := b } := by
    simp only [allTiles, Run.bind_apply, Run.get_apply, h.2.1, h.2.2.1]
    simp [forTiles, tilesAlong, hb]
  simp only [encodePlane, Run.bind_apply, Run.setPhase_apply, Run.set_apply, onBlk_apply, onCoder_apply, ha, Run.get_apply, onIo_apply,
    Run.emitBytes_apply]
  exact ⟨_, rfl, h⟩
theorem encodePlanes_gray (s : State) (h : GrayLoaded s) : ∃ t, forPlanes encodePlane planes s = .ok () t := by
  obtain ⟨a, ha, ga⟩ := encodePlane_gray 0 s h
  obtain ⟨b, hb, gb⟩ := encodePlane_gray 1 a ga
  obtain ⟨c, hc, -⟩ := encodePlane_gray 2 b gb
  exact ⟨c, by simp [planes, forPlanes, ha, hb, hc]⟩
/-- IMG.ENC on one gray pixel, up to the planes. -/
def grayHeaded : State :=
  let s := ({ (gray.start .compute).dropChannel with io := openOut (gray.start .compute).dropChannel.io } : State).ctFwd.setTables
  { s with phase := .header, io := outBytes (headerChars 1 1 50 ++ [lineFeed]) s.io }
/-- IMG.ENC runs to its normal end on it. -/
theorem gray_encodes : ∃ t, Runs .imgEnc gray t := by
  obtain ⟨t, ht⟩ := encodePlanes_gray grayHeaded ⟨by decide +kernel, rfl, rfl, by decide +kernel⟩
  refine ⟨t.released.completed, ?_, rfl⟩
  rw [exec, execImgEnc]
  refine runUnit_ok (by decide +kernel) ?_
  simp only [Run.bind_apply, onIo_apply, Run.modify_apply, Run.setPhase_apply, Run.emitBytes_apply]
  exact ht

/-- A state after a command that leaves b in the block unit. -/
def leftWith (b : BlockUnit) (s : State) : State := ({ (s.start .compute).dropChannel with blk := b } : State).released.completed
theorem leftWith_blk (b : BlockUnit) (s : State) : (leftWith b s).blk = { b with coder := .fresh } := rfl
theorem leftWith_qvalid (b : BlockUnit) (s : State) : (leftWith b s).qvalid = s.qvalid := rfl
theorem unit_next (i : Instr) (h : i ∈ [Instr.rleEnc, .rleDec, .zzInv, .qDequant, .dctInv]) (s : State) :
    exec i s = .next (after i s) := by
  refine exec_after ?_
  simp only [List.mem_cons, List.not_mem_nil, or_false] at h
  rcases h with rfl | rfl | rfl | rfl | rfl <;> simp only [exec, execRleEnc, execRleDec, execZzInv, execQDequant, execDctInv] <;>
    exact runUnit_next _ _ _ _
/-- A block command whose operands are right. -/
theorem block_runs {bad : State → List Nat} {f : BlockUnit → BlockUnit} {s : State} {b : BlockUnit} (hb : bad s = []) (hf : f s.blk = b) :
    runUnit .compute bad (onBlock f) s = .next (leftWith b s) := by
  refine runUnit_ok hb ?_
  rw [onBlock, Run.always_apply, ← hf]
  rfl
/-- u before DCT.FWD on the first tile of plane p, and after DCT.FWD, Q.QUANT and ZZ.FWD of a gray one. -/
def tileStart (u : State) (p : Fin 3) : State :=
  { u with sel := planeSel p, blk := { u.blk with blkf := tileSamples u p 0 }, io := { u.io with out := ⟨[], .idle⟩ } }
def grayFlat (s : State) : State := leftWith { s.blk with blkf := zeroReals } s
def grayQuant (s : State) : State := leftWith { s.blk with blki := zeroInts } s
def graySeq (s : State) : State := leftWith { s.blk with seq := zeroInts } s

/-- The three block commands on a tile of 128, run one by one. -/
theorem gray_quantised (u : State) (p : Fin 3) (hn : u.cfg.numeric = .exact) (hr : u.cfg.round = .halfUp) (hv : u.qvalid = true)
    (hb : tileSamples u p 0 = block128) : TileQuantised u p 0 (graySeq (grayQuant (grayFlat (tileStart u p)))) := by
  have ht : allWritten block128 = true ∧ allWritten zeroReals = true ∧ allWritten zeroInts = true := by decide +kernel
  have hb' : (tileStart u p).blk.blkf = block128 := hb
  refine ⟨grayFlat (tileStart u p), grayQuant (grayFlat (tileStart u p)), ⟨?_, rfl⟩, ⟨?_, rfl⟩, ?_, rfl⟩
  · show runUnit .compute blkfBad (onBlock (BlockUnit.dctFwd u.cfg.numeric)) (tileStart u p) = _
    rw [hn]
    exact block_runs (by rw [blkfBad, hb', ht.1]; rfl) (dctFwd_gray _ hb')
  · show runUnit .compute quantBad (onBlock (BlockUnit.quant u.cfg.numeric u.cfg.round _)) (grayFlat (tileStart u p)) = _
    rw [hn, hr]
    refine block_runs ?_ (quant_gray _ _ rfl)
    simp only [quantBad, grayFlat, leftWith_blk, leftWith_qvalid, ht.2.1, tileStart, hv]
    rfl
  · show runUnit .compute blkiBad (onBlock (BlockUnit.zzFwd u.cfg.zigzag)) (grayQuant (grayFlat (tileStart u p))) = _
    refine block_runs ?_ (zzFwd_gray _ _ rfl)
    simp only [blkiBad, grayQuant, leftWith_blk, ht.2.2]
    rfl

/-- One gray pixel after CT.FWD and Q.SETQ. -/
def grayReady (c : CheckedConfig) : State := after .qSetq (after .ctFwd (under c gray))
/-- The configurations of these cases. -/
def grayConfigs : List CheckedConfig := [State.reset.cfg, bareConfig]
/-- What these commands read of that state. -/
theorem grayReady_holds : ∀ c ∈ grayConfigs, (grayReady c).cfg.numeric = .exact ∧ (grayReady c).cfg.round = .halfUp
    ∧ (grayReady c).qvalid = true ∧ (grayReady c).height.val = 1 ∧ (grayReady c).width.val = 1
    ∧ ∀ p, (grayReady c).ycc.read ⟨p, 0, 0⟩ = some (.ofInt 128) := by decide +kernel
/-- The state before RLE.ENC on that tile. -/
def grayLast (c : CheckedConfig) (p : Fin 3) : State := graySeq (grayQuant (grayFlat (tileStart (grayReady c) p)))
theorem grayLast_quantised (c : CheckedConfig) (hc : c ∈ grayConfigs) (p : Fin 3) : TileQuantised (grayReady c) p 0 (grayLast c p) := by
  obtain ⟨hn, hr, hv, hh, hw, hy⟩ := grayReady_holds c hc
  exact gray_quantised _ p hn hr hv (by simp [tileSamples, tileSide, hh, hw, hy, block128, Reg.of])
/-- The tile of plane p has the code of a zero block. -/
theorem gray_coded (p : Fin 3) : TileCoded (grayReady State.reset.cfg) p 0 (grayCode p) (after .rleEnc (grayLast State.reset.cfg p)) := by
  have h : ∀ p, (after .rleEnc (grayLast State.reset.cfg p)).run = .done
      ∧ (after .rleEnc (grayLast State.reset.cfg p)).io.out.bytes = chars (grayCode p) := by decide +kernel
  exact ⟨_, grayLast_quantised _ (.head _) p, ⟨unit_next _ (by decide) _, (h p).1⟩, (h p).2⟩

/-- An image of one pixel: the header line, and a line for Y, for Cb and for Cr. -/
def oneTile (y : List Byte) : State :=
  fed ([0x31, 0x20, 0x31, 0x20] ++ bitsOf 6 50 ++ [lineFeed] ++ y ++ [lineFeed] ++ bitsOf 4 0 ++ [lineFeed] ++ bitsOf 4 0 ++ [lineFeed])
/-- That state before RLE.DEC on the line x of plane p, and after the tile. -/
def lineStart (u : State) (p : Fin 3) (x : List Byte) : State := { u with sel := planeSel p, io := { u.io with inp := ⟨x, 0⟩ } }
def tileDone (s : State) : State := after .dctInv (after .qDequant (after .zzInv (after .rleDec s)))
/-- One tile decoded by the four commands, when each runs to its normal end. -/
theorem tile_decoded (u : State) (p : Fin 3) (x : List Byte)
    (h : (after .rleDec (lineStart u p x)).run = .done ∧ (after .zzInv (after .rleDec (lineStart u p x))).run = .done
      ∧ (after .qDequant (after .zzInv (after .rleDec (lineStart u p x)))).run = .done ∧ (tileDone (lineStart u p x)).run = .done) :
    TilesDecoded u p x [(tileDone (lineStart u p x)).blk.blkf] (after .rleDec (lineStart u p x)).io.inp.rest :=
  .tile ⟨unit_next _ (by decide) _, h.1⟩
    ⟨_, _, ⟨unit_next _ (by decide) _, h.2.1⟩, ⟨unit_next _ (by decide) _, h.2.2.1⟩, unit_next _ (by decide) _, h.2.2.2⟩ (.done _)

/-- An image of one pixel at the least and the greatest quality; its gray tiles all have codes; with a codebook that lacks category 0 RLE.ENC
raises at the first tile. -/
theorem test_hyp_ImgEncWritesFourLines :
    (ImgReady { gray with quality := .of 0 } ∧ ImgReady { gray with quality := .of 100 })
      ∧ (ImgReady gray ∧ tileCount gray = 1 ∧ ∀ p n, n < 1 → ∃ b, TileCoded (grayReady State.reset.cfg) p n (grayCode p) b)
      ∧ (ImgReady (under bareConfig gray) ∧ tileCount (under bareConfig gray) = 1
          ∧ (∀ (p' : Fin 3) (n' : Nat), n' < 1 → p' < 0 ∨ (p' = 0 ∧ n' < 0) → False)
          ∧ TileQuantised (grayReady bareConfig) 0 0 (grayLast bareConfig 0)
          ∧ exec .rleEnc (grayLast bareConfig 0) = .next (after .rleEnc (grayLast bareConfig 0))
          ∧ (after .rleEnc (grayLast bareConfig 0)).run = .error)
      ∧ gray.cfg.numeric = .exact ∧ CodesSymbols gray.cfg.toConfig false ∧ CodesSymbols gray.cfg.toConfig true := by
  have hi : ∀ (c : CheckedConfig) (q : Nat), q ≤ 100 → ImgReady { gray with cfg := c, quality := .of q } := fun c q hq =>
    ⟨rfl, hq, ⟨rfl, Nat.le_refl 1, rfl, Nat.le_refl 1⟩, onePixel_ready 128 128 128⟩
  refine ⟨⟨hi _ 0 (by decide), hi _ 100 (by decide)⟩, ⟨hi _ 50 (by decide), rfl, fun p n hn => ?_⟩,
    ⟨hi _ 50 (by decide), rfl, fun p n _ h => ?_, grayLast_quantised _ (.tail _ (.head _)) 0, unit_next _ (by decide) _, by decide +kernel⟩,
    rfl, ?_, ?_⟩
  · obtain rfl : n = 0 := by omega
    exact ⟨_, gray_coded p⟩
  · omega
  · unfold CodesSymbols; decide +kernel
  · unfold CodesSymbols; decide +kernel
theorem test_hyp_ImgDecReadsWhatImgEncWrote : ∃ t, ImgReady gray ∧ Runs .imgEnc gray t :=
  let ⟨t, h⟩ := gray_encodes
  ⟨t, ⟨rfl, by decide, ⟨rfl, by decide, rfl, by decide⟩, onePixel_ready 128 128 128⟩, h⟩
/-- Three lines of one tile each; a line for Y with one character more; a line for Y without any. -/
theorem test_hyp_ImgDecDecodesTiles :
    let s := oneTile (bitsOf 6 0b001010)
    let u := headed s 1 1 50
    GoodHeader (firstLine s.io.inp.rest) 1 1 50 ∧ tileSide 1 * tileSide 1 = 1
      ∧ (∀ p, planeLine p s.io.inp.rest = chars (grayCode p)
          ∧ TilesDecoded u p (chars (grayCode p)) [(tileDone (lineStart u p (chars (grayCode p)))).blk.blkf] [])
      ∧ (let long := oneTile (bitsOf 7 0b0010101)
         ∃ b, TilesDecoded (headed long 1 1 50) 0 (planeLine 0 long.io.inp.rest) [b] [0x31])
      ∧ (let empty := oneTile []
         let c := after .rleDec (lineStart (headed empty 1 1 50) 0 (planeLine 0 empty.io.inp.rest))
         exec .rleDec (lineStart (headed empty 1 1 50) 0 (planeLine 0 empty.io.inp.rest)) = .next c ∧ c.run = .error
           ∧ c.err = some .truncatedStream) := by
  intro s u
  refine ⟨⟨[0x31], [0x31], bitsOf 6 50, by decide +kernel, ⟨[true], by decide⟩, ⟨[true], by decide⟩, ⟨binN 6 50, by decide⟩, by decide, by decide, by decide⟩,
    by decide, fun p => ⟨by revert p; decide +kernel, ?_⟩, ?_, unit_next _ (by decide) _, by decide +kernel⟩
  · have hr : (after .rleDec (lineStart u p (chars (grayCode p)))).io.inp.rest = [] := by revert p; decide +kernel
    have h := tile_decoded u p (chars (grayCode p)) (by revert p; decide +kernel)
    rwa [hr] at h
  · intro long
    have h := tile_decoded (headed long 1 1 50) 0 (planeLine 0 long.io.inp.rest) (by decide +kernel)
    rw [show (after .rleDec (lineStart (headed long 1 1 50) 0 (planeLine 0 long.io.inp.rest))).io.inp.rest = [0x31] by decide +kernel] at h
    exact ⟨_, h⟩
theorem test_hyp_SolidGrayRoundTrip :
    ImgReady { onePixel 128 128 128 State.reset with quality := .of 50 }
      ∧ (∀ (c : Fin 3) (y x : Nat), y < 1 → x < 1 → (onePixel 128 128 128 State.reset).rgb.read ⟨c, y, x⟩ = some 128)
      ∧ lookupDc State.reset.cfg.dcLuma 0 = some [false, false] ∧ lookupAc State.reset.cfg.acLuma 0x00 = some (binN 4 0b1010)
      ∧ lookupDc State.reset.cfg.dcChroma 0 = some [false, false] ∧ lookupAc State.reset.cfg.acChroma 0x00 = some [false, false] := by
  refine ⟨⟨rfl, by decide, ⟨rfl, by decide, rfl, by decide⟩, onePixel_ready 128 128 128⟩, ?_, by decide +kernel, by decide +kernel,
    by decide +kernel, by decide +kernel⟩
  intro c y x hy hx
  obtain rfl : y = 0 := by omega
  obtain rfl : x = 0 := by omega
  fin_cases c <;> rfl
/-- An empty `IN`, and a line of one field. -/
theorem test_hyp_MalformedHeaderRejected :
    (lineFeed ∉ ([] : List Byte) ∧ (fed []).io.inp.rest = [] ∧ ∀ h w q, ¬ GoodHeader [] h w q)
      ∧ lineFeed ∉ ([0x31] : List Byte) ∧ (fed [0x31, 0x0A]).io.inp.rest = [0x31] ++ lineFeed :: []
      ∧ ∀ h w q, ¬ GoodHeader [0x31] h w q := by
  refine ⟨⟨by decide, rfl, ?_⟩, by decide, rfl, ?_⟩ <;> rintro h w q ⟨f0, f1, f2, hl, -⟩ <;>
    exact absurd (congrArg List.length hl) (by simp [← Nat.add_assoc])

end Sys2Proof.Tests
end

section
/-! The numbers of the image path stand for exact reals (00_scope.md R14, log 6): what each operation of `ExactNum` is on the reals. -/

namespace Sys2Proof.Machine

/-! ### The ring operations, one storey of roots after the other -/

@[simp] theorem Quad.real_ofRat (q : Rat) : (Quad.ofRat q).real = q := by simp [Quad.ofRat, Quad.real]

@[simp] theorem Quad.real_add (x y : Quad) : (x.add y).real = x.real + y.real := by
  simp only [Quad.add, Quad.real]; push_cast; ring

@[simp] theorem Quad.real_sub (x y : Quad) : (x.sub y).real = x.real - y.real := by
  simp only [Quad.sub, Quad.real]; push_cast; ring

@[simp] theorem Quad.real_neg (x : Quad) : x.neg.real = -x.real := by
  simp only [Quad.neg, Quad.real]; push_cast; ring

@[simp] theorem Quad.real_smul (q : Rat) (x : Quad) : (x.smul q).real = q * x.real := by
  simp only [Quad.smul, Quad.real]; push_cast; ring

@[simp] theorem Quad.real_mul (x y : Quad) : (x.mul y).real = x.real * y.real := by
  have hroot : √(2 : ℝ) * √2 = 2 := Real.mul_self_sqrt (by positivity)
  simp only [Quad.mul, Quad.real]
  push_cast
  linear_combination -(x.b * y.b : ℝ) * hroot

@[simp] theorem Quad.real_root : Quad.root.real = 2 + √2 := by simp [Quad.root, Quad.real]

@[simp] theorem Quartic.real_ofRat (q : Rat) : (Quartic.ofRat q).real = q := by simp [Quartic.ofRat, Quartic.real]

@[simp] theorem Quartic.real_add (x y : Quartic) : (x.add y).real = x.real + y.real := by
  simp only [Quartic.add, Quartic.real, Quad.real_add]; ring

@[simp] theorem Quartic.real_sub (x y : Quartic) : (x.sub y).real = x.real - y.real := by
  simp only [Quartic.sub, Quartic.real, Quad.real_sub]; ring

@[simp] theorem Quartic.real_neg (x : Quartic) : x.neg.real = -x.real := by
  simp only [Quartic.neg, Quartic.real, Quad.real_neg]; ring

@[simp] theorem Quartic.real_smul (q : Rat) (x : Quartic) : (x.smul q).real = q * x.real := by
  simp only [Quartic.smul, Quartic.real, Quad.real_smul]; ring

@[simp] theorem Quartic.real_mul (x y : Quartic) : (x.mul y).real = x.real * y.real := by
  have hroot : √(2 + √2) * √(2 + √2) = 2 + √2 := Real.mul_self_sqrt (by positivity)
  simp only [Quartic.mul, Quartic.real, Quad.real_add, Quad.real_mul, Quad.real_root]
  linear_combination -(x.b.real * y.b.real) * hroot

@[simp] theorem Quartic.real_root : Quartic.root.real = 2 + √(2 + √2) := by simp [Quartic.root, Quartic.real, Quad.real]

@[simp] theorem ExactNum.real_ofRat (q : Rat) : (ExactNum.ofRat q).real = q := by simp [ExactNum.ofRat, ExactNum.real]

@[simp] theorem ExactNum.real_ofInt (n : Int) : (ExactNum.ofInt n).real = n := by simp [ExactNum.ofInt]

@[simp] theorem ExactNum.real_add (x y : ExactNum) : (x.add y).real = x.real + y.real := by
  simp only [ExactNum.add, ExactNum.real, Quartic.real_add]; ring

@[simp] theorem ExactNum.real_sub (x y : ExactNum) : (x.sub y).real = x.real - y.real := by
  simp only [ExactNum.sub, ExactNum.real, Quartic.real_sub]; ring

@[simp] theorem ExactNum.real_neg (x : ExactNum) : x.neg.real = -x.real := by
  simp only [ExactNum.neg, ExactNum.real, Quartic.real_neg]; ring

@[simp] theorem ExactNum.real_smul (q : Rat) (x : ExactNum) : (x.smul q).real = q * x.real := by
  simp only [ExactNum.smul, ExactNum.real, Quartic.real_smul]; ring

@[simp] theorem ExactNum.real_mul (x y : ExactNum) : (x.mul y).real = x.real * y.real := by
  have hroot : √(2 + √(2 + √2)) * √(2 + √(2 + √2)) = 2 + √(2 + √2) := Real.mul_self_sqrt (by positivity)
  simp only [ExactNum.mul, ExactNum.real, Quartic.real_add, Quartic.real_mul, Quartic.real_root]
  linear_combination -(x.b.real * y.b.real) * hroot

/-! ### Sign and order -/

/-- The sign of `a + b·r` from those of a, b and `a² − r²·b²`: with a and b of opposite signs `a − b·r` has the sign of a, and
the product of the two is `a² − r²·b²`. All three storeys compute their sign so. -/
theorem sign_add_mul_root (a b : ℝ) {r : ℝ} (hr : 0 < r) :
    (if (SignType.sign b : Int) = 0 then (SignType.sign a : Int)
      else if (SignType.sign a : Int) = 0 then (SignType.sign b : Int)
      else if (SignType.sign a : Int) = SignType.sign b then (SignType.sign a : Int)
      else (SignType.sign a : Int) * SignType.sign (a * a - r * r * (b * b))) = (SignType.sign (a + b * r) : Int) := by
  have hprod : a * a - r * r * (b * b) = (a - b * r) * (a + b * r) := by ring
  rcases lt_trichotomy b 0 with hb | rfl | hb
  · have hbr : b * r < 0 := mul_neg_of_neg_of_pos hb hr
    rcases lt_trichotomy a 0 with ha | rfl | ha
    · simp [sign_neg ha, sign_neg hb, sign_neg (add_neg ha hbr)]
    · simp [sign_neg hb, sign_neg hbr]
    · simp [sign_pos ha, sign_neg hb, hprod, sign_mul, sign_pos (show 0 < a - b * r by linarith)]
  · simp
  · have hbr : 0 < b * r := mul_pos hb hr
    rcases lt_trichotomy a 0 with ha | rfl | ha
    · simp [sign_neg ha, sign_pos hb, hprod, sign_mul, sign_neg (show a - b * r < 0 by linarith)]
    · simp [sign_pos hb, sign_pos hbr]
    · simp [sign_pos ha, sign_pos hb, sign_pos (add_pos ha hbr)]

/-- The ground storey: the sign of a rational. -/
theorem num_sign_eq (q : Rat) : q.num.sign = (SignType.sign (q : ℝ) : Int) := by
  rcases lt_trichotomy q 0 with h | rfl | h
  · rw [sign_neg (by exact_mod_cast h), Int.sign_eq_neg_one_of_neg (Rat.num_neg.mpr h)]; rfl
  · simp
  · rw [sign_pos (by exact_mod_cast h), Int.sign_eq_one_of_pos (Rat.num_pos.mpr h)]; rfl

theorem Quad.sign_eq (x : Quad) : x.sign = (SignType.sign x.real : Int) := by
  have hroot : √(2 : ℝ) * √2 = 2 := Real.mul_self_sqrt (by positivity)
  simp only [Quad.sign, num_sign_eq, Quad.real, ← sign_add_mul_root _ _ (show 0 < √(2 : ℝ) by positivity), hroot]
  push_cast
  rfl

theorem Quartic.sign_eq (x : Quartic) : x.sign = (SignType.sign x.real : Int) := by
  have hroot : √(2 + √2) * √(2 + √2) = 2 + √2 := Real.mul_self_sqrt (by positivity)
  simp only [Quartic.sign, Quad.sign_eq, Quad.real_sub, Quad.real_mul, Quad.real_root, Quartic.real,
    ← sign_add_mul_root _ _ (show 0 < √(2 + √2) by positivity), hroot]

theorem ExactNum.sign_eq (x : ExactNum) : x.sign = (SignType.sign x.real : Int) := by
  have hroot : √(2 + √(2 + √2)) * √(2 + √(2 + √2)) = 2 + √(2 + √2) := Real.mul_self_sqrt (by positivity)
  simp only [ExactNum.sign, Quartic.sign_eq, Quartic.real_sub, Quartic.real_mul, Quartic.real_root, ExactNum.real,
    ← sign_add_mul_root _ _ (show 0 < √(2 + √(2 + √2)) by positivity), hroot]

theorem ExactNum.sign_nonneg_iff (x : ExactNum) : 0 ≤ x.sign ↔ 0 ≤ x.real := by
  rw [x.sign_eq]
  rcases lt_trichotomy x.real 0 with h | h | h
  · simp [sign_neg h, h]
  · simp [h]
  · simp [sign_pos h, h.le]

theorem ExactNum.sign_pos_iff (x : ExactNum) : 0 < x.sign ↔ 0 < x.real := by
  rw [x.sign_eq]
  rcases lt_trichotomy x.real 0 with h | h | h
  · simp [sign_neg h, h.le]
  · simp [h]
  · simp [sign_pos h, h]

@[simp] theorem ExactNum.le_iff (x y : ExactNum) : x.le y = true ↔ x.real ≤ y.real := by
  simp [ExactNum.le, ExactNum.sign_nonneg_iff]

@[simp] theorem ExactNum.lt_iff (x y : ExactNum) : x.lt y = true ↔ x.real < y.real := by
  simp [ExactNum.lt, ExactNum.sign_pos_iff]

/-! ### `floor`: the magnitude bound, and bisection between two integers -/

theorem abs_add_mul_root_le {a b r A B : ℝ} (ha : |a| ≤ A) (hb : |b| ≤ B) (hr : 0 ≤ r) (hr' : r ≤ 2) : |a + b * r| ≤ A + 2 * B :=
  calc |a + b * r| ≤ |a| + |b| * |r| := by rw [← abs_mul]; exact abs_add_le _ _
    _ ≤ A + B * 2 := by rw [abs_of_nonneg hr]; gcongr; exact (abs_nonneg b).trans hb
    _ = A + 2 * B := by ring

theorem sqrt_two_le_two : √(2 : ℝ) ≤ 2 := Real.sqrt_le_iff.mpr (by norm_num)

/-- So each root of the tower is at most 2, as the bounds take it. -/
theorem sqrt_two_add_le_two {r : ℝ} (h : r ≤ 2) : √(2 + r) ≤ 2 :=
  Real.sqrt_le_iff.mpr ⟨by norm_num, by linarith⟩

theorem Quad.abs_real_le_bound (x : Quad) : |x.real| ≤ x.bound := by
  rw [Quad.bound]; push_cast
  exact abs_add_mul_root_le le_rfl le_rfl (by positivity) sqrt_two_le_two

theorem Quartic.abs_real_le_bound (x : Quartic) : |x.real| ≤ x.bound := by
  rw [Quartic.bound]; push_cast
  exact abs_add_mul_root_le x.a.abs_real_le_bound x.b.abs_real_le_bound (by positivity) (sqrt_two_add_le_two sqrt_two_le_two)

theorem ExactNum.abs_real_le_bound (x : ExactNum) : |x.real| ≤ x.bound := by
  rw [ExactNum.bound]; push_cast
  exact abs_add_mul_root_le x.a.abs_real_le_bound x.b.abs_real_le_bound (by positivity)
    (sqrt_two_add_le_two (sqrt_two_add_le_two sqrt_two_le_two))

theorem ExactNum.abs_real_lt_ceiling (x : ExactNum) : |x.real| < x.ceiling := by
  have h : x.bound < x.ceiling := by rw [ExactNum.ceiling]; exact_mod_cast Int.lt_floor_add_one x.bound
  exact x.abs_real_le_bound.trans_lt (by exact_mod_cast h)

/-- The end of the bisection: the two integers are neighbours. -/
theorem floor_eq_of_gap_le_one {x : ℝ} {lo hi : Int} (hlo : (lo : ℝ) ≤ x) (hhi : x < hi) (hgap : hi - lo ≤ 1) : lo = ⌊x⌋ := by
  have hhi' : (hi : ℝ) ≤ lo + 1 := by exact_mod_cast (show hi ≤ lo + 1 by omega)
  exact (Int.floor_eq_iff.mpr ⟨hlo, hhi.trans_le hhi'⟩).symm

theorem floorSearch_eq (x : ExactNum) (fuel : Nat) (lo hi : Int) (hlo : (lo : ℝ) ≤ x.real) (hhi : x.real < hi)
    (hgap : hi - lo ≤ 2 ^ fuel) : floorSearch x fuel lo hi = ⌊x.real⌋ := by
  induction fuel generalizing lo hi with
  | zero =>
    rw [floorSearch]
    exact floor_eq_of_gap_le_one hlo hhi (by simpa using hgap)
  | succ fuel ih =>
    rw [pow_succ] at hgap
    rw [floorSearch]
    split
    case isTrue hnear => exact floor_eq_of_gap_le_one hlo hhi hnear
    case isFalse =>
      split
      case isTrue hmid => exact ih _ _ (by simpa using hmid) hhi (by omega)
      case isFalse hmid => exact ih _ _ hlo (by simpa using hmid) (by omega)

theorem ExactNum.floor_eq (x : ExactNum) : x.floor = ⌊x.real⌋ := by
  by_cases hrat : x.isRat = true
  · rw [ExactNum.eq_ofRat hrat, floor_ofRat, real_ofRat, Rat.floor_cast]; rfl
  · obtain ⟨hlo, hhi⟩ := abs_lt.mp x.abs_real_lt_ceiling
    have hfuel : (2 * x.ceiling).toNat < 2 ^ ((2 * x.ceiling).toNat.log2 + 1) := Nat.lt_log2_self
    rw [ExactNum.floor, if_neg hrat]
    refine floorSearch_eq x _ _ _ (by push_cast; exact hlo.le) hhi ?_
    zify at hfuel
    omega

/-- Settles O35: each part is the lemma above about that operation. -/
theorem numbersAreExactReals : Obligations.NumbersAreExactReals := fun x y q n =>
  ⟨x.real_add y, x.real_sub y, x.real_neg, x.real_mul y, x.real_smul q, ExactNum.real_ofRat q, ExactNum.real_ofInt n,
    x.le_iff y, x.lt_iff y, x.floor_eq⟩

end Sys2Proof.Machine
end

section
/-! Rounding to binary64 (00_scope.md R8, 44_dct_quant_zigzag.md R221, log 22): `round64` gives the nearest binary64 number, a tie to the
even significand, and the constants of the basis matrix lie within one unit below 1/2 of the exact ones. -/

namespace Sys2Proof.Machine

/-! ### Rounding to a nearest integer -/

theorem roundHalfUp_eq (x : ExactNum) : roundHalfUp x = ⌊x.real + 1 / 2⌋ := by
  simp [roundHalfUp, ExactNum.floor_eq]

theorem roundHalfDown_eq (x : ExactNum) : roundHalfDown x = -⌊-x.real + 1 / 2⌋ := by
  simp [roundHalfDown, roundHalfUp_eq]

/-- `n` is an integer nearest to `y`, and the even one on a tie. -/
def RoundsHalfEven (y : ℝ) (n : Int) : Prop := |y - n| ≤ 1 / 2 ∧ (|y - n| = 1 / 2 → Even n)

theorem abs_sub_roundHalfUp_le (x : ExactNum) : |x.real - roundHalfUp x| ≤ 1 / 2 := by
  have h := Int.floor_le (x.real + 1 / 2)
  have h' := Int.lt_floor_add_one (x.real + 1 / 2)
  rw [roundHalfUp_eq, abs_le]
  constructor <;> linarith

theorem abs_sub_roundHalfDown_le (x : ExactNum) : |x.real - roundHalfDown x| ≤ 1 / 2 := by
  have h := abs_sub_roundHalfUp_le x.neg
  rw [roundHalfDown, ← abs_neg]
  push_cast
  rwa [ExactNum.real_neg, show -x.real - roundHalfUp x.neg = -(x.real - -(roundHalfUp x.neg : ℝ)) by ring] at h

/-- On a tie the two roundings are neighbours, so one of them is even. -/
theorem roundHalfUp_eq_of_tie {x : ExactNum} (h : |x.real - roundHalfDown x| = 1 / 2) : roundHalfUp x = roundHalfDown x + 1 := by
  have hlt := Int.lt_floor_add_one (-x.real + 1 / 2)
  have hdown : (roundHalfDown x : ℝ) < x.real + 1 / 2 := by rw [roundHalfDown_eq]; push_cast; linarith
  rcases abs_eq (by norm_num) |>.mp h with h | h
  · rw [roundHalfUp_eq, show x.real + 1 / 2 = ((roundHalfDown x + 1 : Int) : ℝ) by push_cast; linarith, Int.floor_intCast]
  · linarith

theorem roundsHalfEven_roundHalfEven (x : ExactNum) : RoundsHalfEven x.real (roundHalfEven x) := by
  unfold roundHalfEven
  split
  case isTrue heven => exact ⟨abs_sub_roundHalfUp_le x, fun _ => Int.even_iff.mpr heven⟩
  case isFalse hodd =>
    refine ⟨abs_sub_roundHalfDown_le x, fun htie => ?_⟩
    rw [roundHalfUp_eq_of_tie htie] at hodd
    exact Int.even_iff.mpr (by omega)

/-- Every other integer is at least as far away, and as far only on a tie. -/
theorem RoundsHalfEven.nearest {y : ℝ} {n : Int} (h : RoundsHalfEven y n) (k : Int) :
    |y - n| ≤ |y - k| ∧ (|y - n| = |y - k| → k = n ∨ Even n) := by
  obtain ⟨hhalf, htie⟩ := h
  rcases eq_or_ne k n with rfl | hne
  · exact ⟨le_rfl, fun _ => .inl rfl⟩
  · have hone : (1 : ℝ) ≤ |((n - k : Int) : ℝ)| := by exact_mod_cast Int.one_le_abs (sub_ne_zero.mpr hne.symm)
    have hfar : |((n - k : Int) : ℝ)| ≤ |y - n| + |y - k| := by
      push_cast
      rw [abs_sub_comm y n]
      simpa using abs_sub_le (n : ℝ) y k
    exact ⟨by linarith, fun heq => .inr (htie (by linarith))⟩

/-- The same on the integer multiples of a unit. -/
theorem RoundsHalfEven.nearest_multiple {x u : ℝ} (hu : 0 < u) {n : Int} (h : RoundsHalfEven (x / u) n) (k : Int) :
    |x - n * u| ≤ |x - k * u| ∧ (|x - n * u| = |x - k * u| → k = n ∨ Even n) := by
  have hscale (j : Int) : |x - j * u| = |x / u - j| * u := by
    rw [← abs_of_pos hu, ← abs_mul, abs_of_pos hu, sub_mul, div_mul_cancel₀ x hu.ne']
  rw [hscale, hscale, mul_le_mul_iff_left₀ hu, mul_left_inj' hu.ne']
  exact h.nearest k

/-! ### The unit in the last place -/

theorem cast_twoPow (e : Int) : ((twoPow e : Rat) : ℝ) = 2 ^ e := by
  unfold twoPow
  split
  case isTrue h =>
    obtain ⟨n, rfl⟩ := Int.eq_ofNat_of_zero_le h
    simp
  case isFalse h =>
    obtain ⟨n, hn⟩ := Int.eq_ofNat_of_zero_le (show 0 ≤ -e by omega)
    obtain rfl : e = -n := by omega
    simp

/-- `2^e` is the unit in the last place of the binary64 numbers around a magnitude `a` (no upper bound on e). -/
structure IsUlp (a : ℝ) (e : Int) : Prop where
  least : -1074 ≤ e
  below : a < 2 ^ 53 * 2 ^ e
  above : 2 ^ 52 * 2 ^ e ≤ a ∨ e = -1074

theorem two_pow_mul_zpow (n : Nat) (e : Int) : (2 : ℝ) ^ n * 2 ^ e = 2 ^ (n + e) := by
  rw [zpow_add₀ two_ne_zero, zpow_natCast]

theorem isUlp_ulpExponent {a : ℝ} (ha : 0 ≤ a) : IsUlp a (ulpExponent ⌊a * 2 ^ (1074 : Int)⌋₊) := by
  have hpos : (0 : ℝ) < 2 ^ (1074 : Int) := by positivity
  have hscaled : 0 ≤ a * 2 ^ (1074 : Int) := by positivity
  have hunscale (n : Int) : (2 : ℝ) ^ n / 2 ^ (1074 : Int) = 2 ^ (n - 1074) := (zpow_sub₀ two_ne_zero n 1074).symm
  generalize hs : ⌊a * 2 ^ (1074 : Int)⌋₊ = scaled
  unfold ulpExponent
  split
  case isTrue hsub =>
    have hlt : a * 2 ^ (1074 : Int) < 2 ^ (53 : Int) := by exact_mod_cast (Nat.floor_lt hscaled).mp (hs ▸ hsub)
    rw [← lt_div_iff₀ hpos, hunscale] at hlt
    exact ⟨le_rfl, by rwa [two_pow_mul_zpow], .inr rfl⟩
  case isFalse hnormal =>
    have hzero : scaled ≠ 0 := by omega
    have hlog : 53 ≤ scaled.log2 := (Nat.le_log2 hzero).mpr (by omega)
    have hle : (2 : ℝ) ^ (scaled.log2 : Int) ≤ a * 2 ^ (1074 : Int) :=
      le_trans (by exact_mod_cast Nat.log2_self_le hzero) (hs ▸ Nat.floor_le hscaled)
    have hlt : a * 2 ^ (1074 : Int) < 2 ^ ((scaled.log2 : Int) + 1) :=
      ((Nat.floor_lt hscaled).mp (hs.trans_lt Nat.lt_log2_self)).trans_eq (by norm_cast)
    rw [← div_le_iff₀ hpos, hunscale] at hle
    rw [← lt_div_iff₀ hpos, hunscale] at hlt
    refine ⟨by omega, hlt.trans_eq ?_, .inl (le_of_eq_of_le ?_ hle)⟩ <;> rw [two_pow_mul_zpow] <;> congr 1 <;> omega

/-- The magnitude of x, as `nearestDyadic` takes it. -/
theorem real_ite_sign_neg (x : ExactNum) : (if x.sign < 0 then x.neg else x).real = |x.real| := by
  split
  case isTrue h => rw [ExactNum.real_neg, abs_of_neg (by simpa [x.sign_nonneg_iff] using not_le.mpr h)]
  case isFalse h => rw [abs_of_nonneg (x.sign_nonneg_iff.mp (not_lt.mp h))]

/-- What `nearestDyadic` computes: x rounded to a multiple of its unit in the last place. -/
theorem exists_nearestDyadic_eq (x : ExactNum) :
    ∃ n e : Int, (nearestDyadic x : ℝ) = n * 2 ^ e ∧ IsUlp |x.real| e ∧ RoundsHalfEven (x.real / 2 ^ e) n := by
  let scaled := ((if x.sign < 0 then x.neg else x).smul (twoPow 1074)).floor.toNat
  have hscaled : scaled = ⌊|x.real| * 2 ^ (1074 : Int)⌋₊ := by
    rw [← Int.floor_toNat, mul_comm, ← cast_twoPow, ← real_ite_sign_neg, ← ExactNum.real_smul, ← ExactNum.floor_eq]
  refine ⟨roundHalfEven (x.smul (1 / twoPow (ulpExponent scaled))), ulpExponent scaled, ?_, ?_, ?_⟩
  · rw [← cast_twoPow, nearestDyadic]; push_cast; rfl
  · rw [hscaled]; exact isUlp_ulpExponent (abs_nonneg _)
  · have h := roundsHalfEven_roundHalfEven (x.smul (1 / twoPow (ulpExponent scaled)))
    rwa [ExactNum.real_smul, Rat.cast_div, Rat.cast_one, cast_twoPow, one_div_mul_eq_div] at h

/-! ### No binary64 number is nearer -/

/-- A binary64 number with a smaller unit lies below the binade of x. -/
theorem abs_lt_binade {m e e' : Int} (hm : |m| < 2 ^ 53) (he : e' < e) : |(m * 2 ^ e' : ℝ)| < 2 ^ 52 * 2 ^ e := by
  have hm' : |(m : ℝ)| < 2 ^ 53 := by exact_mod_cast hm
  calc |(m * 2 ^ e' : ℝ)| = |(m : ℝ)| * 2 ^ e' := by rw [abs_mul, abs_of_pos (show (0 : ℝ) < 2 ^ e' by positivity)]
    _ < 2 ^ 53 * 2 ^ e' := by gcongr
    _ = 2 ^ (53 + e') := two_pow_mul_zpow 53 e'
    _ ≤ 2 ^ (52 + e) := zpow_le_zpow_right₀ one_le_two (by omega)
    _ = 2 ^ 52 * 2 ^ e := (two_pow_mul_zpow 52 e).symm

/-- A binary64 number with a unit at least as large is a multiple of the unit of x. -/
theorem exists_eq_multiple (m : Int) {e e' : Int} (he : e ≤ e') : ∃ k : Int, (m * 2 ^ e' : ℝ) = k * 2 ^ e := by
  obtain ⟨d, hd⟩ := Int.le.dest he
  refine ⟨m * 2 ^ d, ?_⟩
  rw [← hd, zpow_add₀ two_ne_zero, zpow_natCast]
  push_cast
  ring

/-- The lower end of the binade of x, with the sign of x, is a multiple of the unit. -/
theorem exists_binade_end {x : ℝ} {e : Int} (h : 2 ^ 52 * 2 ^ e ≤ |x|) :
    ∃ k : Int, |x - k * 2 ^ e| = |x| - 2 ^ 52 * 2 ^ e := by
  rcases le_total 0 x with hx | hx
  · rw [abs_of_nonneg hx] at h ⊢
    exact ⟨2 ^ 52, by rw [Int.cast_pow, Int.cast_ofNat, abs_of_nonneg (sub_nonneg.mpr h)]⟩
  · rw [abs_of_nonpos hx] at h ⊢
    refine ⟨-2 ^ 52, ?_⟩
    rw [Int.cast_neg, Int.cast_pow, Int.cast_ofNat, neg_mul, sub_neg_eq_add, abs_of_nonpos (by linarith)]
    ring

theorem RoundsHalfEven.nearest_dyadic {x : ℝ} {n e : Int} (hulp : IsUlp |x| e) (hn : RoundsHalfEven (x / 2 ^ e) n) {m' e' : Int}
    (hm' : |m'| < 2 ^ 53) (he' : -1074 ≤ e') :
    |x - n * 2 ^ e| ≤ |x - m' * 2 ^ e'| ∧ (|x - n * 2 ^ e| = |x - m' * 2 ^ e'| → (m' * 2 ^ e' : ℝ) = n * 2 ^ e ∨ Even n) := by
  have hpos : (0 : ℝ) < 2 ^ e := by positivity
  rcases le_or_gt e e' with he | he
  · obtain ⟨k, hk⟩ := exists_eq_multiple m' he
    obtain ⟨hle, htie⟩ := hn.nearest_multiple hpos k
    rw [hk]
    exact ⟨hle, fun h => (htie h).imp (fun hkn => by rw [hkn]) id⟩
  · have hbinade : 2 ^ 52 * 2 ^ e ≤ |x| := hulp.above.resolve_right (by omega)
    obtain ⟨k, hk⟩ := exists_binade_end hbinade
    have hless : |x - n * 2 ^ e| < |x - m' * 2 ^ e'| :=
      calc |x - n * 2 ^ e| ≤ |x| - 2 ^ 52 * 2 ^ e := hk ▸ (hn.nearest_multiple hpos k).1
        _ < |x| - |(m' * 2 ^ e' : ℝ)| := sub_lt_sub_left (abs_lt_binade hm' he) _
        _ ≤ |x - m' * 2 ^ e'| := abs_sub_abs_le_abs_sub _ _
    exact ⟨hless.le, fun h => absurd h hless.ne⟩

/-! ### The result is a binary64 number -/

/-- Significand and exponent of a binary64 number, in the one form the format has for it. -/
def IsBinary64 (m e : Int) : Prop := |m| < 2 ^ 53 ∧ -1074 ≤ e ∧ e ≤ 971 ∧ (2 ^ 52 ≤ |m| ∨ e = -1074)

theorem IsUlp.le_of_lt {a : ℝ} {e : Int} (h : IsUlp a e) (ha : a < 2 ^ 1024 - 2 ^ 970) : e ≤ 971 := by
  rcases h.above with h | rfl
  · have hlt : (2 : ℝ) ^ (52 + e) < 2 ^ (1024 : Int) :=
      calc (2 : ℝ) ^ (52 + e) = 2 ^ 52 * 2 ^ e := (two_pow_mul_zpow 52 e).symm
        _ < 2 ^ 1024 := (h.trans_lt ha).trans (sub_lt_self _ (by positivity))
        _ = 2 ^ (1024 : Int) := (zpow_natCast 2 1024).symm
    have := (zpow_lt_zpow_iff_right₀ one_lt_two).mp hlt
    omega
  · omega

/-- The significand that rounding gives: 53 bits, or the power of two above them. -/
theorem RoundsHalfEven.abs_le {y : ℝ} {n : Int} (h : RoundsHalfEven y n) (hy : |y| < 2 ^ 53) : |n| ≤ 2 ^ 53 := by
  have hlt : |(n : ℝ)| < 2 ^ 53 + 1 := by linarith [abs_sub_abs_le_abs_sub (n : ℝ) y, abs_sub_comm (n : ℝ) y, h.1]
  exact Int.lt_add_one_iff.mp (by exact_mod_cast hlt)

theorem RoundsHalfEven.le_abs {y : ℝ} {n : Int} (h : RoundsHalfEven y n) (hy : 2 ^ 52 ≤ |y|) : 2 ^ 52 ≤ |n| := by
  have hlt : (2 ^ 52 : ℝ) < |(n : ℝ)| + 1 := by linarith [abs_sub_abs_le_abs_sub y n, h.1]
  exact Int.lt_add_one_iff.mp (by exact_mod_cast hlt)

/-- The overflow threshold is half a unit below `2^1024`. -/
theorem overflow_threshold_eq : (2 ^ 1024 - 2 ^ 970 : ℝ) = (2 ^ 53 - 1 / 2) * 2 ^ (971 : Int) := by
  have htop : (2 : ℝ) ^ 1024 = 2 ^ 53 * 2 ^ 971 := pow_add 2 53 971
  have hunit : (2 : ℝ) ^ 971 = 2 * 2 ^ 970 := pow_succ' 2 970
  rw [zpow_ofNat, sub_mul, ← htop, hunit, one_div, inv_mul_cancel_left₀ two_ne_zero]

/-- Below the overflow threshold the rounded value is a finite binary64 number: when the significand reaches `2^53`, it is halved and
stays even. -/
theorem RoundsHalfEven.exists_isBinary64 {x : ℝ} {n e : Int} (hulp : IsUlp |x| e) (hn : RoundsHalfEven (x / 2 ^ e) n)
    (hx : |x| < 2 ^ 1024 - 2 ^ 970) : ∃ m f : Int, (n * 2 ^ e : ℝ) = m * 2 ^ f ∧ IsBinary64 m f ∧ (Even n → Even m) := by
  have hpos : (0 : ℝ) < 2 ^ e := by positivity
  have habs : |x / 2 ^ e| = |x| / 2 ^ e := by rw [abs_div, abs_of_pos hpos]
  have hle : |n| ≤ 2 ^ 53 := hn.abs_le (by rw [habs, div_lt_iff₀ hpos]; exact hulp.below)
  have he := hulp.le_of_lt hx
  rcases hle.lt_or_eq with hlt | htop
  · refine ⟨n, e, rfl, ⟨hlt, hulp.least, he, ?_⟩, id⟩
    exact hulp.above.imp_left fun h => hn.le_abs (by rwa [habs, le_div_iff₀ hpos])
  · have hroom : e ≠ 971 := by
      rintro rfl
      have hhalf : (2 ^ 53 - 1 / 2 : ℝ) ≤ |x| / 2 ^ (971 : Int) := by
        have htop' : |(n : ℝ)| = 2 ^ 53 := by exact_mod_cast htop
        linarith [abs_sub_abs_le_abs_sub (n : ℝ) (x / 2 ^ (971 : Int)), abs_sub_comm (n : ℝ) (x / 2 ^ (971 : Int)), hn.1]
      rw [le_div_iff₀ hpos] at hhalf
      exact absurd hx (not_lt.mpr (overflow_threshold_eq.trans_le hhalf))
    obtain ⟨m, hm, hm52⟩ : ∃ m : Int, n = 2 * m ∧ |m| = 2 ^ 52 := by
      rcases eq_or_eq_neg_of_abs_eq htop with h | h
      · exact ⟨2 ^ 52, by omega, by norm_num⟩
      · exact ⟨-2 ^ 52, by omega, by norm_num⟩
    refine ⟨m, e + 1, ?_, ⟨by omega, by linarith [hulp.least], by omega, .inl hm52.ge⟩, fun _ => ?_⟩
    · rw [hm, zpow_add_one₀ two_ne_zero]; push_cast; ring
    · rcases eq_or_eq_neg_of_abs_eq hm52 with rfl | rfl <;> decide

theorem IsBinary64.abs_lt {m e : Int} (h : IsBinary64 m e) : |(m * 2 ^ e : ℝ)| < 2 ^ (1024 : Int) := by
  obtain ⟨hm, -, he, -⟩ := h
  exact (abs_lt_binade hm (show e < 972 by omega)).trans_eq (two_pow_mul_zpow 52 972)

/-- Within the range of the format `round64` does not overflow. -/
theorem round64_eq {x : ExactNum} {m e : Int} (heq : (nearestDyadic x : ℝ) = m * 2 ^ e) (h : IsBinary64 m e) :
    round64 x = nearestDyadic x := by
  have hlt : |(nearestDyadic x : ℝ)| < (twoPow 1024 : Rat) := by rw [heq, cast_twoPow]; exact h.abs_lt
  rw [round64, if_pos (by exact_mod_cast hlt)]

/-! ### The basis matrix -/

/-- The symmetries of the cosine keep a distance between two lists of its first values. -/
theorem abs_cosFold_sub_le {f g : Nat → ExactNum} {q ε : ℝ} (h : ∀ k, |(f k).real - q * (g k).real| ≤ ε) (k : Nat) :
    |(cosFold f k).real - q * (cosFold g k).real| ≤ ε := by
  have hneg (k : Nat) : |(f k).neg.real - q * (g k).neg.real| ≤ ε := by
    rw [ExactNum.real_neg, ExactNum.real_neg, mul_neg, neg_sub_neg, abs_sub_comm]
    exact h k
  unfold cosFold
  split_ifs
  · exact h _
  · exact hneg _
  · exact hneg _
  · exact h _

/-- A distance between two numbers of the model, by the model's own comparison. -/
theorem abs_real_sub_le {x y : ExactNum} {ε : Rat} (h : (x.sub y).le (.ofRat ε) = true ∧ (y.sub x).le (.ofRat ε) = true) :
    |x.real - y.real| ≤ ε := by
  simp only [ExactNum.le_iff, ExactNum.real_sub, ExactNum.real_ofRat] at h
  exact abs_sub_le_iff.mpr h

/-- From 8 on both lists are 0; before, the eight constants are compared in the model's own exact arithmetic. -/
theorem abs_halfCos64First_sub_le (k : Nat) : |(halfCos64First k).real - (1 / 4 : Rat) * (twoCosFirst k).real| ≤ (1 / 2 ^ 54 : Rat) := by
  rcases Nat.lt_or_ge k 8 with hk | hk
  · rw [← ExactNum.real_smul]
    exact abs_real_sub_le (by revert k; decide +kernel)
  · obtain ⟨n, rfl⟩ := Nat.exists_eq_add_of_le' hk
    simp [halfCos64First, twoCosFirst]

theorem abs_invSqrt8_sub_le : |invSqrt8.real - ((twoCos 4).smul (1 / 4)).real| ≤ (1 / 2 ^ 54 : Rat) :=
  abs_real_sub_le (by decide +kernel)

theorem basis_binary64 (i j : Nat) :
    Numeric.binary64.basis i j = if i = 0 then invSqrt8 else cosFold halfCos64First (i * (2 * j + 1)) := rfl

theorem abs_basis_binary64_sub_le (i j : Nat) : |(Numeric.binary64.basis i j).real - (dctBasis i j).real| ≤ (1 / 2 ^ 54 : Rat) := by
  rw [basis_binary64, dctBasis]
  split_ifs
  · exact abs_invSqrt8_sub_le
  · rw [ExactNum.real_smul]
    exact abs_cosFold_sub_le abs_halfCos64First_sub_le _

/-- Settles O37: the result is x rounded to a multiple of its own unit, which no binary64 number beats, and it is one itself below the
overflow threshold; the basis is compared constant by constant. -/
theorem binary64RoundsToNearest : Obligations.Binary64RoundsToNearest := by
  refine ⟨fun x hx => ?_, fun i j => ?_⟩
  · obtain ⟨n, e, heq, hulp, hn⟩ := exists_nearestDyadic_eq x
    obtain ⟨m, f, hmf, hformat, heven⟩ := hn.exists_isBinary64 hulp hx
    have ⟨hm, hfmin, hfmax, hnormal⟩ := hformat
    refine ⟨m, f, ?_, hm, hfmin, hfmax, hnormal, fun m' e' hm' he' _ => ?_⟩
    · rw [Numeric.fit_binary64, ExactNum.real_ofRat, round64_eq (heq.trans hmf) hformat, heq, hmf]
    · obtain ⟨hle, htie⟩ := hn.nearest_dyadic hulp hm' he'
      rw [← hmf]
      exact ⟨hle, fun h => (htie h).imp_right heven⟩
  · exact (abs_basis_binary64_sub_le i j).trans_eq (by norm_num)

end Sys2Proof.Machine
end

section
/-! What a command may write (10_state.md R22, 30_encoding.md R94): the parts of the state, the relation "only these parts changed, and the
memories stay sound", and the law of each operation on the state that a command is made of. -/

namespace Sys2Proof.Machine

/-! ### The parts of the state and the relation -/

/-- The parts of the state that some commands write and others do not; `fixed` is what no command writes. -/
inductive Part where
  | fixed | res | res2 | sides | window | blkf | blki | seq | tables | rgb | ycc | inp | out

/-- The part x is the same in s and t. -/
def Part.Same (x : Part) (s t : State) : Prop :=
  match x with
  | .fixed =>
    t.cfg = s.cfg ∧ t.host = s.host ∧ t.a = s.a ∧ t.n = s.n ∧ t.minMatchLen = s.minMatchLen ∧ t.sel = s.sel ∧ t.mode = s.mode
  | .res => t.res = s.res
  | .res2 => t.res2 = s.res2
  | .sides => t.quality = s.quality ∧ t.height = s.height ∧ t.width = s.width
  | .window => t.windowBits = s.windowBits ∧ t.maxMatchBits = s.maxMatchBits
  | .blkf => t.blk.blkf = s.blk.blkf
  | .blki => t.blk.blki = s.blk.blki
  | .seq => t.blk.seq = s.blk.seq
  | .tables => t.qtLuma = s.qtLuma ∧ t.qtChroma = s.qtChroma ∧ t.qvalid = s.qvalid
  | .rgb => t.rgb = s.rgb
  | .ycc => t.ycc = s.ycc
  | .inp => t.io.inp = s.io.inp
  | .out => t.io.out.bytes = s.io.out.bytes

theorem Part.Same.refl (x : Part) (s : State) : x.Same s s := by cases x <;> simp [Part.Same]

theorem Part.Same.trans {x : Part} {s t u : State} (h : x.Same s t) (h' : x.Same t u) : x.Same s u := by
  cases x <;> simp_all [Part.Same]

/-- From s to t nothing changed but the parts W, `PHASE`, the engine, the coder, the channel and the outcome; the tables and
the planes stay sound. -/
structure State.Changes (W : List Part) (s t : State) : Prop where
  same : ∀ x, x ∉ W → x.Same s t
  tables : s.TablesSound → t.TablesSound
  planes : s.PlanesSound → t.PlanesSound

variable {W W' : List Part}

theorem State.Changes.refl (s : State) : State.Changes W s s := ⟨fun x _ => .refl x s, id, id⟩

theorem State.Changes.trans {s t u : State} (h : State.Changes W s t) (h' : State.Changes W t u) : State.Changes W s u :=
  ⟨fun x hx => (h.same x hx).trans (h'.same x hx), h'.tables ∘ h.tables, h'.planes ∘ h.planes⟩

theorem State.Changes.mono (hW : W ⊆ W') {s t : State} (h : State.Changes W s t) : State.Changes W' s t :=
  ⟨fun x hx => h.same x fun hm => hx (hW hm), h.tables, h.planes⟩

/-- Nothing of the parts changed. -/
theorem State.Changes.of_same {s t : State} (h : ∀ x : Part, x.Same s t) : State.Changes W s t where
  same x _ := h x
  tables hs hq := by
    obtain ⟨hl, hc, hv⟩ : Part.tables.Same s t := h .tables
    rw [hl, hc]
    exact hs (hv ▸ hq)
  planes hs := by
    have hr : t.rgb = s.rgb := h .rgb
    have hy : t.ycc = s.ycc := h .ycc
    exact ⟨hr ▸ hs.1, hy ▸ hs.2⟩

/-- Only registers, block buffers or streams changed. -/
theorem State.Changes.of_memories {s t : State} (h : ∀ x, x ∉ W → x.Same s t) (hl : t.qtLuma = s.qtLuma)
    (hc : t.qtChroma = s.qtChroma) (hv : t.qvalid = s.qvalid) (hr : t.rgb = s.rgb) (hy : t.ycc = s.ycc) : State.Changes W s t where
  same := h
  tables hs hq := by rw [hl, hc]; exact hs (hv ▸ hq)
  planes hs := ⟨hr ▸ hs.1, hy ▸ hs.2⟩

/-! ### The frame of a command -/

theorem State.changes_start (p : Phase) (s : State) : State.Changes W s (s.start p) :=
  .of_same fun x => by cases x <;> simp [Part.Same]

theorem State.changes_dropChannel (s : State) : State.Changes W s s.dropChannel :=
  .of_same fun x => by cases x <;> simp [Part.Same]

theorem State.changes_completed (s : State) : State.Changes W s s.completed :=
  .of_same fun x => by cases x <;> simp [Part.Same]

theorem State.changes_raised (r : Raise) (s : State) : State.Changes W s (s.raised r) :=
  .of_same fun x => by cases x <;> simp [Part.Same]

@[simp] theorem OutStream.ended_bytes (e : Bool) (o : OutStream) : (o.ended e).bytes = o.bytes := by
  unfold OutStream.ended; split <;> rfl

theorem State.changes_released (s : State) : State.Changes W s s.released :=
  .of_same fun x => by cases x <;> simp [Part.Same]

/-! ### Registers, tables and planes -/

theorem State.changes_res (h : .res ∈ W) (v : Reg Int) (s : State) : State.Changes W s { s with res := v } :=
  .of_memories (fun x hx => by cases x <;> simp_all [Part.Same]) rfl rfl rfl rfl rfl

theorem State.changes_res2 (h : .res2 ∈ W) (v : Reg Nat) (s : State) : State.Changes W s { s with res2 := v } :=
  .of_memories (fun x hx => by cases x <;> simp_all [Part.Same]) rfl rfl rfl rfl rfl

theorem State.changes_window (h : .window ∈ W) (v v' : Reg Nat) (s : State) :
    State.Changes W s { s with windowBits := v, maxMatchBits := v' } :=
  .of_memories (fun x hx => by cases x <;> simp_all [Part.Same]) rfl rfl rfl rfl rfl

theorem State.changes_sides (h : .sides ∈ W) (a b c : Reg Nat) (s : State) :
    State.Changes W s { s with height := a, width := b, quality := c } :=
  .of_memories (fun x hx => by cases x <;> simp_all [Part.Same]) rfl rfl rfl rfl rfl

/-- The entries that Q.SETQ computes are at least 1 (44_dct_quant_zigzag.md R225). -/
theorem State.setTables_sound (s : State) : s.setTables.TablesSound := fun _ k => by
  simp [qualityEntry]

theorem State.changes_setTables (h : .tables ∈ W) (s : State) : State.Changes W s s.setTables where
  same x hx := by cases x <;> simp_all [Part.Same]
  tables _ := s.setTables_sound
  planes := id

/-- A walk over the pixels keeps what each pixel keeps. -/
theorem forPixels_induction {α : Type} {f : Nat → Nat → α → α} {P : α → Prop} (hf : ∀ y x a, P a → P (f y x a)) (w n i : Nat)
    (a : α) (h : P a) : P (forPixels f w n i a) := by
  induction n generalizing i a with
  | zero => exact h
  | succ n ih => exact ih _ _ (hf _ _ _ h)

theorem State.changes_ctFwd (h : .ycc ∈ W) (s : State) : State.Changes W s s.ctFwd where
  same x hx := by cases x <;> simp_all [Part.Same]
  tables := id
  planes hs := ⟨hs.1, forPixels_induction (P := (Sparse.wf · = true))
    (fun _ _ _ hm => Sparse.write_wf _ _ _ (Sparse.write_wf _ _ _ (Sparse.write_wf _ _ _ hm))) _ _ _ _ hs.2⟩

theorem State.changes_ctInv (h : .rgb ∈ W) (s : State) : State.Changes W s s.ctInv where
  same x hx := by cases x <;> simp_all [Part.Same]
  tables := id
  planes hs := ⟨forPixels_induction (P := (Sparse.wf · = true))
    (fun _ _ _ hm => Sparse.write_wf _ _ _ (Sparse.write_wf _ _ _ (Sparse.write_wf _ _ _ hm))) _ _ _ _ hs.1, hs.2⟩

theorem storeSample_wf (h w : Nat) (p : Fin 3) (ty tx : Nat) (f : Vector (Reg ExactNum) 64) (m : Sparse ExactNum) (k : Fin 64)
    (hm : m.wf = true) : (storeSample h w p ty tx f m k).wf = true := by
  unfold storeSample
  split
  · exact Sparse.write_wf _ _ _ hm
  · exact hm

theorem State.changes_storeTile (h : .ycc ∈ W) (p : Fin 3) (ty tx : Nat) (s : State) : State.Changes W s (s.storeTile p ty tx) where
  same x hx := by cases x <;> simp_all [Part.Same, State.storeTile]
  tables := id
  planes hs := ⟨hs.1, List.foldlRecOn (motive := (Sparse.wf · = true)) _ _ hs.2 fun _ hm _ _ => storeSample_wf _ _ _ _ _ _ _ _ hm⟩

/-! ### The streams and the block buffers -/

/-- From io to io' only the streams in W changed: the bytes of `IN`, the bytes on `OUT`. -/
structure Io.Changes (W : List Part) (io io' : Io) : Prop where
  inp : .inp ∉ W → io'.inp = io.inp
  out : .out ∉ W → io'.out.bytes = io.out.bytes

theorem Io.Changes.refl (io : Io) : Io.Changes W io io := ⟨fun _ => rfl, fun _ => rfl⟩

theorem Io.Changes.trans {i j k : Io} (h : Io.Changes W i j) (h' : Io.Changes W j k) : Io.Changes W i k :=
  ⟨fun hx => (h'.inp hx).trans (h.inp hx), fun hx => (h'.out hx).trans (h.out hx)⟩

theorem Io.Changes.of_inp (h : .inp ∈ W) {i j : Io} (ho : j.out = i.out) : Io.Changes W i j :=
  ⟨fun hx => absurd h hx, fun _ => by rw [ho]⟩

theorem Io.Changes.of_out (h : .out ∈ W) {i j : Io} (hi : j.inp = i.inp) : Io.Changes W i j := ⟨fun _ => hi, fun hx => absurd h hx⟩

theorem State.changes_io {s : State} {io : Io} (h : Io.Changes W s.io io) : State.Changes W s { s with io := io } where
  same x hx := by
    cases x
    case inp => exact h.inp hx
    case out => exact h.out hx
    all_goals simp [Part.Same]
  tables := id
  planes := id

/-- From b to b' only the block buffers in W changed; the coder is not asked about. -/
structure BlockUnit.Changes (W : List Part) (b b' : BlockUnit) : Prop where
  blkf : .blkf ∉ W → b'.blkf = b.blkf
  blki : .blki ∉ W → b'.blki = b.blki
  seq : .seq ∉ W → b'.seq = b.seq

theorem BlockUnit.Changes.refl (b : BlockUnit) : BlockUnit.Changes W b b := ⟨fun _ => rfl, fun _ => rfl, fun _ => rfl⟩

theorem BlockUnit.Changes.trans {b c d : BlockUnit} (h : BlockUnit.Changes W b c) (h' : BlockUnit.Changes W c d) :
    BlockUnit.Changes W b d :=
  ⟨fun hx => (h'.blkf hx).trans (h.blkf hx), fun hx => (h'.blki hx).trans (h.blki hx), fun hx => (h'.seq hx).trans (h.seq hx)⟩

theorem BlockUnit.changes_coder (c : Coder) (b : BlockUnit) : BlockUnit.Changes W b { b with coder := c } :=
  ⟨fun _ => rfl, fun _ => rfl, fun _ => rfl⟩

theorem BlockUnit.changes_blkf (h : .blkf ∈ W) (v : Vector (Reg ExactNum) 64) (b : BlockUnit) :
    BlockUnit.Changes W b { b with blkf := v } :=
  ⟨fun hx => absurd h hx, fun _ => rfl, fun _ => rfl⟩

theorem BlockUnit.changes_blki (h : .blki ∈ W) (v : Vector (Reg Int) 64) (b : BlockUnit) :
    BlockUnit.Changes W b { b with blki := v } :=
  ⟨fun _ => rfl, fun hx => absurd h hx, fun _ => rfl⟩

theorem BlockUnit.changes_seq (h : .seq ∈ W) (v : Vector (Reg Int) 64) (b : BlockUnit) : BlockUnit.Changes W b { b with seq := v } :=
  ⟨fun _ => rfl, fun _ => rfl, fun hx => absurd h hx⟩

theorem BlockUnit.changes_dctFwd (h : .blkf ∈ W) (m : Numeric) (b : BlockUnit) : BlockUnit.Changes W b (b.dctFwd m) :=
  BlockUnit.changes_blkf h _ b

theorem BlockUnit.changes_dctInv (h : .blkf ∈ W) (m : Numeric) (b : BlockUnit) : BlockUnit.Changes W b (b.dctInv m) :=
  BlockUnit.changes_blkf h _ b

theorem BlockUnit.changes_dequant (h : .blkf ∈ W) (qt : Vector Nat 64) (b : BlockUnit) : BlockUnit.Changes W b (b.dequant qt) :=
  BlockUnit.changes_blkf h _ b

theorem BlockUnit.changes_quant (h : .blki ∈ W) (m : Numeric) (mode : RoundMode) (qt : Vector Nat 64) (b : BlockUnit) :
    BlockUnit.Changes W b (b.quant m mode qt) := BlockUnit.changes_blki h _ b

theorem BlockUnit.changes_zzInv (h : .blki ∈ W) (zigzag : Vector (Fin 64) 64) (b : BlockUnit) :
    BlockUnit.Changes W b (b.zzInv zigzag) := BlockUnit.changes_blki h _ b

theorem BlockUnit.changes_zzFwd (h : .seq ∈ W) (zigzag : Vector (Fin 64) 64) (b : BlockUnit) :
    BlockUnit.Changes W b (b.zzFwd zigzag) := BlockUnit.changes_seq h _ b

theorem State.changes_blk {s : State} {b : BlockUnit} (h : BlockUnit.Changes W s.blk b) : State.Changes W s { s with blk := b } where
  same x hx := by
    cases x
    case blkf => exact h.blkf hx
    case blki => exact h.blki hx
    case seq => exact h.seq hx
    all_goals simp [Part.Same]
  tables := id
  planes := id

theorem State.changes_openReaderFree (s : State) : State.Changes W s (openReaderFree s) :=
  .of_same fun x => by cases x <;> simp [Part.Same]

theorem State.changes_flushBits (h : .out ∈ W) (s : State) : State.Changes W s (flushBits s) :=
  State.changes_io (.of_out h rfl)

theorem State.changes_takeLine (h : .inp ∈ W) (s : State) : State.Changes W s (takeLine s) :=
  State.changes_io (.of_inp h rfl)

/-- After an exception of RLE.DEC only `SEQ` is another, and the count of free values. -/
theorem State.forgetSeq_eq (s : State) :
    s.forgetSeq = { s with blk := { s.blk with seq := s.forgetSeq.blk.seq }, freeCtr := s.forgetSeq.freeCtr } := rfl

theorem State.changes_forgetSeq (h : .seq ∈ W) (s : State) : State.Changes W s s.forgetSeq := by
  rw [State.forgetSeq_eq]
  generalize s.forgetSeq.blk.seq = v
  generalize s.forgetSeq.freeCtr = n
  exact .of_memories (fun x hx => by cases x <;> simp_all [Part.Same]) rfl rfl rfl rfl rfl

end Sys2Proof.Machine
end

section
/-! What the pieces of a command's pseudocode write: the streams, the coder and the block buffers, then the loops of each unit. -/

namespace Sys2Proof.Machine

variable {W W' : List Part} {α β : Type}

/-! ### What a piece writes -/

/-- Whatever it does, the piece changes only the parts W. -/
def Run.Changes (W : List Part) (m : Run State α) : Prop := m.Does (State.Changes W) fun _ => True

theorem Run.Changes.bind {m : Run State α} {f : α → Run State β} (hm : m.Changes W) (hf : ∀ a, (f a).Changes W) :
    (m >>= f).Changes W := Run.Does.bind (R := State.Changes W) (fun _ _ _ => State.Changes.trans) hm hf

theorem Run.changes_pure (a : α) : (pure a : Run State α).Changes W := Run.Does.done State.Changes.refl a

theorem Run.changes_raise (e : Exc) (i : Int) : (raise e i : Run State α).Changes W :=
  Run.Does.stop State.Changes.refl trivial i

theorem Run.changes_raiseBare (e : Exc) : (raiseBare e : Run State α).Changes W :=
  Run.Does.stopBare State.Changes.refl trivial

theorem Run.changes_modify {f : State → State} (h : ∀ s, State.Changes W s (f s)) : (modify f : Run State Unit).Changes W :=
  Run.Does.update h

theorem Run.changes_always {f : State → State} (h : ∀ s, State.Changes W s (f s)) : (always f).Changes W := h

theorem Run.changes_get : (get : Run State State).Changes W := State.Changes.refl

theorem State.changes_phase (s : State) (p : Phase) : State.Changes W s { s with phase := p } :=
  .of_same fun x => by cases x <;> simp [Part.Same]

theorem State.changes_eng (s : State) (e : Engine) : State.Changes W s { s with eng := e } :=
  .of_same fun x => by cases x <;> simp [Part.Same]

theorem Run.changes_setPhase (p : Phase) : (setPhase p).Changes W := Run.Does.phase State.changes_phase p

theorem Run.changes_setEngine (e : Engine) : (setEngine e).Changes W := Run.Does.engine State.changes_eng e

/-- What a run that went on leaves. -/
theorem Run.Changes.of_ok {m : Run State α} (hm : m.Changes W) {s t : State} {a : α} (h : m s = .ok a t) : State.Changes W s t := by
  simpa only [h] using hm s

/-- What a run that raised leaves. -/
theorem Run.Changes.of_error {m : Run State α} (hm : m.Changes W) {s t : State} {r : Raise} (h : m s = .error r t) :
    State.Changes W s t := by
  have := hm s
  simp only [h] at this
  exact this.1

/-! ### The streams -/

/-- The same for a piece over the streams. -/
def Run.IoChanges (W : List Part) (m : Run Io α) : Prop := m.Does (Io.Changes W) fun _ => True

theorem Run.IoChanges.bind {m : Run Io α} {f : α → Run Io β} (hm : m.IoChanges W) (hf : ∀ a, (f a).IoChanges W) :
    (m >>= f).IoChanges W := Run.Does.bind (R := Io.Changes W) (fun _ _ _ => Io.Changes.trans) hm hf

theorem Run.IoChanges.onIo {m : Run Io α} (hm : m.IoChanges W) : (onIo m).Changes W := Run.Does.on hm fun _ _ => State.changes_io

theorem inByte_out (io : Io) : (inByte io).2.out = io.out := by unfold inByte; split <;> rfl

theorem rdBit_out (io : Io) : (rdBit io).2.out = io.out := by
  unfold rdBit inByte
  cases io.inp.rest <;> split_ifs <;> rfl

theorem rdLoop_out (n v : Nat) (io : Io) : (rdLoop n v io).2.out = io.out := by
  induction n generalizing v io with
  | zero => rfl
  | succ n ih =>
    have hb := rdBit_out io
    rw [rdLoop]
    split
    · next io' h => simpa [h] using hb
    · next b io' h => rw [ih]; simpa [h] using hb

theorem rdBits_out (n : Nat) (io : Io) : (rdBits n io).2.out = io.out := by
  unfold rdBits
  split
  · rfl
  · exact rdLoop_out n 0 io

theorem wrBit_inp (io : Io) (b : Bool) : (wrBit io b).inp = io.inp := by unfold wrBit; split_ifs <;> rfl

theorem wrBits_inp (s : Bits) (io : Io) : (wrBits s io).inp = io.inp :=
  List.foldlRecOn (motive := fun j => j.inp = io.inp) s wrBit rfl fun j h b _ => (wrBit_inp j b).trans h

theorem closeChannel_inp (e : Bool) (io : Io) : (closeChannel e io).inp = io.inp := by unfold closeChannel; split_ifs <;> rfl

theorem readLine_out {io io' : Io} {line : List Byte} (h : readLine io = .ok line io') : io'.out = io.out := by
  unfold readLine at h
  split at h <;> cases h <;> rfl

/-- `ReadLine()` always answers a line. -/
theorem readLine_ok (io : Io) : ∃ line io', readLine io = .ok line io' := by
  unfold readLine
  split <;> exact ⟨_, _, rfl⟩

section
variable (h : .inp ∈ W)
include h

theorem Run.changes_getByte : getByte.IoChanges W := fun io => .of_inp h (inByte_out io)

theorem Run.changes_readBits (n : Nat) : (readBits n).IoChanges W := fun io => .of_inp h (rdBits_out n io)

theorem Run.changes_readLine : readLine.IoChanges W := fun io => by
  obtain ⟨line, io', hl⟩ := readLine_ok io
  rw [hl]
  exact .of_inp h (readLine_out hl)

/-- The encoders' loop writes what one symbol writes, and takes bytes from `IN`. -/
theorem Run.changes_forInput {ε : Type} (engine : ε → Engine) {f : Byte → ε → Run State ε} (hf : ∀ c e, (f c e).Changes W)
    (cs : List Byte) (e : ε) : (forInput engine f cs e).Changes W :=
  Run.Does.forInput State.Changes.refl (fun _ _ _ => State.Changes.trans) State.changes_phase State.changes_eng
    (fun s => State.changes_io (.of_inp h (inByte_out s.io))) hf cs e

theorem Run.changes_lzssReadHeader : lzssReadHeader.IoChanges W :=
  .bind (changes_getByte h) fun h0 => .bind (changes_getByte h) fun h1 => by
    cases h0 <;> cases h1
    case some.some => exact Run.Does.done Io.Changes.refl _
    all_goals exact Run.Does.stopBare Io.Changes.refl trivial

end

section
variable (h : .out ∈ W)
include h

theorem Run.changes_writeBits (s : Bits) : (writeBits s).IoChanges W := fun io => .of_out h (wrBits_inp s io)

theorem Run.changes_writeVal (v : Int) (n : Nat) : (writeVal v n).IoChanges W := fun io => .of_out h (wrBits_inp _ io)

theorem Run.changes_emitBytes (bs : List Byte) : (emitBytes bs).IoChanges W := fun _ => .of_out h rfl

theorem Run.changes_openOut : (modify openOut : Run Io Unit).IoChanges W := fun _ => .of_out h rfl

theorem Run.changes_openWriter : (modify openWriter : Run Io Unit).IoChanges W := fun _ => .of_out h rfl

theorem Run.changes_closeChannel (e : Bool) : (modify (closeChannel e) : Run Io Unit).IoChanges W :=
  fun io => .of_out h (closeChannel_inp e io)

end

/-! ### The coder and the block buffers -/

/-- The same for a piece over the block unit. -/
def Run.BlkChanges (W : List Part) (m : Run BlockUnit α) : Prop := m.Does (BlockUnit.Changes W) fun _ => True

theorem Run.BlkChanges.bind {m : Run BlockUnit α} {f : α → Run BlockUnit β} (hm : m.BlkChanges W) (hf : ∀ a, (f a).BlkChanges W) :
    (m >>= f).BlkChanges W := Run.Does.bind (R := BlockUnit.Changes W) (fun _ _ _ => BlockUnit.Changes.trans) hm hf

theorem Run.BlkChanges.pure (a : α) : (Pure.pure a : Run BlockUnit α).BlkChanges W := Run.Does.done BlockUnit.Changes.refl a

theorem Run.BlkChanges.raise (e : Exc) (i : Int) : (Machine.raise e i : Run BlockUnit α).BlkChanges W :=
  Run.Does.stop BlockUnit.Changes.refl trivial i

theorem Run.BlkChanges.onBlk {m : Run BlockUnit α} (hm : m.BlkChanges W) : (onBlk m).Changes W :=
  Run.Does.on hm fun _ _ => State.changes_blk

/-- A piece over the coder alone writes none of the block buffers. -/
theorem Run.changes_onCoder (m : Run Coder α) : (onCoder m).BlkChanges W :=
  Run.Does.on (R := fun _ _ => True) (fun c => by cases m c <;> trivial) fun b c _ => BlockUnit.changes_coder c b

theorem Run.changes_encodeSeq (cfg : Config) (chroma : Bool) : (BlockUnit.encodeSeq cfg chroma).BlkChanges W :=
  fun b => changes_onCoder _ b

/-- A stand-alone coding command writes `OUT` besides. -/
theorem Run.changes_withSink (h : .out ∈ W) {m : Run BlockUnit α} (hm : m.BlkChanges W) : (withSink m).Changes W := by
  intro s
  have h0 : State.Changes W s { s with io := openOut s.io, blk := { s.blk with coder := .fresh } } :=
    .trans (t := { s with io := openOut s.io }) (State.changes_io (.of_out h rfl)) (State.changes_blk (BlockUnit.changes_coder _ s.blk))
  unfold withSink
  cases hr : onBlk m { s with io := openOut s.io, blk := { s.blk with coder := .fresh } } with
  | ok a t => exact h0.trans ((hm.onBlk.of_ok hr).trans (State.changes_flushBits h t))
  | error r t => exact ⟨h0.trans ((hm.onBlk.of_error hr).trans (State.changes_flushBits h t)), trivial⟩

/-- A stand-alone decoding command takes from `IN` besides. -/
theorem Run.changes_withSource (h : .inp ∈ W) {m : Run BlockUnit α} (hm : m.BlkChanges W) : (withSource m).Changes W := by
  intro s
  have h0 : State.Changes W s { s with blk := { s.blk with coder := { Coder.fresh with line := s.io.inp.rest } } } :=
    State.changes_blk (BlockUnit.changes_coder _ _)
  unfold withSource
  cases hr : onBlk m { s with blk := { s.blk with coder := { Coder.fresh with line := s.io.inp.rest } } } with
  | ok a t => exact h0.trans ((hm.onBlk.of_ok hr).trans (State.changes_takeLine h t))
  | error r t => exact ⟨h0.trans ((hm.onBlk.of_error hr).trans (State.changes_takeLine h t)), trivial⟩

section
variable (h : .seq ∈ W)
include h

theorem Run.changes_setSeq (i : Nat) (v : Int) : (setSeq i v).BlkChanges W := fun b => BlockUnit.changes_seq h _ b

theorem Run.changes_zeroSeq (i n : Nat) : (zeroSeq i n).BlkChanges W := by
  induction n generalizing i with
  | zero => exact .pure ()
  | succ n ih => exact .bind (changes_setSeq h i 0) fun _ => ih (i + 1)

theorem Run.changes_decodeAc (ac : Trie) (fuel i : Nat) : (decodeAc ac fuel i).BlkChanges W := by
  induction fuel generalizing i with
  | zero => exact .pure ()
  | succ fuel ih =>
    unfold decodeAc
    split
    · exact .pure ()
    · refine .bind (changes_onCoder _) fun rs => ?_
      split_ifs
      · exact changes_zeroSeq h _ _
      · exact .raise _ _
      · exact .bind (changes_zeroSeq h _ _) fun _ => ih _
      · exact .raise _ _
      · exact .raise _ _
      · exact .bind (changes_zeroSeq h _ _) fun _ => .bind (changes_onCoder _) fun _ => .bind (changes_setSeq h _ _) fun _ => ih _

theorem Run.changes_decodeBlock (cfg : Config) (chroma : Bool) : (decodeBlock cfg chroma).BlkChanges W :=
  .bind (changes_onCoder _) fun _ => .bind (changes_onCoder _) fun _ => .bind (changes_setSeq h _ _) fun _ => changes_decodeAc h _ _ _

theorem Run.changes_rleDecBody (hi : .inp ∈ W) (cfg : Config) (chroma : Bool) : (rleDecBody cfg chroma).Changes W := by
  intro s
  have hm := changes_withSource hi (changes_decodeBlock h cfg chroma)
  unfold rleDecBody
  cases hr : withSource (decodeBlock cfg chroma) s with
  | ok a t => exact hm.of_ok hr
  | error r t => exact ⟨(hm.of_error hr).trans (State.changes_forgetSeq h t), trivial⟩

end

/-! ### The dictionary and window engines -/

section
variable (ho : .out ∈ W)
include ho

theorem Run.changes_lz78Record (cfg : Config) (next code : Nat) (literal : Byte) : (lz78Record cfg next code literal).Changes W :=
  .bind (changes_writeVal ho _ _).onIo fun _ => .bind (changes_setPhase _) fun _ => (changes_writeVal ho _ _).onIo

theorem Run.changes_lz78EncByte (cfg : Config) (c : Byte) (e : Lz78Enc) : (lz78EncByte cfg c e).Changes W := by
  unfold lz78EncByte
  split
  · exact changes_pure _
  · split_ifs
    · exact .bind (changes_lz78Record ho _ _ _ _) fun _ => changes_pure _
    · exact changes_raise _ _

theorem Run.changes_lz78Flush (cfg : Config) (e : Lz78Enc) : (lz78Flush cfg e).Changes W := by
  unfold lz78Flush
  split_ifs
  · exact changes_pure _
  · split
    · exact changes_lz78Record ho _ _ _ _
    · exact changes_pure _

theorem Run.changes_lzwEncByte (cfg : Config) (c : Byte) (e : LzwEnc) : (lzwEncByte cfg c e).Changes W := by
  unfold lzwEncByte
  split
  · exact changes_pure _
  · split
    · exact changes_pure _
    · refine .bind (changes_writeVal ho _ _).onIo fun _ => ?_
      split_ifs
      · exact changes_pure _
      · exact changes_raise _ _

theorem Run.changes_lzwFlush (cfg : Config) (e : LzwEnc) : (lzwFlush cfg e).IoChanges W := by
  unfold lzwFlush
  split
  · exact changes_writeVal ho _ _
  · exact .bind (changes_writeVal ho _ _) fun _ => changes_writeVal ho _ _

theorem Run.changes_lzssHeader (p : LzssParams) : (lzssHeader p).IoChanges W :=
  .bind (changes_writeVal ho _ _) fun _ => changes_writeVal ho _ _

theorem Run.changes_lzssLiteral (p : LzssParams) (b : Byte) (win : List Byte) : (lzssLiteral p b win).Changes W :=
  .bind (changes_setPhase _) fun _ => .bind (changes_writeBits ho _).onIo fun _ => .bind (changes_writeVal ho _ _).onIo fun _ =>
    changes_pure _

theorem Run.changes_lzssMatch (p : LzssParams) (t : Nat) (s win : List Byte) : (lzssMatch p t s win).Changes W :=
  .bind (changes_writeBits ho _).onIo fun _ => .bind (changes_writeVal ho _ _).onIo fun _ =>
    .bind (changes_writeVal ho _ _).onIo fun _ => changes_pure _

theorem Run.changes_lzssFallback (p : LzssParams) (bs win : List Byte) : (lzssFallback p bs win).Changes W := by
  induction bs generalizing win with
  | nil => exact changes_pure _
  | cons b rest ih =>
    refine .bind (changes_lzssLiteral ho _ _ _) fun win' => ?_
    split
    · exact changes_pure _
    · split
      · exact changes_pure _
      · exact ih _

theorem Run.changes_lzssShort (p : LzssParams) (c : Byte) (e : LzssEnc) : (lzssShort p c e).Changes W := by
  unfold lzssShort
  split
  · exact changes_pure _
  · exact changes_lzssFallback ho _ _ _

theorem Run.changes_lzssProcess (p : LzssParams) (c : Byte) (e : LzssEnc) : (lzssProcess p c e).Changes W := by
  unfold lzssProcess
  split
  · exact changes_pure _
  · split_ifs
    · exact .bind (changes_lzssMatch ho _ _ _ _) fun _ => changes_lzssShort ho _ _ _
    · exact changes_lzssFallback ho _ _ _

theorem Run.changes_lzssLiterals (p : LzssParams) (bs win : List Byte) : (lzssLiterals p bs win).Changes W := by
  induction bs generalizing win with
  | nil => exact changes_pure _
  | cons b rest ih => exact .bind (changes_lzssLiteral ho _ _ _) fun _ => ih _

theorem Run.changes_lzssFlush (p : LzssParams) (e : LzssEnc) : (lzssFlush p e).Changes W := by
  unfold lzssFlush
  split_ifs
  · exact .bind (changes_lzssMatch ho _ _ _ _) fun _ => changes_pure _
  · exact .bind (changes_lzssLiterals ho _ _ _) fun _ => changes_pure _

variable (hi : .inp ∈ W)
include hi

theorem Run.changes_lz78DecLoop (cfg : Config) (fuel : Nat) (e : Lz78Dec) : (lz78DecLoop cfg fuel e).Changes W := by
  induction fuel generalizing e with
  | zero => exact changes_pure _
  | succ fuel ih =>
    refine .bind (changes_setEngine _) fun _ => .bind (changes_setPhase _) fun _ => .bind (changes_readBits hi _).onIo fun k => ?_
    cases k with
    | none => exact changes_pure _
    | some k =>
      refine .bind (changes_setPhase _) fun _ => .bind (changes_readBits hi _).onIo fun l => ?_
      cases l with
      | none =>
        dsimp only
        split
        · exact changes_pure _
        · exact changes_raise _ _
      | some l =>
        dsimp only
        split
        · exact changes_raise _ _
        · split
          · exact changes_raise _ _
          · refine .bind (changes_emitBytes ho _).onIo fun _ => ?_
            split
            · exact ih _
            · exact changes_raise _ _

theorem Run.changes_lzwDecLoop (cfg : Config) (fuel : Nat) (e : LzwDec) : (lzwDecLoop cfg fuel e).Changes W := by
  induction fuel generalizing e with
  | zero => exact changes_pure _
  | succ fuel ih =>
    refine .bind (changes_setEngine _) fun _ => .bind (changes_readBits hi _).onIo fun k => ?_
    cases k with
    | none => exact changes_raise _ _
    | some k =>
      dsimp only
      split
      · exact changes_pure _
      · split
        · split
          · exact changes_raise _ _
          · exact .bind (changes_emitBytes ho _).onIo fun _ => ih _
        · split
          · exact changes_raise _ _
          · split
            · exact .bind (changes_emitBytes ho _).onIo fun _ => ih _
            · exact changes_raise _ _

theorem Run.changes_lzssDecLoop (w m fuel : Nat) (win : List Byte) : (lzssDecLoop w m fuel win).Changes W := by
  induction fuel generalizing win with
  | zero => exact changes_pure _
  | succ fuel ih =>
    refine .bind (changes_setEngine _) fun _ => .bind (changes_setPhase _) fun _ => .bind (changes_readBits hi _).onIo fun flag => ?_
    cases flag with
    | none => exact changes_pure _
    | some flag =>
      cases flag with
      | zero =>
        refine .bind (changes_setPhase _) fun _ => .bind (changes_readBits hi _).onIo fun b => ?_
        cases b with
        | none => exact changes_pure _
        | some b => exact .bind (changes_emitBytes ho _).onIo fun _ => ih _
      | succ flag =>
        refine .bind (changes_readBits hi _).onIo fun t => .bind (changes_readBits hi _).onIo fun l => ?_
        split
        · split_ifs
          · exact changes_raise _ _
          · exact .bind (changes_emitBytes ho _).onIo fun _ => ih _
        · exact changes_raiseBare _

end

/-! ### The image pass -/

theorem Run.changes_forTiles {m : Nat → Nat → Run State Unit} (hm : ∀ y x, (m y x).Changes W) (across n i : Nat) :
    (forTiles m across n i).Changes W := by
  induction n generalizing i with
  | zero => exact changes_pure _
  | succ n ih => exact .bind (hm _ _) fun _ => ih _

theorem Run.changes_allTiles {m : Nat → Nat → Run State Unit} (hm : ∀ y x, (m y x).Changes W) : (allTiles m).Changes W :=
  .bind changes_get fun _ => changes_forTiles hm _ _ _

theorem Run.changes_forPlanes {m : Fin 3 → Run State Unit} (hm : ∀ p, (m p).Changes W) (ps : List (Fin 3)) :
    (forPlanes m ps).Changes W := by
  induction ps with
  | nil => exact changes_pure _
  | cons p ps ih => exact .bind (hm p) fun _ => ih

theorem Run.changes_setCoder (c : Coder) : (onBlk (onCoder (set c))).Changes W := (changes_onCoder _).onBlk

section
variable (hf : .blkf ∈ W) (hi : .blki ∈ W) (hs : .seq ∈ W)
include hf hi hs

/-- The block operations of one tile may write all three buffers. -/
theorem BlockUnit.changes_buffers {b b' : BlockUnit} : BlockUnit.Changes W b b' :=
  ⟨fun hx => absurd hf hx, fun hx => absurd hi hx, fun hx => absurd hs hx⟩

theorem Run.changes_encodeTile (p : Fin 3) (ty tx : Nat) : (encodeTile p ty tx).Changes W :=
  .bind (changes_modify fun s => State.changes_blk (BlockUnit.changes_blkf hf _ s.blk)) fun _ => .bind changes_get fun _ =>
    .bind (Run.BlkChanges.onBlk fun _ => BlockUnit.changes_buffers hf hi hs) fun _ => (changes_encodeSeq _ _).onBlk

theorem Run.changes_decodeTile (hy : .ycc ∈ W) (p : Fin 3) (ty tx : Nat) : (decodeTile p ty tx).Changes W :=
  .bind changes_get fun _ => .bind (changes_decodeBlock hs _ _).onBlk fun _ =>
    .bind (Run.BlkChanges.onBlk fun _ => BlockUnit.changes_buffers hf hi hs) fun _ =>
      changes_modify (State.changes_storeTile hy p ty tx)

theorem Run.changes_encodePlane (ho : .out ∈ W) (p : Fin 3) : (encodePlane p).Changes W :=
  .bind (changes_setPhase _) fun _ => .bind (changes_setCoder _) fun _ =>
    .bind (changes_allTiles (changes_encodeTile hf hi hs p)) fun _ => .bind (changes_setPhase _) fun _ =>
      .bind changes_get fun _ => (changes_emitBytes ho _).onIo

theorem Run.changes_decodePlane (hy : .ycc ∈ W) (hin : .inp ∈ W) (p : Fin 3) : (decodePlane p).Changes W := by
  refine .bind (changes_readLine hin).onIo fun _ => .bind (changes_setCoder _) fun _ =>
    .bind (changes_allTiles (changes_decodeTile hf hi hs hy p)) fun _ => .bind changes_get fun s => ?_
  split_ifs
  · exact changes_pure _
  · exact changes_raise _ _

end

end Sys2Proof.Machine
end

section
/-! What every command writes: `writtenBy` follows the table of commands (10_state.md R22, 30_encoding.md R94), and each command changes
only the parts it lists there. -/

namespace Sys2Proof.Machine

variable {W W' : List Part}

/-! ### From the work of a command to the command -/

theorem runChannel_changes {bad : State → List Nat} {body : Run State Unit} {s t : State} (hb : body.Changes W)
    (h : runChannel bad body s = .next t) : State.Changes W s t := by
  have hs := State.changes_start (W := W) .compute s
  rcases runChannel_cases bad body s t h with ⟨i, rest, -, rfl⟩ | ⟨-, u, hu, rfl⟩ | ⟨-, r, u, hu, rfl⟩
  · exact hs.trans (State.changes_raised _ _)
  · exact (hs.trans (hb.of_ok hu)).trans (State.changes_completed u)
  · exact (hs.trans (hb.of_error hu)).trans (State.changes_raised r u)

/-- The piece changes only W, or only W' where it goes on. -/
def Run.ChangesLast (W W' : List Part) (m : Run State Unit) : Prop :=
  ∀ s, match m s with
    | .ok _ t => State.Changes W' s t
    | .error _ t => State.Changes W s t

theorem Run.Changes.last {m : Run State Unit} (hm : m.Changes W) : m.ChangesLast W W := fun s => by
  cases h : m s with
  | ok a t => exact hm.of_ok h
  | error r t => exact hm.of_error h

theorem Run.changesLast_raise (e : Exc) (i : Int) : (raise e i : Run State Unit).ChangesLast W W' := State.Changes.refl

theorem Run.changesLast_modify {f : State → State} (h : ∀ s, State.Changes W' s (f s)) :
    (modify f : Run State Unit).ChangesLast W W' := h

theorem Run.ChangesLast.bind {α : Type} {m : Run State α} {f : α → Run State Unit} (hW : W ⊆ W') (hm : m.Changes W)
    (hf : ∀ a, (f a).ChangesLast W W') : (m >>= f).ChangesLast W W' := by
  intro s
  rw [Run.bind_apply]
  cases h : m s with
  | error r t => exact hm.of_error h
  | ok a t =>
    have ht := hm.of_ok h
    have hu := hf a t
    cases h' : f a t with
    | ok b u => simp only [h'] at hu ⊢; exact (ht.mono hW).trans hu
    | error r u => simp only [h'] at hu ⊢; exact ht.trans hu

/-- A command of another unit that ended in `ERROR` changed only W, and any changed only W'. -/
theorem runUnit_changesLast {p : Phase} {bad : State → List Nat} {body : Run State Unit} {s t : State} (hW : W ⊆ W')
    (hb : body.ChangesLast W W') (h : runUnit p bad body s = .next t) :
    (t.run = .error → State.Changes W s t) ∧ State.Changes W' s t := by
  have hs : State.Changes W s (s.start p).dropChannel := (State.changes_start p s).trans (State.changes_dropChannel _)
  have hu := hb (s.start p).dropChannel
  rcases runUnit_cases p bad body s t h with ⟨i, rest, -, rfl⟩ | ⟨-, u, hok, rfl⟩ | ⟨-, r, u, herr, rfl⟩
  · have he := (hs.trans (State.changes_released _)).trans (State.changes_raised ⟨.badOperand, some (i : Int)⟩ _)
    exact ⟨fun _ => he, he.mono hW⟩
  · simp only [hok] at hu
    exact ⟨fun he => by simp at he, (((hs.mono hW).trans hu).trans (State.changes_released u)).trans (State.changes_completed _)⟩
  · simp only [herr] at hu
    have he := ((hs.trans hu).trans (State.changes_released u)).trans (State.changes_raised r _)
    exact ⟨fun _ => he, he.mono hW⟩

theorem runUnit_changes {p : Phase} {bad : State → List Nat} {body : Run State Unit} {s t : State} (hb : body.Changes W)
    (h : runUnit p bad body s = .next t) : State.Changes W s t := (runUnit_changesLast (List.Subset.refl W) hb.last h).2

/-! ### The commands -/

/-- The parts that a command writes. -/
def writtenBy : Instr → List Part
  | .bcOpenw | .bcWrbits | .bcWrval | .bcClose | .rleEnc => [.out]
  | .bcOpenr => []
  | .bcRdbits | .hufDec | .entDec => [.inp, .res]
  | .lz78Enc | .lz78Dec | .lzwEnc | .lzwDec | .lzssEnc => [.inp, .out]
  | .lzssDec => [.inp, .out, .window]
  | .dctFwd | .dctInv | .qDequant => [.blkf]
  | .qSetq => [.tables]
  | .qQuant | .zzInv => [.blki]
  | .zzFwd => [.seq]
  | .hufEnc | .entEnc => [.out, .res, .res2]
  | .rleDec => [.inp, .seq]
  | .ctFwd => [.ycc]
  | .ctInv => [.rgb]
  | .imgEnc => [.out, .blkf, .blki, .seq, .tables, .ycc]
  | .imgDec => [.rgb, .inp, .sides, .blkf, .blki, .seq, .tables, .ycc]

theorem fixed_not_mem_writtenBy (i : Instr) : Part.fixed ∉ writtenBy i := by cases i <;> simp [writtenBy]

section
variable {s t : State}

theorem execBcOpenw_changes (h : execBcOpenw s = .next t) : State.Changes [.out] s t :=
  runChannel_changes (Run.changes_openWriter (by simp)).onIo h

theorem execBcOpenr_changes (h : execBcOpenr s = .next t) : State.Changes [] s t :=
  runChannel_changes (Run.changes_always State.changes_openReaderFree) h

theorem execBcWrbits_changes (h : execBcWrbits s = .next t) : State.Changes [.out] s t :=
  runChannel_changes (Run.changes_writeBits (by simp) _).onIo h

theorem execBcWrval_changes (h : execBcWrval s = .next t) : State.Changes [.out] s t :=
  runChannel_changes (Run.changes_writeVal (by simp) _ _).onIo h

theorem execBcRdbits_changes (h : execBcRdbits s = .next t) : State.Changes [.inp, .res] s t :=
  runChannel_changes (.bind (Run.changes_readBits (by simp) _).onIo fun _ =>
    Run.changes_modify (State.changes_res (by simp) _)) h

theorem execBcClose_changes (h : execBcClose s = .next t) : State.Changes [.out] s t :=
  runChannel_changes (Run.changes_closeChannel (by simp) _).onIo h

theorem execLz78Enc_changes (h : execLz78Enc s = .next t) : State.Changes [.inp, .out] s t := by
  have hi : Part.inp ∈ [.inp, .out] := by simp
  have ho : Part.out ∈ [.inp, .out] := by simp
  exact runUnit_changes (.bind (Run.changes_openWriter ho).onIo fun _ => .bind (Run.changes_setEngine _) fun _ =>
    .bind (Run.changes_forInput hi _ (Run.changes_lz78EncByte ho _) _ _) fun _ => .bind (Run.changes_setPhase _) fun _ =>
      .bind (Run.changes_lz78Flush ho _ _) fun _ => .bind (Run.changes_setPhase _) fun _ => (Run.changes_closeChannel ho _).onIo) h

theorem execLz78Dec_changes (h : execLz78Dec s = .next t) : State.Changes [.inp, .out] s t := by
  have hi : Part.inp ∈ [.inp, .out] := by simp
  have ho : Part.out ∈ [.inp, .out] := by simp
  exact runUnit_changes (.bind (Run.changes_modify State.changes_openReaderFree) fun _ => .bind (Run.changes_openOut ho).onIo fun _ =>
    .bind (Run.changes_lz78DecLoop ho hi _ _ _) fun _ => Run.changes_setPhase _) h

theorem execLzwEnc_changes (h : execLzwEnc s = .next t) : State.Changes [.inp, .out] s t := by
  have hi : Part.inp ∈ [.inp, .out] := by simp
  have ho : Part.out ∈ [.inp, .out] := by simp
  exact runUnit_changes (.bind (Run.changes_openWriter ho).onIo fun _ => .bind (Run.changes_setEngine _) fun _ =>
    .bind (Run.changes_forInput hi _ (Run.changes_lzwEncByte ho _) _ _) fun _ => .bind (Run.changes_setPhase _) fun _ =>
      .bind (Run.changes_lzwFlush ho _ _).onIo fun _ => .bind (Run.changes_setPhase _) fun _ =>
        (Run.changes_closeChannel ho _).onIo) h

theorem execLzwDec_changes (h : execLzwDec s = .next t) : State.Changes [.inp, .out] s t := by
  have hi : Part.inp ∈ [.inp, .out] := by simp
  have ho : Part.out ∈ [.inp, .out] := by simp
  exact runUnit_changes (.bind (Run.changes_modify State.changes_openReaderFree) fun _ => .bind (Run.changes_openOut ho).onIo fun _ =>
    .bind (Run.changes_lzwDecLoop ho hi _ _ _) fun _ => Run.changes_setPhase _) h

theorem execLzssEnc_changes (h : execLzssEnc s = .next t) : State.Changes [.inp, .out] s t := by
  have hi : Part.inp ∈ [.inp, .out] := by simp
  have ho : Part.out ∈ [.inp, .out] := by simp
  exact runUnit_changes (.bind (Run.changes_openWriter ho).onIo fun _ => .bind (Run.changes_setEngine _) fun _ =>
    .bind (Run.changes_lzssHeader ho _).onIo fun _ => .bind (Run.changes_forInput hi _ (Run.changes_lzssProcess ho _) _ _) fun _ =>
      .bind (Run.changes_setPhase _) fun _ => .bind (Run.changes_lzssFlush ho _ _) fun _ => .bind (Run.changes_setEngine _) fun _ =>
        .bind (Run.changes_setPhase _) fun _ => (Run.changes_closeChannel ho _).onIo) h

theorem execLzssDec_changes (h : execLzssDec s = .next t) : State.Changes [.inp, .out, .window] s t := by
  have hi : Part.inp ∈ [.inp, .out, .window] := by simp
  have ho : Part.out ∈ [.inp, .out, .window] := by simp
  have hw : Part.window ∈ [.inp, .out, .window] := by simp
  exact runUnit_changes (.bind (Run.changes_openOut ho).onIo fun _ => .bind (Run.changes_lzssReadHeader hi).onIo fun _ =>
    .bind (Run.changes_modify (State.changes_window hw _ _)) fun _ => .bind (Run.changes_modify State.changes_openReaderFree) fun _ =>
      .bind (Run.changes_lzssDecLoop ho hi _ _ _ _) fun _ => Run.changes_setPhase _) h

/-- A block command writes the buffers that its operation writes. -/
theorem runUnit_onBlock_changes {p : Phase} {bad : State → List Nat} {f : BlockUnit → BlockUnit}
    (hf : ∀ b, BlockUnit.Changes W b (f b)) (h : runUnit p bad (onBlock f) s = .next t) : State.Changes W s t :=
  runUnit_changes (Run.changes_always fun u => State.changes_blk (hf u.blk)) h

theorem execDctFwd_changes (h : execDctFwd s = .next t) : State.Changes [.blkf] s t :=
  runUnit_onBlock_changes (BlockUnit.changes_dctFwd (by simp) _) h

theorem execDctInv_changes (h : execDctInv s = .next t) : State.Changes [.blkf] s t :=
  runUnit_onBlock_changes (BlockUnit.changes_dctInv (by simp) _) h

theorem execQQuant_changes (h : execQQuant s = .next t) : State.Changes [.blki] s t :=
  runUnit_onBlock_changes (BlockUnit.changes_quant (by simp) _ _ _) h

theorem execQDequant_changes (h : execQDequant s = .next t) : State.Changes [.blkf] s t :=
  runUnit_onBlock_changes (BlockUnit.changes_dequant (by simp) _) h

theorem execZzFwd_changes (h : execZzFwd s = .next t) : State.Changes [.seq] s t :=
  runUnit_onBlock_changes (BlockUnit.changes_zzFwd (by simp) _) h

theorem execZzInv_changes (h : execZzInv s = .next t) : State.Changes [.blki] s t :=
  runUnit_onBlock_changes (BlockUnit.changes_zzInv (by simp) _) h

theorem execQSetq_changes (h : execQSetq s = .next t) : State.Changes [.tables] s t :=
  runUnit_changes (Run.changes_always (State.changes_setTables (by simp))) h

/-- After the bits are put, their value and their number go to `RES` and `RES2`. -/
theorem Run.changes_reportBits (h : .res ∈ W) (h2 : .res2 ∈ W) :
    (modify fun t : State => { t with res := .of (valOf t.blk.coder.bits : Int), res2 := .of t.blk.coder.bits.length } :
      Run State Unit).Changes W :=
  Run.changes_modify fun s =>
    .trans (t := { s with res := .of (valOf s.blk.coder.bits : Int) }) (State.changes_res h _ s) (State.changes_res2 h2 _ _)

theorem execHufEnc_changes (h : execHufEnc s = .next t) : State.Changes [.out, .res, .res2] s t :=
  runUnit_changes (.bind (Run.changes_withSink (by simp) (Run.changes_onCoder _)) fun _ =>
    Run.changes_reportBits (by simp) (by simp)) h

theorem execEntEnc_changes (h : execEntEnc s = .next t) : State.Changes [.out, .res, .res2] s t :=
  runUnit_changes (.bind (Run.changes_withSink (by simp) (Run.changes_onCoder _)) fun _ =>
    Run.changes_reportBits (by simp) (by simp)) h

theorem execHufDec_changes (h : execHufDec s = .next t) : State.Changes [.inp, .res] s t :=
  runUnit_changes (.bind (Run.changes_withSource (by simp) (Run.changes_onCoder _)) fun _ =>
    Run.changes_modify (State.changes_res (by simp) _)) h

theorem execEntDec_changes (h : execEntDec s = .next t) : State.Changes [.inp, .res] s t :=
  runUnit_changes (.bind (Run.changes_withSource (by simp) (Run.changes_onCoder _)) fun _ =>
    Run.changes_modify (State.changes_res (by simp) _)) h

theorem execRleEnc_changes (h : execRleEnc s = .next t) : State.Changes [.out] s t :=
  runUnit_changes (Run.changes_withSink (by simp) (Run.changes_encodeSeq _ _)) h

theorem execRleDec_changes (h : execRleDec s = .next t) : State.Changes [.inp, .seq] s t :=
  runUnit_changes (Run.changes_rleDecBody (by simp) (by simp) _ _) h

theorem execCtFwd_changes (h : execCtFwd s = .next t) : State.Changes [.ycc] s t :=
  runUnit_changes (Run.changes_always (State.changes_ctFwd (by simp))) h

theorem execCtInv_changes (h : execCtInv s = .next t) : State.Changes [.rgb] s t :=
  runUnit_changes (Run.changes_always (State.changes_ctInv (by simp))) h

theorem execImgEnc_changes (h : execImgEnc s = .next t) : State.Changes [.out, .blkf, .blki, .seq, .tables, .ycc] s t := by
  have ho : Part.out ∈ [.out, .blkf, .blki, .seq, .tables, .ycc] := by simp
  exact runUnit_changes (.bind (Run.changes_openOut ho).onIo fun _ =>
    .bind (Run.changes_modify (State.changes_ctFwd (by simp))) fun _ =>
      .bind (Run.changes_modify (State.changes_setTables (by simp))) fun _ => .bind (Run.changes_setPhase _) fun _ =>
        .bind (Run.changes_emitBytes ho _).onIo fun _ => Run.changes_forPlanes
          (Run.changes_encodePlane (by simp) (by simp) (by simp) ho) _) h

/-- Only the last step of IMG.DEC writes `RGB`, so one that raised left it alone (47_image_pipeline.md R301, 70_reset_and_hazards.md
R366). -/
theorem execImgDec_changes (h : execImgDec s = .next t) :
    (t.run = .error → State.Changes [.inp, .sides, .blkf, .blki, .seq, .tables, .ycc] s t)
      ∧ State.Changes [.rgb, .inp, .sides, .blkf, .blki, .seq, .tables, .ycc] s t := by
  have hi : Part.inp ∈ [.inp, .sides, .blkf, .blki, .seq, .tables, .ycc] := by simp
  have hW := List.subset_cons_self Part.rgb [.inp, .sides, .blkf, .blki, .seq, .tables, .ycc]
  refine runUnit_changesLast hW (.bind hW (Run.changes_readLine hi).onIo fun line => ?_) h
  split
  · exact Run.changesLast_raise _ _
  · exact .bind hW (Run.changes_modify (State.changes_sides (by simp) _ _ _)) fun _ =>
      .bind hW (Run.changes_setPhase _) fun _ => .bind hW (Run.changes_modify (State.changes_setTables (by simp))) fun _ =>
        .bind hW (Run.changes_setPhase _) fun _ => .bind hW (Run.changes_forPlanes (Run.changes_decodePlane (by simp)
          (by simp) (by simp) (by simp) hi) _) fun _ => .bind hW (Run.changes_setPhase _) fun _ =>
            Run.changesLast_modify (State.changes_ctInv (by simp))

/-- Every command changes only what it lists. -/
theorem exec_changes {i : Instr} (h : exec i s = .next t) : State.Changes (writtenBy i) s t := by
  cases i with
  | bcOpenw => exact execBcOpenw_changes h
  | bcOpenr => exact execBcOpenr_changes h
  | bcWrbits => exact execBcWrbits_changes h
  | bcWrval => exact execBcWrval_changes h
  | bcRdbits => exact execBcRdbits_changes h
  | bcClose => exact execBcClose_changes h
  | lz78Enc => exact execLz78Enc_changes h
  | lz78Dec => exact execLz78Dec_changes h
  | lzwEnc => exact execLzwEnc_changes h
  | lzwDec => exact execLzwDec_changes h
  | lzssEnc => exact execLzssEnc_changes h
  | lzssDec => exact execLzssDec_changes h
  | dctFwd => exact execDctFwd_changes h
  | dctInv => exact execDctInv_changes h
  | qSetq => exact execQSetq_changes h
  | qQuant => exact execQQuant_changes h
  | qDequant => exact execQDequant_changes h
  | zzFwd => exact execZzFwd_changes h
  | zzInv => exact execZzInv_changes h
  | hufEnc => exact execHufEnc_changes h
  | hufDec => exact execHufDec_changes h
  | entEnc => exact execEntEnc_changes h
  | entDec => exact execEntDec_changes h
  | rleEnc => exact execRleEnc_changes h
  | rleDec => exact execRleDec_changes h
  | ctFwd => exact execCtFwd_changes h
  | ctInv => exact execCtInv_changes h
  | imgEnc => exact execImgEnc_changes h
  | imgDec => exact (execImgDec_changes h).2

end

/-- Settles O14: each clause names a part, and `exec_changes` gives it for the commands that do not list the part. -/
theorem stateWrittenOnlyAsListed : Obligations.StateWrittenOnlyAsListed := by
  intro i s t h
  have hc := (exec_changes h).same
  have herr : i = .imgDec → t.run = .error → t.rgb = s.rgb := by
    rintro rfl hrun
    exact ((execImgDec_changes h).1 hrun).same .rgb (by simp)
  obtain ⟨hcfg, hhost, ha, hn, hmin, hsel, hmode⟩ : Part.fixed.Same s t := hc .fixed (fixed_not_mem_writtenBy i)
  refine ⟨hcfg, hhost, ha, hn, hmin, hsel, hmode, fun hi => hc .res (mt ?_ hi), fun hi => hc .res2 (mt ?_ hi),
    fun hi => hc .sides (mt ?_ hi), fun hi => hc .window (mt ?_ hi), fun hi => hc .blkf (mt ?_ hi), fun hi => hc .blki (mt ?_ hi),
    fun hi => hc .seq (mt ?_ hi), fun hi => hc .tables (mt ?_ hi), fun hi => hc .rgb (mt ?_ hi), herr,
    fun hi => hc .ycc (mt ?_ hi), fun hi => hc .out (mt ?_ hi), fun hi => hc .inp (mt ?_ hi)⟩
  all_goals
    clear h hc herr
    cases i <;> simp [writtenBy]

end Sys2Proof.Machine
end

section
/-! How every command ends (60_exceptions.md R322, R323, R331), and the invariant of the machine: it holds after reset, every command and
every other action of the host keeps it. -/

namespace Sys2Proof.Machine

open Sys2Proof.Claims

/-! ### The two ends -/

/-- The command has ended: in `DONE` without an exception, or in `ERROR` with one, and in no phase. -/
def State.Ended (t : State) : Prop :=
  t.phase = .none ∧ ((t.run = .done ∧ t.err = none) ∨ (t.run = .error ∧ ∃ e, t.err = some e))

/-- Nothing of the command is left: no engine, no coder, no channel, and `OUT`'s sink is settled. -/
structure State.Dropped (t : State) : Prop where
  eng : t.eng = .none
  coder : t.blk.coder = .fresh
  wtr : t.io.wtr = .closed
  rdr : t.io.rdr = .closed
  sink : t.io.out.sink ≠ .writing

theorem State.ended_completed (u : State) : u.completed.Ended := ⟨rfl, .inl ⟨rfl, rfl⟩⟩

theorem State.ended_raised (r : Raise) (u : State) : (u.raised r).Ended := ⟨by simp, .inr ⟨by simp, r.exc, by simp⟩⟩

/-- A sink is never left being written. -/
theorem OutStream.ended_sink (e : Bool) (o : OutStream) : (o.ended e).sink ≠ .writing := by
  unfold OutStream.ended
  split
  · cases e <;> simp [OutStream.settled]
  · assumption

theorem State.dropped_released (u : State) : u.released.Dropped := ⟨rfl, rfl, rfl, rfl, OutStream.ended_sink _ _⟩

theorem State.Dropped.completed {u : State} (h : u.Dropped) : u.completed.Dropped := ⟨h.eng, h.coder, h.wtr, h.rdr, h.sink⟩

theorem State.Dropped.raised {u : State} (h : u.Dropped) (r : Raise) : (u.raised r).Dropped := by
  obtain ⟨heng, hcoder, hwtr, hrdr, hsink⟩ := h
  constructor <;> simpa

theorem runChannel_ended {bad : State → List Nat} {body : Run State Unit} {s t : State} (h : runChannel bad body s = .next t) :
    t.Ended := by
  rcases runChannel_cases bad body s t h with ⟨i, rest, -, rfl⟩ | ⟨-, u, -, rfl⟩ | ⟨-, r, u, -, rfl⟩
  · exact State.ended_raised _ _
  · exact u.ended_completed
  · exact State.ended_raised r u

theorem runUnit_ended {p : Phase} {bad : State → List Nat} {body : Run State Unit} {s t : State}
    (h : runUnit p bad body s = .next t) : t.Ended ∧ t.Dropped := by
  rcases runUnit_cases p bad body s t h with ⟨i, rest, -, rfl⟩ | ⟨-, u, -, rfl⟩ | ⟨-, r, u, -, rfl⟩
  · exact ⟨State.ended_raised _ _, (State.dropped_released _).raised _⟩
  · exact ⟨State.ended_completed _, u.dropped_released.completed⟩
  · exact ⟨State.ended_raised r _, u.dropped_released.raised r⟩

/-! ### Which frame runs a command -/

theorem exec_eq_runChannel {i : Instr} (hi : i ∈ channelCommands) (s : State) :
    ∃ bad body, exec i s = runChannel bad body s := by
  simp only [channelCommands, List.mem_cons, List.not_mem_nil, or_false] at hi
  rcases hi with rfl | rfl | rfl | rfl | rfl | rfl <;> unfold exec <;> exact ⟨_, _, rfl⟩

theorem exec_eq_runUnit {i : Instr} (hi : i ∉ channelCommands) (s : State) :
    ∃ p bad body, exec i s = runUnit p bad body s := by
  cases i with
  | bcOpenw | bcOpenr | bcWrbits | bcWrval | bcRdbits | bcClose => simp [channelCommands] at hi
  | _ => unfold exec; exact ⟨_, _, _, rfl⟩

/-- Every command answers a next state. -/
theorem exec_next (i : Instr) (s : State) : ∃ t, exec i s = .next t := by
  by_cases hi : i ∈ channelCommands
  · obtain ⟨bad, body, h⟩ := exec_eq_runChannel hi s
    rw [h]
    exact runChannel_next bad body s
  · obtain ⟨p, bad, body, h⟩ := exec_eq_runUnit hi s
    rw [h]
    exact runUnit_next p bad body s

theorem exec_dropped {i : Instr} (hi : i ∉ channelCommands) {s t : State} (h : exec i s = .next t) : t.Dropped := by
  obtain ⟨p, bad, body, he⟩ := exec_eq_runUnit hi s
  exact (runUnit_ended (he ▸ h)).2

theorem exec_ended {i : Instr} {s t : State} (h : exec i s = .next t) : t.Ended := by
  by_cases hi : i ∈ channelCommands
  · obtain ⟨bad, body, he⟩ := exec_eq_runChannel hi s
    exact runChannel_ended (he ▸ h)
  · obtain ⟨p, bad, body, he⟩ := exec_eq_runUnit hi s
    exact (runUnit_ended (he ▸ h)).1

theorem State.errCode_of_err {t : State} {e : Exc} (h : t.err = some e) : t.errCode = e.code := by simp [State.errCode, h]

theorem State.errCode_of_none {t : State} (h : t.err = none) : t.errCode = 0 := by simp [State.errCode, h]

/-- Settles O10: both frames end in `completed` or `raised`, and `runUnit` releases first. -/
theorem everyCommandEnds : Obligations.EveryCommandEnds := by
  intro i s
  obtain ⟨t, ht⟩ := exec_next i s
  obtain ⟨hphase, hend⟩ := exec_ended ht
  refine ⟨t, ht, hphase, ?_, fun hi => ?_⟩
  · rcases hend with ⟨hrun, herr⟩ | ⟨hrun, e, herr⟩
    · exact .inl ⟨hrun, State.errCode_of_none herr⟩
    · exact .inr ⟨hrun, e, herr, State.errCode_of_err herr⟩
  · have hd := exec_dropped hi ht
    exact ⟨hd.eng, hd.coder, by rw [hd.wtr]; rfl, by rw [hd.rdr]; rfl, hd.sink⟩

/-! ### The invariant after a command -/

theorem Writer.closed_sound : Writer.closed.Sound := ⟨by decide, fun k _ => by simp [Writer.closed], fun _ => rfl⟩

theorem Reader.closed_sound : Reader.closed.Sound := ⟨by decide, fun _ => rfl⟩

/-- An open reader is sound when its cursor is in range. -/
theorem Reader.sound_of_open {r : Reader} (hc : r.cnt ≤ 8) (ho : r.isOpen = true) : r.Sound := ⟨hc, fun h => by simp [ho] at h⟩

theorem State.Ended.ne_busy {t : State} (h : t.Ended) : t.run ≠ .busy := by
  rcases h.2 with ⟨hr, -⟩ | ⟨hr, -⟩ <;> simp [hr]

theorem State.Ended.statusSound {t : State} (h : t.Ended) : t.StatusSound := by
  rcases h.2 with ⟨hr, he⟩ | ⟨hr, e, he⟩ <;> simp [State.StatusSound, hr, he]

/-- Reading from an open reader leaves it open and its cursor in range, whether or not the bits were there. -/
theorem rdBits_reader (n : Nat) (io : Io) (hr : io.rdr.Sound) (ho : io.rdr.isOpen = true) :
    (rdBits n io).2.rdr.Sound ∧ (rdBits n io).2.wtr = io.wtr := by
  cases he : io.rdr.exh with
  | true => rw [rdBits_exhausted n io he]; exact ⟨hr, rfl⟩
  | false =>
    by_cases hn : n ≤ (pendingBits io).length
    · obtain ⟨-, -, hcnt, -, hopen, hwtr, -, -⟩ := rdBits_ok n io hr.1 he hn
      exact ⟨Reader.sound_of_open hcnt (hopen.trans ho), hwtr⟩
    · obtain ⟨-, -, hcnt, -, -, hopen, hwtr, -⟩ := rdBits_sentinel n io hr.1 he (by omega)
      exact ⟨Reader.sound_of_open hcnt (hopen.trans ho), hwtr⟩

theorem closeChannel_sound (e : Bool) (io : Io) (hw : io.wtr.Sound) :
    (closeChannel e io).wtr.Sound ∧ (closeChannel e io).rdr.Sound := by
  unfold closeChannel
  split
  · exact ⟨Writer.closed_sound, Reader.closed_sound⟩
  · exact ⟨hw, Reader.closed_sound⟩

/-- What a BitChannel command keeps of the invariant: no engine and no coder comes to be, and the channel stays sound. -/
structure State.ChannelKept (s t : State) : Prop where
  eng : t.eng = s.eng
  coder : t.blk.coder = s.blk.coder
  writer : t.io.wtr.Sound
  reader : t.io.rdr.Sound

/-- A BitChannel command keeps what its work, which never raises, keeps. -/
theorem runChannel_kept {bad : State → List Nat} {body : Run State Unit} {s t : State} (hw : s.io.wtr.Sound) (hr : s.io.rdr.Sound)
    (hb : bad s = [] → ∃ u, body (s.start .compute) = .ok () u ∧ State.ChannelKept s u) (h : runChannel bad body s = .next t) :
    State.ChannelKept s t := by
  rcases runChannel_cases bad body s t h with ⟨i, rest, -, rfl⟩ | ⟨hbad, u, hu, rfl⟩ | ⟨hbad, r, u, hu, rfl⟩
  · exact ⟨by simp, by simp, by simpa using hw, by simpa using hr⟩
  · obtain ⟨u', hu', hk⟩ := hb hbad
    obtain rfl : u' = u := by simpa [hu'] using hu
    exact ⟨hk.eng, hk.coder, hk.writer, hk.reader⟩
  · obtain ⟨u', hu', -⟩ := hb hbad
    simp [hu'] at hu

theorem wrbitsBad_nil_open {s : State} (h : wrbitsBad s = []) : s.io.wtr.isOpen = true := by
  simp only [wrbitsBad, List.append_eq_nil_iff, offUnless_nil] at h
  exact h.2

theorem wrvalBad_nil_open {s : State} (h : wrvalBad s = []) : s.io.wtr.isOpen = true := by
  simp only [wrvalBad, List.append_eq_nil_iff, offUnless_nil] at h
  exact h.2

theorem rdbitsBad_nil_open {s : State} (h : rdbitsBad s = []) : s.io.rdr.isOpen = true := by
  simp only [rdbitsBad, List.append_eq_nil_iff, offUnless_nil] at h
  exact h.2

/-- Writing bits at the start of a command to an open channel keeps it sound. -/
theorem wrBits_kept {s : State} (bits : Bits) (hw : s.io.wtr.Sound) (hr : s.io.rdr.Sound) (ho : s.io.wtr.isOpen = true) :
    ∃ u, onIo (writeBits bits) (s.start .compute) = .ok () u ∧ State.ChannelKept s u := by
  obtain ⟨-, hsound, -, -, hrdr, -, -⟩ := wrBits_spec bits (s.start .compute).io hw ho
  exact ⟨_, rfl, ⟨rfl, rfl, hsound, hrdr.symm ▸ hr⟩⟩

section
variable {s t : State} (hw : s.io.wtr.Sound) (hr : s.io.rdr.Sound)
include hw hr

theorem execBcOpenw_kept (h : execBcOpenw s = .next t) : State.ChannelKept s t := by
  refine runChannel_kept hw hr (fun _ => ?_) h
  exact ⟨_, rfl, ⟨rfl, rfl, (openWriter_spec _).1, hr⟩⟩

theorem execBcOpenr_kept (h : execBcOpenr s = .next t) : State.ChannelKept s t := by
  refine runChannel_kept hw hr (fun _ => ?_) h
  exact ⟨_, rfl, ⟨rfl, rfl, hw, Reader.sound_of_open (Nat.le_refl 8) rfl⟩⟩

theorem execBcWrbits_kept (h : execBcWrbits s = .next t) : State.ChannelKept s t :=
  runChannel_kept hw hr (fun hb => wrBits_kept _ hw hr (wrbitsBad_nil_open hb)) h

theorem execBcWrval_kept (h : execBcWrval s = .next t) : State.ChannelKept s t :=
  runChannel_kept hw hr (fun hb => wrBits_kept _ hw hr (wrvalBad_nil_open hb)) h

theorem execBcRdbits_kept (h : execBcRdbits s = .next t) : State.ChannelKept s t := by
  refine runChannel_kept hw hr (fun hb => ?_) h
  obtain ⟨hrdr, hwtr⟩ := rdBits_reader s.n.val (s.start .compute).io hr (rdbitsBad_nil_open hb)
  exact ⟨_, rfl, ⟨rfl, rfl, hwtr.symm ▸ hw, hrdr⟩⟩

theorem execBcClose_kept (h : execBcClose s = .next t) : State.ChannelKept s t := by
  refine runChannel_kept hw hr (fun _ => ?_) h
  obtain ⟨hwtr, hrdr⟩ := closeChannel_sound s.embedded (s.start .compute).io hw
  exact ⟨_, rfl, ⟨rfl, rfl, hwtr, hrdr⟩⟩

theorem exec_channelKept {i : Instr} (hi : i ∈ channelCommands) (h : exec i s = .next t) : State.ChannelKept s t := by
  simp only [channelCommands, List.mem_cons, List.not_mem_nil, or_false] at hi
  rcases hi with rfl | rfl | rfl | rfl | rfl | rfl
  · exact execBcOpenw_kept hw hr h
  · exact execBcOpenr_kept hw hr h
  · exact execBcWrbits_kept hw hr h
  · exact execBcWrval_kept hw hr h
  · exact execBcRdbits_kept hw hr h
  · exact execBcClose_kept hw hr h

end

/-- Every command keeps the invariant: its memories by what it writes, its outcome by how it ends, the channel and the engines by
the frame that runs it. -/
theorem exec_inv {i : Instr} {s t : State} (hs : s.Inv) (h : exec i s = .next t) : t.Inv := by
  have he := exec_ended h
  have hc := exec_changes h
  obtain ⟨-, -, -, -, -, hsel, hmode⟩ : Part.fixed.Same s t := hc.same .fixed (fixed_not_mem_writtenBy i)
  have hselects : t.SelectsWritten := ⟨hsel ▸ hs.selects.1, hmode ▸ hs.selects.2⟩
  obtain ⟨-, -, heng, hcoder⟩ := hs.quiet
  by_cases hi : i ∈ channelCommands
  · have hk := exec_channelKept hs.writer hs.reader hi h
    exact ⟨⟨he.ne_busy, he.1, hk.eng.trans heng, hk.coder.trans hcoder⟩, he.statusSound, hk.writer, hk.reader,
      hc.tables hs.tables, hc.planes hs.planes, hselects⟩
  · have hd := exec_dropped hi h
    exact ⟨⟨he.ne_busy, he.1, hd.eng, hd.coder⟩, he.statusSound, hd.wtr ▸ Writer.closed_sound, hd.rdr ▸ Reader.closed_sound,
      hc.tables hs.tables, hc.planes hs.planes, hselects⟩

/-! ### Reset -/

/-- Settles O6: each clause is a field of `State.reset`. -/
theorem resetValues : Obligations.ResetValues := by
  unfold Obligations.ResetValues
  refine ⟨rfl, rfl, rfl, rfl, rfl, rfl, rfl, rfl, rfl, rfl, rfl, rfl, rfl, rfl, rfl, rfl, rfl, rfl, rfl, rfl, rfl, rfl, rfl, rfl,
    rfl, rfl, rfl, rfl, fun k => ?_⟩
  simp [State.reset, Reg.unwritten]

/-- A state at rest as reset leaves it, whatever configuration, streams and queue it has. -/
theorem State.powerOn_inv (s : State) : s.powerOn.Inv where
  quiet := ⟨fun h => (nomatch h), rfl, rfl, rfl⟩
  status := ⟨fun h => (nomatch h), fun h => (nomatch h)⟩
  writer := Writer.closed_sound
  reader := Reader.closed_sound
  tables h := (nomatch h)
  planes := State.reset_planes
  selects := ⟨rfl, rfl⟩

/-- Settles O8: nothing of a command is there, nothing is open, no table is valid and no plane holds an element. -/
theorem invariantAtReset : Obligations.InvariantAtReset := State.powerOn_inv State.reset

/-! ### The invariant after any other action -/

theorem State.illegalCommand_inv (b : Byte) {s : State} (hs : s.Inv) : (s.illegalCommand b).Inv := by
  have he : (s.illegalCommand b).Ended := State.ended_raised _ s
  obtain ⟨-, -, heng, hcoder⟩ := hs.quiet
  exact ⟨⟨he.ne_busy, he.1, heng, hcoder⟩, he.statusSound, hs.writer, hs.reader, hs.tables, hs.planes, hs.selects⟩

/-- A host write touches a register, an element or a stream: only `SEL`, `MODE` and the planes are spoken of by the invariant. -/
theorem State.hostWrite_inv (act : HostAct) {s : State} (hs : s.Inv) : (s.hostWrite act).Inv := by
  obtain ⟨hquiet, hstatus, hwriter, hreader, htables, ⟨hrgb, hycc⟩, ⟨hsel, hmode⟩⟩ := hs
  cases act with
  | powerOnReset => exact s.powerOn_inv
  | setSel v => exact ⟨hquiet, hstatus, hwriter, hreader, htables, ⟨hrgb, hycc⟩, ⟨rfl, hmode⟩⟩
  | setMode v => exact ⟨hquiet, hstatus, hwriter, hreader, htables, ⟨hrgb, hycc⟩, ⟨hsel, rfl⟩⟩
  | writeRgb k v => exact ⟨hquiet, hstatus, hwriter, hreader, htables, ⟨Sparse.write_wf _ _ _ hrgb, hycc⟩, ⟨hsel, hmode⟩⟩
  | writeYcc k v => exact ⟨hquiet, hstatus, hwriter, hreader, htables, ⟨hrgb, Sparse.write_wf _ _ _ hycc⟩, ⟨hsel, hmode⟩⟩
  | _ => exact ⟨hquiet, hstatus, hwriter, hreader, htables, ⟨hrgb, hycc⟩, ⟨hsel, hmode⟩⟩

theorem State.command_inv {b : Byte} {s t : State} (hs : s.Inv) (h : s.command b = .next t) : t.Inv := by
  unfold State.command at h
  split at h
  · exact exec_inv hs h
  · cases h
    exact State.illegalCommand_inv b hs

theorem State.act_inv {act : HostAct} {s t : State} (hs : s.Inv) (h : s.act act = .next t) : t.Inv := by
  have hrun : s.run ≠ .busy := hs.quiet.1
  unfold State.act at h
  split at h
  · rw [if_neg hrun] at h
    exact State.command_inv hs h
  · cases h
    exact s.powerOn_inv
  · rw [if_neg hrun] at h
    cases h
    exact State.hostWrite_inv _ hs

/-- Taking the action from the queue changes nothing that the invariant speaks of. -/
theorem State.inv_host {s : State} (rest : List HostAct) (hs : s.Inv) : ({ s with host := rest } : State).Inv :=
  ⟨hs.quiet, hs.status, hs.writer, hs.reader, hs.tables, hs.planes, hs.selects⟩

/-- Settles O9: a step is one action of the host, and each kind of action keeps the invariant. -/
theorem invariantKeptByStep : Obligations.InvariantKeptByStep := by
  intro s t hs h
  unfold step State.hostStep at h
  split at h
  · cases h
    exact hs
  · next act rest _ => exact State.act_inv (State.inv_host rest hs) h

end Sys2Proof.Machine
end

section
/-! The streams only move forward (20_memory.md R61, R62): the relation "`IN` is consumed in order, `OUT` is appended to", each
primitive's law for it, and the pieces of every command that reads or writes a stream. -/

namespace Sys2Proof.Machine

variable {σ α β : Type} {E : Exc → Prop}

/-! ### The relations on the streams -/

/-- A first part of the stream has been read, in order. -/
def InStream.Advances (i j : InStream) : Prop :=
  ∃ read, i.rest = read ++ j.rest ∧ j.consumed = i.consumed + read.length

theorem InStream.Advances.refl (i : InStream) : i.Advances i := ⟨[], rfl, rfl⟩

theorem InStream.Advances.trans {i j k : InStream} (h : i.Advances j) (h' : j.Advances k) : i.Advances k := by
  obtain ⟨read, hr, hc⟩ := h
  obtain ⟨read', hr', hc'⟩ := h'
  exact ⟨read ++ read', by rw [hr, hr', List.append_assoc], by rw [hc', hc, List.length_append, Nat.add_assoc]⟩

/-- Bytes have been appended. -/
def OutStream.Extends (o p : OutStream) : Prop := ∃ bs, p.bytes = o.bytes ++ bs

theorem OutStream.Extends.of_bytes_eq {o p : OutStream} (h : p.bytes = o.bytes) : o.Extends p := ⟨[], by rw [h, List.append_nil]⟩

theorem OutStream.Extends.refl (o : OutStream) : o.Extends o := .of_bytes_eq rfl

theorem OutStream.Extends.trans {o p q : OutStream} (h : o.Extends p) (h' : p.Extends q) : o.Extends q := by
  obtain ⟨bs, hb⟩ := h
  obtain ⟨bs', hb'⟩ := h'
  exact ⟨bs ++ bs', by rw [hb', hb, List.append_assoc]⟩

/-- `IN` is consumed in order, and `OUT` is appended to. -/
structure Io.Forward (i j : Io) : Prop where
  inp : i.inp.Advances j.inp
  out : i.out.Extends j.out

theorem Io.Forward.refl (i : Io) : i.Forward i := ⟨.refl _, .refl _⟩

theorem Io.Forward.trans {i j k : Io} (h : i.Forward j) (h' : j.Forward k) : i.Forward k := ⟨h.inp.trans h'.inp, h.out.trans h'.out⟩

theorem Io.Forward.of_inp {i j : Io} (h : i.inp.Advances j.inp) (ho : j.out = i.out) : i.Forward j := ⟨h, ho ▸ .refl _⟩

theorem Io.Forward.of_out {i j : Io} (hi : j.inp = i.inp) (h : i.out.Extends j.out) : i.Forward j := ⟨hi ▸ .refl _, h⟩

/-- The same where the command opens `OUT`, which empties a stream that was not open (R62; log 10). -/
structure Io.ForwardIfOpen (i j : Io) : Prop where
  inp : i.inp.Advances j.inp
  out : i.out.sink = .writing ∨ i.out.sink = .flushed → i.out.Extends j.out

theorem Io.Forward.ifOpen {i j : Io} (h : i.Forward j) : i.ForwardIfOpen j := ⟨h.inp, fun _ => h.out⟩

theorem Io.ForwardIfOpen.trans {i j k : Io} (h : i.ForwardIfOpen j) (h' : j.Forward k) : i.ForwardIfOpen k :=
  ⟨h.inp.trans h'.inp, fun hs => (h.out hs).trans h'.out⟩

/-- What neither reads `IN` nor writes `OUT` moves both forward. -/
theorem State.Changes.forward {W : List Part} {s t : State} (h : State.Changes W s t) (hi : .inp ∉ W) (ho : .out ∉ W) :
    s.io.Forward t.io := by
  have hinp : t.io.inp = s.io.inp := h.same .inp hi
  have hout : t.io.out.bytes = s.io.out.bytes := h.same .out ho
  exact .of_out hinp (.of_bytes_eq hout)

/-! ### The stream primitives -/

theorem inByte_forward (io : Io) : io.Forward (inByte io).2 := by
  refine .of_inp ?_ (inByte_out io)
  unfold inByte
  split
  · exact .refl _
  · next b rest h => exact ⟨[b], h, rfl⟩

theorem rdBit_forward (io : Io) : io.Forward (rdBit io).2 := by
  refine .of_inp ?_ (rdBit_out io)
  have hb := (inByte_forward io).inp
  unfold rdBit
  split
  · split
    · next h => simpa [h] using hb
    · next h => simpa [h] using hb
  · exact .refl _

theorem rdLoop_forward (n v : Nat) (io : Io) : io.Forward (rdLoop n v io).2 := by
  induction n generalizing v io with
  | zero => exact .refl _
  | succ n ih =>
    have hb := rdBit_forward io
    rw [rdLoop]
    split
    · next io' h => simpa [h] using hb
    · next b io' h =>
      rw [h] at hb
      exact hb.trans (ih _ _)

theorem rdBits_forward (n : Nat) (io : Io) : io.Forward (rdBits n io).2 := by
  unfold rdBits
  split
  · exact .of_inp (.refl _) rfl
  · exact rdLoop_forward n 0 io

/-- The line and what follows it are the bytes that were there (47_image_pipeline.md R294). -/
theorem splitLine_eq (l : List Byte) : l = (splitLine l).1 ++ (splitLine l).2.elim [] (lineFeed :: ·) := by
  induction l with
  | nil => rfl
  | cons c cs ih =>
    by_cases hc : c = lineFeed
    · simp [splitLine, hc]
    · simpa [splitLine, hc] using ih

theorem readLine_forward {io io' : Io} {line : List Byte} (h : readLine io = .ok line io') : io.Forward io' := by
  refine .of_inp ?_ (readLine_out h)
  have hl := splitLine_eq io.inp.rest
  unfold readLine at h
  split at h
  · next l rest hs =>
    cases h
    exact ⟨line ++ [lineFeed], by simpa [hs] using hl, by simp [Nat.add_assoc]⟩
  · next l hs =>
    cases h
    exact ⟨line, by simpa [hs] using hl, rfl⟩

theorem wrBit_forward (io : Io) (b : Bool) : io.Forward (wrBit io b) := by
  refine .of_out (wrBit_inp io b) ?_
  by_cases h : io.wtr.cnt + 1 = 8
  · exact ⟨[_], by simp only [wrBit, h, if_true]; rfl⟩
  · exact .of_bytes_eq (by simp [wrBit, h])

theorem wrBits_forward (s : Bits) (io : Io) : io.Forward (wrBits s io) :=
  List.foldlRecOn (motive := io.Forward) s wrBit (.refl io) fun j h b _ => h.trans (wrBit_forward j b)

theorem outBytes_forward (bs : List Byte) (io : Io) : io.Forward (outBytes bs io) := .of_out rfl ⟨bs, rfl⟩

/-- Closing appends the partial byte, where there is one (40_bitchannel.md R136). -/
theorem closeChannel_forward (e : Bool) (io : Io) : io.Forward (closeChannel e io) := by
  refine .of_out (closeChannel_inp e io) ?_
  unfold closeChannel
  split_ifs
  · exact ⟨[io.wtr.byte], rfl⟩
  · exact .of_bytes_eq rfl
  · exact .refl _

/-- A stream that was open keeps its bytes when a command opens it (R62). -/
theorem OutStream.opened_bytes {o : OutStream} (h : o.sink = .writing ∨ o.sink = .flushed) : o.opened.bytes = o.bytes := by
  rcases h with h | h <;> simp [OutStream.opened, h]

theorem openOut_forwardIfOpen (io : Io) : io.ForwardIfOpen (openOut io) :=
  ⟨.refl _, fun h => .of_bytes_eq (OutStream.opened_bytes h)⟩

theorem openWriter_forwardIfOpen (io : Io) : io.ForwardIfOpen (openWriter io) :=
  ⟨.refl _, fun h => .of_bytes_eq (OutStream.opened_bytes h)⟩

/-! ### The pieces of a command -/

/-- Whatever it does, the piece moves the streams forward, and an exception it raises satisfies E. -/
def Run.Forward (E : Exc → Prop) (m : Run State α) : Prop := m.Does (fun s t => s.io.Forward t.io) E

/-- The same for a piece over the streams. -/
def Run.IoForward (E : Exc → Prop) (m : Run Io α) : Prop := m.Does Io.Forward E

theorem Run.Forward.bind {m : Run State α} {f : α → Run State β} (hm : m.Forward E) (hf : ∀ a, (f a).Forward E) :
    (m >>= f).Forward E := Run.Does.bind (R := fun s t : State => s.io.Forward t.io) (fun _ _ _ => Io.Forward.trans) hm hf

theorem Run.IoForward.bind {m : Run Io α} {f : α → Run Io β} (hm : m.IoForward E) (hf : ∀ a, (f a).IoForward E) :
    (m >>= f).IoForward E := Run.Does.bind (R := Io.Forward) (fun _ _ _ => Io.Forward.trans) hm hf

theorem Run.IoForward.onIo {m : Run Io α} (hm : m.IoForward E) : (onIo m).Forward E := Run.Does.on hm fun _ _ h => h

theorem Run.forward_pure (a : α) : (pure a : Run State α).Forward E := Run.Does.done (fun s => .refl s.io) a

theorem Run.forward_raise {e : Exc} (he : E e) (i : Int) : (raise e i : Run State α).Forward E :=
  Run.Does.stop (fun s => .refl s.io) he i

theorem Run.forward_raiseBare {e : Exc} (he : E e) : (raiseBare e : Run State α).Forward E :=
  Run.Does.stopBare (fun s => .refl s.io) he

theorem Run.forward_setPhase (p : Phase) : (setPhase p).Forward E := fun s => .refl s.io

theorem Run.forward_setEngine (e : Engine) : (setEngine e).Forward E := fun s => .refl s.io

/-- A piece that writes neither stream. -/
theorem Run.Changes.forward {W : List Part} {m : Run State α} (hm : m.Changes W) (hi : .inp ∉ W) (ho : .out ∉ W) :
    m.Forward fun _ => True := Run.Does.mono hm (fun _ _ h => h.forward hi ho) fun _ => id

theorem Run.forward_getByte : getByte.IoForward E := inByte_forward

theorem Run.forward_readBits (n : Nat) : (readBits n).IoForward E := rdBits_forward n

theorem Run.forward_readLine : readLine.IoForward E := fun io => by
  obtain ⟨line, io', h⟩ := readLine_ok io
  rw [h]
  exact readLine_forward h

theorem Run.forward_writeBits (s : Bits) : (writeBits s).IoForward E := wrBits_forward s

theorem Run.forward_writeVal (v : Int) (n : Nat) : (writeVal v n).IoForward E := wrBits_forward _

theorem Run.forward_emitBytes (bs : List Byte) : (emitBytes bs).IoForward E := outBytes_forward bs

theorem Run.forward_closeChannel (e : Bool) : (modify (closeChannel e) : Run Io Unit).IoForward E := closeChannel_forward e

/-- The encoders' loop takes bytes from `IN` besides what one symbol does. -/
theorem Run.forward_forInput {ε : Type} (engine : ε → Engine) {f : Byte → ε → Run State ε} (hf : ∀ c e, (f c e).Forward E)
    (cs : List Byte) (e : ε) : (forInput engine f cs e).Forward E :=
  Run.Does.forInput (R := fun s t : State => s.io.Forward t.io) (fun s => .refl s.io) (fun _ _ _ => Io.Forward.trans)
    (fun s _ => .refl s.io) (fun s _ => .refl s.io) (fun s => inByte_forward s.io) hf cs e

/-! ### The updates of the state between the stream operations -/

theorem Run.forward_setRes (v : Reg Int) : (modify fun s => { s with res := v } : Run State Unit).Forward E := fun s => .refl s.io

theorem Run.forward_reportBits :
    (modify fun t : State => { t with res := .of (valOf t.blk.coder.bits : Int), res2 := .of t.blk.coder.bits.length } :
      Run State Unit).Forward E := fun s => .refl s.io

theorem Run.forward_setWindow (v v' : Reg Nat) :
    (modify fun s => { s with windowBits := v, maxMatchBits := v' } : Run State Unit).Forward E := fun s => .refl s.io

theorem Run.forward_setSides (h w q : Reg Nat) :
    (modify fun s => { s with height := h, width := w, quality := q } : Run State Unit).Forward E := fun s => .refl s.io

theorem Run.forward_setTables : (modify State.setTables : Run State Unit).Forward E := fun s => .refl s.io

theorem Run.forward_ctFwd : (modify State.ctFwd : Run State Unit).Forward E := fun s => .refl s.io

theorem Run.forward_ctInv : (modify State.ctInv : Run State Unit).Forward E := fun s => .refl s.io

/-- An opened reader has read nothing yet (40_bitchannel.md R141). -/
theorem Run.forward_openReaderFree : (modify openReaderFree : Run State Unit).Forward E := fun s => .of_out rfl (.refl s.io.out)

/-! ### LZ78 (41_lz78.md) -/

theorem Run.forward_lz78Record (cfg : Config) (next code : Nat) (literal : Byte) : (lz78Record cfg next code literal).Forward E :=
  .bind (forward_writeVal _ _).onIo fun _ => .bind (forward_setPhase _) fun _ => (forward_writeVal _ _).onIo

theorem Run.forward_lz78EncByte (hfull : E .dictFull) (cfg : Config) (c : Byte) (e : Lz78Enc) : (lz78EncByte cfg c e).Forward E := by
  unfold lz78EncByte
  split
  · exact forward_pure _
  · split
    · exact .bind (forward_lz78Record _ _ _ _) fun _ => forward_pure _
    · exact forward_raise hfull _

theorem Run.forward_lz78Flush (cfg : Config) (e : Lz78Enc) : (lz78Flush cfg e).Forward E := by
  unfold lz78Flush
  split
  · exact forward_pure _
  · split
    · exact forward_lz78Record _ _ _ _
    · exact forward_pure _

theorem Run.forward_lz78DecLoop (hfull : E .dictFull) (hcorrupt : E .corruptCodeword) (htrunc : E .truncatedStream) (cfg : Config)
    (fuel : Nat) (e : Lz78Dec) : (lz78DecLoop cfg fuel e).Forward E := by
  induction fuel generalizing e with
  | zero => exact forward_pure _
  | succ fuel ih =>
    refine .bind (forward_setEngine _) fun _ => .bind (forward_setPhase _) fun _ => .bind (forward_readBits _).onIo fun k => ?_
    cases k with
    | none => exact forward_pure _
    | some k =>
      refine .bind (forward_setPhase _) fun _ => .bind (forward_readBits _).onIo fun l => ?_
      cases l with
      | none =>
        dsimp only
        split
        · exact forward_pure _
        · exact forward_raise htrunc _
      | some l =>
        dsimp only
        split
        · exact forward_raise hcorrupt _
        · split
          · exact forward_raise hcorrupt _
          · refine .bind (forward_emitBytes _).onIo fun _ => ?_
            split
            · exact ih _
            · exact forward_raise hfull _

/-! ### LZW (42_lzw.md) -/

theorem Run.forward_lzwEncByte (hfull : E .dictFull) (cfg : Config) (c : Byte) (e : LzwEnc) : (lzwEncByte cfg c e).Forward E := by
  unfold lzwEncByte
  split
  · exact forward_pure _
  · split
    · exact forward_pure _
    · refine .bind (forward_writeVal _ _).onIo fun _ => ?_
      split
      · exact forward_pure _
      · exact forward_raise hfull _

theorem Run.forward_lzwFlush (cfg : Config) (e : LzwEnc) : (lzwFlush cfg e).IoForward E := by
  unfold lzwFlush
  split
  · exact forward_writeVal _ _
  · exact .bind (forward_writeVal _ _) fun _ => forward_writeVal _ _

theorem Run.forward_lzwDecLoop (hfull : E .dictFull) (hcorrupt : E .corruptCodeword) (htrunc : E .truncatedStream) (cfg : Config)
    (fuel : Nat) (e : LzwDec) : (lzwDecLoop cfg fuel e).Forward E := by
  induction fuel generalizing e with
  | zero => exact forward_pure _
  | succ fuel ih =>
    refine .bind (forward_setEngine _) fun _ => .bind (forward_readBits _).onIo fun k => ?_
    cases k with
    | none => exact forward_raise htrunc _
    | some k =>
      dsimp only
      split
      · exact forward_pure _
      · split
        · split
          · exact forward_raise hcorrupt _
          · exact .bind (forward_emitBytes _).onIo fun _ => ih _
        · split
          · exact forward_raise hcorrupt _
          · split
            · exact .bind (forward_emitBytes _).onIo fun _ => ih _
            · exact forward_raise hfull _

/-! ### LZSS (43_lzss.md) -/

theorem Run.forward_lzssLiteral (p : LzssParams) (b : Byte) (win : List Byte) : (lzssLiteral p b win).Forward E :=
  .bind (forward_setPhase _) fun _ => .bind (forward_writeBits _).onIo fun _ => .bind (forward_writeVal _ _).onIo fun _ =>
    forward_pure _

theorem Run.forward_lzssMatch (p : LzssParams) (t : Nat) (s win : List Byte) : (lzssMatch p t s win).Forward E :=
  .bind (forward_writeBits _).onIo fun _ => .bind (forward_writeVal _ _).onIo fun _ =>
    .bind (forward_writeVal _ _).onIo fun _ => forward_pure _

theorem Run.forward_lzssFallback (p : LzssParams) (bs win : List Byte) : (lzssFallback p bs win).Forward E := by
  induction bs generalizing win with
  | nil => exact forward_pure _
  | cons b rest ih =>
    refine .bind (forward_lzssLiteral _ _ _) fun win' => ?_
    split
    · exact forward_pure _
    · split
      · exact forward_pure _
      · exact ih _

theorem Run.forward_lzssShort (p : LzssParams) (c : Byte) (e : LzssEnc) : (lzssShort p c e).Forward E := by
  unfold lzssShort
  split
  · exact forward_pure _
  · exact forward_lzssFallback _ _ _

theorem Run.forward_lzssProcess (p : LzssParams) (c : Byte) (e : LzssEnc) : (lzssProcess p c e).Forward E := by
  unfold lzssProcess
  split
  · exact forward_pure _
  · split
    · exact .bind (forward_lzssMatch _ _ _ _) fun _ => forward_lzssShort _ _ _
    · exact forward_lzssFallback _ _ _

theorem Run.forward_lzssLiterals (p : LzssParams) (bs win : List Byte) : (lzssLiterals p bs win).Forward E := by
  induction bs generalizing win with
  | nil => exact forward_pure _
  | cons b rest ih => exact .bind (forward_lzssLiteral _ _ _) fun _ => ih _

theorem Run.forward_lzssFlush (p : LzssParams) (e : LzssEnc) : (lzssFlush p e).Forward E := by
  unfold lzssFlush
  split
  · exact .bind (forward_lzssMatch _ _ _ _) fun _ => forward_pure _
  · exact .bind (forward_lzssLiterals _ _ _) fun _ => forward_pure _

theorem Run.forward_lzssHeader (p : LzssParams) : (lzssHeader p).IoForward E :=
  .bind (forward_writeVal _ _) fun _ => forward_writeVal _ _

theorem Run.forward_lzssReadHeader (htrunc : E .truncatedStream) : lzssReadHeader.IoForward E :=
  .bind forward_getByte fun h0 => .bind forward_getByte fun h1 => by
    cases h0 <;> cases h1
    case some.some => exact Run.Does.done Io.Forward.refl _
    all_goals exact Run.Does.stopBare Io.Forward.refl htrunc

theorem Run.forward_lzssDecLoop (hcorrupt : E .corruptCodeword) (htrunc : E .truncatedStream) (w m fuel : Nat) (win : List Byte) :
    (lzssDecLoop w m fuel win).Forward E := by
  induction fuel generalizing win with
  | zero => exact forward_pure _
  | succ fuel ih =>
    refine .bind (forward_setEngine _) fun _ => .bind (forward_setPhase _) fun _ => .bind (forward_readBits _).onIo fun flag => ?_
    cases flag with
    | none => exact forward_pure _
    | some flag =>
      cases flag with
      | zero =>
        refine .bind (forward_setPhase _) fun _ => .bind (forward_readBits _).onIo fun b => ?_
        cases b with
        | none => exact forward_pure _
        | some b => exact .bind (forward_emitBytes _).onIo fun _ => ih _
      | succ flag =>
        refine .bind (forward_readBits _).onIo fun t => .bind (forward_readBits _).onIo fun l => ?_
        split
        · split
          · exact forward_raise hcorrupt _
          · exact .bind (forward_emitBytes _).onIo fun _ => ih _
        · exact forward_raiseBare htrunc

/-! ### The characters of the image path (45_huffman.md R257) -/

/-- The coder's characters as a stream: those left, and how many have been taken. -/
def Coder.source (c : Coder) : InStream := ⟨c.line, c.pos⟩

/-- The exceptions of a piece that decodes characters (45_huffman.md R253, 46_rle_entropy.md R276, R279). -/
def ReadError (e : Exc) : Prop := e = .corruptCodeword ∨ e = .truncatedStream

/-- Whatever it does, the piece takes characters from the coder's source in order, and raises no other exception than those of reading. -/
def Run.Reads (coder : σ → Coder) (m : Run σ α) : Prop := m.Does (fun p q => (coder p).source.Advances (coder q).source) ReadError

section
variable {coder : σ → Coder}

theorem Run.Reads.bind {m : Run σ α} {f : α → Run σ β} (hm : m.Reads coder) (hf : ∀ a, (f a).Reads coder) :
    (m >>= f).Reads coder :=
  Run.Does.bind (R := fun p q : σ => (coder p).source.Advances (coder q).source) (fun _ _ _ => InStream.Advances.trans) hm hf

theorem Run.reads_pure (a : α) : (pure a : Run σ α).Reads coder := Run.Does.done (fun p => .refl (coder p).source) a

theorem Run.reads_corrupt (i : Int) : (raise .corruptCodeword i : Run σ α).Reads coder :=
  Run.Does.stop (fun p => .refl (coder p).source) (.inl rfl) i

theorem Run.reads_truncated : (raiseBare .truncatedStream : Run σ α).Reads coder :=
  Run.Does.stopBare (fun p => .refl (coder p).source) (.inr rfl)

end

theorem Run.Reads.onCoder {m : Run Coder α} (hm : m.Reads id) : (onCoder m).Reads BlockUnit.coder := Run.Does.on hm fun _ _ h => h

/-- `NextBit()` takes one character, whatever it is, or finds the source ended. -/
theorem Run.reads_nextBit : nextBit.Reads id := by
  intro c
  cases hl : c.line with
  | nil =>
    rw [nextBit_end hl]
    exact .refl _
  | cons ch rest =>
    have htake : c.source.Advances (Coder.source { c with line := rest, pos := c.pos + 1 }) := ⟨[ch], hl, rfl⟩
    by_cases h0 : ch = 0x30
    · rw [nextBit_bit (b := false) (hl.trans (by rw [h0]; rfl))]
      exact htake
    · by_cases h1 : ch = 0x31
      · rw [nextBit_bit (b := true) (hl.trans (by rw [h1]; rfl))]
        exact htake
      · by_cases hf : ch = lineFeed
        · rw [nextBit_lineFeed (hl.trans (by rw [hf]))]
          exact htake
        · rw [nextBit_stray hl h0 h1 hf]
          exact ⟨htake, .inl rfl⟩

theorem Run.reads_huffDecode (t : Trie) (used : Nat) : (huffDecode t used).Reads id := by
  induction t generalizing used with
  | empty => exact reads_corrupt _
  | leaf sym code => exact reads_pure _
  | node l r b ihl ihr =>
    refine .bind reads_nextBit fun bit => ?_
    match bit with
    | none => exact reads_truncated
    | some false => exact ihl _
    | some true => exact ihr _

theorem Run.reads_takeBits (n : Nat) : (takeBits n).Reads id := by
  induction n with
  | zero => exact reads_pure _
  | succ n ih =>
    refine .bind reads_nextBit fun bit => ?_
    cases bit with
    | none => exact reads_truncated
    | some b => exact .bind ih fun _ => reads_pure _

theorem Run.reads_entDecode (n : Nat) : (entDecode n).Reads id := .bind (reads_takeBits n) fun _ => reads_pure _

theorem Run.reads_setSeq (i : Nat) (v : Int) : (setSeq i v).Reads BlockUnit.coder := fun b => .refl b.coder.source

theorem Run.reads_zeroSeq (i n : Nat) : (zeroSeq i n).Reads BlockUnit.coder := by
  induction n generalizing i with
  | zero => exact reads_pure ()
  | succ n ih => exact .bind (reads_setSeq i 0) fun _ => ih (i + 1)

theorem Run.reads_decodeAc (ac : Trie) (fuel i : Nat) : (decodeAc ac fuel i).Reads BlockUnit.coder := by
  induction fuel generalizing i with
  | zero => exact reads_pure ()
  | succ fuel ih =>
    unfold decodeAc
    split
    · exact reads_pure ()
    · refine .bind (reads_huffDecode _ _).onCoder fun rs => ?_
      split_ifs
      · exact reads_zeroSeq _ _
      · exact reads_corrupt _
      · exact .bind (reads_zeroSeq _ _) fun _ => ih _
      · exact reads_corrupt _
      · exact reads_corrupt _
      · exact .bind (reads_zeroSeq _ _) fun _ => .bind (reads_entDecode _).onCoder fun _ => .bind (reads_setSeq _ _) fun _ => ih _

theorem Run.reads_decodeBlock (cfg : Config) (chroma : Bool) : (decodeBlock cfg chroma).Reads BlockUnit.coder :=
  .bind (reads_huffDecode _ _).onCoder fun _ => .bind (reads_entDecode _).onCoder fun _ => .bind (reads_setSeq _ _) fun _ =>
    reads_decodeAc _ _ _

/-- The characters a coder took from `IN` are the bytes that `IN` gives up (R257, R61). -/
theorem takeLine_forward {s : State} (b : BlockUnit) (h : InStream.Advances ⟨s.io.inp.rest, 0⟩ b.coder.source) :
    s.io.Forward (takeLine { s with blk := b }).io := by
  obtain ⟨read, hr, hc⟩ := h
  refine .of_inp ⟨read, hr, ?_⟩ rfl
  simpa [Coder.source] using hc

theorem Run.Reads.withSource {m : Run BlockUnit α} (hm : m.Reads BlockUnit.coder) : (withSource m).Forward ReadError := by
  intro s
  have h := hm { s.blk with coder := { Coder.fresh with line := s.io.inp.rest } }
  unfold Machine.withSource
  rw [onBlk_apply]
  cases hr : m { s.blk with coder := { Coder.fresh with line := s.io.inp.rest } } with
  | ok a b =>
    simp only [hr] at h ⊢
    exact takeLine_forward (s := s) b h
  | error r b =>
    simp only [hr] at h ⊢
    exact ⟨takeLine_forward (s := s) b h.1, h.2⟩

/-- Forgetting `SEQ` touches no stream. -/
theorem State.forgetSeq_io (s : State) : s.forgetSeq.io = s.io := by rw [State.forgetSeq_eq]

theorem Run.forward_rleDecBody (cfg : Config) (chroma : Bool) : (rleDecBody cfg chroma).Forward ReadError := by
  intro s
  have h := (reads_decodeBlock cfg chroma).withSource s
  unfold rleDecBody
  cases hr : withSource (decodeBlock cfg chroma) s with
  | ok a t => simpa only [hr] using h
  | error r t =>
    simp only [hr, State.forgetSeq_io] at h ⊢
    exact h

/-! ### The image pass (47_image_pipeline.md) -/

theorem Run.forward_forPlanes {m : Fin 3 → Run State Unit} (hm : ∀ p, (m p).Forward E) (ps : List (Fin 3)) :
    (forPlanes m ps).Forward E := by
  induction ps with
  | nil => exact forward_pure _
  | cons p ps ih => exact .bind (hm p) fun _ => ih

/-- Of the image pass's work on a plane only the line is written to `OUT`. -/
theorem Run.forward_encodePlane (p : Fin 3) : (encodePlane p).Forward fun _ => True := by
  have htiles : (allTiles (encodeTile p)).Changes [.blkf, .blki, .seq] :=
    changes_allTiles (changes_encodeTile (by simp) (by simp) (by simp) p)
  exact .bind (forward_setPhase _) fun _ => .bind ((changes_setCoder (W := []) _).forward (by simp) (by simp)) fun _ =>
    .bind (htiles.forward (by simp) (by simp)) fun _ => .bind (forward_setPhase _) fun _ =>
      .bind (changes_get (W := []).forward (by simp) (by simp)) fun _ => (forward_emitBytes _).onIo

/-- Of the image pass's work on a plane only the line is read from `IN`. -/
theorem Run.forward_decodePlane (p : Fin 3) : (decodePlane p).Forward fun _ => True := by
  have htiles : (allTiles (decodeTile p)).Changes [.blkf, .blki, .seq, .ycc] :=
    changes_allTiles (changes_decodeTile (by simp) (by simp) (by simp) (by simp) p)
  refine .bind forward_readLine.onIo fun _ => .bind ((changes_setCoder (W := []) _).forward (by simp) (by simp)) fun _ =>
    .bind (htiles.forward (by simp) (by simp)) fun _ => .bind (changes_get (W := []).forward (by simp) (by simp)) fun _ => ?_
  split
  · exact forward_pure _
  · exact forward_raise trivial _

end Sys2Proof.Machine
end

section
/-! Every command moves the streams forward (20_memory.md R61, R62): from the work of a command, which may open `OUT` first, to the
command. -/

namespace Sys2Proof.Machine

variable {α : Type}

/-! ### From the work of a command to the command -/

/-- The piece consumes `IN` in order, and appends to `OUT` if it was open. -/
def Run.ForwardIfOpen (m : Run State α) : Prop := m.Does (fun s t => s.io.ForwardIfOpen t.io) fun _ => True

theorem Run.Forward.ifOpen {E : Exc → Prop} {m : Run State α} (hm : m.Forward E) : m.ForwardIfOpen :=
  Run.Does.mono hm (fun _ _ => Io.Forward.ifOpen) fun _ _ => trivial

/-- A command's work opens `OUT` at most once, before it writes. -/
theorem Run.ForwardIfOpen.bind {m : Run State α} {f : α → Run State Unit} (hm : m.ForwardIfOpen)
    (hf : ∀ a, (f a).Forward fun _ => True) : (m >>= f).ForwardIfOpen := by
  intro s
  have h := hm s
  rw [Run.bind_apply]
  cases hr : m s with
  | error r t => simpa only [hr] using h
  | ok a t =>
    simp only [hr] at h ⊢
    have h' := hf a t
    cases hr' : f a t <;> simp only [hr'] at h' ⊢
    · exact h.trans h'
    · exact ⟨h.trans h'.1, trivial⟩

/-- Opening the reader first touches neither stream. -/
theorem Run.ForwardIfOpen.after_openReader {m : Run State Unit} (hm : m.ForwardIfOpen) :
    (modify openReaderFree >>= fun _ => m).ForwardIfOpen := by
  intro s
  have h := hm (openReaderFree s)
  rw [Run.bind_apply, Run.modify_apply]
  cases hr : m (openReaderFree s) <;> simp only [hr] at h ⊢
  · exact ⟨h.inp, h.out⟩
  · exact ⟨⟨h.1.inp, h.1.out⟩, trivial⟩

theorem Run.forwardIfOpen_openOut : (onIo (modify openOut)).ForwardIfOpen := fun s => openOut_forwardIfOpen s.io

theorem Run.forwardIfOpen_openWriter : (onIo (modify openWriter)).ForwardIfOpen := fun s => openWriter_forwardIfOpen s.io

/-- A stand-alone coding command opens `OUT`, and then only appends its characters. -/
theorem Run.forwardIfOpen_withSink (m : Run BlockUnit α) : (withSink m).ForwardIfOpen := by
  intro s
  have h (bits : Bits) : s.io.ForwardIfOpen (outBytes (bits.map bitChar) (openOut s.io)) :=
    (openOut_forwardIfOpen s.io).trans (outBytes_forward _ _)
  unfold withSink
  rw [onBlk_apply]
  cases m { s.blk with coder := .fresh } with
  | ok a b => exact h _
  | error r b => exact ⟨h _, trivial⟩

theorem State.released_forward (s : State) : s.io.Forward s.released.io := .of_out rfl (.of_bytes_eq (by simp))

theorem runChannel_forwardIfOpen {bad : State → List Nat} {body : Run State Unit} {s t : State} (hb : body.ForwardIfOpen)
    (h : runChannel bad body s = .next t) : s.io.ForwardIfOpen t.io := by
  have hu := hb (s.start .compute)
  rcases runChannel_cases bad body s t h with ⟨i, rest, -, rfl⟩ | ⟨-, u, hok, rfl⟩ | ⟨-, r, u, herr, rfl⟩
  · rw [State.raised_io]
    exact ⟨.refl _, fun _ => .refl _⟩
  · simp only [hok] at hu
    exact ⟨hu.inp, hu.out⟩
  · simp only [herr] at hu
    rw [State.raised_io]
    exact ⟨hu.1.inp, hu.1.out⟩

theorem runUnit_forwardIfOpen {p : Phase} {bad : State → List Nat} {body : Run State Unit} {s t : State} (hb : body.ForwardIfOpen)
    (h : runUnit p bad body s = .next t) : s.io.ForwardIfOpen t.io := by
  have hstart : ∀ {u : State}, (s.start p).dropChannel.io.ForwardIfOpen u.io → s.io.ForwardIfOpen u.released.io := fun {u} hu =>
    .trans (j := u.io) ⟨hu.inp, hu.out⟩ u.released_forward
  have hu := hb (s.start p).dropChannel
  rcases runUnit_cases p bad body s t h with ⟨i, rest, -, rfl⟩ | ⟨-, u, hok, rfl⟩ | ⟨-, r, u, herr, rfl⟩
  · rw [State.raised_io]
    exact hstart (Io.Forward.refl _).ifOpen
  · simp only [hok] at hu
    exact hstart hu
  · simp only [herr] at hu
    rw [State.raised_io]
    exact hstart hu.1

/-! ### The commands -/

section
variable {s t : State}

theorem execBcOpenw_forward (h : execBcOpenw s = .next t) : s.io.ForwardIfOpen t.io :=
  runChannel_forwardIfOpen Run.forwardIfOpen_openWriter h

theorem execBcWrbits_forward (h : execBcWrbits s = .next t) : s.io.ForwardIfOpen t.io :=
  runChannel_forwardIfOpen (Run.forward_writeBits (E := fun _ => True) _).onIo.ifOpen h

theorem execBcWrval_forward (h : execBcWrval s = .next t) : s.io.ForwardIfOpen t.io :=
  runChannel_forwardIfOpen (Run.forward_writeVal (E := fun _ => True) _ _).onIo.ifOpen h

theorem execBcRdbits_forward (h : execBcRdbits s = .next t) : s.io.ForwardIfOpen t.io :=
  runChannel_forwardIfOpen (.bind (Run.forward_readBits (E := fun _ => True) _).onIo.ifOpen fun _ =>
    Run.forward_setRes _) h

theorem execBcClose_forward (h : execBcClose s = .next t) : s.io.ForwardIfOpen t.io :=
  runChannel_forwardIfOpen (Run.forward_closeChannel (E := fun _ => True) _).onIo.ifOpen h

theorem execLz78Enc_forward (h : execLz78Enc s = .next t) : s.io.ForwardIfOpen t.io :=
  runUnit_forwardIfOpen (.bind Run.forwardIfOpen_openWriter fun _ => .bind (Run.forward_setEngine _) fun _ =>
    .bind (Run.forward_forInput _ (Run.forward_lz78EncByte trivial _) _ _) fun _ => .bind (Run.forward_setPhase _) fun _ =>
      .bind (Run.forward_lz78Flush _ _) fun _ => .bind (Run.forward_setPhase _) fun _ => (Run.forward_closeChannel _).onIo) h

theorem execLz78Dec_forward (h : execLz78Dec s = .next t) : s.io.ForwardIfOpen t.io :=
  runUnit_forwardIfOpen (.after_openReader (.bind Run.forwardIfOpen_openOut fun _ =>
    .bind (Run.forward_lz78DecLoop trivial trivial trivial _ _ _) fun _ => Run.forward_setPhase _)) h

theorem execLzwEnc_forward (h : execLzwEnc s = .next t) : s.io.ForwardIfOpen t.io :=
  runUnit_forwardIfOpen (.bind Run.forwardIfOpen_openWriter fun _ => .bind (Run.forward_setEngine _) fun _ =>
    .bind (Run.forward_forInput _ (Run.forward_lzwEncByte trivial _) _ _) fun _ => .bind (Run.forward_setPhase _) fun _ =>
      .bind (Run.forward_lzwFlush _ _).onIo fun _ => .bind (Run.forward_setPhase _) fun _ => (Run.forward_closeChannel _).onIo) h

theorem execLzwDec_forward (h : execLzwDec s = .next t) : s.io.ForwardIfOpen t.io :=
  runUnit_forwardIfOpen (.after_openReader (.bind Run.forwardIfOpen_openOut fun _ =>
    .bind (Run.forward_lzwDecLoop trivial trivial trivial _ _ _) fun _ => Run.forward_setPhase _)) h

theorem execLzssEnc_forward (h : execLzssEnc s = .next t) : s.io.ForwardIfOpen t.io :=
  runUnit_forwardIfOpen (.bind Run.forwardIfOpen_openWriter fun _ => .bind (Run.forward_setEngine _) fun _ =>
    .bind (Run.forward_lzssHeader _).onIo fun _ => .bind (Run.forward_forInput _ (Run.forward_lzssProcess _) _ _) fun _ =>
      .bind (Run.forward_setPhase _) fun _ => .bind (Run.forward_lzssFlush _ _) fun _ => .bind (Run.forward_setEngine _) fun _ =>
        .bind (Run.forward_setPhase _) fun _ => (Run.forward_closeChannel _).onIo) h

theorem execLzssDec_forward (h : execLzssDec s = .next t) : s.io.ForwardIfOpen t.io :=
  runUnit_forwardIfOpen (.bind Run.forwardIfOpen_openOut fun _ => .bind (Run.forward_lzssReadHeader trivial).onIo fun _ =>
    .bind (Run.forward_setWindow _ _) fun _ => .bind Run.forward_openReaderFree fun _ =>
      .bind (Run.forward_lzssDecLoop trivial trivial _ _ _ _) fun _ => Run.forward_setPhase _) h

theorem execHufEnc_forward (h : execHufEnc s = .next t) : s.io.ForwardIfOpen t.io :=
  runUnit_forwardIfOpen (.bind (Run.forwardIfOpen_withSink _) fun _ => Run.forward_reportBits) h

theorem execHufDec_forward (h : execHufDec s = .next t) : s.io.ForwardIfOpen t.io :=
  runUnit_forwardIfOpen (.bind (Run.reads_huffDecode _ _).onCoder.withSource.ifOpen fun _ =>
    Run.forward_setRes _) h

theorem execEntEnc_forward (h : execEntEnc s = .next t) : s.io.ForwardIfOpen t.io :=
  runUnit_forwardIfOpen (.bind (Run.forwardIfOpen_withSink _) fun _ => Run.forward_reportBits) h

theorem execEntDec_forward (h : execEntDec s = .next t) : s.io.ForwardIfOpen t.io :=
  runUnit_forwardIfOpen (.bind (Run.reads_entDecode _).onCoder.withSource.ifOpen fun _ =>
    Run.forward_setRes _) h

theorem execRleEnc_forward (h : execRleEnc s = .next t) : s.io.ForwardIfOpen t.io :=
  runUnit_forwardIfOpen (Run.forwardIfOpen_withSink _) h

theorem execRleDec_forward (h : execRleDec s = .next t) : s.io.ForwardIfOpen t.io :=
  runUnit_forwardIfOpen (Run.forward_rleDecBody _ _).ifOpen h

theorem execImgEnc_forward (h : execImgEnc s = .next t) : s.io.ForwardIfOpen t.io :=
  runUnit_forwardIfOpen (.bind Run.forwardIfOpen_openOut fun _ => .bind Run.forward_ctFwd fun _ =>
    .bind Run.forward_setTables fun _ => .bind (Run.forward_setPhase _) fun _ =>
      .bind (Run.forward_emitBytes _).onIo fun _ => Run.forward_forPlanes Run.forward_encodePlane _) h

theorem execImgDec_forward (h : execImgDec s = .next t) : s.io.ForwardIfOpen t.io := by
  refine runUnit_forwardIfOpen (.bind (Run.forward_readLine (E := fun _ => True)).onIo.ifOpen fun line => ?_) h
  split
  · exact Run.forward_raise trivial _
  · exact .bind (Run.forward_setSides _ _ _) fun _ => .bind (Run.forward_setPhase _) fun _ =>
      .bind Run.forward_setTables fun _ => .bind (Run.forward_setPhase _) fun _ =>
        .bind (Run.forward_forPlanes Run.forward_decodePlane _) fun _ => .bind (Run.forward_setPhase _) fun _ =>
          Run.forward_ctInv

/-- Every command moves the streams forward; one that lists neither stream in `writtenBy` leaves both alone. -/
theorem exec_forward {i : Instr} (h : exec i s = .next t) : s.io.ForwardIfOpen t.io := by
  cases i with
  | bcOpenw => exact execBcOpenw_forward h
  | bcWrbits => exact execBcWrbits_forward h
  | bcWrval => exact execBcWrval_forward h
  | bcRdbits => exact execBcRdbits_forward h
  | bcClose => exact execBcClose_forward h
  | lz78Enc => exact execLz78Enc_forward h
  | lz78Dec => exact execLz78Dec_forward h
  | lzwEnc => exact execLzwEnc_forward h
  | lzwDec => exact execLzwDec_forward h
  | lzssEnc => exact execLzssEnc_forward h
  | lzssDec => exact execLzssDec_forward h
  | hufEnc => exact execHufEnc_forward h
  | hufDec => exact execHufDec_forward h
  | entEnc => exact execEntEnc_forward h
  | entDec => exact execEntDec_forward h
  | rleEnc => exact execRleEnc_forward h
  | rleDec => exact execRleDec_forward h
  | imgEnc => exact execImgEnc_forward h
  | imgDec => exact execImgDec_forward h
  | bcOpenr | dctFwd | dctInv | qSetq | qQuant | qDequant | zzFwd | zzInv | ctFwd | ctInv =>
    exact ((exec_changes h).forward (by simp [writtenBy]) (by simp [writtenBy])).ifOpen

end

/-- Settles O15: `exec_forward`, whose two relations are those of the statement. -/
theorem streamsOnlyMoveForward : Obligations.StreamsOnlyMoveForward := by
  intro i s t h
  obtain ⟨hinp, hout⟩ := exec_forward h
  exact ⟨hinp, hout⟩

end Sys2Proof.Machine
end

section
/-! The command byte (30_encoding.md R90 to R95): the table of R94 read in both directions, and what a step does with the byte that the
host writes to `CMD`. -/

namespace Sys2Proof

/-! ### The table of R94 -/

/-- R95: units 10 to 15 have no command. -/
theorem unitCommands_eq_nil {u : Nat} (h : 10 ≤ u) : unitCommands u = [] := by
  obtain ⟨k, rfl⟩ := Nat.exists_eq_add_of_le' h
  rfl

/-- The codes of R94 are the places of the commands in the table: `unit` in bits 7:4, `func` in bits 3:0 (R91). -/
theorem toNat_encode_getElem :
    ∀ u < 10, ∀ (f : Nat) (h : f < (unitCommands u).length), (encode (unitCommands u)[f]).toNat = 16 * u + f := by
  decide

theorem toNat_encode_of_getElem? {u f : Nat} {i : Instr} (h : (unitCommands u)[f]? = some i) :
    (encode i).toNat = 16 * u + f := by
  obtain ⟨hf, rfl⟩ := List.getElem?_eq_some_iff.mp h
  have hu : u < 10 := by
    by_contra hu
    simp [unitCommands_eq_nil (Nat.le_of_not_lt hu)] at hf
  exact toNat_encode_getElem u hu f hf

/-! ### The decoder -/

theorem decode_eq_ok_iff {b : Byte} {i : Instr} :
    decode b = .ok i ↔ (unitCommands (unitField b))[funcField b]? = some i := by
  unfold decode
  split
  · next j hj => simp [hj]
  · next hj => split <;> simp [hj]

theorem decodeBytes_cons_eq_ok_iff {b : Byte} {bs rest : List Byte} {i : Instr} :
    decodeBytes (b :: bs) = .ok (i, rest) ↔ decode b = .ok i ∧ bs = rest := by
  cases h : decode b <;> simp [decodeBytes, Except.map, h]

/-- The round trip of `Laws.RoundTrip`, for every command. -/
theorem roundTrip (i : Instr) : Laws.RoundTrip.Statement i := by
  cases i with
  | bcOpenw => exact Laws.RoundTrip.bcOpenw
  | bcOpenr => exact Laws.RoundTrip.bcOpenr
  | bcWrbits => exact Laws.RoundTrip.bcWrbits
  | bcWrval => exact Laws.RoundTrip.bcWrval
  | bcRdbits => exact Laws.RoundTrip.bcRdbits
  | bcClose => exact Laws.RoundTrip.bcClose
  | lz78Enc => exact Laws.RoundTrip.lz78Enc
  | lz78Dec => exact Laws.RoundTrip.lz78Dec
  | lzwEnc => exact Laws.RoundTrip.lzwEnc
  | lzwDec => exact Laws.RoundTrip.lzwDec
  | lzssEnc => exact Laws.RoundTrip.lzssEnc
  | lzssDec => exact Laws.RoundTrip.lzssDec
  | dctFwd => exact Laws.RoundTrip.dctFwd
  | dctInv => exact Laws.RoundTrip.dctInv
  | qSetq => exact Laws.RoundTrip.qSetq
  | qQuant => exact Laws.RoundTrip.qQuant
  | qDequant => exact Laws.RoundTrip.qDequant
  | zzFwd => exact Laws.RoundTrip.zzFwd
  | zzInv => exact Laws.RoundTrip.zzInv
  | hufEnc => exact Laws.RoundTrip.hufEnc
  | hufDec => exact Laws.RoundTrip.hufDec
  | entEnc => exact Laws.RoundTrip.entEnc
  | entDec => exact Laws.RoundTrip.entDec
  | rleEnc => exact Laws.RoundTrip.rleEnc
  | rleDec => exact Laws.RoundTrip.rleDec
  | ctFwd => exact Laws.RoundTrip.ctFwd
  | ctInv => exact Laws.RoundTrip.ctInv
  | imgEnc => exact Laws.RoundTrip.imgEnc
  | imgDec => exact Laws.RoundTrip.imgDec

/-- R94: a command's byte decodes to it. -/
@[simp] theorem decode_encode (i : Instr) : decode (encode i) = .ok i :=
  (decodeBytes_cons_eq_ok_iff.mp (roundTrip i).2).1

/-- R91: the two fields are the whole byte, so the place in the table that a byte names determines the byte. -/
theorem eq_encode_of_decode {b : Byte} {i : Instr} (h : decode b = .ok i) : b = encode i := by
  have hplace : (encode i).toNat = 16 * unitField b + funcField b := toNat_encode_of_getElem? (decode_eq_ok_iff.mp h)
  have hfields : 16 * unitField b + funcField b = b.toNat := Nat.div_add_mod b.toNat 16
  exact BitVec.eq_of_toNat_eq (hplace.trans hfields).symm

/-- R95: a byte of no command is refused. -/
theorem decode_eq_error {b : Byte} (hb : ∀ i, b ≠ encode i) : ∃ r, decode b = .error r := by
  cases h : decode b with
  | error r => exact ⟨r, rfl⟩
  | ok i => exact absurd (eq_encode_of_decode h) (hb i)

/-- Settles O1: a command's byte decodes to it by the round trip of each command, and back by the two fields of the byte. -/
theorem decodeInvertsEncode : Obligations.DecodeInvertsEncode := by
  unfold Obligations.DecodeInvertsEncode
  refine ⟨fun i rest => ⟨(roundTrip i).1, decodeBytes_cons_eq_ok_iff.mpr ⟨decode_encode i, rfl⟩⟩, fun bs rest i h => ?_⟩
  cases bs with
  | nil => cases h
  | cons b bs =>
    obtain ⟨hi, rfl⟩ := decodeBytes_cons_eq_ok_iff.mp h
    rw [eq_encode_of_decode hi]

/-- Settles O2: the bytes of commands by the round trip, the two reserved bytes by the decoder's last branch. -/
theorem decodeSampleBytes : Obligations.DecodeSampleBytes := by
  unfold Obligations.DecodeSampleBytes
  exact ⟨decode_encode .bcOpenw, decode_encode .bcClose, decode_encode .lz78Dec, decode_encode .lzwEnc, decode_encode .lzssDec,
    decode_encode .dctFwd, decode_encode .qDequant, decode_encode .zzInv, decode_encode .hufEnc, decode_encode .rleDec,
    decode_encode .imgEnc, rfl, rfl⟩

end Sys2Proof

namespace Sys2Proof.Machine

/-! ### A byte written to `CMD` -/

/-- R325: the byte of a command runs it. -/
theorem State.command_of_decode_ok {b : Byte} {i : Instr} (s : State) (h : decode b = .ok i) : s.command b = exec i s := by
  simp [State.command, h]

/-- R95: any other byte is an illegal command. -/
theorem State.command_of_ne_encode {b : Byte} (s : State) (hb : ∀ i, b ≠ encode i) :
    s.command b = .next (s.illegalCommand b) := by
  obtain ⟨r, hr⟩ := decode_eq_error hb
  simp [State.command, hr]

/-- R95, R322: what `IllegalCommand` changes. -/
theorem State.illegalCommand_eq (b : Byte) (s : State) :
    s.illegalCommand b = { s with run := .error, err := some .illegalCommand, errinfo := (b.toNat : Int), phase := .none } := rfl

/-- R329: while no command runs, `CMD` takes the byte at the head of the host's queue. -/
theorem step_of_cmd {s : State} {b : Byte} {rest : List HostAct} (hhost : s.host = .cmd b :: rest) (hrun : s.run ≠ .busy) :
    step s = ({ s with host := rest } : State).command b := by
  simp [step, State.hostStep, State.act, hhost, hrun]

/-- Settles O3: `CMD` takes the byte, and no command has it. -/
theorem reservedByteRaisesIllegalCommand : Obligations.ReservedByteRaisesIllegalCommand := by
  intro s b rest hhost hrun hb
  rw [step_of_cmd hhost hrun, State.command_of_ne_encode _ hb, State.illegalCommand_eq]

/-- Settles O4: `CMD` takes the byte, and the command it decodes to runs. -/
theorem stepRunsDecodedCommand : Obligations.StepRunsDecodedCommand := by
  intro s b rest i hhost hrun hi
  rw [step_of_cmd hhost hrun, State.command_of_decode_ok _ hi]

end Sys2Proof.Machine
end

section
/-! The BitChannel commands (40_bitchannel.md R131 to R141): what each of the six does to the streams and to the bits on them, and the
round trip of R139 through a writer and a reader. -/

namespace Sys2Proof.Claims

open Sys2Proof.Machine

/-- A BitChannel command that completed leaves the streams it is said to. -/
theorem ChannelDone.io_eq {s t : State} {io : Io} (h : ChannelDone s io t) : t.io = io := congrArg State.io h

/-- The streams such a command leaves, said in another way. -/
theorem ChannelDone.congr {s t : State} {io io' : Io} (h : ChannelDone s io t) (hio : io = io') : ChannelDone s io' t := hio ▸ h

end Sys2Proof.Claims

namespace Sys2Proof.Machine

open Sys2Proof.Claims

/-! ### How a BitChannel command completes -/

/-- A BitChannel command whose work is one update of the streams: it completes with that update of the streams, `EOS` cleared before it. -/
theorem runChannel_modify_io {bad : State → List Nat} {s : State} (f : Io → Io) (hb : bad s = []) :
    ∃ t, runChannel bad (onIo (modify f)) s = .next t ∧ ChannelDone s (f (s.io.setEos false)) t :=
  ⟨_, runChannel_ok hb rfl, rfl⟩

/-- The bound on a width (`VALUE_MAX_WIDTH`) is kept. -/
theorem withinBound_iff {bound : Option Nat} {v : Nat} : withinBound bound v = true ↔ ∀ m ∈ bound, v ≤ m := by
  cases bound <;> simp [withinBound]

/-- R131: when the operands of BC.WRBITS do not offend. -/
theorem wrbitsBad_eq_nil {s : State} (ha : s.a.written = true) (hn : s.n.written = true) (h0 : 0 ≤ s.a.val)
    (hlt : s.a.val < 2 ^ s.n.val) (ho : s.io.wtr.isOpen = true) : wrbitsBad s = [] := by
  simp [wrbitsBad, ha, hn, h0, hlt, ho]

/-- R132, R133: when the operands of BC.WRVAL do not offend. -/
theorem wrvalBad_eq_nil {s : State} (ha : s.a.written = true) (hn : s.n.written = true) (h0 : -128 ≤ s.a.val)
    (hm : ∀ m ∈ s.cfg.valueMaxWidth, s.n.val ≤ m) (ho : s.io.wtr.isOpen = true) : wrvalBad s = [] := by
  simp [wrvalBad, ha, hn, h0, withinBound_iff.mpr hm, ho]

/-- R134: when the operands of BC.RDBITS do not offend. -/
theorem rdbitsBad_eq_nil {s : State} (hn : s.n.written = true) (hm : ∀ m ∈ s.cfg.valueMaxWidth, s.n.val ≤ m)
    (ho : s.io.rdr.isOpen = true) : rdbitsBad s = [] := by
  simp [rdbitsBad, hn, withinBound_iff.mpr hm, ho]

/-! ### The bits of a fresh writer and a fresh reader -/

/-- Strings written one after the other are their concatenation written at once. -/
theorem foldl_wrBits (strings : List Bits) (io : Io) :
    strings.foldl (fun c s => wrBits s c) io = wrBits strings.flatten io := List.foldl_flatten.symm

/-- R141: what a fresh reader can deliver is the bits of `IN`. -/
@[simp] theorem pendingBits_openReader (free : Byte) (io : Io) : pendingBits (openReader free io) = streamBits io.inp.rest := by
  simp [pendingBits]

/-- `CLOSE` pads to the next whole byte (R139). -/
theorem bytes_length_of_padded {bytes : List Byte} {bits : Bits} (h : streamBits bytes = padded bits) :
    bytes.length = (bits.length + 7) / 8 := by
  have hlen := congrArg List.length h
  rw [streamBits_length, padded_length, padLength] at hlen
  omega

/-- R139: strings written through a fresh writer on an empty `OUT` and closed stand there packed and padded. -/
theorem closeChannel_wrBits_openWriter (embedded : Bool) (bits : Bits) {io : Io} (h : io.out.opened.bytes = []) :
    streamBits (closeChannel embedded (wrBits bits (openWriter io))).out.bytes = padded bits := by
  obtain ⟨hsound, hfresh⟩ := openWriter_spec io
  obtain ⟨hbits, hsound', hopen, -⟩ := wrBits_spec bits (openWriter io) hsound rfl
  rw [(closeChannel_spec embedded _ hsound' hopen).1, hbits, hfresh, h, streamBits_nil, List.nil_append]

/-- `val(0^p) = 0`. -/
theorem valOf_replicate_false (p : Nat) : valOf (List.replicate p false) = 0 := by
  induction p with
  | zero => rfl
  | succ p ih => rw [List.replicate_succ, valOf_cons, ih]; simp

/-- R139: reads of the widths of the strings that are pending return their values, and leave what follows them. -/
theorem readAll_of_pendingBits (strings : List Bits) (rest : Bits) (io : Io) (hcnt : io.rdr.cnt ≤ 8) (hexh : io.rdr.exh = false)
    (hp : pendingBits io = strings.flatten ++ rest) :
    (readAll (strings.map List.length) io).1 = strings.map (fun s => some (valOf s))
      ∧ pendingBits (readAll (strings.map List.length) io).2 = rest
      ∧ (readAll (strings.map List.length) io).2.rdr.cnt ≤ 8 ∧ (readAll (strings.map List.length) io).2.rdr.exh = false := by
  induction strings generalizing io with
  | nil => exact ⟨rfl, hp, hcnt, hexh⟩
  | cons s strings ih =>
    rw [List.flatten_cons, List.append_assoc] at hp
    obtain ⟨hval, hleft, hcnt', hexh', -⟩ := rdBits_ok s.length io hcnt hexh (by simp [hp])
    rw [hp, List.take_left] at hval
    rw [hp, List.drop_left] at hleft
    obtain ⟨hvals, hafter⟩ := ih _ hcnt' hexh' hleft
    exact ⟨congrArg₂ List.cons hval hvals, hafter⟩

/-- R139: a read when only p padding zeros are pending returns 0 while they last, then the sentinel. -/
theorem rdBits_of_pendingBits_zeros {n p : Nat} {io : Io} (hcnt : io.rdr.cnt ≤ 8) (hexh : io.rdr.exh = false)
    (hp : pendingBits io = List.replicate p false) : (rdBits n io).1 = if n ≤ p then some 0 else none := by
  split
  case isTrue hn =>
    rw [(rdBits_ok n io hcnt hexh (by simpa [hp] using hn)).1, hp, List.take_replicate, valOf_replicate_false]
  case isFalse hn => exact (rdBits_sentinel n io hcnt hexh (by simpa [hp] using hn)).1

/-- Settles O20: the writer leaves the strings padded on `OUT`, so the reader has the strings and then the padding before it. -/
theorem channelRoundTrip : Obligations.ChannelRoundTrip := by
  intro io io' strings embedded free n hempty closed reader widths
  have hbits : streamBits closed.out.bytes = padded strings.flatten := by
    rw [← closeChannel_wrBits_openWriter embedded _ hempty, ← foldl_wrBits]
  have hpending : pendingBits reader = strings.flatten ++ List.replicate (padLength strings.flatten) false :=
    (pendingBits_openReader free _).trans hbits
  obtain ⟨hvals, hleft, hcnt, hexh⟩ := readAll_of_pendingBits strings _ reader le_rfl rfl hpending
  exact ⟨hbits, bytes_length_of_padded hbits, hvals, rdBits_of_pendingBits_zeros hcnt hexh hleft⟩

/-! ### BC.WRBITS and BC.WRVAL -/

/-- R131: `WRBITS` changes nothing of the streams but the bytes of `OUT` and the partial byte. -/
theorem wrBits_eq (bits : Bits) {io : Io} (hw : io.wtr.Sound) (ho : io.wtr.isOpen = true) :
    wrBits bits io = { io with out := ⟨(wrBits bits io).out.bytes, io.out.sink⟩, wtr := (wrBits bits io).wtr } := by
  obtain ⟨-, -, -, hinp, hrdr, heos, hsink⟩ := wrBits_spec bits io hw ho
  rw [← hinp, ← hrdr, ← heos, ← hsink]

/-- R133: a negative value stands for its 8-bit form. -/
theorem fieldValue_eq (v : Int) : fieldValue v = (if 0 ≤ v then v else v + 256).toNat := (apply_ite Int.toNat _ _ _).symm

/-- R131, R138: a command that writes a string completes with its bits after those written before, and the writer stays open and
sound. -/
theorem runChannel_wrBits {bad : State → List Nat} {s : State} (bits : Bits) (hb : bad s = []) (hw : s.io.wtr.Sound)
    (ho : s.io.wtr.isOpen = true) :
    ∃ t, runChannel bad (onIo (writeBits bits)) s = .next t
      ∧ ChannelDone s { s.io with out := ⟨t.io.out.bytes, s.io.out.sink⟩, wtr := t.io.wtr, eos := false } t
      ∧ writtenBits t.io = writtenBits s.io ++ bits ∧ t.io.wtr.isOpen = true ∧ t.io.wtr.Sound := by
  obtain ⟨t, hrun, hdone⟩ := runChannel_modify_io (wrBits bits) hb
  obtain ⟨hbits, hsound, hopen, -⟩ := wrBits_spec bits (s.io.setEos false) hw ho
  refine ⟨t, hrun, ?_, ?_⟩
  · refine hdone.congr ?_
    rw [hdone.io_eq]
    exact wrBits_eq bits hw ho
  · rw [hdone.io_eq]
    exact ⟨hbits, hopen, hsound⟩

/-- Settles O17: both commands write one string, `bin_N(A)` or the field of `A`. -/
theorem writesAppendBits : Obligations.WritesAppendBits := by
  refine ⟨fun s ha hn h0 hlt ho hw => ?_, fun s ha hn h0 hm ho hw => ?_⟩
  · exact runChannel_wrBits (binN s.n.val s.a.val.toNat) (wrbitsBad_eq_nil ha hn h0 hlt ho) hw ho
  · rw [← fieldValue_eq]
    exact runChannel_wrBits (binN s.n.val (fieldValue s.a.val)) (wrvalBad_eq_nil ha hn h0 hm ho) hw ho

/-! ### BC.RDBITS -/

/-- R134: `RDBITS` touches neither the writer nor `OUT`, neither opens nor closes the reader, and keeps `RCNT` in range. -/
theorem rdBits_frame (n : Nat) {io : Io} (hcnt : io.rdr.cnt ≤ 8) :
    (rdBits n io).2.rdr.cnt ≤ 8 ∧ (rdBits n io).2.rdr.isOpen = io.rdr.isOpen ∧ (rdBits n io).2.wtr = io.wtr
      ∧ (rdBits n io).2.out = io.out := by
  cases hexh : io.rdr.exh with
  | true => rw [rdBits_exhausted n io hexh]; exact ⟨hcnt, rfl, rfl, rfl⟩
  | false =>
    rcases le_or_gt n (pendingBits io).length with hn | hn
    · obtain ⟨-, -, hcnt', -, hopen, hwtr, hout, -⟩ := rdBits_ok n io hcnt hexh hn
      exact ⟨hcnt', hopen, hwtr, hout⟩
    · obtain ⟨-, -, hcnt', -, -, hopen, hwtr, hout⟩ := rdBits_sentinel n io hcnt hexh hn
      exact ⟨hcnt', hopen, hwtr, hout⟩

/-- R134: BC.RDBITS completes with the result in `RES` and the streams as `RDBITS` leaves them. -/
theorem execBcRdbits_done {s : State} (hb : rdbitsBad s = []) :
    ∃ t, execBcRdbits s = .next t ∧ t.res = .of (readResult (rdBits s.n.val (s.io.setEos false)).1)
      ∧ ChannelDone { s with res := t.res } (rdBits s.n.val (s.io.setEos false)).2 t :=
  ⟨_, runChannel_ok hb rfl, rfl, rfl⟩

/-- R134: `RDBITS` changes nothing of the streams but `IN`, the reader and `EOS`. -/
theorem rdBits_eq (n : Nat) {io : Io} (hcnt : io.rdr.cnt ≤ 8) :
    (rdBits n io).2 = { io with inp := (rdBits n io).2.inp, rdr := (rdBits n io).2.rdr, eos := (rdBits n io).2.eos } := by
  obtain ⟨-, -, hwtr, hout⟩ := rdBits_frame n hcnt
  rw [← hwtr, ← hout]

/-- Settles O18: the frame of `RDBITS`, then its three cases: enough bits pending, too few, exhausted before. -/
theorem rdbitsReadsField : Obligations.RdbitsReadsField := by
  intro s hn hm ho hr
  obtain ⟨t, hexec, hres, hdone⟩ := execBcRdbits_done (rdbitsBad_eq_nil hn hm ho)
  have hcnt : (s.io.setEos false).rdr.cnt ≤ 8 := hr.1
  obtain ⟨hcnt', hopen, -⟩ := rdBits_frame s.n.val hcnt
  have hopen' := hopen.trans ho
  refine ⟨t, hexec, ?_, ?_⟩
  · refine hdone.congr ?_
    rw [hdone.io_eq]
    exact rdBits_eq s.n.val hcnt
  · rw [hres, hdone.io_eq]
    refine ⟨rfl, hopen', ⟨hcnt', fun hf => absurd hopen' (by simp [hf])⟩, fun hexh hle => ?_, fun hexh hlt => ?_, fun hexh => ?_⟩
    · obtain ⟨hval, hleft, -, hexh', -, -, -, heos⟩ := rdBits_ok s.n.val (s.io.setEos false) hcnt hexh hle
      exact ⟨by rw [hval]; rfl, hleft, hexh', heos⟩
    · obtain ⟨hval, hrest, -, hexh', heos, -⟩ := rdBits_sentinel s.n.val (s.io.setEos false) hcnt hexh hlt
      exact ⟨by rw [hval]; rfl, hrest, hexh', heos⟩
    · rw [rdBits_exhausted s.n.val (s.io.setEos false) hexh]
      exact ⟨rfl, rfl, rfl, rfl⟩

/-! ### BC.CLOSE, BC.OPENW, BC.OPENR -/

/-- R136: closing an open writer settles the sink and closes both channels. -/
theorem closeChannel_of_open (embedded : Bool) {io : Io} (hw : io.wtr.Sound) (ho : io.wtr.isOpen = true) :
    closeChannel embedded io
      = ⟨io.inp, ⟨(closeChannel embedded io).out.bytes, if embedded then .flushed else .closed⟩, .closed, .closed, io.eos⟩ := by
  obtain ⟨-, hwtr, hrdr, hinp, heos, hsink⟩ := closeChannel_spec embedded io hw ho
  calc closeChannel embedded io
    _ = ⟨(closeChannel embedded io).inp, ⟨(closeChannel embedded io).out.bytes, (closeChannel embedded io).out.sink⟩,
          (closeChannel embedded io).wtr, (closeChannel embedded io).rdr, (closeChannel embedded io).eos⟩ := rfl
    _ = _ := by rw [hinp, hsink, hwtr, hrdr, heos]

/-- R136: with no writer open only the reader closes. -/
theorem closeChannel_of_not_open (embedded : Bool) {io : Io} (hw : io.wtr.Sound) (ho : io.wtr.isOpen = false) :
    closeChannel embedded io = ⟨io.inp, io.out, .closed, .closed, io.eos⟩ := by
  simp [closeChannel, ho, ← hw.2.2 ho]

/-- Settles O19: `CLOSE` with a writer open, and without one. -/
theorem closeFlushesPartialByte : Obligations.CloseFlushesPartialByte := by
  intro s hw
  obtain ⟨t, hrun, hdone⟩ := runChannel_modify_io (bad := fun _ => []) (s := s) (closeChannel s.embedded) rfl
  refine ⟨t, hrun, fun ho => ⟨?_, ?_⟩, fun ho => ?_⟩
  · refine hdone.congr ?_
    rw [hdone.io_eq]
    exact closeChannel_of_open s.embedded hw ho
  · rw [hdone.io_eq]
    exact (closeChannel_spec s.embedded (s.io.setEos false) hw ho).1
  · exact hdone.congr (closeChannel_of_not_open s.embedded hw ho)

/-- Settles O16: BC.OPENW is one update of the streams; BC.OPENR also takes the free byte that `RBYTE` holds. -/
theorem opensStartFresh : Obligations.OpensStartFresh := by
  refine ⟨fun s => ?_, fun s => ?_⟩
  · exact runChannel_modify_io (bad := fun _ => []) (s := s) openWriter rfl
  · exact ⟨_, runChannel_ok (bad := fun _ => []) rfl (Run.always_apply openReaderFree (s.start .compute)), rfl⟩

end Sys2Proof.Machine
end

section
/-! The streams under a codec (40_bitchannel.md R131 to R136, 20_memory.md R61, R62): what a reader still holds and what a writer has
written while a command works, and how a command that writes nothing but the streams ends. -/

namespace Sys2Proof.Machine

open Sys2Proof.Claims

/-! ### A reader at work -/

/-- The reader of a running decoder has exactly these bits left and has not met the end; at most seven of them are in `RBYTE`. -/
structure Reading (bits : Bits) (io : Io) : Prop where
  cnt_pos : 1 ≤ io.rdr.cnt
  cnt_le : io.rdr.cnt ≤ 8
  exh : io.rdr.exh = false
  eos : io.eos = false
  pending : pendingBits io = bits

/-- The input is at its end, and the sentinel has said so (R134). -/
structure Drained (io : Io) : Prop where
  rest : io.inp.rest = []
  eos : io.eos = true

/-- R141: a fresh reader has the bits of `IN` before it. -/
theorem reading_openReader (free : Byte) {io : Io} (h : io.eos = false) :
    Reading (streamBits io.inp.rest) (openReader free io) :=
  ⟨by simp, by simp, rfl, h, by simp⟩

/-- Bytes put on `OUT` are nothing to the reader. -/
theorem Reading.outBytes {bits : Bits} {io : Io} (h : Reading bits io) (bs : List Byte) : Reading bits (outBytes bs io) :=
  ⟨h.cnt_pos, h.cnt_le, h.exh, h.eos, h.pending⟩

theorem rdBit_cnt_pos (io : Io) : 1 ≤ (rdBit io).2.rdr.cnt := by
  by_cases h8 : io.rdr.cnt = 8
  · cases hi : io.inp.rest <;> simp [rdBit, h8, inByte, hi]
  · simp [rdBit, h8]

theorem rdLoop_cnt_pos (n v : Nat) {io : Io} (h : 1 ≤ io.rdr.cnt) : 1 ≤ (rdLoop n v io).2.rdr.cnt := by
  induction n generalizing v io with
  | zero => exact h
  | succ n ih =>
    have hb := rdBit_cnt_pos io
    rw [rdLoop]
    split
    · next io' hr => simpa [hr] using hb
    · next b io' hr =>
      rw [hr] at hb
      exact ih _ hb

/-- R134: a field that is there is read whole. -/
theorem Reading.field {n : Nat} {bits : Bits} {io : Io} (h : Reading bits io) (hn : n ≤ bits.length) :
    (rdBits n io).1 = some (valOf (bits.take n)) ∧ Reading (bits.drop n) (rdBits n io).2 := by
  obtain ⟨hpos, hcnt, hexh, heos, rfl⟩ := h
  obtain ⟨hval, hleft, hcnt', hexh', -, -, -, heos'⟩ := rdBits_ok n io hcnt hexh hn
  have hpos' : 1 ≤ (rdBits n io).2.rdr.cnt := by
    rw [rdBits, if_neg (by simp [hexh])]
    exact rdLoop_cnt_pos n 0 hpos
  exact ⟨hval, hpos', hcnt', hexh', heos'.trans heos, hleft⟩

/-- R134: a field that is cut is the sentinel, and the input is at its end. -/
theorem Reading.cut {n : Nat} {bits : Bits} {io : Io} (h : Reading bits io) (hn : bits.length < n) :
    (rdBits n io).1 = none ∧ Drained (rdBits n io).2 := by
  obtain ⟨-, hcnt, hexh, -, rfl⟩ := h
  obtain ⟨hval, hrest, -, -, heos, -⟩ := rdBits_sentinel n io hcnt hexh hn
  exact ⟨hval, hrest, heos⟩

/-- A whole number of bytes less than the bits before the reader are still on `IN`. -/
theorem Reading.rest_length {bits : Bits} {io : Io} (h : Reading bits io) : io.inp.rest.length = bits.length / 8 := by
  obtain ⟨hpos, hcnt, -, -, rfl⟩ := h
  rw [pendingBits, List.length_append, streamBits_length, List.length_drop, byteBits_length]
  omega

/-! ### A writer at work -/

/-- Bytes that begin with given bytes, said in bits. -/
theorem exists_append_of_streamBits {xs pre : List Byte} {bits : Bits} (h : streamBits xs = streamBits pre ++ bits) :
    ∃ bs, xs = pre ++ bs ∧ streamBits bs = bits := by
  induction pre generalizing xs with
  | nil => exact ⟨xs, rfl, h⟩
  | cons b pre ih =>
    cases xs with
    | nil =>
      have hlen := congrArg List.length h
      simp only [streamBits_nil, streamBits_cons, List.length_append, byteBits_length, List.length_nil] at hlen
      omega
    | cons x xs =>
      rw [streamBits_cons, streamBits_cons, List.append_assoc] at h
      obtain ⟨hx, hxs⟩ := List.append_inj h (by simp)
      obtain ⟨bs, rfl, hbs⟩ := ih hxs
      have hhead : [x] = [b] := streamBits_injective (by rw [streamBits_cons, streamBits_cons, hx])
      exact ⟨bs, congrArg (· ++ (pre ++ bs)) hhead, hbs⟩

/-- The writer of a running encoder has written these bits after the bytes that `OUT` was opened with. -/
structure Writing (pre : List Byte) (bits : Bits) (io : Io) : Prop where
  sound : io.wtr.Sound
  isOpen : io.wtr.isOpen = true
  sink : io.out.sink = .writing
  written : writtenBits io = streamBits pre ++ bits

/-- Opening `OUT` leaves it being written (R62). -/
@[simp] theorem OutStream.opened_sink (o : OutStream) : o.opened.sink = .writing := by
  unfold OutStream.opened
  split <;> simp_all

/-- R137: a fresh writer has written nothing. -/
theorem writing_openWriter (io : Io) : Writing io.out.opened.bytes [] (openWriter io) := by
  obtain ⟨hsound, hbits⟩ := openWriter_spec io
  exact ⟨hsound, rfl, by simp, by rw [hbits, List.append_nil]⟩

/-- The writer does not ask what `IN` holds. -/
theorem Writing.of_eq {pre : List Byte} {bits : Bits} {io io' : Io} (h : Writing pre bits io) (hw : io'.wtr = io.wtr)
    (ho : io'.out = io.out) : Writing pre bits io' := by
  obtain ⟨hsound, hopen, hsink, hbits⟩ := h
  exact ⟨hw ▸ hsound, hw ▸ hopen, ho ▸ hsink, by rw [← hbits, writtenBits, writtenBits, hw, ho]⟩

/-- R132: a field is appended, and neither `IN` nor `EOS` is touched. -/
theorem Writing.field {pre : List Byte} {bits : Bits} {io : Io} (h : Writing pre bits io) (v n : Nat) :
    Writing pre (bits ++ binN n v) (wrVal v n io) ∧ (wrVal v n io).inp = io.inp ∧ (wrVal v n io).eos = io.eos := by
  obtain ⟨hsound, hopen, hsink, hbits⟩ := h
  obtain ⟨hbits', hsound', hopen', hinp, -, heos, hsink'⟩ := wrVal_spec v n io hsound hopen
  refine ⟨⟨hsound', hopen', hsink'.trans hsink, ?_⟩, hinp, heos⟩
  rw [hbits', hbits, List.append_assoc]
  simp [fieldValue]

/-- R136: closing leaves on `OUT` the bits written, padded, after the bytes it was opened with. -/
theorem Writing.close {pre : List Byte} {bits : Bits} {io : Io} (h : Writing pre bits io) (embedded : Bool) :
    ∃ bs, (closeChannel embedded io).out = ⟨pre ++ bs, if embedded then .flushed else .closed⟩ ∧ streamBits bs = padded bits := by
  obtain ⟨hsound, hopen, -, hbits⟩ := h
  obtain ⟨hout, -, -, -, -, hsink⟩ := closeChannel_spec embedded io hsound hopen
  have hpad : padded (streamBits pre ++ bits) = streamBits pre ++ padded bits := by
    simp only [padded, padLength, List.length_append, streamBits_length, Nat.mul_add_mod, List.append_assoc]
  obtain ⟨bs, hbytes, hbs⟩ := exists_append_of_streamBits (hout.trans ((congrArg padded hbits).trans hpad))
  exact ⟨bs, by rw [← hbytes, ← hsink], hbs⟩

/-- R43, R322 (4): without a close the whole bytes of the bits written stand on `OUT`. -/
theorem Writing.whole {pre : List Byte} {bits : Bits} {io : Io} (h : Writing pre bits io) :
    ∃ bs, io.out = ⟨pre ++ bs, .writing⟩ ∧ streamBits bs = wholeBytes bits := by
  obtain ⟨⟨hcnt, -⟩, -, hsink, hbits⟩ := h
  have hlen : 8 * io.out.bytes.length + io.wtr.cnt = 8 * pre.length + bits.length := by
    have := congrArg List.length hbits
    simp only [writtenBits, List.length_append, List.length_take, streamBits_length, byteBits_length] at this
    omega
  have hout : streamBits io.out.bytes = streamBits pre ++ wholeBytes bits := by
    calc streamBits io.out.bytes
      _ = (writtenBits io).take (8 * io.out.bytes.length) := by rw [writtenBits, ← streamBits_length, List.take_left]
      _ = (streamBits pre ++ bits).take (8 * pre.length + 8 * (bits.length / 8)) := by rw [hbits]; congr 1; omega
      _ = streamBits pre ++ wholeBytes bits := by rw [← streamBits_length, List.take_length_add_append, wholeBytes]
  obtain ⟨bs, hbytes, hbs⟩ := exists_append_of_streamBits hout
  exact ⟨bs, by rw [← hbytes, ← hsink], hbs⟩

/-! ### An encoder between two symbols -/

/-- A running encoder: what it has written, and what `IN` still holds. It never meets the end of a read of bits. -/
structure Encoding (pre : List Byte) (bits : Bits) (rest : List Byte) (io : Io) : Prop extends Writing pre bits io where
  rest : io.inp.rest = rest
  eos : io.eos = false

theorem Encoding.field {pre rest : List Byte} {bits : Bits} {io : Io} (h : Encoding pre bits rest io) (v n : Nat) :
    Encoding pre (bits ++ binN n v) rest (wrVal v n io) := by
  obtain ⟨hwriting, hinp, heos⟩ := h.toWriting.field v n
  exact ⟨hwriting, by rw [hinp, h.rest], heos.trans h.eos⟩

/-- R61: a byte taken from `IN`. -/
theorem Encoding.byte {pre rest : List Byte} {bits : Bits} {io : Io} {c : Byte} (h : Encoding pre bits (c :: rest) io) :
    Encoding pre bits rest (inByte io).2 := by
  have hbyte : (inByte io).2 = { io with inp := ⟨rest, io.inp.consumed + 1⟩ } := by simp [inByte, h.rest]
  rw [hbyte]
  exact ⟨h.toWriting.of_eq rfl rfl, rfl, h.eos⟩

/-- One turn of the encoders' loop: the byte is taken, then the symbol is worked on. -/
theorem Encoding.forInput {ε : Type} {pre rest : List Byte} {bits : Bits} {p : State} {c : Byte}
    (h : Encoding pre bits (c :: rest) p.io) (engine : ε → Engine) (f : Byte → ε → Run State ε) (cs : List Byte) (e : ε) :
    ∃ q, Encoding pre bits rest q.io ∧ Machine.forInput engine f (c :: cs) e p
      = (f c e >>= fun e' => setEngine (engine e') >>= fun _ => Machine.forInput engine f cs e') q :=
  ⟨{ p with phase := .record, io := (inByte p.io).2 }, h.byte, rfl⟩

/-! ### How a codec command ends -/

theorem closeChannel_eos (e : Bool) (io : Io) : (closeChannel e io).eos = io.eos := by unfold closeChannel; split_ifs <;> rfl

/-- Ending `OUT` while it is being written settles it as `MODE.EMBEDDED` says (R62). -/
theorem OutStream.ended_of_writing (embedded : Bool) (bytes : List Byte) :
    OutStream.ended embedded ⟨bytes, .writing⟩ = ⟨bytes, if embedded then .flushed else .closed⟩ := rfl

/-- What `CLOSE` has settled stays. -/
theorem OutStream.ended_settled (embedded : Bool) (bytes : List Byte) :
    OutStream.ended embedded ⟨bytes, if embedded then .flushed else .closed⟩ = ⟨bytes, if embedded then .flushed else .closed⟩ := by
  cases embedded <;> rfl

/-- What is left of `IN` says how much of it was consumed (R61). -/
theorem InStream.Advances.eq_leaving {s : State} {inp : InStream} (h : s.io.inp.Advances inp) : inp = leaving s inp.rest := by
  obtain ⟨read, hrest, hconsumed⟩ := h
  simp [leaving, hrest, ← hconsumed]

theorem leaving_nil (s : State) : leaving s [] = allRead s := rfl

/-- A command that writes the streams alone leaves every other part of the state to the end it came to. -/
theorem eq_of_exec {i : Instr} {s t : State} (hi : i ∉ channelCommands) (hW : writtenBy i ⊆ [.inp, .out])
    (h : exec i s = .next t) :
    t = { s with
      run := t.run, err := t.err, errinfo := t.errinfo, freeCtr := t.freeCtr, phase := .none
      eng := .none, blk := { s.blk with coder := .fresh }, io := t.io } := by
  have hc := (exec_changes h).mono hW
  obtain ⟨hphase, -⟩ := exec_ended h
  obtain ⟨heng, hcoder, -⟩ := exec_dropped hi h
  obtain ⟨hcfg, hhost, ha, hn, hmin, hsel, hmode⟩ := hc.same .fixed (by simp)
  have hres : t.res = s.res := hc.same .res (by simp)
  have hres2 : t.res2 = s.res2 := hc.same .res2 (by simp)
  obtain ⟨hq, hh, hw⟩ := hc.same .sides (by simp)
  obtain ⟨hwin, hmax⟩ := hc.same .window (by simp)
  have hblkf : t.blk.blkf = s.blk.blkf := hc.same .blkf (by simp)
  have hblki : t.blk.blki = s.blk.blki := hc.same .blki (by simp)
  have hseq : t.blk.seq = s.blk.seq := hc.same .seq (by simp)
  obtain ⟨hql, hqc, hqv⟩ := hc.same .tables (by simp)
  have hrgb : t.rgb = s.rgb := hc.same .rgb (by simp)
  have hycc : t.ycc = s.ycc := hc.same .ycc (by simp)
  have hblk : t.blk = ⟨s.blk.blkf, s.blk.blki, s.blk.seq, .fresh⟩ := by rw [← hblkf, ← hblki, ← hseq, ← hcoder]
  rw [← hcfg, ← hhost, ← ha, ← hn, ← hmin, ← hsel, ← hmode, ← hres, ← hres2, ← hq, ← hh, ← hw, ← hwin, ← hmax, ← hql, ← hqc,
    ← hqv, ← hrgb, ← hycc, ← hphase, ← heng, ← hblk]

/-- The streams after a command, from what its work left of them. -/
theorem io_eq_wrote {i : Instr} {s t u : State} {bs : List Byte} (h : exec i s = .next t) (hio : t.io = u.released.io)
    (hout : u.io.out.ended s.embedded = ⟨s.io.out.opened.bytes ++ bs, if s.embedded then .flushed else .closed⟩)
    (hmode : t.mode = u.mode) : t.io = wrote s bs (leaving s u.io.inp.rest) u.io.eos := by
  have hinp : u.io.inp = leaving s u.io.inp.rest := by
    have := (exec_forward h).inp
    rw [hio] at this
    exact this.eq_leaving
  have hsame : t.mode = s.mode := by
    obtain ⟨-, -, -, -, -, -, hsame⟩ := (exec_changes h).same .fixed (fixed_not_mem_writtenBy i)
    exact hsame
  have hemb : u.embedded = s.embedded := by rw [State.embedded, State.embedded, ← hmode, hsame]
  calc t.io
    _ = ⟨u.io.inp, u.io.out.ended s.embedded, .closed, .closed, u.io.eos⟩ := by rw [hio, ← hemb]; rfl
    _ = wrote s bs (leaving s u.io.inp.rest) u.io.eos := by rw [hout, ← hinp]; rfl

/-- A codec command whose work is done: it completes, and the streams are as the work left them (R62, R323). -/
theorem completed_of_runUnit {i : Instr} {p : Phase} {body : Run State Unit} {s u : State} {bs : List Byte}
    (hi : i ∉ channelCommands) (hW : writtenBy i ⊆ [.inp, .out]) (hexec : exec i s = runUnit p (fun _ => []) body s)
    (hbody : body (s.start p).dropChannel = .ok () u)
    (hout : u.io.out.ended s.embedded = ⟨s.io.out.opened.bytes ++ bs, if s.embedded then .flushed else .closed⟩) :
    ∃ t, exec i s = .next t ∧ Completed s (wrote s bs (leaving s u.io.inp.rest) u.io.eos) t := by
  have ht : exec i s = .next u.released.completed := hexec.trans (runUnit_ok rfl hbody)
  have heq := eq_of_exec hi hW ht
  have hio := io_eq_wrote (u := u) ht rfl hout rfl
  exact ⟨_, ht, by rw [Completed, ← hio]; exact heq⟩

/-- A codec command whose work raised: what it had written stays, and a sink being written ends (R62, R322). -/
theorem raised_of_runUnit {i : Instr} {p : Phase} {body : Run State Unit} {s u : State} {bs : List Byte} {e : Exc} {info : Int}
    (hi : i ∉ channelCommands) (hW : writtenBy i ⊆ [.inp, .out]) (hexec : exec i s = runUnit p (fun _ => []) body s)
    (hbody : body (s.start p).dropChannel = .error ⟨e, some info⟩ u) (hout : u.io.out = ⟨s.io.out.opened.bytes ++ bs, .writing⟩) :
    ∃ t, exec i s = .next t ∧ Raised s (wrote s bs (leaving s u.io.inp.rest) u.io.eos) e info t := by
  have ht : exec i s = .next (u.released.raised ⟨e, some info⟩) := hexec.trans (runUnit_error rfl hbody)
  have heq := eq_of_exec hi hW ht
  have hended : u.io.out.ended s.embedded = ⟨s.io.out.opened.bytes ++ bs, if s.embedded then .flushed else .closed⟩ := by
    rw [hout, OutStream.ended_of_writing]
  have hio := io_eq_wrote (u := u) ht (by simp) hended (by simp)
  exact ⟨_, ht, by rw [Raised, ← hio]; exact heq⟩

end Sys2Proof.Machine
end

section
/-! LZ78 records and the decoder (41_lz78.md R150, R156 to R158): the record stream as bits, the phrases it spells, and LZ78.DEC reading
it. -/

namespace Sys2Proof.Claims

open Sys2Proof.Machine

/-! ### Record streams -/

/-- A field is the first bits of what begins with it. -/
theorem take_binN_append (n v : Nat) (s : Bits) : (binN n v ++ s).take n = binN n v := List.take_left' (binN_length n v)

theorem drop_binN_append (n v : Nat) (s : Bits) : (binN n v ++ s).drop n = s := List.drop_left' (binN_length n v)

theorem lz78Bits_append (bias n : Nat) (rs rs' : List (Nat × Byte)) :
    lz78Bits bias n (rs ++ rs') = lz78Bits bias n rs ++ lz78Bits bias (n + rs.length) rs' := by
  induction rs generalizing n with
  | nil => simp [lz78Bits]
  | cons r rs ih =>
    obtain ⟨k, c⟩ := r
    simp [lz78Bits, ih, Nat.add_assoc, Nat.add_comm 1]

/-- R160: there is no more than one record a bit. -/
theorem length_le_lz78Bits_length (bias n : Nat) (rs : List (Nat × Byte)) : rs.length ≤ (lz78Bits bias n rs).length := by
  induction rs generalizing n with
  | nil => simp
  | cons r rs ih =>
    obtain ⟨k, c⟩ := r
    have := ih (n + 1)
    simp only [lz78Bits, List.length_append, binN_length, List.length_cons]
    omega

/-- A spelling, read off its first record. -/
theorem lz78Spell_cons_eq_some {prior ps : List (List Byte)} {k : Nat} {c : Byte} {rs : List (Nat × Byte)} :
    lz78Spell prior ((k, c) :: rs) = some ps ↔
      ∃ p ps', ([] :: prior)[k]? = some p ∧ lz78Spell (prior ++ [p ++ [c]]) rs = some ps' ∧ ps = (p ++ [c]) :: ps' := by
  rw [lz78Spell]
  split
  · next h => simp [h]
  · next p h => simp [h, eq_comm]

/-- Records in two parts spell the phrases of the first, then those of the second. -/
theorem lz78Spell_append_eq_some {prior ps : List (List Byte)} {rs rs' : List (Nat × Byte)} :
    lz78Spell prior (rs ++ rs') = some ps ↔
      ∃ ps₁ ps₂, lz78Spell prior rs = some ps₁ ∧ lz78Spell (prior ++ ps₁) rs' = some ps₂ ∧ ps = ps₁ ++ ps₂ := by
  induction rs generalizing prior ps with
  | nil => simp [lz78Spell]
  | cons r rs ih =>
    obtain ⟨k, c⟩ := r
    rw [List.cons_append, lz78Spell_cons_eq_some]
    constructor
    · rintro ⟨p, ps', hp, hps, rfl⟩
      obtain ⟨ps₁, ps₂, h₁, h₂, rfl⟩ := ih.1 hps
      exact ⟨_, ps₂, lz78Spell_cons_eq_some.2 ⟨p, ps₁, hp, h₁, rfl⟩, by simpa using h₂, rfl⟩
    · rintro ⟨ps₁, ps₂, h₁, h₂, rfl⟩
      obtain ⟨p, ps', hp, hps, rfl⟩ := lz78Spell_cons_eq_some.1 h₁
      exact ⟨p, ps' ++ ps₂, hp, ih.2 ⟨ps', ps₂, hps, by simpa using h₂, rfl⟩, rfl⟩

/-- A last record spells one more phrase. -/
theorem lz78Spell_concat_eq_some {prior ps : List (List Byte)} {rs : List (Nat × Byte)} {k : Nat} {c : Byte} :
    lz78Spell prior (rs ++ [(k, c)]) = some ps ↔
      ∃ ps' w, lz78Spell prior rs = some ps' ∧ ([] :: (prior ++ ps'))[k]? = some w ∧ ps = ps' ++ [w ++ [c]] := by
  rw [lz78Spell_append_eq_some]
  constructor
  · rintro ⟨ps₁, ps₂, h₁, h₂, rfl⟩
    obtain ⟨w, ps₃, hw, hnil, rfl⟩ := lz78Spell_cons_eq_some.1 h₂
    obtain rfl : ps₃ = [] := by simpa [lz78Spell, eq_comm] using hnil
    exact ⟨ps₁, w, h₁, hw, rfl⟩
  · rintro ⟨ps₁, w, h₁, hw, rfl⟩
    exact ⟨ps₁, _, h₁, lz78Spell_cons_eq_some.2 ⟨w, [], hw, rfl, rfl⟩, rfl⟩

/-- Every record spells one phrase. -/
theorem lz78Spell_length {prior ps : List (List Byte)} {rs : List (Nat × Byte)} (h : lz78Spell prior rs = some ps) :
    ps.length = rs.length := by
  induction rs generalizing prior ps with
  | nil => simp_all [lz78Spell]
  | cons r rs ih =>
    obtain ⟨p, ps', -, hps, rfl⟩ := lz78Spell_cons_eq_some.1 h
    simp [ih hps]

end Sys2Proof.Claims

namespace Sys2Proof.Machine

open Sys2Proof.Claims

/-! ### The decoder's table -/

/-- The decoder holds these phrases: the first has code 1, and the next code is one past the last (R29, R156). -/
structure Lz78Dec.Holds (phrases : List (List Byte)) (e : Lz78Dec) : Prop where
  next : e.next = phrases.length + 1
  table : ∀ k, e.table.lookup (k + 1) = phrases[k]?

theorem Lz78Dec.holds_fresh : Lz78Dec.fresh.Holds [] := ⟨rfl, fun _ => rfl⟩

theorem Lz78Dec.Holds.insert {phrases : List (List Byte)} {e : Lz78Dec} (h : e.Holds phrases) (p : List Byte) :
    Lz78Dec.Holds (phrases ++ [p]) ⟨(e.next, p) :: e.table, e.next + 1⟩ := by
  obtain ⟨hnext, htable⟩ := h
  refine ⟨by simp [hnext], fun k => ?_⟩
  rw [List.lookup_cons, htable, hnext]
  by_cases hk : k = phrases.length
  · simp [hk]
  · rw [List.getElem?_append, beq_false_of_ne (by omega)]
    by_cases hlt : k < phrases.length
    · simp [hlt]
    · rw [if_neg hlt, List.getElem?_eq_none (by omega), List.getElem?_eq_none (by simp; omega)]

/-- The phrase of a record (R156): the phrase its code names, then its literal. -/
theorem Lz78Dec.Holds.phrase_eq {phrases : List (List Byte)} {e : Lz78Dec} (h : e.Holds phrases) (k : Nat) (c : Byte) :
    lz78Phrase e k c = (([] :: phrases)[k]?).map (· ++ [c]) := by
  obtain ⟨hnext, htable⟩ := h
  cases k with
  | zero => simp [lz78Phrase]
  | succ k =>
    rw [lz78Phrase, if_neg (Nat.succ_ne_zero k), List.getElem?_cons_succ, htable, hnext]
    split
    · rfl
    · rw [List.getElem?_eq_none (by omega), Option.map_none]

/-! ### One turn of the decoder -/

section
variable {cfg : Config} {fuel : Nat} {e : Lz78Dec} {p : State} {bits : Bits}

/-- What LZ78.DEC does with a code and a literal it has read (R156 to R158). -/
def lz78DecEntry (cfg : Config) (fuel : Nat) (e : Lz78Dec) (k l : Nat) : Run State Unit :=
  if 255 < l then raise .corruptCodeword l
  else match lz78Phrase e k (BitVec.ofNat 8 l) with
    | none => raise .corruptCodeword k
    | some p => do
      onIo (emitBytes p)
      if withinBound cfg.lz78MaxCode e.next then lz78DecLoop cfg fuel ⟨(e.next, p) :: e.table, e.next + 1⟩
      else raise .dictFull e.next

/-- R156: fewer bits than a code field has end the decode. -/
theorem lz78DecLoop_of_code_cut (h : Reading bits p.io) (hn : bits.length < lz78Width cfg e.next) :
    ∃ q, lz78DecLoop cfg (fuel + 1) e p = .ok () q ∧ Drained q.io ∧ q.io.out = p.io.out := by
  obtain ⟨hval, hdrained⟩ := h.cut hn
  refine ⟨{ p with eng := .lz78Dec e, phase := .record, io := (rdBits (lz78Width cfg e.next) p.io).2 }, ?_, hdrained, rdBits_out _ _⟩
  simp [lz78DecLoop, onIo_apply, hval]

/-- R157: a cut literal ends the decode after the code 0, and is `TruncatedStream` after any other. -/
theorem lz78DecLoop_of_literal_cut (h : Reading bits p.io) (hn : lz78Width cfg e.next ≤ bits.length)
    (hl : bits.length < lz78Width cfg e.next + 16) :
    ∃ q, lz78DecLoop cfg (fuel + 1) e p
        = (if valOf (bits.take (lz78Width cfg e.next)) = 0 then pure ()
          else raise .truncatedStream (valOf (bits.take (lz78Width cfg e.next)))) q
      ∧ Drained q.io ∧ q.io.out = p.io.out := by
  obtain ⟨hcode, hafter⟩ := h.field hn
  obtain ⟨hliteral, hdrained⟩ := hafter.cut (n := 16) (by rw [List.length_drop]; omega)
  refine ⟨{ p with eng := .lz78Dec e, phase := .literal, io := (rdBits 16 (rdBits (lz78Width cfg e.next) p.io).2).2 }, ?_, hdrained, ?_⟩
  · simp [lz78DecLoop, onIo_apply, hcode, hliteral]
  · rw [rdBits_out, rdBits_out]

/-- R156: a code field and a literal are read, and acted on. -/
theorem lz78DecLoop_of_record (h : Reading bits p.io) (hn : lz78Width cfg e.next + 16 ≤ bits.length) :
    ∃ q, lz78DecLoop cfg (fuel + 1) e p
        = lz78DecEntry cfg fuel e (valOf (bits.take (lz78Width cfg e.next)))
          (valOf ((bits.drop (lz78Width cfg e.next)).take 16)) q
      ∧ Reading ((bits.drop (lz78Width cfg e.next)).drop 16) q.io ∧ q.io.out = p.io.out := by
  obtain ⟨hcode, hafter⟩ := h.field (n := lz78Width cfg e.next) (by omega)
  obtain ⟨hliteral, hleft⟩ := hafter.field (n := 16) (by rw [List.length_drop]; omega)
  refine ⟨{ p with eng := .lz78Dec e, phase := .literal, io := (rdBits 16 (rdBits (lz78Width cfg e.next) p.io).2).2 }, ?_, ?_, ?_⟩
  · simp [lz78DecLoop, onIo_apply, hcode, hliteral]
    rfl
  · exact hleft
  · rw [rdBits_out, rdBits_out]

/-! ### Records the decoder accepts, and records it rejects -/

section
variable {prior : List (List Byte)} {k l : Nat} {rest : Bits}

/-- A phrase so far has a code that fits the code field of the next record (R151). -/
theorem lt_pow_of_getElem? {w : List Byte} (bias : Nat) (h : ([] :: prior)[k]? = some w) :
    k < 2 ^ bitLength (prior.length + 1 + bias) := by
  obtain ⟨hlt, -⟩ := List.getElem?_eq_some_iff.1 h
  have := lt_pow_bitLength (prior.length + 1 + bias)
  simp only [List.length_cons] at hlt
  omega

/-- A code field and a literal that the stream spells are what the decoder acts on. -/
theorem Lz78Dec.Holds.entry (he : e.Holds prior) (hk : k < 2 ^ bitLength (prior.length + 1 + cfg.lz78WidthBias)) (hl : l < 2 ^ 16)
    (hr : Reading (binN (bitLength (prior.length + 1 + cfg.lz78WidthBias)) k ++ binN 16 l ++ rest) p.io) :
    ∃ q, lz78DecLoop cfg (fuel + 1) e p = lz78DecEntry cfg fuel e k l q ∧ Reading rest q.io ∧ q.io.out = p.io.out := by
  have hw : lz78Width cfg e.next = bitLength (prior.length + 1 + cfg.lz78WidthBias) := by rw [lz78Width, he.next]
  have hrec := lz78DecLoop_of_record (cfg := cfg) (fuel := fuel) (e := e) hr (by simp [hw])
  rw [hw] at hrec
  simp only [List.append_assoc, take_binN_append, drop_binN_append, valOf_binN, Nat.mod_eq_of_lt hk, Nat.mod_eq_of_lt hl] at hrec
  exact hrec

/-- R156: a record whose code names a phrase outputs that phrase with the literal, and inserts it if a code is left. -/
theorem Lz78Dec.Holds.entry_accept {w : List Byte} {c : Byte} (he : e.Holds prior) (hw : ([] :: prior)[k]? = some w) :
    lz78DecEntry cfg fuel e k c.toNat p
      = (if withinBound cfg.lz78MaxCode (prior.length + 1) then
          lz78DecLoop cfg fuel ⟨(e.next, w ++ [c]) :: e.table, e.next + 1⟩
        else raise .dictFull (prior.length + 1 : Nat)) { p with io := outBytes (w ++ [c]) p.io } := by
  have hc : ¬ 255 < c.toNat := by have := c.isLt; omega
  have hphrase : lz78Phrase e k c = some (w ++ [c]) := by simp [he.phrase_eq, hw]
  simp [lz78DecEntry, hc, hphrase, onIo_apply, he.next]

/-- R158: a literal above 255, else a code that names no phrase, is `CorruptCodeword`. -/
theorem Lz78Dec.Holds.entry_reject (he : e.Holds prior) (h : 255 < l ∨ prior.length < k) :
    lz78DecEntry cfg fuel e k l p = .error ⟨.corruptCodeword, some (if 255 < l then l else k)⟩ p := by
  by_cases hl : 255 < l
  · simp [lz78DecEntry, hl]
  · have hphrase : lz78Phrase e k (BitVec.ofNat 8 l) = none := by
      rw [he.phrase_eq, List.getElem?_eq_none (by simp only [List.length_cons]; omega), Option.map_none]
    simp [lz78DecEntry, hl, hphrase]

/-- R156: records that the dictionary has room for are read one after the other, and their phrases are put on `OUT`. -/
theorem Lz78Dec.Holds.records {records : List (Nat × Byte)} {ps : List (List Byte)} (he : e.Holds prior)
    (hs : lz78Spell prior records = some ps) (hroom : ∀ max ∈ cfg.lz78MaxCode, prior.length + records.length ≤ max)
    (hr : Reading (lz78Bits cfg.lz78WidthBias (prior.length + 1) records ++ rest) p.io) :
    ∃ e' q, lz78DecLoop cfg (fuel + records.length) e p = lz78DecLoop cfg fuel e' q ∧ e'.Holds (prior ++ ps)
      ∧ Reading rest q.io ∧ q.io.out = ⟨p.io.out.bytes ++ ps.flatten, p.io.out.sink⟩ := by
  induction records generalizing prior ps e p with
  | nil =>
    obtain rfl : ps = [] := by simpa [lz78Spell, eq_comm] using hs
    exact ⟨e, p, rfl, by simpa using he, hr, by simp⟩
  | cons r records ih =>
    obtain ⟨k, c⟩ := r
    obtain ⟨w, ps, hw, hps, rfl⟩ := lz78Spell_cons_eq_some.1 hs
    rw [lz78Bits, List.append_assoc] at hr
    obtain ⟨q, hloop, hread, hout⟩ := he.entry (fuel := fuel + records.length) (lt_pow_of_getElem? _ hw)
      (c.isLt.trans (by decide)) hr
    have hfits : withinBound cfg.lz78MaxCode (prior.length + 1) = true :=
      withinBound_iff.2 fun max hmax => by have := hroom max hmax; simp only [List.length_cons] at this; omega
    rw [he.entry_accept hw, if_pos hfits] at hloop
    obtain ⟨e', q', hloop', he', hread', hout'⟩ := ih (p := { q with io := outBytes (w ++ [c]) q.io }) (he.insert (w ++ [c])) hps
      (fun max hmax => by have := hroom max hmax; simp only [List.length_append, List.length_cons, List.length_nil] at this ⊢; omega)
      (by simpa using hread.outBytes _)
    refine ⟨e', q', by rw [← hloop', ← hloop]; rfl, by simpa using he', hread', ?_⟩
    rw [hout']
    simp [hout]

end

end

end Sys2Proof.Machine
end

section
/-! LZ78.DEC as a command (41_lz78.md R156 to R158): the records before it, then how it ends. -/

namespace Sys2Proof.Machine

open Sys2Proof.Claims

/-! ### The start of the decode -/

/-- LZ78.DEC when its loop begins: a fresh reader on `IN`, `OUT` opened. -/
def lz78DecStart (s : State) : State :=
  let p := openReaderFree (s.start .record).dropChannel
  { p with io := openOut p.io }

theorem lz78DecStart_reading (s : State) : Reading (streamBits s.io.inp.rest) (lz78DecStart s).io :=
  ⟨by simp [lz78DecStart], by simp [lz78DecStart], rfl, rfl, pendingBits_openReader _ _⟩

theorem lz78DecStart_out (s : State) : (lz78DecStart s).io.out = ⟨s.io.out.opened.bytes, .writing⟩ := by
  rw [← OutStream.opened_sink s.io.out]; rfl

/-- The work of LZ78.DEC. -/
def lz78DecBody (s : State) : Run State Unit := do
  modify openReaderFree
  onIo (modify openOut)
  lz78DecLoop s.cfg.toConfig (unreadBits s.io + 1) .fresh
  setPhase .close

theorem exec_lz78Dec (s : State) : exec .lz78Dec s = runUnit .record (fun _ => []) (lz78DecBody s) s := rfl

theorem lz78DecBody_apply (s : State) :
    lz78DecBody s (s.start .record).dropChannel
      = (lz78DecLoop s.cfg.toConfig (unreadBits s.io + 1) .fresh >>= fun _ => setPhase .close) (lz78DecStart s) := rfl

/-- R323: LZ78.DEC completes when its loop is done. -/
theorem exec_lz78Dec_completed {s u : State} {bs : List Byte}
    (h : lz78DecLoop s.cfg.toConfig (unreadBits s.io + 1) .fresh (lz78DecStart s) = .ok () u) (hdrained : Drained u.io)
    (hout : u.io.out = ⟨s.io.out.opened.bytes ++ bs, .writing⟩) :
    ∃ t, exec .lz78Dec s = .next t ∧ Completed s (wrote s bs (allRead s) true) t := by
  have hbody : lz78DecBody s (s.start .record).dropChannel = .ok () { u with phase := .close } := by
    rw [lz78DecBody_apply, Run.bind_apply, h]; rfl
  obtain ⟨t, ht, hdone⟩ := completed_of_runUnit (by decide) (by simp [writtenBy]) (exec_lz78Dec s) hbody
    (bs := bs) (by rw [hout, OutStream.ended_of_writing])
  rw [hdrained.rest, hdrained.eos, leaving_nil] at hdone
  exact ⟨t, ht, hdone⟩

/-- R322: LZ78.DEC raises what its loop raises. -/
theorem exec_lz78Dec_raised {s u : State} {bs : List Byte} {e : Exc} {info : Int}
    (h : lz78DecLoop s.cfg.toConfig (unreadBits s.io + 1) .fresh (lz78DecStart s) = .error ⟨e, some info⟩ u)
    (hout : u.io.out = ⟨s.io.out.opened.bytes ++ bs, .writing⟩) :
    ∃ t, exec .lz78Dec s = .next t ∧ Raised s (wrote s bs (leaving s u.io.inp.rest) u.io.eos) e info t := by
  refine raised_of_runUnit (by decide) (by simp [writtenBy]) (exec_lz78Dec s) ?_ hout
  rw [lz78DecBody_apply, Run.bind_apply, h]

/-- R156: after records that the dictionary has room for, the loop goes on with their phrases in the table and on `OUT`. -/
theorem lz78DecLoop_after_records {s : State} {records : List (Nat × Byte)} {phrases : List (List Byte)} {tail : Bits}
    (hroom : ∀ max ∈ s.cfg.lz78MaxCode, records.length ≤ max) (hs : lz78Spell [] records = some phrases)
    (hin : streamBits s.io.inp.rest = lz78Bits s.cfg.lz78WidthBias 1 records ++ tail) :
    ∃ fuel e q, lz78DecLoop s.cfg.toConfig (unreadBits s.io + 1) .fresh (lz78DecStart s)
        = lz78DecLoop s.cfg.toConfig (fuel + 1) e q
      ∧ e.Holds phrases ∧ Reading tail q.io ∧ q.io.out = ⟨s.io.out.opened.bytes ++ phrases.flatten, .writing⟩ := by
  have hle : records.length ≤ unreadBits s.io := by
    have := length_le_lz78Bits_length s.cfg.lz78WidthBias 1 records
    have hlen := congrArg List.length hin
    rw [streamBits_length, List.length_append] at hlen
    rw [unreadBits]
    omega
  obtain ⟨e, q, hloop, he, hread, hout⟩ := Lz78Dec.holds_fresh.records (cfg := s.cfg.toConfig) (p := lz78DecStart s)
    (fuel := unreadBits s.io - records.length + 1) hs (by simpa using hroom) (hin ▸ lz78DecStart_reading s)
  refine ⟨unreadBits s.io - records.length, e, q, ?_, he, hread, ?_⟩
  · rw [← hloop]; congr 1; omega
  · rw [hout, lz78DecStart_out]

/-! ### What LZ78.DEC does after the records -/

/-- R156, R157: the ends of `Lz78End` end the loop at the end of the input. -/
theorem Lz78Dec.Holds.loop_end {cfg : Config} {fuel : Nat} {e : Lz78Dec} {q : State} {phrases : List (List Byte)} {tail : Bits}
    (he : e.Holds phrases) (hr : Reading tail q.io) (hend : Lz78End (bitLength (phrases.length + 1 + cfg.lz78WidthBias)) tail) :
    ∃ u, lz78DecLoop cfg (fuel + 1) e q = .ok () u ∧ Drained u.io ∧ u.io.out = q.io.out := by
  rw [← he.next] at hend
  rcases hend with hlt | ⟨more, rfl, hmore⟩
  · exact lz78DecLoop_of_code_cut hr hlt
  · obtain ⟨u, hloop, hdrained, hout⟩ := lz78DecLoop_of_literal_cut (cfg := cfg) (fuel := fuel) (e := e) hr
      (by simp [lz78Width]) (by simpa [lz78Width] using hmore)
    rw [List.take_left' (by simp [lz78Width]), valOf_replicate_false, if_pos rfl] at hloop
    exact ⟨u, hloop, hdrained, hout⟩

/-- R156, R44: a record that no code is left for is output, and then raises `DictFull`. -/
theorem Lz78Dec.Holds.loop_full {cfg : Config} {fuel k : Nat} {e : Lz78Dec} {q : State} {phrases : List (List Byte)} {w : List Byte}
    {c : Byte} {more : Bits} (he : e.Holds phrases) (hw : ([] :: phrases)[k]? = some w) (hmax : cfg.lz78MaxCode = some phrases.length)
    (hr : Reading (lz78Bits cfg.lz78WidthBias (phrases.length + 1) [(k, c)] ++ more) q.io) :
    ∃ u, lz78DecLoop cfg (fuel + 1) e q = .error ⟨.dictFull, some (phrases.length + 1 : Nat)⟩ u ∧ Reading more u.io
      ∧ u.io.out = ⟨q.io.out.bytes ++ (w ++ [c]), q.io.out.sink⟩ := by
  rw [lz78Bits, lz78Bits, List.append_nil] at hr
  obtain ⟨q', hentry, hread, hout⟩ := he.entry (fuel := fuel) (lt_pow_of_getElem? _ hw) (c.isLt.trans (by decide)) hr
  have hfull : withinBound cfg.lz78MaxCode (phrases.length + 1) = false := by simp [withinBound, hmax]
  rw [he.entry_accept hw, hfull, if_neg Bool.false_ne_true, Run.raise_apply] at hentry
  exact ⟨_, hentry, hread.outBytes _, by rw [Io.outBytes_out, hout]⟩

/-- What is left of `IN` after whole fields: the bytes that none of their bits is in. -/
theorem rest_eq_drop {inp rest : List Byte} {bits more : Bits} (hsuffix : ∃ read, inp = read ++ rest)
    (hin : streamBits inp = bits ++ more) (hlen : rest.length = more.length / 8) : rest = inp.drop ((bits.length + 7) / 8) := by
  obtain ⟨read, rfl⟩ := hsuffix
  have := congrArg List.length hin
  rw [streamBits_length, List.length_append, List.length_append] at this
  rw [show (bits.length + 7) / 8 = read.length by omega, List.drop_left]

/-- Settles O22: the records before the end are read by `Lz78Dec.Holds.records`; then the stream ends, or the last record finds the
dictionary full. -/
theorem lz78DecReadsRecords : Obligations.Lz78DecReadsRecords := by
  refine ⟨fun s records phrases tail hroom hs hin hend => ?_, fun s records phrases more max hmax hlen hs hin => ?_⟩
  · obtain ⟨fuel, e, q, hloop, he, hread, hout⟩ := lz78DecLoop_after_records hroom hs hin
    obtain ⟨u, hu, hdrained, hout'⟩ := he.loop_end (cfg := s.cfg.toConfig) (fuel := fuel) hread (by rwa [lz78Spell_length hs])
    exact exec_lz78Dec_completed (hloop.trans hu) hdrained (hout'.trans hout)
  · obtain ⟨init, ⟨k, c⟩, rfl⟩ : ∃ init r, records = init ++ [r] :=
      ⟨_, _, (List.dropLast_append_getLast (List.ne_nil_of_length_eq_add_one hlen)).symm⟩
    obtain ⟨ps, w, hinit, hw, rfl⟩ := lz78Spell_concat_eq_some.1 hs
    have hinitlen := lz78Spell_length hinit
    obtain rfl : ps.length = max := by rw [hinitlen]; simpa using hlen
    have hbits := hin
    rw [lz78Bits_append, List.append_assoc, Nat.add_comm 1, ← hinitlen] at hbits
    obtain ⟨fuel, e, q, hloop, he, hread, hout⟩ := lz78DecLoop_after_records (by simp [hmax, hinitlen]) hinit hbits
    obtain ⟨u, hfull, hread', hout'⟩ := he.loop_full (fuel := fuel) hw hmax hread
    obtain ⟨t, ht, hraised⟩ := exec_lz78Dec_raised (bs := (ps ++ [w ++ [c]]).flatten) (hloop.trans hfull) (by simp [hout', hout])
    have hio := congrArg State.io hraised
    have hsuffix : ∃ read, s.io.inp.rest = read ++ u.io.inp.rest := by
      obtain ⟨read, hread, -⟩ := (exec_forward ht).inp
      exact ⟨read, by rw [hread, hio]; rfl⟩
    rw [hread'.eos, rest_eq_drop hsuffix hin hread'.rest_length] at hraised
    exact ⟨t, ht, hraised⟩

/-- Settles O24: the records before it are read by `Lz78Dec.Holds.records`, and the next one is rejected or cut. -/
theorem lz78DecRejects : Obligations.Lz78DecRejects := by
  intro s records phrases k l more hroom hs hk field
  refine ⟨fun hl hbad hin => ?_, fun hpos hmore hin => ?_⟩
  · rw [List.append_assoc, List.append_assoc, ← List.append_assoc field] at hin
    obtain ⟨fuel, e, q, hloop, he, hread, hout⟩ := lz78DecLoop_after_records hroom hs hin
    simp only [field, ← lz78Spell_length hs] at hread hk hbad
    obtain ⟨q', hentry, hread', hout'⟩ := he.entry (fuel := fuel) hk hl hread
    rw [he.entry_reject hbad] at hentry
    obtain ⟨t, ht, hraised⟩ := exec_lz78Dec_raised (hloop.trans hentry) (hout'.trans hout)
    have hinp : t.io.inp = leaving s q'.io.inp.rest := by rw [congrArg State.io hraised]; rfl
    rw [← hinp, hread'.eos] at hraised
    exact ⟨t, ht, hraised⟩
  · rw [List.append_assoc] at hin
    obtain ⟨fuel, e, q, hloop, he, hread, hout⟩ := lz78DecLoop_after_records hroom hs hin
    have hw : lz78Width s.cfg.toConfig e.next = bitLength (records.length + 1 + s.cfg.lz78WidthBias) := by
      rw [lz78Width, he.next, lz78Spell_length hs]
    obtain ⟨u, hcut, hdrained, hout'⟩ := lz78DecLoop_of_literal_cut (cfg := s.cfg.toConfig) (fuel := fuel) (e := e) hread
      (by simp [hw, field]) (by simpa [hw, field] using hmore)
    rw [hw, take_binN_append, valOf_binN, Nat.mod_eq_of_lt hk, if_neg (Nat.pos_iff_ne_zero.1 hpos), Run.raise_apply] at hcut
    obtain ⟨t, ht, hraised⟩ := exec_lz78Dec_raised (hloop.trans hcut) (hout'.trans hout)
    rw [hdrained.rest, hdrained.eos, leaving_nil] at hraised
    exact ⟨t, ht, hraised⟩

end Sys2Proof.Machine
end

section
/-! LZ78.ENC (41_lz78.md R150 to R154): the parse in two parts, what it spells, and the encoder following it. -/

namespace Sys2Proof.Claims

open Sys2Proof.Machine

/-! ### The parse, symbol by symbol -/

/-- The dictionary and the working phrase after some symbols (R150). -/
def lz78After : List (List Byte) → List Byte → List Byte → List (List Byte) × List Byte
  | dict, w, [] => (dict, w)
  | dict, w, c :: cs =>
    if w ++ [c] ∈ dict then lz78After dict (w ++ [c]) cs else lz78After (dict ++ [w ++ [c]]) [] cs

/-- The records of the misses of some symbols (R150). -/
def lz78Misses : List (List Byte) → List Byte → List Byte → List (Nat × Byte)
  | _, _, [] => []
  | dict, w, c :: cs =>
    if w ++ [c] ∈ dict then lz78Misses dict (w ++ [c]) cs
    else (lz78Code dict w, c) :: lz78Misses (dict ++ [w ++ [c]]) [] cs

variable {dict : List (List Byte)} {w : List Byte} {c : Byte}

theorem lz78Parse_append (dict : List (List Byte)) (w cs cs' : List Byte) :
    lz78Parse dict w (cs ++ cs')
      = lz78Misses dict w cs ++ lz78Parse (lz78After dict w cs).1 (lz78After dict w cs).2 cs' := by
  induction cs generalizing dict w with
  | nil => rfl
  | cons c cs ih => by_cases h : w ++ [c] ∈ dict <;> simp [lz78Parse, lz78Misses, lz78After, h, ih]

theorem lz78Inserts_append (dict : List (List Byte)) (w cs cs' : List Byte) :
    lz78Inserts dict w (cs ++ cs')
      = lz78Inserts dict w cs + lz78Inserts (lz78After dict w cs).1 (lz78After dict w cs).2 cs' := by
  induction cs generalizing dict w with
  | nil => simp [lz78Inserts, lz78After]
  | cons c cs ih => by_cases h : w ++ [c] ∈ dict <;> simp [lz78Inserts, lz78After, h, ih]; omega

/-- A miss is one record. -/
theorem lz78Misses_length (dict : List (List Byte)) (w cs : List Byte) :
    (lz78Misses dict w cs).length = lz78Inserts dict w cs := by
  induction cs generalizing dict w with
  | nil => rfl
  | cons c cs ih => by_cases h : w ++ [c] ∈ dict <;> simp [lz78Misses, lz78Inserts, h, ih]

/-- A miss inserts one phrase. -/
theorem lz78After_length (dict : List (List Byte)) (w cs : List Byte) :
    (lz78After dict w cs).1.length = dict.length + lz78Inserts dict w cs := by
  induction cs generalizing dict w with
  | nil => rfl
  | cons c cs ih => by_cases h : w ++ [c] ∈ dict <;> simp [lz78After, lz78Inserts, h, ih]; omega

/-- The record of the end of the input: that of the pending phrase (R153). -/
theorem lz78Parse_nil_concat (dict : List (List Byte)) (w : List Byte) (c : Byte) :
    lz78Parse dict (w ++ [c]) [] = [(lz78Code dict w, c)] := by
  simp [lz78Parse]

/-! ### Phrases and their codes -/

/-- A phrase that has a code: the empty one, or one of the dictionary. -/
def Lz78Known (dict : List (List Byte)) (w : List Byte) : Prop := w = [] ∨ w ∈ dict

/-- Every phrase of the dictionary extends a phrase that has a code by one symbol. -/
def Lz78Closed (dict : List (List Byte)) : Prop := ∀ w c, w ++ [c] ∈ dict → Lz78Known dict w

theorem Lz78Known.append (h : Lz78Known dict w) (x : List Byte) : Lz78Known (dict ++ [x]) w :=
  h.imp_right (List.mem_append_left _)

theorem Lz78Closed.insert (h : Lz78Closed dict) (hw : Lz78Known dict w) : Lz78Closed (dict ++ [w ++ [c]]) := by
  intro w' c' hmem
  rcases List.mem_append.1 hmem with hmem | hmem
  · exact (h w' c' hmem).append _
  · obtain ⟨rfl, -⟩ : w' = w ∧ c' = c := by simpa using hmem
    exact hw.append _

@[simp] theorem lz78Code_nil (dict : List (List Byte)) : lz78Code dict [] = 0 := rfl

theorem lz78Code_eq_zero : lz78Code dict w = 0 ↔ w = [] := by
  by_cases h : w = [] <;> simp [lz78Code, h]

/-- R99: the code of a phrase is at most the number of phrases. -/
theorem Lz78Known.code_le (h : Lz78Known dict w) : lz78Code dict w ≤ dict.length := by
  rcases h with rfl | h
  · exact Nat.zero_le _
  · have := List.idxOf_lt_length_of_mem h
    unfold lz78Code
    split <;> omega

/-- The code of a phrase names it (R150, R156). -/
theorem Lz78Known.getElem?_code (h : Lz78Known dict w) : ([] :: dict)[lz78Code dict w]? = some w := by
  by_cases hw : w = []
  · simp [hw]
  · have hmem := h.resolve_left hw
    rw [lz78Code, if_neg hw, List.getElem?_cons_succ, List.getElem?_eq_getElem (List.idxOf_lt_length_of_mem hmem), List.getElem_idxOf]

/-- Different phrases have different codes. -/
theorem Lz78Known.code_injective {w' : List Byte} (h : Lz78Known dict w) (h' : Lz78Known dict w')
    (heq : lz78Code dict w = lz78Code dict w') : w = w' := by
  have hsame := h.getElem?_code
  rw [heq, h'.getElem?_code] at hsame
  exact (Option.some.inj hsame).symm

/-- An insertion changes no code. -/
theorem Lz78Known.code_append (h : Lz78Known dict w) (x : List Byte) : lz78Code (dict ++ [x]) w = lz78Code dict w := by
  by_cases hw : w = []
  · simp [hw]
  · rw [lz78Code, lz78Code, if_neg hw, if_neg hw, List.idxOf_append_of_mem (h.resolve_left hw)]

/-- The phrase inserted has the next code. -/
theorem lz78Code_insert (h : w ++ [c] ∉ dict) : lz78Code (dict ++ [w ++ [c]]) (w ++ [c]) = dict.length + 1 := by
  simp [lz78Code, List.idxOf_append_of_notMem h]

/-- R159: the records of the parse spell the input. -/
theorem exists_lz78Spell_lz78Parse (cs : List Byte) (hclosed : Lz78Closed dict) (hw : Lz78Known dict w) :
    ∃ ps, lz78Spell dict (lz78Parse dict w cs) = some ps ∧ ps.flatten = w ++ cs := by
  induction cs generalizing dict w with
  | nil =>
    rcases List.eq_nil_or_concat' w with rfl | ⟨v, c, rfl⟩
    · exact ⟨[], rfl, rfl⟩
    · have hmem : v ++ [c] ∈ dict := hw.resolve_left (by simp)
      rw [lz78Parse_nil_concat]
      exact ⟨_, lz78Spell_cons_eq_some.2 ⟨v, [], (hclosed v c hmem).getElem?_code, rfl, rfl⟩, by simp⟩
  | cons c cs ih =>
    rw [lz78Parse]
    split
    · next hmem =>
      obtain ⟨ps, hps, hflat⟩ := ih hclosed (.inr hmem)
      exact ⟨ps, hps, by simp [hflat]⟩
    · obtain ⟨ps, hps, hflat⟩ := ih (hclosed.insert hw) (.inl rfl)
      exact ⟨_, lz78Spell_cons_eq_some.2 ⟨w, ps, hw.getElem?_code, hps, rfl⟩, by simp [hflat]⟩

end Sys2Proof.Claims

namespace Sys2Proof.Machine

open Sys2Proof.Claims

/-! ### The encoder's dictionary -/

/-- The encoder's dictionary holds these phrases, each under the code of the phrase it extends and its last symbol (R28, R150). -/
structure Lz78Enc.Holds (dict : List (List Byte)) (e : Lz78Enc) : Prop where
  next : e.next = dict.length + 1
  closed : Lz78Closed dict
  lookup : ∀ w c, Lz78Known dict w →
    e.dict.lookup (lz78Code dict w, c) = if w ++ [c] ∈ dict then some (lz78Code dict (w ++ [c])) else none
  lookup_next : ∀ k c, e.next ≤ k → e.dict.lookup (k, c) = none
  key : ∀ w c, w ++ [c] ∈ dict → keyOf e.dict (lz78Code dict (w ++ [c])) = some (lz78Code dict w, c)

/-- The encoder is between two symbols: its dictionary, and the phrase it is extending (R28, R152). -/
structure Lz78Enc.Between (dict : List (List Byte)) (w : List Byte) (e : Lz78Enc) : Prop where
  holds : e.Holds dict
  known : Lz78Known dict w
  cur : e.cur = lz78Code dict w

theorem Lz78Enc.between_fresh : Lz78Enc.fresh.Between [] [] where
  holds := ⟨rfl, fun _ _ h => absurd h List.not_mem_nil, fun _ _ _ => by simp [Lz78Enc.fresh], fun _ _ _ => rfl,
    fun _ _ h => absurd h List.not_mem_nil⟩
  known := .inl rfl
  cur := rfl

theorem keyOf_cons (k : Nat × Byte) (n : Nat) (d : Dict) (code : Nat) :
    keyOf ((k, n) :: d) code = if n = code then some k else keyOf d code := by
  by_cases h : n = code <;> simp [keyOf, h]

/-- R152: inserting the phrase that missed. -/
theorem Lz78Enc.Holds.insert {dict : List (List Byte)} {w : List Byte} {c : Byte} {e : Lz78Enc} (h : e.Holds dict)
    (hw : Lz78Known dict w) (hmiss : w ++ [c] ∉ dict) :
    Lz78Enc.Holds (dict ++ [w ++ [c]]) ⟨((lz78Code dict w, c), e.next) :: e.dict, e.next + 1, 0⟩ := by
  obtain ⟨hnext, hclosed, hlookup, hlookupNext, hkey⟩ := h
  have hcode := hw.code_le
  refine ⟨by simp [hnext], hclosed.insert hw, fun v d hv => ?_, fun k d hk => ?_, fun v d hv => ?_⟩
  · rw [List.lookup_cons]
    have hold : Lz78Known dict v ∨ v = w ++ [c] := by simpa [Lz78Known, or_assoc] using hv
    rcases hold with hold | rfl
    · rw [hold.code_append]
      by_cases hpair : v = w ∧ d = c
      · obtain ⟨rfl, rfl⟩ := hpair
        simp [hnext, lz78Code_insert hmiss]
      · have hne : (lz78Code dict v, d) ≠ (lz78Code dict w, c) := fun heq =>
          hpair ⟨hold.code_injective hw (congrArg Prod.fst heq), congrArg Prod.snd heq⟩
        rw [beq_false_of_ne hne]
        by_cases hmem : v ++ [d] ∈ dict
        · simp [hlookup v d hold, hmem, Lz78Known.code_append (.inr hmem)]
        · simp [hlookup v d hold, hmem, hpair]
    · have hnot : w ++ [c] ++ [d] ∉ dict := fun hmem => hmiss ((hclosed _ d hmem).resolve_left (by simp))
      have hlast : w ++ [c] ++ [d] ≠ w ++ [c] := fun heq => by simpa using congrArg List.length heq
      rw [lz78Code_insert hmiss, beq_false_of_ne (by simp; omega),
        if_neg (by rw [List.mem_append, List.mem_singleton]; exact not_or.2 ⟨hnot, hlast⟩)]
      exact hlookupNext _ d hnext.le
  · have hk' : e.next < k := hk
    rw [List.lookup_cons, beq_false_of_ne (by simp; omega)]
    exact hlookupNext k d hk'.le
  · rw [keyOf_cons]
    rcases List.mem_append.1 hv with hv | hv
    · have hle := Lz78Known.code_le (.inr hv)
      rw [Lz78Known.code_append (.inr hv), if_neg (by omega), hkey v d hv, (hclosed v d hv).code_append]
    · obtain ⟨rfl, rfl⟩ : v = w ∧ d = c := by simpa using hv
      rw [lz78Code_insert hmiss, if_pos hnext, hw.code_append]

/-! ### One symbol, and the end of the input -/

section
variable {cfg : Config} {dict : List (List Byte)} {w : List Byte} {c : Byte} {e : Lz78Enc} {p : State} {pre rest : List Byte} {bits : Bits}

/-- R151: a record is its two fields. -/
theorem lz78Record_writes (hp : Encoding pre bits rest p.io) (next code : Nat) (literal : Byte) :
    ∃ q, lz78Record cfg next code literal p = .ok () q
      ∧ Encoding pre (bits ++ lz78Bits cfg.lz78WidthBias next [(code, literal)]) rest q.io := by
  refine ⟨{ p with phase := .literal, io := wrVal literal.toNat 16 (wrVal code (lz78Width cfg next) p.io) }, ?_, ?_⟩
  · simp [lz78Record, onIo_apply]
  · simpa [lz78Bits, lz78Width] using (hp.field code (lz78Width cfg next)).field literal.toNat 16

/-- R152: a phrase that is known is extended. -/
theorem Lz78Enc.Between.hit (h : e.Between dict w) (hmem : w ++ [c] ∈ dict) :
    ∃ e', lz78EncByte cfg c e p = .ok e' p ∧ e'.Between dict (w ++ [c]) := by
  obtain ⟨hholds, hknown, hcur⟩ := h
  refine ⟨{ e with cur := lz78Code dict (w ++ [c]) }, ?_, ?_⟩
  · simp [lz78EncByte, hcur, hholds.lookup w c hknown, hmem]
  · obtain ⟨hnext, hclosed, hlookup, hlookupNext, hkey⟩ := hholds
    exact ⟨⟨hnext, hclosed, hlookup, hlookupNext, hkey⟩, .inr hmem, rfl⟩

/-- R152: a phrase that is not known is inserted, and its record written. -/
theorem Lz78Enc.Between.miss (h : e.Between dict w) (hmiss : w ++ [c] ∉ dict)
    (hroom : withinBound cfg.lz78MaxCode (dict.length + 1) = true) (hp : Encoding pre bits rest p.io) :
    ∃ e' q, lz78EncByte cfg c e p = .ok e' q ∧ e'.Between (dict ++ [w ++ [c]]) []
      ∧ Encoding pre (bits ++ lz78Bits cfg.lz78WidthBias (dict.length + 1) [(lz78Code dict w, c)]) rest q.io := by
  obtain ⟨hholds, hknown, hcur⟩ := h
  obtain ⟨q, hrecord, hq⟩ := lz78Record_writes (cfg := cfg) hp (dict.length + 1) (lz78Code dict w) c
  refine ⟨_, q, ?_, ⟨hholds.insert hknown hmiss, .inl rfl, rfl⟩, hq⟩
  simp [lz78EncByte, hcur, hholds.lookup w c hknown, hmiss, hholds.next, hroom, hrecord]

/-- R44: a phrase that no code is left for raises `DictFull` before anything of it is written. -/
theorem Lz78Enc.Between.full (h : e.Between dict w) (hmiss : w ++ [c] ∉ dict)
    (hroom : withinBound cfg.lz78MaxCode (dict.length + 1) = false) :
    lz78EncByte cfg c e p = .error ⟨.dictFull, some (dict.length + 1 : Nat)⟩ p := by
  obtain ⟨hholds, hknown, hcur⟩ := h
  simp [lz78EncByte, hcur, hholds.lookup w c hknown, hmiss, hholds.next, hroom]

/-- R153: the record of a pending phrase is written at the end of the input. -/
theorem Lz78Enc.Between.flush (h : e.Between dict w) (hp : Encoding pre bits rest p.io) :
    ∃ q, lz78Flush cfg e p = .ok () q
      ∧ Encoding pre (bits ++ lz78Bits cfg.lz78WidthBias (dict.length + 1) (lz78Parse dict w [])) rest q.io := by
  obtain ⟨hholds, hknown, hcur⟩ := h
  rcases List.eq_nil_or_concat' w with rfl | ⟨v, c, rfl⟩
  · exact ⟨p, by simp [lz78Flush, hcur], by simpa [lz78Parse, lz78Bits] using hp⟩
  · have hmem : v ++ [c] ∈ dict := hknown.resolve_left (by simp)
    have hpending : lz78Code dict (v ++ [c]) ≠ 0 := by simp [lz78Code_eq_zero]
    obtain ⟨q, hrecord, hq⟩ := lz78Record_writes (cfg := cfg) hp (dict.length + 1) (lz78Code dict v) c
    refine ⟨q, ?_, by rwa [lz78Parse_nil_concat]⟩
    simp [lz78Flush, hcur, hpending, hholds.key v c hmem, hholds.next, hrecord]

/-! ### The symbols of the input -/

/-- R152: symbols that the dictionary has room for are taken from `IN` one after the other, and the records of their misses
written. -/
theorem Lz78Enc.Between.symbols (cs : List Byte) (h : e.Between dict w)
    (hroom : ∀ max ∈ cfg.lz78MaxCode, dict.length + lz78Inserts dict w cs ≤ max) (hp : Encoding pre bits (cs ++ rest) p.io) :
    ∃ e' q, forInput .lz78Enc (lz78EncByte cfg) (cs ++ rest) e p = forInput .lz78Enc (lz78EncByte cfg) rest e' q
      ∧ e'.Between (lz78After dict w cs).1 (lz78After dict w cs).2
      ∧ Encoding pre (bits ++ lz78Bits cfg.lz78WidthBias (dict.length + 1) (lz78Misses dict w cs)) rest q.io := by
  induction cs generalizing dict w e p bits with
  | nil => exact ⟨e, p, rfl, h, by simpa [lz78Misses, lz78Bits] using hp⟩
  | cons c cs ih =>
    obtain ⟨q, hq, hloop⟩ := hp.forInput .lz78Enc (lz78EncByte cfg) (cs ++ rest) e
    rw [List.cons_append, hloop, Run.bind_apply]
    by_cases hmem : w ++ [c] ∈ dict
    · obtain ⟨e', hbyte, hbetween⟩ := h.hit (cfg := cfg) (p := q) hmem
      simp only [lz78Inserts, lz78After, lz78Misses, if_pos hmem] at hroom ⊢
      rw [hbyte]
      exact ih hbetween hroom hq
    · simp only [lz78Inserts, lz78After, lz78Misses, if_neg hmem] at hroom ⊢
      have hfits : withinBound cfg.lz78MaxCode (dict.length + 1) = true :=
        withinBound_iff.2 fun max hmax => by have := hroom max hmax; omega
      obtain ⟨e', q', hbyte, hbetween, hq'⟩ := h.miss hmem hfits hq
      rw [hbyte]
      obtain ⟨e'', q'', hrest, hbetween', hq''⟩ := ih (p := { q' with eng := .lz78Enc e' }) hbetween
        (fun max hmax => by have := hroom max hmax; simp only [List.length_append, List.length_singleton]; omega) hq'
      refine ⟨e'', q'', hrest, hbetween', ?_⟩
      rw [← List.singleton_append, lz78Bits_append, ← List.append_assoc]
      simpa using hq''

end

/-! ### The command -/

/-- LZ78.ENC when its loop begins: `OUT` opened under a fresh writer, the dictionary empty. -/
def lz78EncStart (s : State) : State :=
  let p := (s.start .record).dropChannel
  { p with io := openWriter p.io, eng := .lz78Enc .fresh }

theorem lz78EncStart_encoding (s : State) : Encoding s.io.out.opened.bytes [] s.io.inp.rest (lz78EncStart s).io where
  toWriting := writing_openWriter (s.start .record).dropChannel.io
  rest := rfl
  eos := rfl

/-- What LZ78.ENC does after its loop. -/
def lz78EncEnd (s : State) (e : Lz78Enc) : Run State Unit := do
  setPhase .flush
  lz78Flush s.cfg.toConfig e
  setPhase .close
  onIo (modify (closeChannel s.embedded))

/-- The work of LZ78.ENC. -/
def lz78EncBody (s : State) : Run State Unit := do
  onIo (modify openWriter)
  setEngine (.lz78Enc .fresh)
  let e ← forInput .lz78Enc (lz78EncByte s.cfg.toConfig) s.io.inp.rest .fresh
  lz78EncEnd s e

theorem exec_lz78Enc (s : State) : exec .lz78Enc s = runUnit .record (fun _ => []) (lz78EncBody s) s := rfl

theorem lz78EncBody_apply (s : State) :
    lz78EncBody s (s.start .record).dropChannel
      = (forInput .lz78Enc (lz78EncByte s.cfg.toConfig) s.io.inp.rest .fresh >>= lz78EncEnd s) (lz78EncStart s) := rfl

/-- R152, R153: with room for every miss the whole input is consumed, and its records stand on `OUT`, padded. -/
theorem exec_lz78Enc_completed {s : State} (hroom : ∀ max ∈ s.cfg.lz78MaxCode, lz78Inserts [] [] s.io.inp.rest ≤ max) :
    ∃ t bs, exec .lz78Enc s = .next t ∧ Completed s (wrote s bs (allRead s) false) t
      ∧ streamBits bs = padded (lz78Bits s.cfg.lz78WidthBias 1 (lz78Parse [] [] s.io.inp.rest)) := by
  have hparse := lz78Parse_append [] [] s.io.inp.rest []
  rw [List.append_nil] at hparse
  obtain ⟨e, q, hloop, hbetween, hq⟩ := Lz78Enc.between_fresh.symbols (cfg := s.cfg.toConfig) (rest := []) s.io.inp.rest
    (by simpa using hroom) (by rw [List.append_nil]; exact lz78EncStart_encoding s)
  obtain ⟨q', hflush, hq'⟩ := hbetween.flush (cfg := s.cfg.toConfig) (p := { q with phase := .flush }) hq
  obtain ⟨bs, hout, hbs⟩ := hq'.close s.embedded
  have hbody : lz78EncBody s (s.start .record).dropChannel
      = .ok () { q' with phase := .close, io := closeChannel s.embedded q'.io } := by
    rw [lz78EncBody_apply, Run.bind_apply]
    rw [List.append_nil] at hloop
    simp [hloop, forInput, lz78EncEnd, hflush, onIo_apply]
  have hended : (closeChannel s.embedded q'.io).out.ended s.embedded
      = ⟨s.io.out.opened.bytes ++ bs, if s.embedded then .flushed else .closed⟩ := by
    rw [hout, OutStream.ended_settled]
  obtain ⟨t, ht, hdone⟩ := completed_of_runUnit (by decide) (by simp [writtenBy]) (exec_lz78Enc s) hbody hended
  have hlen := lz78After_length [] [] s.io.inp.rest
  rw [closeChannel_inp, closeChannel_eos, hq'.rest, hq'.eos, leaving_nil] at hdone
  refine ⟨t, bs, ht, hdone, ?_⟩
  rw [hbs, hparse, lz78Bits_append, lz78Misses_length, hlen]
  simp [Nat.add_comm]

/-- Settles O21: the symbols are followed by `Lz78Enc.Between.symbols`; then the input ends, or a miss finds the dictionary full. -/
theorem lz78EncWritesRecords : Obligations.Lz78EncWritesRecords := by
  refine ⟨fun s hroom => exec_lz78Enc_completed hroom, fun s max read rest hmax hin hfull hbefore => ?_⟩
  obtain ⟨init, c, rfl⟩ : ∃ init c, read = init ++ [c] :=
    (List.eq_nil_or_concat' read).resolve_left fun h => by simp [h, lz78Inserts] at hfull
  rw [List.dropLast_concat] at hbefore
  have hin' : s.io.inp.rest = init ++ c :: rest := by simpa using hin
  obtain ⟨e, q, hloop, hbetween, hq⟩ := Lz78Enc.between_fresh.symbols (cfg := s.cfg.toConfig) (rest := c :: rest) init
    (by simp [hmax, hbefore]) (hin' ▸ lz78EncStart_encoding s)
  obtain ⟨q', hq', hstep⟩ := hq.forInput .lz78Enc (lz78EncByte s.cfg.toConfig) rest e
  have hlen := lz78After_length [] [] init
  rw [hbefore, List.length_nil, Nat.zero_add] at hlen
  have hmiss : (lz78After [] [] init).2 ++ [c] ∉ (lz78After [] [] init).1 := fun hmem => by
    rw [lz78Inserts_append, hbefore] at hfull
    simp [lz78Inserts, hmem] at hfull
  have hbyte := hbetween.full (cfg := s.cfg.toConfig) (p := q') hmiss (by simp [withinBound, hmax, hlen])
  have hbody : lz78EncBody s (s.start .record).dropChannel = .error ⟨.dictFull, some (max + 1 : Nat)⟩ q' := by
    rw [lz78EncBody_apply, Run.bind_apply, hin', hloop, hstep, Run.bind_apply, hbyte, hlen]
  obtain ⟨bs, hout, hbs⟩ := hq'.whole
  obtain ⟨t, ht, hraised⟩ := raised_of_runUnit (by decide) (by simp [writtenBy]) (exec_lz78Enc s) hbody hout
  rw [hq'.rest, hq'.eos] at hraised
  refine ⟨t, bs, ht, hraised, ?_⟩
  rw [hbs, lz78Parse_append, List.take_left' (by rw [lz78Misses_length, hbefore])]
  simp

/-- Fewer than eight padding zeros are a normal end of a record stream, whatever the next width (R157, R159). -/
theorem lz78End_padding (width : Nat) (bits : Bits) : Lz78End width (List.replicate (padLength bits) false) := by
  have hpad := (padded_length_mod bits).2
  by_cases hlt : padLength bits < width
  · exact .inl (by simpa using hlt)
  · refine .inr ⟨List.replicate (padLength bits - width) false, ?_, by simp; omega⟩
    rw [List.replicate_append_replicate]
    congr 1
    omega

/-- Settles O23: the encoder writes the records of the parse, padded (O21); they spell the input, so the decoder outputs it and ends
in the padding (O22). -/
theorem lz78RoundTrip : Obligations.Lz78RoundTrip := by
  intro s hmax
  obtain ⟨t, bs, ht, hdone, hbs⟩ := exec_lz78Enc_completed (s := s) (by simp [hmax])
  refine ⟨t, bs, ht, hdone, fun u hcfg hin => ?_⟩
  obtain ⟨ps, hspell, hflat⟩ := exists_lz78Spell_lz78Parse (dict := []) (w := []) s.io.inp.rest
    (fun _ _ h => absurd h List.not_mem_nil) (.inl rfl)
  obtain ⟨v, hv, hdone'⟩ := lz78DecReadsRecords.1 u _ ps _ (by simp [hcfg, hmax]) hspell
    (by rw [hin, hbs, hcfg]; rfl) (lz78End_padding _ _)
  rw [hflat, List.nil_append] at hdone'
  exact ⟨v, hv, hdone'⟩

end Sys2Proof.Machine
end

section
/-! The end of a bit-level decode (41_lz78.md R156, 43_lzss.md R203): on any input, the loops of LZ78.DEC and LZSS.DEC go on until the
sentinel. -/

namespace Sys2Proof.Machine

open Sys2Proof.Claims

/-! ### The pieces of a turn -/

section
variable {α : Type} {p u : State} {a : α}

theorem setPhase_bind_ok {ph : Phase} {f : Unit → Run State α} (h : (setPhase ph >>= f) p = .ok a u) :
    ∃ q : State, q.io = p.io ∧ f () q = .ok a u := ⟨{ p with phase := ph }, rfl, h⟩

theorem setEngine_bind_ok {e : Engine} {f : Unit → Run State α} (h : (setEngine e >>= f) p = .ok a u) :
    ∃ q : State, q.io = p.io ∧ f () q = .ok a u := ⟨{ p with eng := e }, rfl, h⟩

theorem emitBytes_bind_ok {bs : List Byte} {f : Unit → Run State α} (h : (onIo (emitBytes bs) >>= f) p = .ok a u) :
    ∃ q : State, q.io = outBytes bs p.io ∧ f () q = .ok a u := ⟨_, rfl, h⟩

theorem onIo_ok {m : Run Io α} (h : onIo m p = .ok a u) : ∃ io, m p.io = .ok a io ∧ u = { p with io := io } := by
  rw [onIo_apply] at h
  split at h
  · next io hm => cases h; exact ⟨io, hm, rfl⟩
  · cases h

/-- A piece that reads n bits and goes on: with the sentinel, at the end of the input, or with the n bits gone. -/
theorem onIo_readBits_bind_ok {n : Nat} {f : Option Nat → Run State α} {bits : Bits}
    (hr : Reading bits p.io) (h : (onIo (readBits n) >>= f) p = .ok a u) :
    (∃ q, Drained q.io ∧ f none q = .ok a u)
      ∨ ∃ v q, n ≤ bits.length ∧ Reading (bits.drop n) q.io ∧ f (some v) q = .ok a u := by
  rw [Run.bind_apply, onIo_apply, Run.readBits_apply] at h
  rcases le_or_gt n bits.length with hn | hn
  · obtain ⟨hval, hleft⟩ := hr.field hn
    rw [hval] at h
    exact .inr ⟨_, _, hn, hleft, h⟩
  · obtain ⟨hval, hdrained⟩ := hr.cut hn
    rw [hval] at h
    exact .inl ⟨_, hdrained, h⟩

end

/-! ### The loops: the fuel is more than the bits left, and every turn that goes on reads some -/

theorem lz78DecLoop_drained {cfg : Config} {fuel : Nat} {e : Lz78Dec} {p u : State} {bits : Bits} (hr : Reading bits p.io)
    (hfuel : bits.length < fuel) (h : lz78DecLoop cfg fuel e p = .ok () u) : Drained u.io := by
  induction fuel generalizing e p bits with
  | zero => omega
  | succ fuel ih =>
    rw [lz78DecLoop] at h
    obtain ⟨p₁, hio, h⟩ := setEngine_bind_ok h
    obtain ⟨p₂, hio', h⟩ := setPhase_bind_ok h
    rw [← hio, ← hio'] at hr
    obtain ⟨q, hdrained, h⟩ | ⟨k, q, hn, hr, h⟩ := onIo_readBits_bind_ok hr h
    · cases h; exact hdrained
    · obtain ⟨q, hio, h⟩ := setPhase_bind_ok h
      rw [← hio] at hr
      obtain ⟨q, hdrained, h⟩ | ⟨l, q, hn', hr, h⟩ := onIo_readBits_bind_ok hr h
      · dsimp only at h
        split at h
        · cases h; exact hdrained
        · cases h
      · dsimp only at h
        split at h
        · cases h
        · cases hphrase : lz78Phrase e k (BitVec.ofNat 8 l) with
          | none => rw [hphrase] at h; cases h
          | some phrase =>
            rw [hphrase] at h
            obtain ⟨q, hio, h⟩ := emitBytes_bind_ok h
            split at h
            · exact ih (hio ▸ hr.outBytes phrase) (by rw [List.length_drop] at hn' ⊢; rw [List.length_drop]; omega) h
            · cases h

theorem lzssDecLoop_drained {w m fuel : Nat} {win : List Byte} {p u : State} {bits : Bits} (hr : Reading bits p.io)
    (hfuel : bits.length < fuel) (h : lzssDecLoop w m fuel win p = .ok () u) : Drained u.io := by
  induction fuel generalizing win p bits with
  | zero => omega
  | succ fuel ih =>
    rw [lzssDecLoop] at h
    obtain ⟨p₁, hio, h⟩ := setEngine_bind_ok h
    obtain ⟨p₂, hio', h⟩ := setPhase_bind_ok h
    rw [← hio, ← hio'] at hr
    obtain ⟨q, hdrained, h⟩ | ⟨flag, q, hn, hr, h⟩ := onIo_readBits_bind_ok hr h
    · cases h; exact hdrained
    · cases flag with
      | zero =>
        dsimp only at h
        obtain ⟨q, hio, h⟩ := setPhase_bind_ok h
        rw [← hio] at hr
        obtain ⟨q, hdrained, h⟩ | ⟨b, q, hn', hr, h⟩ := onIo_readBits_bind_ok hr h
        · cases h; exact hdrained
        · dsimp only at h
          obtain ⟨q, hio, h⟩ := emitBytes_bind_ok h
          exact ih (hio ▸ hr.outBytes _) (by simp only [List.length_drop] at hn' ⊢; omega) h
      | succ _ =>
        dsimp only at h
        obtain ⟨q, -, h⟩ | ⟨t, q, hn', hr, h⟩ := onIo_readBits_bind_ok hr h
        · obtain ⟨l, q', -, h⟩ := Run.bind_ok.1 h
          cases h
        · obtain ⟨q, -, h⟩ | ⟨l, q, hn'', hr, h⟩ := onIo_readBits_bind_ok hr h
          · cases h
          · dsimp only at h
            split at h
            · cases h
            · obtain ⟨q, hio, h⟩ := emitBytes_bind_ok h
              exact ih (hio ▸ hr.outBytes _) (by simp only [List.length_drop] at hn' hn'' ⊢; omega) h

/-! ### The commands -/

/-- A command that ended normally did its work, and released what it left. -/
theorem runUnit_done {p : Phase} {bad : State → List Nat} {body : Run State Unit} {s t : State} (h : runUnit p bad body s = .next t)
    (hdone : t.run = .done) : ∃ u, body (s.start p).dropChannel = .ok () u ∧ t = u.released.completed := by
  rcases runUnit_cases p bad body s t h with ⟨i, rest, -, rfl⟩ | ⟨-, u, hbody, rfl⟩ | ⟨-, r, u, -, rfl⟩
  · simp at hdone
  · exact ⟨u, hbody, rfl⟩
  · simp at hdone

theorem exec_lz78Dec_drained {s t : State} (h : exec .lz78Dec s = .next t) (hdone : t.run = .done) : Drained t.io := by
  obtain ⟨u, hbody, rfl⟩ := runUnit_done (exec_lz78Dec s ▸ h) hdone
  rw [lz78DecBody_apply] at hbody
  obtain ⟨⟨⟩, q, hloop, hclose⟩ := Run.bind_ok.1 hbody
  have hdrained := lz78DecLoop_drained (lz78DecStart_reading s) (by rw [streamBits_length, unreadBits]; omega) hloop
  cases hclose
  exact ⟨hdrained.rest, hdrained.eos⟩

/-- R203, R206: the two header bytes are the first of `IN`. -/
theorem lzssReadHeader_eq_ok {io io' : Io} {header : Byte × Byte} (h : lzssReadHeader io = .ok header io') :
    ∃ rest, io.inp.rest = header.1 :: header.2 :: rest ∧ io' = { io with inp := ⟨rest, io.inp.consumed + 2⟩ } := by
  rcases hin : io.inp.rest with _ | ⟨a, _ | ⟨b, rest⟩⟩
  · simp [lzssReadHeader, inByte, hin] at h
  · simp [lzssReadHeader, inByte, hin] at h
  · simp only [lzssReadHeader, inByte, hin, Run.bind_apply, Run.getByte_apply, Run.pure_apply, EStateM.Result.ok.injEq] at h
    obtain ⟨rfl, rfl⟩ := h
    exact ⟨rest, rfl, rfl⟩

/-- The work of LZSS.DEC after its header is read. -/
def lzssDecRest (s : State) (header : Byte × Byte) : Run State Unit := do
  modify fun t => { t with windowBits := .of header.1.toNat, maxMatchBits := .of header.2.toNat }
  modify openReaderFree
  lzssDecLoop header.1.toNat header.2.toNat (unreadBits s.io + 1) []
  setPhase .close

/-- The work of LZSS.DEC. -/
def lzssDecBody (s : State) : Run State Unit := do
  onIo (modify openOut)
  let header ← onIo lzssReadHeader
  lzssDecRest s header

theorem exec_lzssDec (s : State) : exec .lzssDec s = runUnit .header (fun _ => []) (lzssDecBody s) s := rfl

/-- LZSS.DEC when its loop begins: the parameters in their registers, a fresh reader on what follows the header. -/
def lzssDecStart (header : Byte × Byte) (p : State) : State :=
  openReaderFree { p with windowBits := .of header.1.toNat, maxMatchBits := .of header.2.toNat }

theorem lzssDecRest_apply (s : State) (header : Byte × Byte) (p : State) :
    lzssDecRest s header p
      = (lzssDecLoop header.1.toNat header.2.toNat (unreadBits s.io + 1) [] >>= fun _ => setPhase .close) (lzssDecStart header p) := rfl

theorem exec_lzssDec_drained {s t : State} (h : exec .lzssDec s = .next t) (hdone : t.run = .done) : Drained t.io := by
  obtain ⟨u, hbody, rfl⟩ := runUnit_done (exec_lzssDec s ▸ h) hdone
  obtain ⟨⟨⟩, p, hopen, hbody⟩ := Run.bind_ok.1 hbody
  obtain ⟨header, q, hheader, hrest⟩ := Run.bind_ok.1 hbody
  obtain ⟨io, hread, hq⟩ := onIo_ok hheader
  obtain ⟨rest, hin, hio⟩ := lzssReadHeader_eq_ok hread
  have hopened : p.io = openOut (s.start .header).dropChannel.io := by cases hopen; rfl
  have hin' : s.io.inp.rest = header.1 :: header.2 :: rest := by rw [← hin, hopened]; rfl
  have hstart : Reading (streamBits rest) (lzssDecStart header q).io := by
    have heos : q.io.eos = false := by rw [hq, hio, hopened]; rfl
    have hleft : q.io.inp.rest = rest := by rw [hq, hio]
    exact hleft ▸ reading_openReader (freeByte q.freeCtr) heos
  rw [lzssDecRest_apply] at hrest
  obtain ⟨⟨⟩, v, hloop, hclose⟩ := Run.bind_ok.1 hrest
  have hdrained := lzssDecLoop_drained hstart
    (by rw [streamBits_length, unreadBits, hin', List.length_cons, List.length_cons]; omega) hloop
  cases hclose
  exact ⟨hdrained.rest, hdrained.eos⟩

/-- Settles O25: either loop stops normally at the sentinel alone. -/
theorem decodersEndBySentinel : Obligations.DecodersEndBySentinel := by
  intro s t h hdone
  have hdrained : Drained t.io := h.elim (exec_lz78Dec_drained · hdone) (exec_lzssDec_drained · hdone)
  exact ⟨hdrained.eos, hdrained.rest⟩

end Sys2Proof.Machine
end

section
/-! LZW codes and the decoder (42_lzw.md R174, R175, R177): the code stream as bits, the phrases it spells, the dictionary those phrases
make, and LZW.DEC reading it. -/

namespace Sys2Proof.Claims

open Sys2Proof.Machine

/-! ### Widths -/

/-- R173: the width grows by one bit exactly at the powers of two. -/
theorem bitLength_succ (n : Nat) : bitLength (n + 1) = if 2 ^ bitLength n - 1 < n + 1 then bitLength n + 1 else bitLength n := by
  have hlt := lt_pow_bitLength n
  split
  case isTrue h =>
    refine le_antisymm ((bitLength_le _ _).2 (by rw [pow_succ]; omega)) (Nat.lt_of_not_le fun hle => ?_)
    have := (bitLength_le _ _).1 hle
    omega
  case isFalse h => exact le_antisymm ((bitLength_le _ _).2 (by omega)) (bitLength_mono (Nat.le_succ n))

/-- R178: the decoder's width, which `bitLength(257) = bitLength(256)` makes uniform in the number of codes read. -/
theorem bitLength_lzwNext (m : Nat) : bitLength (lzwNext m) = bitLength (256 + m) := by
  cases m with
  | zero => decide
  | succ m => rw [lzwNext, max_eq_right (by omega)]

/-- R176: off the corner, the code after m codes would be as wide as the last of them. -/
theorem bitLength_of_not_lzwCorner {m : Nat} (hm : m ≠ 0) (h : ¬ lzwCorner m) : bitLength (255 + m) = bitLength (256 + m) := by
  rw [show 256 + m = 255 + m + 1 by omega, bitLength_succ]
  split
  case isTrue hgrow =>
    have hlt := lt_pow_bitLength (255 + m)
    have hwide : 9 ≤ bitLength (255 + m) := bitLength_mono (v := 256) (by omega)
    exact absurd ⟨_, hwide, by omega⟩ h
  case isFalse => rfl

/-! ### Code streams -/

theorem lzwBits_append (i : Nat) (ks ks' : List Nat) : lzwBits i (ks ++ ks') = lzwBits i ks ++ lzwBits (i + ks.length) ks' := by
  induction ks generalizing i with
  | nil => simp [lzwBits]
  | cons k ks ih => simp [lzwBits, ih, Nat.add_assoc, Nat.add_comm 1]

/-- The bits of codes and one more (R174). -/
theorem lzwBits_concat (ks : List Nat) (k : Nat) :
    lzwBits 1 (ks ++ [k]) = lzwBits 1 ks ++ binN (bitLength (256 + ks.length)) k := by
  rw [lzwBits_append, lzwBits, lzwBits, List.append_nil, ← Nat.add_assoc]

/-- R182: there is no more than one code a bit. -/
theorem length_le_lzwBits_length (ks : List Nat) : ks.length ≤ (lzwBits 1 ks).length := by
  induction ks using List.reverseRecOn with
  | nil => simp
  | append_singleton ks k ih =>
    have := bitLength_pos (v := 256 + ks.length) (by omega)
    rw [lzwBits_concat, List.length_append, List.length_append, binN_length, List.length_singleton]
    omega

/-- Room for codes is room for all but the last of them (R44). -/
theorem LzwRoom.init {bound : Option Nat} {ks : List Nat} {k : Nat} (h : LzwRoom bound (ks ++ [k])) : LzwRoom bound ks := by
  intro max hmax
  have := h max hmax
  simp only [List.length_append, List.length_singleton] at this
  omega

/-- Room for codes is room for the insertion that comes with the last of them, when it is not the first. -/
theorem LzwRoom.last {bound : Option Nat} {ks : List Nat} {k : Nat} (h : LzwRoom bound (ks ++ [k])) (hks : ks ≠ []) :
    withinBound bound (lzwNext ks.length) = true := by
  have hpos := List.length_pos_iff.2 hks
  refine withinBound_iff.2 fun max hmax => ?_
  have := h max hmax
  simp only [List.length_append, List.length_singleton] at this
  rw [lzwNext]
  omega

theorem lzwOverflow_eq (m : Nat) : lzwOverflow m = max 1 (m - 255) := rfl

/-- A dictionary that is about to overflow had room for the codes so far (R44). -/
theorem lzwRoom_of_length {m : Nat} {ks : List Nat} (h : ks.length = lzwOverflow m) : LzwRoom (some m) ks := by
  intro m' hm
  obtain rfl : m = m' := Option.some.inj hm
  rw [lzwOverflow_eq] at h
  omega

/-- R44: the insertion past the bound is refused. -/
theorem withinBound_lzwOverflow (m : Nat) : withinBound (some m) (256 + lzwOverflow m) = false := by
  rw [withinBound, decide_eq_false_iff_not, lzwOverflow_eq]
  omega

/-! ### The phrases codes stand for -/

/-- The dictionary a decoder has after some phrases: each but the last, extended by the first symbol of the next (R177). -/
def lzwEntries (phrases : List (List Byte)) : List (List Byte) := List.zipWith (fun p q => p ++ q.take 1) phrases phrases.tail

@[simp] theorem lzwEntries_length (phrases : List (List Byte)) : (lzwEntries phrases).length = phrases.length - 1 := by
  simp [lzwEntries]

/-- One phrase more makes one entry more. -/
theorem lzwEntries_concat (phrases : List (List Byte)) (prev p : List Byte) :
    lzwEntries (phrases ++ [prev] ++ [p]) = lzwEntries (phrases ++ [prev]) ++ [prev ++ p.take 1] := by
  induction phrases with
  | nil => rfl
  | cons q phrases ih => cases phrases <;> simp_all [lzwEntries]

/-- The phrase a code stands for after some phrases: the first code must be a byte (R177, R180). -/
def lzwNamed (phrases : List (List Byte)) (k : Nat) : Option (List Byte) :=
  match phrases.getLast? with
  | none => if k < 256 then some [BitVec.ofNat 8 k] else none
  | some prev => lzwMeaning (lzwEntries phrases) prev k

theorem lzwNamed_nil (k : Nat) : lzwNamed [] k = if k < 256 then some [BitVec.ofNat 8 k] else none := rfl

theorem lzwNamed_concat (phrases : List (List Byte)) (prev : List Byte) (k : Nat) :
    lzwNamed (phrases ++ [prev]) k = lzwMeaning (lzwEntries (phrases ++ [prev])) prev k := by
  simp [lzwNamed]

/-- A spelling, read off its first code. -/
theorem lzwSpellRest_cons_eq_some {dict ps : List (List Byte)} {prev : List Byte} {k : Nat} {ks : List Nat} :
    lzwSpellRest dict prev (k :: ks) = some ps ↔
      ∃ p ps', lzwMeaning dict prev k = some p ∧ lzwSpellRest (dict ++ [prev ++ p.take 1]) p ks = some ps' ∧ ps = p :: ps' := by
  rw [lzwSpellRest]
  split
  · next h => simp [h]
  · next p h => simp [h, eq_comm]

theorem lzwSpell_cons_eq_some {ps : List (List Byte)} {k : Nat} {ks : List Nat} :
    lzwSpell (k :: ks) = some ps ↔
      ∃ ps', k < 256 ∧ lzwSpellRest [] [BitVec.ofNat 8 k] ks = some ps' ∧ ps = [BitVec.ofNat 8 k] :: ps' := by
  rw [lzwSpell]
  split
  · next h => simp [h, eq_comm]
  · next h => simp [h]

/-- A last code after others spells one phrase more, under the dictionary of the phrases before it. -/
theorem lzwSpellRest_concat_eq_some {before ps : List (List Byte)} {prev : List Byte} {ks : List Nat} {k : Nat} :
    lzwSpellRest (lzwEntries (before ++ [prev])) prev (ks ++ [k]) = some ps ↔
      ∃ ps' w, lzwSpellRest (lzwEntries (before ++ [prev])) prev ks = some ps' ∧ lzwNamed (before ++ [prev] ++ ps') k = some w
        ∧ ps = ps' ++ [w] := by
  induction ks generalizing before prev ps with
  | nil =>
    rw [List.nil_append, lzwSpellRest_cons_eq_some]
    simp [lzwNamed_concat, lzwSpellRest]
  | cons j ks ih =>
    simp only [List.cons_append, lzwSpellRest_cons_eq_some, ← lzwEntries_concat]
    constructor
    · rintro ⟨p, ps', hp, hps, rfl⟩
      obtain ⟨ps'', w, hps'', hw, rfl⟩ := ih.1 hps
      exact ⟨p :: ps'', w, ⟨p, ps'', hp, hps'', rfl⟩, by simpa using hw, rfl⟩
    · rintro ⟨ps', w, ⟨p, ps'', hp, hps'', rfl⟩, hw, rfl⟩
      exact ⟨p, ps'' ++ [w], hp, ih.2 ⟨ps'', w, hps'', by simpa using hw, rfl⟩, rfl⟩

/-- The last code spells one phrase more. -/
theorem lzwSpell_concat_eq_some {ps : List (List Byte)} {ks : List Nat} {k : Nat} :
    lzwSpell (ks ++ [k]) = some ps ↔ ∃ ps' w, lzwSpell ks = some ps' ∧ lzwNamed ps' k = some w ∧ ps = ps' ++ [w] := by
  cases ks with
  | nil => simp [lzwSpell, lzwSpellRest, lzwNamed_nil, eq_comm]
  | cons j ks =>
    have hrest := fun ps => lzwSpellRest_concat_eq_some (before := []) (ps := ps) (prev := [BitVec.ofNat 8 j]) (ks := ks) (k := k)
    simp only [List.nil_append, show lzwEntries [[BitVec.ofNat 8 j]] = [] from rfl] at hrest
    simp only [List.cons_append, lzwSpell_cons_eq_some, hrest]
    constructor
    · rintro ⟨_, hj, ⟨ps', w, hps, hw, rfl⟩, rfl⟩
      exact ⟨_, w, ⟨ps', hj, hps, rfl⟩, hw, rfl⟩
    · rintro ⟨_, w, ⟨ps', hj, hps, rfl⟩, hw, rfl⟩
      exact ⟨_, hj, ⟨ps', w, hps, hw, rfl⟩, rfl⟩

/-- Every code spells one phrase. -/
theorem lzwSpell_length {ps : List (List Byte)} {ks : List Nat} (h : lzwSpell ks = some ps) : ps.length = ks.length := by
  induction ks using List.reverseRecOn generalizing ps with
  | nil => simp_all [lzwSpell]
  | append_singleton ks k ih =>
    obtain ⟨ps', w, hps, -, rfl⟩ := lzwSpell_concat_eq_some.1 h
    simp [ih hps]

/-- A code that stands for a phrase is a byte, an entry's, or the deferred one: at most `NEXT`, and never the marker's. -/
theorem lzwNamed_some {ps : List (List Byte)} {k : Nat} {w : List Byte} (h : lzwNamed ps k = some w) :
    k ≠ 256 ∧ k ≤ lzwNext ps.length := by
  rcases List.eq_nil_or_concat' ps with rfl | ⟨ps, prev, rfl⟩
  · rw [lzwNamed_nil] at h
    split at h
    · next hk => exact ⟨by omega, by rw [lzwNext]; omega⟩
    · cases h
  · have hnext : lzwNext (ps ++ [prev]).length = 257 + (lzwEntries (ps ++ [prev])).length := by simp [lzwNext]; omega
    rw [lzwNamed_concat, lzwMeaning] at h
    rw [hnext]
    split_ifs at h
    · omega
    · omega
    · obtain ⟨hlt, -⟩ := List.getElem?_eq_some_iff.1 h
      omega

/-- R178: such a code fits the width it is read at. -/
theorem lt_pow_of_lzwNamed {ps : List (List Byte)} {k : Nat} {w : List Byte} (h : lzwNamed ps k = some w) :
    k < 2 ^ bitLength (lzwNext ps.length) := (lzwNamed_some h).2.trans_lt (lt_pow_bitLength _)

/-- R180: a code above `NEXT`, or a first code above 255, stands for no phrase. -/
theorem lzwNamed_eq_none {ps : List (List Byte)} {k : Nat} (h : lzwNext ps.length < k ∨ (ps = [] ∧ 256 < k)) :
    lzwNamed ps k = none := by
  rcases h with h | ⟨rfl, h⟩
  · exact Option.eq_none_iff_forall_ne_some.2 fun w hw => Nat.not_lt.2 (lzwNamed_some hw).2 h
  · rw [lzwNamed_nil, if_neg (by omega)]

end Sys2Proof.Claims

namespace Sys2Proof.Machine

open Sys2Proof.Claims

/-! ### The decoder's table -/

/-- The decoder that has output these phrases: `NEXT`, `PREV`, and the table above the seeds (R32, R177). -/
structure LzwDec.Holds (phrases : List (List Byte)) (e : LzwDec) : Prop where
  next : e.next = lzwNext phrases.length
  prev : e.prev = phrases.getLast?
  table : ∀ k, e.table.lookup (257 + k) = (lzwEntries phrases)[k]?

theorem LzwDec.holds_fresh : LzwDec.fresh.Holds [] := ⟨rfl, rfl, fun _ => rfl⟩

/-- The first phrase makes no entry. -/
theorem LzwDec.Holds.first {e : LzwDec} (h : e.Holds []) (p : List Byte) : LzwDec.Holds [p] { e with prev := some p } :=
  ⟨h.next, rfl, h.table⟩

/-- Every later phrase makes one entry (R177). -/
theorem LzwDec.Holds.insert {phrases : List (List Byte)} {prev : List Byte} {e : LzwDec} (h : e.Holds (phrases ++ [prev]))
    (p : List Byte) :
    LzwDec.Holds (phrases ++ [prev] ++ [p]) ⟨(e.next, prev ++ p.take 1) :: e.table, e.next + 1, some p⟩ := by
  obtain ⟨hnext, -, htable⟩ := h
  have hlen : (lzwEntries (phrases ++ [prev])).length = phrases.length := by simp
  have hnext' : e.next = 257 + phrases.length := by rw [hnext]; simp [lzwNext]; omega
  refine ⟨by simp [hnext', lzwNext]; omega, by simp, fun k => ?_⟩
  rw [List.lookup_cons, htable, hnext', lzwEntries_concat, List.getElem?_append, hlen]
  by_cases hlt : k < phrases.length
  · rw [beq_false_of_ne (by omega), if_pos hlt]
  · by_cases hk : k = phrases.length
    · simp [hk]
    · rw [beq_false_of_ne (by omega), if_neg hlt, List.getElem?_eq_none (by omega),
        List.getElem?_eq_none (by rw [List.length_singleton]; omega)]

/-- The phrase the decoder takes a later code for is the one the code stands for (R175, R177, R180). -/
theorem LzwDec.Holds.phrase_eq {phrases : List (List Byte)} {prev : List Byte} {e : LzwDec} (h : e.Holds (phrases ++ [prev]))
    (k : Nat) : lzwPhrase e prev k = lzwNamed (phrases ++ [prev]) k := by
  obtain ⟨hnext, -, htable⟩ := h
  have hlen : (lzwEntries (phrases ++ [prev])).length = phrases.length := by simp
  have hnext' : e.next = 257 + phrases.length := by rw [hnext]; simp [lzwNext]; omega
  rw [lzwNamed_concat, lzwMeaning, lzwPhrase, lzwStored, hnext', hlen]
  rcases Nat.lt_trichotomy k 256 with hk | rfl | hk
  · rw [if_pos (.inl hk), if_pos hk, if_pos hk]
  · simp
  · obtain ⟨j, rfl⟩ := Nat.exists_eq_add_of_le (show 257 ≤ k from hk)
    have hlow : ¬ 257 + j < 256 := by omega
    rw [htable, Nat.add_sub_cancel_left, if_neg hlow, if_neg hlow]
    rcases Nat.lt_trichotomy j phrases.length with hj | rfl | hj
    · have hcode : 257 + j ≠ 257 + phrases.length ∧ 257 + j ≠ 256 := by omega
      rw [if_pos (.inr ⟨by omega, by omega⟩), if_neg hcode.1, if_neg hcode.2]
    · simp
      omega
    · simp [hj.ne', hj.le]

/-! ### One turn of the decoder -/

section
variable {cfg : Config} {fuel k : Nat} {e : LzwDec} {p : State} {bits rest : Bits} {phrases : List (List Byte)} {w : List Byte}

/-- What LZW.DEC does with a code it has read (R177). -/
def lzwDecEntry (cfg : Config) (fuel : Nat) (e : LzwDec) (k : Nat) : Run State Unit :=
  if k = lzwEndCode then pure ()
  else match e.prev with
    | none =>
      if 255 < k then raise .corruptCodeword k
      else do
        onIo (emitBytes [BitVec.ofNat 8 k])
        lzwDecLoop cfg fuel { e with prev := some [BitVec.ofNat 8 k] }
    | some prev =>
      match lzwPhrase e prev k with
      | none => raise .corruptCodeword k
      | some p =>
        if withinBound cfg.lzwMaxCode e.next then do
          onIo (emitBytes p)
          lzwDecLoop cfg fuel ⟨(e.next, prev ++ p.take 1) :: e.table, e.next + 1, some p⟩
        else raise .dictFull e.next

/-- R181: fewer bits than a code has are `TruncatedStream` with `NEXT`. -/
theorem lzwDecLoop_of_cut (h : Reading bits p.io) (hn : bits.length < bitLength e.next) :
    ∃ q, lzwDecLoop cfg (fuel + 1) e p = .error ⟨.truncatedStream, some e.next⟩ q ∧ Drained q.io ∧ q.io.out = p.io.out := by
  obtain ⟨hval, hdrained⟩ := h.cut hn
  refine ⟨{ p with eng := .lzwDec e, io := (rdBits (bitLength e.next) p.io).2 }, ?_, hdrained, rdBits_out _ _⟩
  simp [lzwDecLoop, onIo_apply, hval]

/-- R177, R178: a code is read at the width of `NEXT`, and acted on. -/
theorem lzwDecLoop_of_code (h : Reading bits p.io) (hn : bitLength e.next ≤ bits.length) :
    ∃ q, lzwDecLoop cfg (fuel + 1) e p = lzwDecEntry cfg fuel e (valOf (bits.take (bitLength e.next))) q
      ∧ Reading (bits.drop (bitLength e.next)) q.io ∧ q.io.out = p.io.out := by
  obtain ⟨hval, hleft⟩ := h.field hn
  refine ⟨{ p with eng := .lzwDec e, io := (rdBits (bitLength e.next) p.io).2 }, ?_, hleft, rdBits_out _ _⟩
  simp [lzwDecLoop, onIo_apply, hval]
  rfl

/-! ### Codes the decoder accepts, and codes it rejects -/

/-- A code that the stream spells at the decoder's width is what it acts on. -/
theorem LzwDec.Holds.entry (he : e.Holds phrases) (hk : k < 2 ^ bitLength (lzwNext phrases.length))
    (hr : Reading (binN (bitLength (lzwNext phrases.length)) k ++ rest) p.io) :
    ∃ q, lzwDecLoop cfg (fuel + 1) e p = lzwDecEntry cfg fuel e k q ∧ Reading rest q.io ∧ q.io.out = p.io.out := by
  have hcode := lzwDecLoop_of_code (cfg := cfg) (fuel := fuel) (e := e) hr (by simp [he.next])
  rw [he.next, take_binN_append, drop_binN_append, valOf_binN, Nat.mod_eq_of_lt hk] at hcode
  exact hcode

/-- R177: a code that stands for a phrase outputs it, when the dictionary has room for the entry it makes. -/
theorem LzwDec.Holds.entry_accept (he : e.Holds phrases) (hw : lzwNamed phrases k = some w)
    (hroom : phrases ≠ [] → withinBound cfg.lzwMaxCode (lzwNext phrases.length) = true) :
    ∃ e', lzwDecEntry cfg fuel e k p = lzwDecLoop cfg fuel e' { p with io := outBytes w p.io } ∧ e'.Holds (phrases ++ [w]) := by
  have hk : k ≠ lzwEndCode := (lzwNamed_some hw).1
  have hprev := he.prev
  rcases List.eq_nil_or_concat' phrases with rfl | ⟨before, prev, rfl⟩
  · rw [lzwNamed_nil] at hw
    split_ifs at hw with hlow
    obtain rfl := Option.some.inj hw
    refine ⟨_, ?_, he.first _⟩
    simp [lzwDecEntry, hk, hprev, Nat.not_lt.2 (Nat.le_of_lt_succ hlow), onIo_apply]
  · rw [List.getLast?_concat] at hprev
    have hfits : withinBound cfg.lzwMaxCode e.next = true := he.next ▸ hroom (by simp)
    refine ⟨_, ?_, he.insert w⟩
    simp [lzwDecEntry, hk, hprev, he.phrase_eq, hw, hfits, onIo_apply]

/-- R44: the entry that no code is left for raises `DictFull` before the phrase is output. -/
theorem LzwDec.Holds.entry_full (he : e.Holds phrases) (hw : lzwNamed phrases k = some w) (hne : phrases ≠ [])
    (hroom : withinBound cfg.lzwMaxCode (lzwNext phrases.length) = false) :
    lzwDecEntry cfg fuel e k p = .error ⟨.dictFull, some (lzwNext phrases.length)⟩ p := by
  have hk : k ≠ lzwEndCode := (lzwNamed_some hw).1
  have hprev := he.prev
  obtain ⟨before, prev, rfl⟩ := (List.eq_nil_or_concat' phrases).resolve_left hne
  rw [List.getLast?_concat] at hprev
  rw [← he.next] at hroom ⊢
  simp [lzwDecEntry, hk, hprev, he.phrase_eq, hw, hroom]

/-- R180: a code that stands for no phrase is `CorruptCodeword`. -/
theorem LzwDec.Holds.entry_reject (he : e.Holds phrases) (hw : lzwNamed phrases k = none) (hk : k ≠ 256) :
    lzwDecEntry cfg fuel e k p = .error ⟨.corruptCodeword, some k⟩ p := by
  have hk' : k ≠ lzwEndCode := hk
  have hprev := he.prev
  rcases List.eq_nil_or_concat' phrases with rfl | ⟨before, prev, rfl⟩
  · have hhigh : 255 < k := by
      by_contra hlow
      rw [lzwNamed_nil, if_pos (by omega)] at hw
      cases hw
    simp [lzwDecEntry, hk', hprev, hhigh]
  · rw [List.getLast?_concat] at hprev
    simp [lzwDecEntry, hk', hprev, he.phrase_eq, hw]

/-- R177: codes that the dictionary has room for are read one after the other, and their phrases are put on `OUT`. -/
theorem LzwDec.Holds.codes {codes : List Nat} (he : e.Holds []) (hs : lzwSpell codes = some phrases)
    (hroom : LzwRoom cfg.lzwMaxCode codes) (hr : Reading (lzwBits 1 codes ++ rest) p.io) :
    ∃ e' q, lzwDecLoop cfg (fuel + codes.length) e p = lzwDecLoop cfg fuel e' q ∧ e'.Holds phrases
      ∧ Reading rest q.io ∧ q.io.out = ⟨p.io.out.bytes ++ phrases.flatten, p.io.out.sink⟩ := by
  induction codes using List.reverseRecOn generalizing fuel rest phrases with
  | nil =>
    obtain rfl : phrases = [] := by simpa [lzwSpell, eq_comm] using hs
    exact ⟨e, p, rfl, he, hr, by simp⟩
  | append_singleton codes k ih =>
    obtain ⟨before, w, hbefore, hw, rfl⟩ := lzwSpell_concat_eq_some.1 hs
    have hlen := lzwSpell_length hbefore
    rw [lzwBits_concat, List.append_assoc, ← bitLength_lzwNext, ← hlen] at hr
    obtain ⟨e₁, q₁, hloop₁, he₁, hread₁, hout₁⟩ := ih (fuel := fuel + 1) hbefore hroom.init hr
    obtain ⟨q₂, hloop₂, hread₂, hout₂⟩ := he₁.entry (cfg := cfg) (fuel := fuel) (lt_pow_of_lzwNamed hw) hread₁
    obtain ⟨e₃, hloop₃, he₃⟩ := he₁.entry_accept (cfg := cfg) (fuel := fuel) (p := q₂) hw fun hne => by
      rw [hlen]
      exact hroom.last fun hnil => hne (List.length_eq_zero_iff.1 (by rw [hlen, hnil, List.length_nil]))
    refine ⟨e₃, { q₂ with io := outBytes w q₂.io }, ?_, he₃, hread₂.outBytes w, ?_⟩
    · rw [List.length_append, List.length_singleton, Nat.add_comm codes.length, ← Nat.add_assoc, hloop₁, hloop₂, hloop₃]
    · simp [hout₂, hout₁]

end

end Sys2Proof.Machine
end

section
/-! LZW.DEC as a command (42_lzw.md R177, R180, R181): the codes before it, then how it ends. -/

namespace Sys2Proof.Machine

open Sys2Proof.Claims

/-! ### The start of the decode, which is that of LZ78.DEC -/

/-- The work of LZW.DEC. -/
def lzwDecBody (s : State) : Run State Unit := do
  modify openReaderFree
  onIo (modify openOut)
  lzwDecLoop s.cfg.toConfig (unreadBits s.io + 1) .fresh
  setPhase .close

theorem exec_lzwDec (s : State) : exec .lzwDec s = runUnit .record (fun _ => []) (lzwDecBody s) s := rfl

theorem lzwDecBody_apply (s : State) :
    lzwDecBody s (s.start .record).dropChannel
      = (lzwDecLoop s.cfg.toConfig (unreadBits s.io + 1) .fresh >>= fun _ => setPhase .close) (lz78DecStart s) := rfl

/-- R323: LZW.DEC completes when its loop is done. -/
theorem exec_lzwDec_completed {s u : State} {bs : List Byte}
    (h : lzwDecLoop s.cfg.toConfig (unreadBits s.io + 1) .fresh (lz78DecStart s) = .ok () u)
    (hout : u.io.out = ⟨s.io.out.opened.bytes ++ bs, .writing⟩) :
    ∃ t, exec .lzwDec s = .next t ∧ Completed s (wrote s bs (leaving s u.io.inp.rest) u.io.eos) t := by
  have hbody : lzwDecBody s (s.start .record).dropChannel = .ok () { u with phase := .close } := by
    rw [lzwDecBody_apply, Run.bind_apply, h]; rfl
  have hended : ({ u with phase := .close } : State).io.out.ended s.embedded
      = ⟨s.io.out.opened.bytes ++ bs, if s.embedded then .flushed else .closed⟩ := by
    rw [← OutStream.ended_of_writing, ← hout]
  obtain ⟨t, ht, hdone⟩ := completed_of_runUnit (by decide) (by simp [writtenBy]) (exec_lzwDec s) hbody hended
  exact ⟨t, ht, hdone⟩

/-- R322: LZW.DEC raises what its loop raises. -/
theorem exec_lzwDec_raised {s u : State} {bs : List Byte} {e : Exc} {info : Int}
    (h : lzwDecLoop s.cfg.toConfig (unreadBits s.io + 1) .fresh (lz78DecStart s) = .error ⟨e, some info⟩ u)
    (hout : u.io.out = ⟨s.io.out.opened.bytes ++ bs, .writing⟩) :
    ∃ t, exec .lzwDec s = .next t ∧ Raised s (wrote s bs (leaving s u.io.inp.rest) u.io.eos) e info t := by
  refine raised_of_runUnit (by decide) (by simp [writtenBy]) (exec_lzwDec s) ?_ hout
  rw [lzwDecBody_apply, Run.bind_apply, h]

/-- R177: after codes that the dictionary has room for, the loop goes on with what their phrases make, and those are on `OUT`. -/
theorem lzwDecLoop_after_codes {s : State} {codes : List Nat} {phrases : List (List Byte)} {tail : Bits}
    (hroom : LzwRoom s.cfg.lzwMaxCode codes) (hs : lzwSpell codes = some phrases)
    (hin : streamBits s.io.inp.rest = lzwBits 1 codes ++ tail) :
    ∃ fuel e q, lzwDecLoop s.cfg.toConfig (unreadBits s.io + 1) .fresh (lz78DecStart s)
        = lzwDecLoop s.cfg.toConfig (fuel + 1) e q
      ∧ e.Holds phrases ∧ Reading tail q.io ∧ q.io.out = ⟨s.io.out.opened.bytes ++ phrases.flatten, .writing⟩ := by
  have hle : codes.length ≤ unreadBits s.io := by
    have := length_le_lzwBits_length codes
    have hlen := congrArg List.length hin
    rw [streamBits_length, List.length_append] at hlen
    rw [unreadBits]
    omega
  obtain ⟨e, q, hloop, he, hread, hout⟩ := LzwDec.holds_fresh.codes (cfg := s.cfg.toConfig) (p := lz78DecStart s)
    (fuel := unreadBits s.io - codes.length + 1) hs hroom (hin ▸ lz78DecStart_reading s)
  refine ⟨unreadBits s.io - codes.length, e, q, ?_, he, hread, ?_⟩
  · rw [← hloop]; congr 1; omega
  · rw [hout, lz78DecStart_out]

/-! ### What LZW.DEC does after the codes -/

/-- What is left of `IN` after a command is a suffix of it (R61). -/
theorem exists_append_rest {i : Instr} {s t : State} {bs rest : List Byte} {eos : Bool} (h : exec i s = .next t)
    (hio : t.io = wrote s bs (leaving s rest) eos) : ∃ read, s.io.inp.rest = read ++ rest := by
  obtain ⟨read, hread, -⟩ := (exec_forward h).inp
  exact ⟨read, by rw [hread, hio]; rfl⟩

/-- Settles O27: the codes before the end are read by `LzwDec.Holds.codes`; then comes the marker, or the last code finds the dictionary
full. -/
theorem lzwDecReadsCodes : Obligations.LzwDecReadsCodes := by
  refine ⟨fun s codes phrases rest tail hroom hs htail ⟨bs, hin, hbs⟩ => ?_, fun s codes phrases more max hmax hlen hs hin => ?_⟩
  · have hbits : streamBits s.io.inp.rest
        = lzwBits 1 codes ++ (binN (bitLength (lzwNext codes.length)) 256 ++ (tail ++ streamBits rest)) := by
      rw [hin, streamBits_append, hbs]; simp
    obtain ⟨fuel, e, q, hloop, he, hread, hout⟩ := lzwDecLoop_after_codes hroom hs hbits
    rw [← lzwSpell_length hs] at hread
    have hmarker : 256 < 2 ^ bitLength (lzwNext phrases.length) :=
      lt_of_lt_of_le (by rw [lzwNext]; omega) (lt_pow_bitLength (lzwNext phrases.length)).le
    obtain ⟨u, hu, hread', hout'⟩ := he.entry (cfg := s.cfg.toConfig) (fuel := fuel) hmarker hread
    obtain ⟨t, ht, hdone⟩ := exec_lzwDec_completed (hloop.trans hu) (hout'.trans hout)
    have hrest : u.io.inp.rest = rest := by
      obtain ⟨read, hsuffix⟩ := exists_append_rest ht (congrArg State.io hdone)
      have hlen := hread'.rest_length
      rw [List.length_append, streamBits_length] at hlen
      exact (List.append_inj' (hsuffix.symm.trans hin) (by omega)).2
    rw [hrest, hread'.eos] at hdone
    exact ⟨t, ht, hdone⟩
  · obtain ⟨init, k, rfl⟩ : ∃ init k, codes = init ++ [k] :=
      ⟨_, _, (List.dropLast_append_getLast (List.ne_nil_of_length_eq_add_one hlen)).symm⟩
    obtain ⟨before, w, hbefore, hw, rfl⟩ := lzwSpell_concat_eq_some.1 hs
    have hinit : init.length = lzwOverflow max := by simpa using hlen
    have hlen' : before.length = lzwOverflow max := (lzwSpell_length hbefore).trans hinit
    have hpos : 1 ≤ lzwOverflow max := le_max_left _ _
    have hne : before ≠ [] := List.ne_nil_of_length_pos (by omega)
    have hnext : lzwNext before.length = 256 + lzwOverflow max := by rw [hlen', lzwNext]; omega
    have hbits := hin
    rw [lzwBits_concat, List.append_assoc, ← bitLength_lzwNext, ← lzwSpell_length hbefore] at hbits
    obtain ⟨fuel, e, q, hloop, he, hread, hout⟩ := lzwDecLoop_after_codes (hmax ▸ lzwRoom_of_length hinit) hbefore hbits
    obtain ⟨u, hu, hread', hout'⟩ := he.entry (cfg := s.cfg.toConfig) (fuel := fuel) (lt_pow_of_lzwNamed hw) hread
    rw [he.entry_full hw hne (by rw [hmax, hnext, withinBound_lzwOverflow]), hnext] at hu
    obtain ⟨t, ht, hraised⟩ := exec_lzwDec_raised (hloop.trans hu) (hout'.trans hout)
    have hsuffix := exists_append_rest ht (congrArg State.io hraised)
    rw [hread'.eos, rest_eq_drop hsuffix hin hread'.rest_length] at hraised
    rw [List.dropLast_concat]
    exact ⟨t, ht, hraised⟩

/-- Settles O29: the codes before it are read by `LzwDec.Holds.codes`, and the next one is rejected or cut. -/
theorem lzwDecRejects : Obligations.LzwDecRejects := by
  intro s codes phrases k more hroom hs width
  have hlen := lzwSpell_length hs
  refine ⟨fun hk hbad hin => ?_, fun hmore hin => ?_⟩
  · rw [List.append_assoc] at hin
    obtain ⟨fuel, e, q, hloop, he, hread, hout⟩ := lzwDecLoop_after_codes hroom hs hin
    have hnone : lzwNamed phrases k = none := by
      refine lzwNamed_eq_none (hbad.imp (by rw [hlen]; exact id) fun ⟨hnil, hhigh⟩ => ⟨?_, hhigh⟩)
      exact List.length_eq_zero_iff.1 (by rw [hlen, hnil, List.length_nil])
    have hmarker : k ≠ 256 := by
      rw [lzwNext] at hbad
      omega
    simp only [width, ← hlen] at hk hread
    obtain ⟨u, hu, hread', hout'⟩ := he.entry (cfg := s.cfg.toConfig) (fuel := fuel) hk hread
    rw [he.entry_reject hnone hmarker] at hu
    obtain ⟨t, ht, hraised⟩ := exec_lzwDec_raised (hloop.trans hu) (hout'.trans hout)
    have hinp : t.io.inp = leaving s u.io.inp.rest := by rw [congrArg State.io hraised]; rfl
    rw [← hinp, hread'.eos] at hraised
    exact ⟨t, ht, hraised⟩
  · obtain ⟨fuel, e, q, hloop, he, hread, hout⟩ := lzwDecLoop_after_codes hroom hs hin
    have hnext : e.next = lzwNext codes.length := by rw [he.next, hlen]
    obtain ⟨u, hcut, hdrained, hout'⟩ := lzwDecLoop_of_cut (cfg := s.cfg.toConfig) (fuel := fuel) (e := e) hread (by rwa [hnext])
    rw [hnext] at hcut
    obtain ⟨t, ht, hraised⟩ := exec_lzwDec_raised (hloop.trans hcut) (hout'.trans hout)
    rw [hdrained.rest, hdrained.eos, leaving_nil] at hraised
    exact ⟨t, ht, hraised⟩

end Sys2Proof.Machine
end

section
/-! LZW.ENC (42_lzw.md R170 to R176): the parse in two parts, what it spells, and the encoder following it. -/

namespace Sys2Proof.Claims

open Sys2Proof.Machine

/-! ### The parse, symbol by symbol -/

/-- The dictionary and the working phrase after some symbols (R170). -/
def lzwAfter : List (List Byte) → List Byte → List Byte → List (List Byte) × List Byte
  | dict, w, [] => (dict, w)
  | dict, w, c :: cs =>
    if w = [] ∨ w ++ [c] ∈ dict then lzwAfter dict (w ++ [c]) cs else lzwAfter (dict ++ [w ++ [c]]) [c] cs

/-- The codes of the misses of some symbols (R170). -/
def lzwMisses : List (List Byte) → List Byte → List Byte → List Nat
  | _, _, [] => []
  | dict, w, c :: cs =>
    if w = [] ∨ w ++ [c] ∈ dict then lzwMisses dict (w ++ [c]) cs
    else lzwCode dict w :: lzwMisses (dict ++ [w ++ [c]]) [c] cs

variable {dict : List (List Byte)} {w : List Byte} {c : Byte}

theorem lzwParse_append (dict : List (List Byte)) (w cs cs' : List Byte) :
    lzwParse dict w (cs ++ cs') = lzwMisses dict w cs ++ lzwParse (lzwAfter dict w cs).1 (lzwAfter dict w cs).2 cs' := by
  induction cs generalizing dict w with
  | nil => rfl
  | cons c cs ih => by_cases h : w = [] ∨ w ++ [c] ∈ dict <;> simp [lzwParse, lzwMisses, lzwAfter, h, ih]

theorem lzwMisses_append (dict : List (List Byte)) (w cs cs' : List Byte) :
    lzwMisses dict w (cs ++ cs') = lzwMisses dict w cs ++ lzwMisses (lzwAfter dict w cs).1 (lzwAfter dict w cs).2 cs' := by
  induction cs generalizing dict w with
  | nil => rfl
  | cons c cs ih => by_cases h : w = [] ∨ w ++ [c] ∈ dict <;> simp [lzwMisses, lzwAfter, h, ih]

/-- A miss inserts one phrase. -/
theorem lzwAfter_length (dict : List (List Byte)) (w cs : List Byte) :
    (lzwAfter dict w cs).1.length = dict.length + (lzwMisses dict w cs).length := by
  induction cs generalizing dict w with
  | nil => rfl
  | cons c cs ih => by_cases h : w = [] ∨ w ++ [c] ∈ dict <;> simp [lzwMisses, lzwAfter, h, ih]; omega

/-- The code of the end of the input: that of the pending phrase. -/
theorem lzwParse_nil (dict : List (List Byte)) (w : List Byte) : lzwParse dict w [] = if w = [] then [] else [lzwCode dict w] := rfl

/-- R174: one code for each miss, and one for the phrase that is pending at the end. -/
theorem lzwParse_length (dict : List (List Byte)) (w cs : List Byte) :
    (lzwParse dict w cs).length = (lzwMisses dict w cs).length + if w ++ cs = [] then 0 else 1 := by
  induction cs generalizing dict w with
  | nil => by_cases h : w = [] <;> simp [lzwParse, lzwMisses, h]
  | cons c cs ih => by_cases h : w = [] ∨ w ++ [c] ∈ dict <;> simp [lzwParse, lzwMisses, h, ih]

theorem lzwParse_length_of_ne_nil {cs : List Byte} (h : cs ≠ []) :
    (lzwParse [] [] cs).length = (lzwMisses [] [] cs).length + 1 := by
  rw [lzwParse_length, List.nil_append, if_neg h]

/-- A symbol that adds a code is a miss. -/
theorem lzwMiss_of_length_lt {init : List Byte} (h : (lzwMisses dict w init).length < (lzwMisses dict w (init ++ [c])).length) :
    ¬ ((lzwAfter dict w init).2 = [] ∨ (lzwAfter dict w init).2 ++ [c] ∈ (lzwAfter dict w init).1) := fun hhit => by
  rw [lzwMisses_append, lzwMisses, if_pos hhit, lzwMisses, List.append_nil] at h
  exact lt_irrefl _ h

/-- A miss adds the code of the phrase it could not extend. -/
theorem lzwMisses_concat {init : List Byte}
    (h : ¬ ((lzwAfter dict w init).2 = [] ∨ (lzwAfter dict w init).2 ++ [c] ∈ (lzwAfter dict w init).1)) :
    lzwMisses dict w (init ++ [c]) = lzwMisses dict w init ++ [lzwCode (lzwAfter dict w init).1 (lzwAfter dict w init).2] := by
  rw [lzwMisses_append, lzwMisses, if_neg h, lzwMisses]

/-! ### Phrases and their codes -/

/-- A phrase that has a code: a byte, or one of the dictionary (R171). -/
def LzwKnown (dict : List (List Byte)) (w : List Byte) : Prop := w.length = 1 ∨ 2 ≤ w.length ∧ w ∈ dict

/-- Every phrase of the dictionary extends a phrase that has a code by one symbol. -/
def LzwClosed (dict : List (List Byte)) : Prop := ∀ w c, w ++ [c] ∈ dict → LzwKnown dict w

theorem lzwKnown_singleton (dict : List (List Byte)) (c : Byte) : LzwKnown dict [c] := .inl rfl

theorem LzwKnown.ne_nil (h : LzwKnown dict w) : w ≠ [] := by
  rintro rfl
  simp [LzwKnown] at h

theorem lzwKnown_of_mem (hw : w ≠ []) (h : w ++ [c] ∈ dict) : LzwKnown dict (w ++ [c]) := by
  have := List.length_pos_iff.2 hw
  exact .inr ⟨by simp; omega, h⟩

theorem LzwKnown.append (h : LzwKnown dict w) (x : List Byte) : LzwKnown (dict ++ [x]) w :=
  h.imp_right (And.imp_right (List.mem_append_left _))

theorem LzwClosed.insert (h : LzwClosed dict) (hw : LzwKnown dict w) : LzwClosed (dict ++ [w ++ [c]]) := by
  intro w' c' hmem
  rcases List.mem_append.1 hmem with hmem | hmem
  · exact (h w' c' hmem).append _
  · obtain ⟨rfl, -⟩ : w' = w ∧ c' = c := by simpa using hmem
    exact hw.append _

@[simp] theorem lzwCode_singleton (dict : List (List Byte)) (c : Byte) : lzwCode dict [c] = c.toNat := rfl

theorem lzwCode_of_two_le (dict : List (List Byte)) (h : 2 ≤ w.length) : lzwCode dict w = 257 + dict.idxOf w := by
  match w with
  | [] | [_] => simp at h
  | _ :: _ :: _ => rfl

/-- Different phrases have different codes. -/
theorem LzwKnown.code_injective {w' : List Byte} (h : LzwKnown dict w) (h' : LzwKnown dict w')
    (heq : lzwCode dict w = lzwCode dict w') : w = w' := by
  rcases h with h | ⟨hlen, hmem⟩ <;> rcases h' with h' | ⟨hlen', -⟩
  · obtain ⟨b, rfl⟩ := List.length_eq_one_iff.1 h
    obtain ⟨b', rfl⟩ := List.length_eq_one_iff.1 h'
    rw [BitVec.eq_of_toNat_eq heq]
  · obtain ⟨b, rfl⟩ := List.length_eq_one_iff.1 h
    rw [lzwCode_singleton, lzwCode_of_two_le dict hlen'] at heq
    omega
  · obtain ⟨b', rfl⟩ := List.length_eq_one_iff.1 h'
    rw [lzwCode_singleton, lzwCode_of_two_le dict hlen] at heq
    omega
  · rw [lzwCode_of_two_le dict hlen, lzwCode_of_two_le dict hlen'] at heq
    exact (List.idxOf_inj hmem).1 (Nat.add_left_cancel heq)

/-- An insertion changes no code. -/
theorem LzwKnown.code_append (h : LzwKnown dict w) (x : List Byte) : lzwCode (dict ++ [x]) w = lzwCode dict w := by
  rcases h with h | ⟨hlen, hmem⟩
  · obtain ⟨b, rfl⟩ := List.length_eq_one_iff.1 h
    rfl
  · rw [lzwCode_of_two_le _ hlen, lzwCode_of_two_le _ hlen, List.idxOf_append_of_mem hmem]

/-- The phrase inserted has the next code. -/
theorem lzwCode_insert (hlen : 2 ≤ w.length) (h : w ∉ dict) : lzwCode (dict ++ [w]) w = 257 + dict.length := by
  simp [lzwCode_of_two_le _ hlen, List.idxOf_append_of_notMem h]

/-! ### What the codes of the parse spell -/

/-- R175, R177: the decoder, one entry behind the encoder, takes a code for the phrase the encoder meant: a byte, an entry of its own, or
the entry it is about to make, whose last symbol is the first of the phrase. -/
theorem lzwMeaning_lzwCode {prev : List Byte} (hprev : prev ≠ []) (h : LzwKnown (dict ++ [prev ++ w.take 1]) w) :
    lzwMeaning dict prev (lzwCode (dict ++ [prev ++ w.take 1]) w) = some w := by
  rcases h with hbyte | ⟨hlen, hmem⟩
  · obtain ⟨b, rfl⟩ := List.length_eq_one_iff.1 hbyte
    simp [lzwMeaning, b.isLt]
  · have hlow : ∀ i, ¬ 257 + i < 256 ∧ 257 + i ≠ 256 := by omega
    by_cases hold : w ∈ dict
    · have hlt := List.idxOf_lt_length_of_mem hold
      rw [lzwCode_of_two_le _ hlen, List.idxOf_append_of_mem hold, lzwMeaning, if_neg (hlow _).1, if_neg (by omega),
        if_neg (hlow _).2, Nat.add_sub_cancel_left, List.getElem?_eq_getElem hlt, List.getElem_idxOf]
    · have hw : w = prev ++ w.take 1 := by simpa [hold] using hmem
      have hfirst : w.take 1 = prev.take 1 := by
        rw [hw, List.take_append_of_le_length (List.length_pos_iff.2 hprev)]
      rw [← hw, lzwCode_insert hlen hold, lzwMeaning, if_neg (hlow _).1, if_pos rfl, ← hfirst, ← hw]

/-- R179: after the phrase `prev`, the codes of the parse spell the rest of the input. -/
theorem exists_lzwSpellRest_lzwParse (cs : List Byte) {prev : List Byte} (hprev : prev ≠ [])
    (h : LzwKnown (dict ++ [prev ++ w.take 1]) w) :
    ∃ ps, lzwSpellRest dict prev (lzwParse (dict ++ [prev ++ w.take 1]) w cs) = some ps ∧ ps.flatten = w ++ cs := by
  have hw := h.ne_nil
  induction cs generalizing dict prev w with
  | nil =>
    rw [lzwParse_nil, if_neg hw]
    exact ⟨_, lzwSpellRest_cons_eq_some.2 ⟨w, [], lzwMeaning_lzwCode hprev h, rfl, rfl⟩, by simp⟩
  | cons c cs ih =>
    rw [lzwParse]
    split
    case isTrue hhit =>
      have hmem := hhit.resolve_left hw
      have hfirst : (w ++ [c]).take 1 = w.take 1 := List.take_append_of_le_length (List.length_pos_iff.2 hw)
      rw [← hfirst] at hmem ⊢
      obtain ⟨ps, hps, hflat⟩ := ih hprev (lzwKnown_of_mem hw hmem) (by simp)
      exact ⟨ps, hps, by simp [hflat]⟩
    case isFalse =>
      obtain ⟨ps, hps, hflat⟩ := ih (dict := dict ++ [prev ++ w.take 1]) (w := [c]) hw (lzwKnown_singleton _ c) (by simp)
      exact ⟨w :: ps, lzwSpellRest_cons_eq_some.2 ⟨w, ps, lzwMeaning_lzwCode hprev h, hps, rfl⟩, by simp [hflat]⟩

/-- R179: the codes of the parse spell the input. -/
theorem exists_lzwSpell_lzwParse (cs : List Byte) : ∃ ps, lzwSpell (lzwParse [] [] cs) = some ps ∧ ps.flatten = cs := by
  match cs with
  | [] => exact ⟨[], rfl, rfl⟩
  | [b] => exact ⟨[[b]], by simp [lzwParse, lzwSpell, lzwSpellRest, b.isLt], rfl⟩
  | b :: c :: cs =>
    obtain ⟨ps, hps, hflat⟩ := exists_lzwSpellRest_lzwParse (dict := []) (prev := [b]) (w := [c]) cs (by simp) (lzwKnown_singleton _ c)
    have hparse : lzwParse [] [] (b :: c :: cs) = b.toNat :: lzwParse [[b, c]] [c] cs := by simp [lzwParse]
    rw [hparse]
    refine ⟨[b] :: ps, lzwSpell_cons_eq_some.2 ⟨ps, b.isLt, ?_, by simp⟩, by simp [hflat]⟩
    rw [BitVec.ofNat_toNat, BitVec.setWidth_eq]
    exact hps

end Sys2Proof.Claims

namespace Sys2Proof.Machine

open Sys2Proof.Claims

/-! ### The encoder's dictionary -/

/-- The encoder's dictionary holds these phrases, each under the code of the phrase it extends and its last symbol (R31, R172); the width
is that of the largest code assigned (R173). -/
structure LzwEnc.Holds (dict : List (List Byte)) (e : LzwEnc) : Prop where
  next : e.next = 257 + dict.length
  width : e.width = bitLength (256 + dict.length)
  closed : LzwClosed dict
  lookup : ∀ k c n, e.dict.lookup (k, c) = some n ↔ ∃ v, v ++ [c] ∈ dict ∧ lzwCode dict v = k ∧ lzwCode dict (v ++ [c]) = n

/-- The encoder is between two symbols: its dictionary, and the phrase it is extending, which is empty before the first symbol (R172). -/
structure LzwEnc.Between (dict : List (List Byte)) (w : List Byte) (e : LzwEnc) : Prop where
  holds : e.Holds dict
  pending : (w = [] ∧ dict = [] ∧ e.cur = none) ∨ (LzwKnown dict w ∧ e.cur = some (lzwCode dict w))

theorem LzwEnc.between_fresh : LzwEnc.fresh.Between [] [] where
  holds := ⟨rfl, by decide, fun _ _ h => absurd h List.not_mem_nil, by simp [LzwEnc.fresh]⟩
  pending := .inl ⟨rfl, rfl, rfl⟩

/-- The phrase being extended says nothing about the dictionary. -/
theorem LzwEnc.Holds.withCur {dict : List (List Byte)} {e : LzwEnc} (h : e.Holds dict) (cur : Option Nat) :
    LzwEnc.Holds dict { e with cur := cur } := ⟨h.next, h.width, h.closed, h.lookup⟩

/-- R173: the growth test keeps the width that of the largest code. -/
theorem lzwGrow_bitLength (n : Nat) : lzwGrow (n + 1) (bitLength n) = bitLength (n + 1) := (bitLength_succ n).symm

theorem LzwEnc.Holds.grow {dict : List (List Byte)} {e : LzwEnc} (h : e.Holds dict) :
    lzwGrow e.next e.width = bitLength (257 + dict.length) := by
  rw [h.next, h.width, show 257 + dict.length = 256 + dict.length + 1 by omega, lzwGrow_bitLength]

/-- R172: inserting the phrase that missed. -/
theorem LzwEnc.Holds.insert {dict : List (List Byte)} {w : List Byte} {c : Byte} {e : LzwEnc} (h : e.Holds dict)
    (hw : LzwKnown dict w) (hmiss : w ++ [c] ∉ dict) (cur : Option Nat) :
    LzwEnc.Holds (dict ++ [w ++ [c]]) ⟨((lzwCode dict w, c), e.next) :: e.dict, e.next + 1, lzwGrow e.next e.width, cur⟩ := by
  have hlen : 2 ≤ (w ++ [c]).length := by
    have := List.length_pos_iff.2 hw.ne_nil
    simp
    omega
  have hold : ∀ v d, v ++ [d] ∈ dict → lzwCode (dict ++ [w ++ [c]]) v = lzwCode dict v
      ∧ lzwCode (dict ++ [w ++ [c]]) (v ++ [d]) = lzwCode dict (v ++ [d]) := fun v d hmem =>
    ⟨(h.closed v d hmem).code_append _, (lzwKnown_of_mem (h.closed v d hmem).ne_nil hmem).code_append _⟩
  have hnew : lzwCode (dict ++ [w ++ [c]]) w = lzwCode dict w ∧ lzwCode (dict ++ [w ++ [c]]) (w ++ [c]) = e.next :=
    ⟨hw.code_append _, by rw [lzwCode_insert hlen hmiss, h.next]⟩
  have hwidth : lzwGrow e.next e.width = bitLength (256 + (dict ++ [w ++ [c]]).length) := by
    rw [h.grow, List.length_append, List.length_singleton, Nat.add_comm dict.length, ← Nat.add_assoc]
  refine ⟨by simp [h.next, Nat.add_assoc], hwidth, h.closed.insert hw, fun k d n => ?_⟩
  rw [List.lookup_cons]
  by_cases hkey : (k, d) = (lzwCode dict w, c)
  · obtain ⟨rfl, rfl⟩ := Prod.mk.inj hkey
    simp only [beq_self_eq_true, Option.some.injEq]
    constructor
    · rintro rfl
      exact ⟨w, by simp, hnew⟩
    · rintro ⟨v, hmem, hv, hn⟩
      rcases List.mem_append.1 hmem with hmem | hmem
      · rw [(hold v d hmem).1] at hv
        exact absurd ((h.closed v d hmem).code_injective hw hv ▸ hmem) hmiss
      · obtain rfl : v = w := by simpa using hmem
        exact hnew.2.symm.trans hn
  · rw [beq_false_of_ne hkey, h.lookup]
    constructor
    · rintro ⟨v, hmem, hv, hn⟩
      exact ⟨v, List.mem_append_left _ hmem, (hold v d hmem).1.trans hv, (hold v d hmem).2.trans hn⟩
    · rintro ⟨v, hmem, hv, hn⟩
      rcases List.mem_append.1 hmem with hmem | hmem
      · exact ⟨v, hmem, (hold v d hmem).1.symm.trans hv, (hold v d hmem).2.symm.trans hn⟩
      · obtain ⟨rfl, rfl⟩ : v = w ∧ d = c := by simpa using hmem
        exact absurd (by rw [← hv, hnew.1]) hkey

/-! ### One symbol, and the end of the input -/

section
variable {cfg : Config} {dict : List (List Byte)} {w : List Byte} {c : Byte} {e : LzwEnc} {p : State} {pre rest : List Byte} {bits : Bits}

/-- R172: the first symbol starts a phrase, and a phrase that is known is extended. -/
theorem LzwEnc.Between.hit (h : e.Between dict w) (hhit : w = [] ∨ w ++ [c] ∈ dict) :
    ∃ e', lzwEncByte cfg c e p = .ok e' p ∧ e'.Between dict (w ++ [c]) := by
  obtain ⟨hholds, ⟨rfl, rfl, hcur⟩ | ⟨hknown, hcur⟩⟩ := h
  · exact ⟨{ e with cur := some c.toNat }, by simp [lzwEncByte, hcur], hholds.withCur _, .inr ⟨lzwKnown_singleton _ c, rfl⟩⟩
  · have hmem := hhit.resolve_left hknown.ne_nil
    have hlookup := (hholds.lookup _ c _).2 ⟨w, hmem, rfl, rfl⟩
    exact ⟨{ e with cur := some (lzwCode dict (w ++ [c])) }, by simp [lzwEncByte, hcur, hlookup], hholds.withCur _,
      .inr ⟨lzwKnown_of_mem hknown.ne_nil hmem, rfl⟩⟩

/-- R172, R44: at a phrase that is not known the code of the one it extends is written; then it is inserted, or no code is left for it. -/
theorem LzwEnc.Between.miss (h : e.Between dict w) (hmiss : ¬ (w = [] ∨ w ++ [c] ∈ dict)) (hp : Encoding pre bits rest p.io) :
    ∃ e' q, lzwEncByte cfg c e p
        = (if withinBound cfg.lzwMaxCode (257 + dict.length) then pure e' else raise .dictFull (257 + dict.length : Nat)) q
      ∧ e'.Between (dict ++ [w ++ [c]]) [c]
      ∧ Encoding pre (bits ++ lzwBits (dict.length + 1) [lzwCode dict w]) rest q.io := by
  obtain ⟨hholds, ⟨hnil, -⟩ | ⟨hknown, hcur⟩⟩ := h
  · exact absurd (.inl hnil) hmiss
  have hnew : w ++ [c] ∉ dict := fun hmem => hmiss (.inr hmem)
  have hlookup : e.dict.lookup (lzwCode dict w, c) = none := by
    refine Option.eq_none_iff_forall_ne_some.2 fun n hn => ?_
    obtain ⟨v, hmem, hv, -⟩ := (hholds.lookup _ c n).1 hn
    exact hnew ((hholds.closed v c hmem).code_injective hknown hv ▸ hmem)
  refine ⟨_, { p with io := wrVal (lzwCode dict w) e.width p.io }, ?_,
    ⟨hholds.insert hknown hnew (some c.toNat), .inr ⟨lzwKnown_singleton _ c, rfl⟩⟩, ?_⟩
  · rw [← hholds.next]
    simp [lzwEncByte, hcur, hlookup, onIo_apply]
  · have hwidth : e.width = bitLength (255 + (dict.length + 1)) := by rw [hholds.width]; congr 1; omega
    simpa [lzwBits, hwidth] using hp.field (lzwCode dict w) e.width

/-- R176: the width of the marker, by the number of codes written. -/
theorem LzwEnc.Between.markerWidth (h : e.Between dict w) :
    lzwMarkerWidth cfg e = lzwMarkerBits cfg.lzwMarkerAlign (dict.length + (lzwParse dict w []).length) := by
  obtain ⟨hholds, ⟨rfl, rfl, hcur⟩ | ⟨hknown, hcur⟩⟩ := h
  · have hwidth : e.width = 9 := hholds.width
    simp [lzwMarkerWidth, lzwMarkerBits, lzwParse_nil, hcur, hwidth]
  · rw [lzwMarkerWidth, lzwMarkerBits, hholds.grow, hholds.width, hcur, lzwParse_nil, if_neg hknown.ne_nil, List.length_singleton,
      if_neg (Nat.succ_ne_zero _), Option.isSome_some, Bool.and_true, Nat.add_comm dict.length, ← Nat.add_assoc, ← Nat.add_assoc]

/-- R172: the pending phrase's code and the marker are written at the end of the input. -/
theorem LzwEnc.Between.flush (h : e.Between dict w) (hp : Encoding pre bits rest p.io) :
    ∃ q, onIo (lzwFlush cfg e) p = .ok () q
      ∧ Encoding pre (bits ++ lzwBits (dict.length + 1) (lzwParse dict w [])
          ++ binN (lzwMarkerBits cfg.lzwMarkerAlign (dict.length + (lzwParse dict w []).length)) 256) rest q.io := by
  rw [← h.markerWidth (cfg := cfg)]
  obtain ⟨hholds, ⟨rfl, rfl, hcur⟩ | ⟨hknown, hcur⟩⟩ := h
  · refine ⟨{ p with io := wrVal lzwEndCode (lzwMarkerWidth cfg e) p.io }, by simp [lzwFlush, hcur, onIo_apply], ?_⟩
    rw [lzwParse_nil, if_pos rfl, lzwBits, List.append_nil]
    exact hp.field lzwEndCode (lzwMarkerWidth cfg e)
  · have hwidth : e.width = bitLength (255 + (dict.length + 1)) := by rw [hholds.width]; congr 1; omega
    refine ⟨{ p with io := wrVal lzwEndCode (lzwMarkerWidth cfg e) (wrVal (lzwCode dict w) e.width p.io) },
      by simp [lzwFlush, hcur, onIo_apply], ?_⟩
    rw [lzwParse_nil, if_neg hknown.ne_nil, lzwBits, lzwBits, List.append_nil, ← hwidth]
    exact (hp.field (lzwCode dict w) e.width).field lzwEndCode (lzwMarkerWidth cfg e)

/-! ### The symbols of the input -/

/-- R172: symbols that the dictionary has room for are taken from `IN` one after the other, and the codes of their misses written. -/
theorem LzwEnc.Between.symbols (cs : List Byte) (h : e.Between dict w)
    (hroom : ∀ max ∈ cfg.lzwMaxCode, lzwMisses dict w cs = [] ∨ 256 + dict.length + (lzwMisses dict w cs).length ≤ max)
    (hp : Encoding pre bits (cs ++ rest) p.io) :
    ∃ e' q, forInput .lzwEnc (lzwEncByte cfg) (cs ++ rest) e p = forInput .lzwEnc (lzwEncByte cfg) rest e' q
      ∧ e'.Between (lzwAfter dict w cs).1 (lzwAfter dict w cs).2
      ∧ Encoding pre (bits ++ lzwBits (dict.length + 1) (lzwMisses dict w cs)) rest q.io := by
  induction cs generalizing dict w e p bits with
  | nil => exact ⟨e, p, rfl, h, by simpa [lzwMisses, lzwBits] using hp⟩
  | cons c cs ih =>
    obtain ⟨q, hq, hloop⟩ := hp.forInput .lzwEnc (lzwEncByte cfg) (cs ++ rest) e
    rw [List.cons_append, hloop, Run.bind_apply]
    by_cases hhit : w = [] ∨ w ++ [c] ∈ dict
    · obtain ⟨e', hbyte, hbetween⟩ := h.hit (cfg := cfg) (p := q) hhit
      simp only [lzwAfter, lzwMisses, if_pos hhit] at hroom ⊢
      rw [hbyte]
      exact ih hbetween hroom hq
    · simp only [lzwAfter, lzwMisses, if_neg hhit, List.cons_ne_nil, false_or, List.length_cons] at hroom ⊢
      have hfits : withinBound cfg.lzwMaxCode (257 + dict.length) = true :=
        withinBound_iff.2 fun max hmax => by have := hroom max hmax; omega
      obtain ⟨e', q', hbyte, hbetween, hq'⟩ := h.miss (cfg := cfg) hhit hq
      rw [if_pos hfits] at hbyte
      rw [hbyte]
      obtain ⟨e'', q'', hrest, hbetween', hq''⟩ := ih (p := { q' with eng := .lzwEnc e' }) hbetween
        (fun max hmax => by have := hroom max hmax; simp only [List.length_append, List.length_singleton]; omega) hq'
      refine ⟨e'', q'', hrest, hbetween', ?_⟩
      rw [← List.singleton_append, lzwBits_append, ← List.append_assoc]
      simpa using hq''

end

/-! ### The command -/

/-- LZW.ENC when its loop begins: as LZ78.ENC, but for the engine. -/
def lzwEncStart (s : State) : State := { lz78EncStart s with eng := .lzwEnc .fresh }

theorem lzwEncStart_encoding (s : State) : Encoding s.io.out.opened.bytes [] s.io.inp.rest (lzwEncStart s).io :=
  lz78EncStart_encoding s

/-- What LZW.ENC does after its loop. -/
def lzwEncEnd (s : State) (e : LzwEnc) : Run State Unit := do
  setPhase .flush
  onIo (lzwFlush s.cfg.toConfig e)
  setPhase .close
  onIo (modify (closeChannel s.embedded))

/-- The work of LZW.ENC. -/
def lzwEncBody (s : State) : Run State Unit := do
  onIo (modify openWriter)
  setEngine (.lzwEnc .fresh)
  let e ← forInput .lzwEnc (lzwEncByte s.cfg.toConfig) s.io.inp.rest .fresh
  lzwEncEnd s e

theorem exec_lzwEnc (s : State) : exec .lzwEnc s = runUnit .record (fun _ => []) (lzwEncBody s) s := rfl

theorem lzwEncBody_apply (s : State) :
    lzwEncBody s (s.start .record).dropChannel
      = (forInput .lzwEnc (lzwEncByte s.cfg.toConfig) s.io.inp.rest .fresh >>= lzwEncEnd s) (lzwEncStart s) := rfl

/-- Room for the codes of the parse is room for what the misses insert (R44). -/
theorem lzwMisses_fit {bound : Option Nat} {cs : List Byte} (h : LzwRoom bound (lzwParse [] [] cs)) :
    ∀ max ∈ bound, lzwMisses [] [] cs = [] ∨ 256 + (lzwMisses [] [] cs).length ≤ max := by
  intro max hmax
  refine or_iff_not_imp_left.2 fun hne => ?_
  have hcs : cs ≠ [] := fun hnil => hne (by rw [hnil]; rfl)
  have hpos := List.length_pos_iff.2 hne
  have := h max hmax
  rw [lzwParse_length_of_ne_nil hcs] at this
  omega

/-- R172: with room for every miss the whole input is consumed, and its codes and the marker stand on `OUT`, padded. -/
theorem exec_lzwEnc_completed {s : State} (hroom : LzwRoom s.cfg.lzwMaxCode (lzwParse [] [] s.io.inp.rest)) :
    ∃ t bs, exec .lzwEnc s = .next t ∧ Completed s (wrote s bs (allRead s) false) t
      ∧ streamBits bs
        = padded (lzwBits 1 (lzwParse [] [] s.io.inp.rest)
            ++ binN (lzwMarkerBits s.cfg.lzwMarkerAlign (lzwParse [] [] s.io.inp.rest).length) 256) := by
  have hparse := lzwParse_append [] [] s.io.inp.rest []
  rw [List.append_nil] at hparse
  obtain ⟨e, q, hloop, hbetween, hq⟩ := LzwEnc.between_fresh.symbols (cfg := s.cfg.toConfig) (rest := []) s.io.inp.rest
    (lzwMisses_fit hroom) (by rw [List.append_nil]; exact lzwEncStart_encoding s)
  obtain ⟨q', hflush, hq'⟩ := hbetween.flush (cfg := s.cfg.toConfig) (p := { q with phase := .flush }) hq
  obtain ⟨bs, hout, hbs⟩ := hq'.close s.embedded
  have hbody : lzwEncBody s (s.start .record).dropChannel
      = .ok () { q' with phase := .close, io := closeChannel s.embedded q'.io } := by
    rw [lzwEncBody_apply, Run.bind_apply]
    rw [List.append_nil] at hloop
    rw [hloop]
    simp [forInput, lzwEncEnd, hflush, onIo_apply (modify _)]
  have hended : (closeChannel s.embedded q'.io).out.ended s.embedded
      = ⟨s.io.out.opened.bytes ++ bs, if s.embedded then .flushed else .closed⟩ := by
    rw [hout, OutStream.ended_settled]
  obtain ⟨t, ht, hdone⟩ := completed_of_runUnit (by decide) (by simp [writtenBy]) (exec_lzwEnc s) hbody hended
  have hlen := lzwAfter_length [] [] s.io.inp.rest
  rw [closeChannel_inp, closeChannel_eos, hq'.rest, hq'.eos, leaving_nil] at hdone
  refine ⟨t, bs, ht, hdone, ?_⟩
  rw [hbs, hparse, lzwBits_append, List.length_append, hlen]
  simp [Nat.add_comm]

/-- Settles O26: the symbols are followed by `LzwEnc.Between.symbols`; then the input ends, or a miss finds the dictionary full. -/
theorem lzwEncWritesCodes : Obligations.LzwEncWritesCodes := by
  refine ⟨fun s hroom => exec_lzwEnc_completed hroom, fun s max read rest hmax hin hfull hbefore => ?_⟩
  have hpos : 1 ≤ lzwOverflow max := le_max_left _ _
  obtain ⟨init, c, rfl⟩ : ∃ init c, read = init ++ [c] :=
    (List.eq_nil_or_concat' read).resolve_left fun h => by simp [h, lzwParse] at hfull
  rw [List.dropLast_concat] at hbefore
  have hinit : init ≠ [] := by
    rintro rfl
    simp [lzwParse] at hbefore
    omega
  have hmisses : (lzwMisses [] [] init).length + 1 = lzwOverflow max := by rw [← hbefore, lzwParse_length_of_ne_nil hinit]
  have hmisses' : (lzwMisses [] [] (init ++ [c])).length = lzwOverflow max := by
    rw [lzwParse_length_of_ne_nil (by simp)] at hfull
    exact Nat.succ.inj hfull
  have hmiss := lzwMiss_of_length_lt (dict := []) (w := []) (init := init) (c := c) (by omega)
  have hin' : s.io.inp.rest = init ++ c :: rest := by simpa using hin
  obtain ⟨e, q, hloop, hbetween, hq⟩ := LzwEnc.between_fresh.symbols (cfg := s.cfg.toConfig) (rest := c :: rest) init
    (lzwMisses_fit (hmax ▸ lzwRoom_of_length hbefore)) (hin' ▸ lzwEncStart_encoding s)
  obtain ⟨q', hq', hstep⟩ := hq.forInput .lzwEnc (lzwEncByte s.cfg.toConfig) rest e
  obtain ⟨e', u, hbyte, -, hu⟩ := hbetween.miss (cfg := s.cfg.toConfig) hmiss hq'
  have hlen := lzwAfter_length [] [] init
  rw [List.length_nil, Nat.zero_add] at hlen
  have hnext : 257 + (lzwAfter [] [] init).1.length = 256 + lzwOverflow max := by omega
  rw [hnext, hmax, withinBound_lzwOverflow, if_neg Bool.false_ne_true, Run.raise_apply] at hbyte
  have hbody : lzwEncBody s (s.start .record).dropChannel = .error ⟨.dictFull, some (256 + lzwOverflow max : Nat)⟩ u := by
    rw [lzwEncBody_apply, Run.bind_apply, hin', hloop, hstep, Run.bind_apply, hbyte]
  obtain ⟨bs, hout, hbs⟩ := hu.whole
  obtain ⟨t, ht, hraised⟩ := raised_of_runUnit (by decide) (by simp [writtenBy]) (exec_lzwEnc s) hbody hout
  rw [hu.rest, hu.eos] at hraised
  refine ⟨t, bs, ht, hraised, ?_⟩
  have hparse := lzwParse_append [] [] (init ++ [c]) []
  rw [List.append_nil] at hparse
  rw [hbs, hparse, List.take_left' hmisses', lzwMisses_concat hmiss, lzwBits_append, hlen]
  simp [Nat.add_comm]

/-- R176, R178: off the corner, or with `LZW_MARKER_ALIGN`, the decoder reads the marker at the width it was written in. -/
theorem lzwMarkerBits_eq {align : Bool} {m : Nat} (h : align = true ∨ ¬ lzwCorner m) :
    lzwMarkerBits align m = bitLength (lzwNext m) := by
  rw [bitLength_lzwNext, lzwMarkerBits]
  split_ifs with hm halign
  · subst hm; decide
  · rfl
  · exact bitLength_of_not_lzwCorner hm (h.resolve_left halign)

/-- Settles O28: the encoder writes the codes of the parse and the marker, padded (O26); they spell the input, so the decoder outputs it
and ends at the marker (O27). -/
theorem lzwRoundTrip : Obligations.LzwRoundTrip := by
  intro s hmax hcorner
  obtain ⟨t, bs, ht, hdone, hbs⟩ := exec_lzwEnc_completed (s := s) (by simp [LzwRoom, hmax])
  refine ⟨t, bs, ht, hdone, fun u hcfg hin => ?_⟩
  obtain ⟨ps, hspell, hflat⟩ := exists_lzwSpell_lzwParse s.io.inp.rest
  rw [lzwMarkerBits_eq hcorner] at hbs
  obtain ⟨v, hv, hdone'⟩ := lzwDecReadsCodes.1 u _ ps [] _ (by simp [LzwRoom, hcfg, hmax]) hspell
    (by simpa using (padded_length_mod _).2) ⟨bs, by rw [hin, List.append_nil], hbs⟩
  rw [hflat, leaving_nil] at hdone'
  exact ⟨v, hv, hdone'⟩

end Sys2Proof.Machine
end

section
/-! The LZSS search and parse (43_lzss.md R193 to R196, R199): where a sequence lies in the window, the parse one symbol at a time, and what
its records spell. -/

namespace Sys2Proof.Claims

open Sys2Proof.Machine

/-! ### The search -/

/-- A sequence lies in the window at t. -/
def LiesAt (win x : List Byte) (t : Nat) : Prop := t + x.length ≤ win.length ∧ (win.drop t).take x.length = x

/-- R193: the oldest place is the smallest. -/
theorem oldest_eq_some {win x : List Byte} {t : Nat} :
    oldest win x = some t ↔ LiesAt win x t ∧ ∀ t' < t, ¬ LiesAt win x t' := by
  simp only [oldest, List.find?_range_eq_some, decide_eq_true_eq, List.mem_range, Bool.not_eq_true', decide_eq_false_iff_not, LiesAt]
  constructor
  · rintro ⟨heq, hlt, hmin⟩
    exact ⟨⟨by omega, heq⟩, fun t' ht ⟨_, heq'⟩ => hmin t' ht heq'⟩
  · rintro ⟨⟨hle, heq⟩, hmin⟩
    exact ⟨heq, by omega, fun t' ht heq' => hmin t' ht ⟨by omega, heq'⟩⟩

theorem oldest_eq_none {win x : List Byte} : oldest win x = none ↔ ∀ t, ¬ LiesAt win x t := by
  simp only [oldest, List.find?_range_eq_none, Bool.not_eq_true', decide_eq_false_iff_not, LiesAt]
  exact ⟨fun h t ⟨hle, heq⟩ => h t (by omega) heq, fun h t ht heq => h t ⟨by omega, heq⟩⟩

/-- The empty sequence lies at the start. -/
@[simp] theorem oldest_nil (win : List Byte) : oldest win [] = some 0 := oldest_eq_some.2 ⟨by simp [LiesAt], by simp⟩

theorem liesAt_cons_zero {b : Byte} {rest x : List Byte} : LiesAt (b :: rest) x 0 ↔ x <+: b :: rest := by
  rw [LiesAt, List.prefix_iff_eq_take, List.drop_zero]
  refine ⟨fun ⟨_, heq⟩ => heq.symm, fun heq => ⟨?_, heq.symm⟩⟩
  have := congrArg List.length heq
  rw [List.length_take] at this
  omega

theorem liesAt_cons_succ {b : Byte} {rest x : List Byte} {t : Nat} : LiesAt (b :: rest) x (t + 1) ↔ LiesAt rest x t := by
  rw [LiesAt, LiesAt, List.length_cons, List.drop_succ_cons, Nat.add_right_comm, Nat.add_le_add_iff_right]

/-- The search from the first symbol of the window on: there, or in the rest. -/
theorem oldest_cons (b : Byte) (rest x : List Byte) :
    oldest (b :: rest) x = if x <+: b :: rest then some 0 else (oldest rest x).map (· + 1) := by
  split
  case isTrue h => exact oldest_eq_some.2 ⟨liesAt_cons_zero.2 h, by simp⟩
  case isFalse h =>
    have h0 : ¬ LiesAt (b :: rest) x 0 := mt liesAt_cons_zero.1 h
    cases ho : oldest rest x with
    | none =>
      refine oldest_eq_none.2 fun t => ?_
      cases t with
      | zero => exact h0
      | succ t => exact mt liesAt_cons_succ.1 (oldest_eq_none.1 ho t)
    | some t =>
      obtain ⟨hat, hmin⟩ := oldest_eq_some.1 ho
      refine oldest_eq_some.2 ⟨liesAt_cons_succ.2 hat, fun t' ht => ?_⟩
      cases t' with
      | zero => exact h0
      | succ t' => exact mt liesAt_cons_succ.1 (hmin t' (Nat.lt_of_succ_lt_succ ht))

/-- R193: the engine's search from index t on. -/
theorem lzssFindFrom_eq (x : List Byte) (t : Nat) (win : List Byte) : lzssFindFrom x t win = (oldest win x).map (t + ·) := by
  induction win generalizing t with
  | nil =>
    cases x with
    | nil => simp [lzssFindFrom]
    | cons c cs =>
      have hnone : oldest [] (c :: cs) = none := oldest_eq_none.2 fun t ⟨hle, _⟩ => by simp at hle
      rw [hnone]; rfl
  | cons b rest ih =>
    rw [lzssFindFrom, oldest_cons, ih]
    by_cases h : x <+: b :: rest
    · rw [if_pos (List.isPrefixOf_iff_prefix.2 h), if_pos h]; rfl
    · rw [if_neg (mt List.isPrefixOf_iff_prefix.1 h), if_neg h, Option.map_map]
      congr 1
      funext n
      exact Nat.add_right_comm t 1 n

theorem lzssFind_eq_oldest (win x : List Byte) : lzssFind win x = oldest win x := by
  simp [lzssFind, lzssFindFrom_eq]

/-- Settles O30: the engine's search is the search for the oldest place. -/
theorem findTakesOldestMatch : Obligations.FindTakesOldestMatch := by
  intro win x _
  rw [lzssFind_eq_oldest]
  cases ho : oldest win x with
  | none => exact fun t hle heq => oldest_eq_none.1 ho t ⟨hle, heq⟩
  | some t =>
    obtain ⟨⟨hle, heq⟩, hmin⟩ := oldest_eq_some.1 ho
    exact ⟨hle, heq, fun t' hle' heq' => Nat.le_of_not_lt fun hlt => hmin t' hlt ⟨hle', heq'⟩⟩

/-! ### The window -/

theorem lastSymbols_length_le (w : Nat) (x : List Byte) : (lastSymbols w x).length ≤ 2 ^ w := by
  rw [lastSymbols, List.length_drop]
  generalize 2 ^ w = n
  omega

@[simp] theorem lastSymbols_nil (w : Nat) : lastSymbols w [] = [] := List.drop_nil

/-- R194: the engine's window stays the last symbols when more are sent. -/
theorem lzssTrim_lastSymbols_append (w : Nat) (x y : List Byte) :
    lzssTrim w (lastSymbols w x ++ y) = lastSymbols w (x ++ y) := by
  rw [lzssTrim, lastSymbols, lastSymbols, ← List.drop_append_of_le_length (Nat.sub_le _ _), List.drop_drop, List.length_drop,
    List.length_append]
  congr 1
  generalize 2 ^ w = n
  omega

/-! ### The parse, symbol by symbol -/

/-- The candidate and the next symbol are a longer candidate (R196). -/
abbrev LzssExtends (w m : Nat) (done cand : List Byte) (c : Byte) : Prop :=
  cand.length < 2 ^ m - 1 ∧ (oldest (lastSymbols w done) (cand ++ [c])).isSome

/-- One symbol when no match is sent: the records, the symbols sent by then, and the candidate (R195 (b), R196). -/
def lzssGrow (w m : Nat) (done cand : List Byte) (c : Byte) : List LzssRecord × List Byte × List Byte :=
  if LzssExtends w m done cand c then ([], done, cand ++ [c]) else lzssDrain w done (cand ++ [c])

/-- One symbol: a candidate that is long enough and cannot be extended is a match, and the symbol starts the next (R195 (a), R196). -/
def lzssTurn (w m min : Nat) (done cand : List Byte) (c : Byte) : List LzssRecord × List Byte × List Byte :=
  if ¬ LzssExtends w m done cand c ∧ min ≤ cand.length then
    (lzssCopy w done cand :: (lzssGrow w m (done ++ cand) [] c).1, (lzssGrow w m (done ++ cand) [] c).2)
  else lzssGrow w m done cand c

variable {w m min : Nat} {done cand : List Byte} {c : Byte}

theorem lzssTurn_of_match (hext : ¬ LzssExtends w m done cand c) (hmin : min ≤ cand.length) :
    lzssTurn w m min done cand c
      = (lzssCopy w done cand :: (lzssGrow w m (done ++ cand) [] c).1, (lzssGrow w m (done ++ cand) [] c).2) := if_pos ⟨hext, hmin⟩

theorem lzssTurn_of_grow (h : LzssExtends w m done cand c ∨ cand.length < min) :
    lzssTurn w m min done cand c = lzssGrow w m done cand c :=
  if_neg fun ⟨hext, hmin⟩ => h.elim hext hmin.not_gt

theorem lzssDrain_cons (w : Nat) (done : List Byte) (b : Byte) (rest : List Byte) :
    lzssDrain w done (b :: rest)
      = if rest = [] ∨ (oldest (lastSymbols w (done ++ [b])) rest).isSome then ([.literal b], done ++ [b], rest)
        else (.literal b :: (lzssDrain w (done ++ [b]) rest).1, (lzssDrain w (done ++ [b]) rest).2) := rfl

theorem lzssParse_nil (w m min : Nat) (done cand : List Byte) :
    lzssParse w m min done cand [] = if min ≤ cand.length then [lzssCopy w done cand] else cand.map .literal := rfl

/-- R196: the records of an input are those of its first symbol, then those of the rest. -/
theorem lzssParse_cons (w m min : Nat) (done cand : List Byte) (c : Byte) (cs : List Byte) :
    lzssParse w m min done cand (c :: cs)
      = (lzssTurn w m min done cand c).1
        ++ lzssParse w m min (lzssTurn w m min done cand c).2.1 (lzssTurn w m min done cand c).2.2 cs := by
  have hfirst : 0 < 2 ^ m - 1 ↔ 1 < 2 ^ m := by omega
  rw [lzssParse]
  by_cases hext : LzssExtends w m done cand c
  · rw [if_pos hext, lzssTurn_of_grow (.inl hext), lzssGrow, if_pos hext]
    rfl
  · rw [if_neg hext]
    by_cases hmin : min ≤ cand.length
    · rw [if_pos hmin, lzssTurn_of_match hext hmin, lzssGrow]
      simp only [LzssExtends, List.length_nil, hfirst, List.nil_append]
      split <;> simp [lzssDrain_cons]
    · rw [if_neg hmin, lzssTurn_of_grow (.inr (Nat.lt_of_not_le hmin)), lzssGrow, if_neg hext]

/-! ### What records spell -/

theorem lzssSpell_literal_eq_some {b : Byte} {rs : List LzssRecord} {x : List Byte} :
    lzssSpell w m done (.literal b :: rs) = some x ↔ ∃ y, lzssSpell w m (done ++ [b]) rs = some y ∧ x = b :: y := by
  simp [lzssSpell, eq_comm]

theorem lzssSpell_copy_eq_some {t l : Nat} {rs : List LzssRecord} {x : List Byte} :
    lzssSpell w m done (.copy t l :: rs) = some x ↔
      (t + l ≤ (lastSymbols w done).length ∧ t < 2 ^ w ∧ l < 2 ^ m)
        ∧ ∃ y, lzssSpell w m (done ++ lzssSlice (lastSymbols w done) t l) rs = some y ∧ x = lzssSlice (lastSymbols w done) t l ++ y := by
  rw [lzssSpell]
  split
  case isTrue h => simp [h, lzssSlice, eq_comm]
  case isFalse h => simp [h]

/-- Records in two parts spell what the first spells, then what the second does. -/
theorem lzssSpell_append {rs rs' : List LzssRecord} {x y : List Byte} (h : lzssSpell w m done rs = some x)
    (h' : lzssSpell w m (done ++ x) rs' = some y) : lzssSpell w m done (rs ++ rs') = some (x ++ y) := by
  induction rs generalizing done x with
  | nil =>
    obtain rfl : x = [] := by simpa [lzssSpell, eq_comm] using h
    simpa using h'
  | cons r rs ih =>
    cases r with
    | literal b =>
      obtain ⟨z, hz, rfl⟩ := lzssSpell_literal_eq_some.1 h
      exact lzssSpell_literal_eq_some.2 ⟨z ++ y, ih hz (by simpa using h'), rfl⟩
    | copy t l =>
      obtain ⟨hvalid, z, hz, rfl⟩ := lzssSpell_copy_eq_some.1 h
      exact lzssSpell_copy_eq_some.2 ⟨hvalid, z ++ y, ih hz (by simpa using h'), by simp⟩

/-- Literals spell themselves. -/
theorem lzssSpell_literals (w m : Nat) (done x : List Byte) : lzssSpell w m done (x.map .literal) = some x := by
  induction x generalizing done with
  | nil => rfl
  | cons b x ih => exact lzssSpell_literal_eq_some.2 ⟨x, ih _, rfl⟩

/-- A candidate of the encoder: the window holds it, and its length fits the length field (R196). -/
structure LzssPending (w m : Nat) (done cand : List Byte) : Prop where
  short : cand.length < 2 ^ m
  held : (oldest (lastSymbols w done) cand).isSome

theorem lzssPending_nil (w m : Nat) (done : List Byte) : LzssPending w m done [] := ⟨Nat.two_pow_pos m, by simp⟩

/-- R194, R199: the match record of a candidate spells it. -/
theorem lzssSpell_lzssCopy (h : LzssPending w m done cand) (hne : cand ≠ []) :
    lzssSpell w m done [lzssCopy w done cand] = some cand := by
  obtain ⟨hshort, hheld⟩ := h
  obtain ⟨t, ht⟩ := Option.isSome_iff_exists.1 hheld
  obtain ⟨⟨hle, heq⟩, -⟩ := oldest_eq_some.1 ht
  have hpos := List.length_pos_iff.2 hne
  have hwin := lastSymbols_length_le w done
  rw [lzssCopy, ht, Option.getD_some]
  exact lzssSpell_copy_eq_some.2 ⟨⟨hle, by omega, hshort⟩, [], rfl, by rw [lzssSlice, heq, List.append_nil]⟩

/-- Records that send the first of some pending symbols and leave the rest of them as the candidate. -/
def LzssSends (w m : Nat) (done pend : List Byte) (r : List LzssRecord × List Byte × List Byte) : Prop :=
  ∃ x, lzssSpell w m done r.1 = some x ∧ r.2.1 = done ++ x ∧ pend = x ++ r.2.2

/-- R195 (b): literals go out until the window holds what is left; at least one does. -/
theorem lzssDrain_sends (w m : Nat) (done : List Byte) (b : Byte) (rest : List Byte) :
    LzssSends w m done (b :: rest) (lzssDrain w done (b :: rest))
      ∧ (oldest (lastSymbols w (lzssDrain w done (b :: rest)).2.1) (lzssDrain w done (b :: rest)).2.2).isSome
      ∧ (lzssDrain w done (b :: rest)).2.2.length ≤ rest.length := by
  induction rest generalizing done b with
  | nil => exact ⟨⟨[b], rfl, rfl, rfl⟩, by simp [lzssDrain_cons], le_rfl⟩
  | cons b' rest ih =>
    rw [lzssDrain_cons]
    split
    case isTrue h => exact ⟨⟨[b], rfl, rfl, rfl⟩, h.resolve_left (by simp), le_rfl⟩
    case isFalse =>
      obtain ⟨⟨x, hspell, hdone, hpend⟩, hheld, hlen⟩ := ih (done ++ [b]) b'
      exact ⟨⟨b :: x, lzssSpell_literal_eq_some.2 ⟨x, hspell, rfl⟩, hdone.trans (List.append_assoc _ _ _),
        congrArg (b :: ·) hpend⟩, hheld, hlen.trans (Nat.le_succ _)⟩

/-- A drain starts with at least the new symbol. -/
theorem exists_cons_eq_concat (x : List Byte) (c : Byte) : ∃ b rest, x ++ [c] = b :: rest ∧ rest.length = x.length := by
  cases x with
  | nil => exact ⟨c, [], rfl, rfl⟩
  | cons b x => exact ⟨b, x ++ [c], rfl, by simp⟩

theorem lzssGrow_sends (h : LzssPending w m done cand) (c : Byte) :
    LzssSends w m done (cand ++ [c]) (lzssGrow w m done cand c)
      ∧ LzssPending w m (lzssGrow w m done cand c).2.1 (lzssGrow w m done cand c).2.2 := by
  rw [lzssGrow]
  split
  case isTrue hext =>
    obtain ⟨hlen, hheld⟩ := hext
    exact ⟨⟨[], rfl, by simp, rfl⟩, by simp only [List.length_append, List.length_singleton]; omega, hheld⟩
  case isFalse =>
    obtain ⟨b, rest, heq, hlen⟩ := exists_cons_eq_concat cand c
    obtain ⟨hsends, hheld, hle⟩ := lzssDrain_sends w m done b rest
    rw [heq]
    have := h.short
    exact ⟨hsends, by omega, hheld⟩

theorem lzssTurn_sends (hmin : 1 ≤ min) (h : LzssPending w m done cand) (c : Byte) :
    LzssSends w m done (cand ++ [c]) (lzssTurn w m min done cand c)
      ∧ LzssPending w m (lzssTurn w m min done cand c).2.1 (lzssTurn w m min done cand c).2.2 := by
  rw [lzssTurn]
  split
  case isTrue hmatch =>
    have hne : cand ≠ [] := List.ne_nil_of_length_pos (by omega)
    obtain ⟨⟨x, hspell, hdone, hpend⟩, hnext⟩ := lzssGrow_sends (lzssPending_nil w m (done ++ cand)) c
    exact ⟨⟨cand ++ x, lzssSpell_append (lzssSpell_lzssCopy h hne) hspell, by simp [hdone], by simpa using hpend⟩, hnext⟩
  case isFalse => exact lzssGrow_sends h c

/-- R199, R207: the records of the parse spell the candidate and the rest of the input. -/
theorem lzssSpell_lzssParse (hmin : 1 ≤ min) (h : LzssPending w m done cand) (cs : List Byte) :
    lzssSpell w m done (lzssParse w m min done cand cs) = some (cand ++ cs) := by
  induction cs generalizing done cand with
  | nil =>
    rw [lzssParse_nil, List.append_nil]
    split
    case isTrue hlen => exact lzssSpell_lzssCopy h (List.ne_nil_of_length_pos (by omega))
    case isFalse => exact lzssSpell_literals w m done cand
  | cons c cs ih =>
    obtain ⟨⟨x, hspell, hdone, hpend⟩, hnext⟩ := lzssTurn_sends hmin h c
    have hrest := ih hnext
    rw [hdone] at hrest
    rw [lzssParse_cons, hdone, lzssSpell_append hspell hrest, ← List.append_assoc, ← hpend]
    simp

/-! ### The lengths of the matches -/

theorem copy_not_mem_lzssDrain (w : Nat) (done pend : List Byte) (o l : Nat) : .copy o l ∉ (lzssDrain w done pend).1 := by
  induction pend generalizing done with
  | nil => simp [lzssDrain]
  | cons b rest ih =>
    rw [lzssDrain_cons]
    split
    · simp
    · simpa using ih _

theorem copy_not_mem_lzssGrow (w m : Nat) (done cand : List Byte) (c : Byte) (o l : Nat) :
    .copy o l ∉ (lzssGrow w m done cand c).1 := by
  rw [lzssGrow]
  split
  · simp
  · exact copy_not_mem_lzssDrain _ _ _ _ _

/-- R195 (a): a match is at least as long as `MIN`. -/
theorem le_of_copy_mem_lzssTurn {o l : Nat} (h : .copy o l ∈ (lzssTurn w m min done cand c).1) : min ≤ l := by
  rw [lzssTurn] at h
  split at h
  case isTrue hmatch =>
    obtain heq | hmem := List.mem_cons.1 h
    · obtain ⟨-, rfl⟩ := LzssRecord.copy.inj heq
      exact hmatch.2
    · exact absurd hmem (copy_not_mem_lzssGrow _ _ _ _ _ _ _)
  case isFalse => exact absurd h (copy_not_mem_lzssGrow _ _ _ _ _ _ _)

theorem le_of_copy_mem_lzssParse {o l : Nat} {cs : List Byte} (h : .copy o l ∈ lzssParse w m min done cand cs) : min ≤ l := by
  induction cs generalizing done cand with
  | nil =>
    rw [lzssParse_nil] at h
    split at h
    case isTrue hlen =>
      obtain ⟨-, rfl⟩ := LzssRecord.copy.inj (List.mem_singleton.1 h)
      exact hlen
    case isFalse => simp at h
  | cons c cs ih =>
    rw [lzssParse_cons] at h
    exact (List.mem_append.1 h).elim le_of_copy_mem_lzssTurn ih

end Sys2Proof.Claims
end

section
/-! The decoder of LZSS (43_lzss.md R199, R203 to R205): the record stream as bits, and LZSS.DEC reading it. -/

namespace Sys2Proof.Claims

open Sys2Proof.Machine

/-- There is no more than one record a bit. -/
theorem length_le_lzssBits_length (w m : Nat) (rs : List LzssRecord) : rs.length ≤ (lzssBits w m rs).length := by
  induction rs with
  | nil => simp
  | cons r rs ih => cases r <;> simp only [lzssBits, List.length_append, List.length_cons] <;> omega

theorem lzssBits_append (w m : Nat) (rs rs' : List LzssRecord) : lzssBits w m (rs ++ rs') = lzssBits w m rs ++ lzssBits w m rs' := by
  induction rs with
  | nil => rfl
  | cons r rs ih => cases r <;> simp [lzssBits, ih]

end Sys2Proof.Claims

namespace Sys2Proof.Machine

open Sys2Proof.Claims

/-! ### What a running command leaves alone -/

/-- From p to q a command is at work on the streams: only they, its engine and its own bookkeeping may be other. -/
def State.WorksTo (p q : State) : Prop :=
  q = { p with
    run := q.run, err := q.err, errinfo := q.errinfo, freeCtr := q.freeCtr, phase := q.phase, eng := q.eng, io := q.io }

theorem State.WorksTo.exists_eq {p q : State} (h : p.WorksTo q) : ∃ run err errinfo freeCtr phase eng io,
    q = { p with run := run, err := err, errinfo := errinfo, freeCtr := freeCtr, phase := phase, eng := eng, io := io } :=
  ⟨_, _, _, _, _, _, _, h⟩

theorem State.WorksTo.trans {p q u : State} (h : p.WorksTo q) (h' : q.WorksTo u) : p.WorksTo u := by
  obtain ⟨_, _, _, _, _, _, _, rfl⟩ := h.exists_eq
  exact h'

/-- Work on the streams that is done, and the state after it. -/
theorem State.WorksTo.completed {s u : State} (h : s.WorksTo u) : Completed s u.released.io u.released.completed := by
  obtain ⟨_, _, _, _, _, _, _, rfl⟩ := h.exists_eq
  rfl

theorem State.WorksTo.raised {s u : State} (h : s.WorksTo u) (r : Raise) :
    Raised s u.released.io r.exc (u.released.raised r).errinfo (u.released.raised r) := by
  obtain ⟨_, _, _, _, _, _, _, rfl⟩ := h.exists_eq
  obtain ⟨e, _ | i⟩ := r <;> rfl

/-! ### A flag, and a field after it -/

/-- R134: a field is read as the value it spells. -/
theorem Reading.value {n v : Nat} {rest : Bits} {io : Io} (h : Reading (binN n v ++ rest) io) (hv : v < 2 ^ n) :
    (rdBits n io).1 = some v ∧ Reading rest (rdBits n io).2 := by
  have hfield := h.field (n := n) (by simp)
  rwa [take_binN_append, drop_binN_append, valOf_binN, Nat.mod_eq_of_lt hv] at hfield

/-- R134: one bit is read. -/
theorem Reading.flag {b : Bool} {rest : Bits} {io : Io} (h : Reading (b :: rest) io) :
    (rdBits 1 io).1 = some b.toNat ∧ Reading rest (rdBits 1 io).2 := by
  have hfield := h.field (n := 1) (by simp)
  simpa [valOf_cons] using hfield

/-- R135: after a field that was cut, every read meets the end again. -/
theorem Reading.cut_again {n : Nat} {bits : Bits} {io : Io} (h : Reading bits io) (hn : bits.length < n) (n' : Nat) :
    (rdBits n' (rdBits n io).2).1 = none ∧ Drained (rdBits n' (rdBits n io).2).2 := by
  obtain ⟨-, hcnt, hexh, -, rfl⟩ := h
  obtain ⟨-, hrest, -, hexh', -⟩ := rdBits_sentinel n io hcnt hexh hn
  rw [rdBits_exhausted n' _ hexh']
  exact ⟨rfl, hrest, rfl⟩

/-- R204: two fields of which one is cut: the second read is the sentinel. -/
theorem Reading.cut_second {n n' : Nat} {bits : Bits} {io : Io} (h : Reading bits io) (hn : bits.length < n + n') :
    (rdBits n' (rdBits n io).2).1 = none ∧ Drained (rdBits n' (rdBits n io).2).2 := by
  rcases le_or_gt n bits.length with hle | hlt
  · exact (h.field hle).2.cut (by rw [List.length_drop]; omega)
  · exact h.cut_again hlt n'

/-! ### One turn of the decoder -/

section
variable {w m fuel : Nat} {win : List Byte} {p : State} {rest : Bits}

/-- R203: at the end of the bits the decode ends. -/
theorem lzssDecLoop_of_nil (h : Reading [] p.io) :
    ∃ q, lzssDecLoop w m (fuel + 1) win p = .ok () q ∧ Drained q.io ∧ q.io.out = p.io.out ∧ p.WorksTo q := by
  obtain ⟨hval, hdrained⟩ := h.cut (n := 1) (by simp)
  refine ⟨{ p with eng := .lzssDec win, phase := .record, io := (rdBits 1 p.io).2 }, ?_, hdrained, rdBits_out _ _, rfl⟩
  simp [lzssDecLoop, onIo_apply, hval]

/-- R204: a literal record that is cut ends the decode. -/
theorem lzssDecLoop_of_literal_cut (h : Reading (false :: rest) p.io) (hn : rest.length < 8) :
    ∃ q, lzssDecLoop w m (fuel + 1) win p = .ok () q ∧ Drained q.io ∧ q.io.out = p.io.out ∧ p.WorksTo q := by
  obtain ⟨hflag, hafter⟩ := h.flag
  obtain ⟨hval, hdrained⟩ := hafter.cut hn
  refine ⟨{ p with eng := .lzssDec win, phase := .literal, io := (rdBits 8 (rdBits 1 p.io).2).2 }, ?_, hdrained,
    by rw [rdBits_out, rdBits_out], rfl⟩
  simp [lzssDecLoop, onIo_apply, hflag, hval]

/-- R203: a literal record outputs its byte. -/
theorem lzssDecLoop_of_literal {b : Byte} (h : Reading (false :: (binN 8 b.toNat ++ rest)) p.io) :
    ∃ q, lzssDecLoop w m (fuel + 1) win p = lzssDecLoop w m fuel (lzssTrim w (win ++ [b])) q ∧ Reading rest q.io
      ∧ q.io.out = ⟨p.io.out.bytes ++ [b], p.io.out.sink⟩ ∧ p.WorksTo q := by
  obtain ⟨hflag, hafter⟩ := h.flag
  obtain ⟨hval, hleft⟩ := hafter.value b.isLt
  refine ⟨{ p with eng := .lzssDec win, phase := .literal, io := outBytes [b] (rdBits 8 (rdBits 1 p.io).2).2 }, ?_,
    hleft.outBytes [b], by rw [Io.outBytes_out, rdBits_out, rdBits_out], rfl⟩
  simp [lzssDecLoop, onIo_apply, hflag, hval]

/-- What LZSS.DEC does with the two fields of a match record (R203, R205). -/
def lzssDecCopy (w m fuel : Nat) (win : List Byte) (t l : Nat) : Run State Unit :=
  if win.length < t + l then raise .corruptCodeword ((t * 2 ^ m + l : Nat) : Int)
  else do
    onIo (emitBytes (lzssSlice win t l))
    lzssDecLoop w m fuel (lzssTrim w (win ++ lzssSlice win t l))

/-- R203: the fields of a match record are read, and acted on. -/
theorem lzssDecLoop_of_copy {t l : Nat} (ht : t < 2 ^ w) (hl : l < 2 ^ m) (h : Reading (true :: (binN w t ++ (binN m l ++ rest))) p.io) :
    ∃ q, lzssDecLoop w m (fuel + 1) win p = lzssDecCopy w m fuel win t l q ∧ Reading rest q.io ∧ q.io.out = p.io.out
      ∧ p.WorksTo q := by
  obtain ⟨hflag, hafter⟩ := h.flag
  obtain ⟨hoffset, hafter'⟩ := hafter.value ht
  obtain ⟨hlength, hleft⟩ := hafter'.value hl
  refine ⟨{ p with eng := .lzssDec win, phase := .record, io := (rdBits m (rdBits w (rdBits 1 p.io).2).2).2 }, ?_, hleft,
    by rw [rdBits_out, rdBits_out, rdBits_out], rfl⟩
  simp [lzssDecLoop, onIo_apply, hflag, hoffset, hlength]
  rfl

/-- R204: a match record that is cut is `TruncatedStream`. -/
theorem lzssDecLoop_of_copy_cut (h : Reading (true :: rest) p.io) (hn : rest.length < w + m) :
    ∃ q, lzssDecLoop w m (fuel + 1) win p = .error ⟨.truncatedStream, none⟩ q ∧ Drained q.io ∧ q.io.out = p.io.out
      ∧ p.WorksTo q := by
  obtain ⟨hflag, hafter⟩ := h.flag
  obtain ⟨hlength, hdrained⟩ := hafter.cut_second hn
  refine ⟨{ p with eng := .lzssDec win, phase := .record, io := (rdBits m (rdBits w (rdBits 1 p.io).2).2).2 }, ?_, hdrained,
    by rw [rdBits_out, rdBits_out, rdBits_out], rfl⟩
  simp [lzssDecLoop, onIo_apply, hflag, hlength]

/-- R203: a match inside the window outputs its symbols. -/
theorem lzssDecCopy_of_le {t l : Nat} (h : t + l ≤ win.length) :
    lzssDecCopy w m fuel win t l p
      = lzssDecLoop w m fuel (lzssTrim w (win ++ lzssSlice win t l)) { p with io := outBytes (lzssSlice win t l) p.io } := by
  simp [lzssDecCopy, Nat.not_lt.2 h, onIo_apply]

/-- R205: a match that reaches outside the window is `CorruptCodeword`. -/
theorem lzssDecCopy_of_lt {t l : Nat} (h : win.length < t + l) :
    lzssDecCopy w m fuel win t l p = .error ⟨.corruptCodeword, some ((t * 2 ^ m + l : Nat) : Int)⟩ p := by
  rw [lzssDecCopy, if_pos h]; rfl

/-! ### Valid records, and the end of the stream -/

/-- R203: valid records are read one after the other, and what they spell is put on `OUT`. -/
theorem lzssDecLoop_of_records {records : List LzssRecord} {done x : List Byte} (hs : lzssSpell w m done records = some x)
    (hr : Reading (lzssBits w m records ++ rest) p.io) :
    ∃ q, lzssDecLoop w m (fuel + records.length) (lastSymbols w done) p = lzssDecLoop w m fuel (lastSymbols w (done ++ x)) q
      ∧ Reading rest q.io ∧ q.io.out = ⟨p.io.out.bytes ++ x, p.io.out.sink⟩ ∧ p.WorksTo q := by
  induction records generalizing done x p with
  | nil =>
    obtain rfl : x = [] := by simpa [lzssSpell, eq_comm] using hs
    exact ⟨p, by simp, hr, by simp, rfl⟩
  | cons r records ih =>
    have hturn : ∃ y z q, x = y ++ z ∧ lzssSpell w m (done ++ y) records = some z
        ∧ lzssDecLoop w m (fuel + records.length + 1) (lastSymbols w done) p
          = lzssDecLoop w m (fuel + records.length) (lastSymbols w (done ++ y)) q
        ∧ Reading (lzssBits w m records ++ rest) q.io ∧ q.io.out = ⟨p.io.out.bytes ++ y, p.io.out.sink⟩ ∧ p.WorksTo q := by
      cases r with
      | literal b =>
        obtain ⟨z, hz, rfl⟩ := lzssSpell_literal_eq_some.1 hs
        rw [lzssBits, List.append_assoc] at hr
        obtain ⟨q, hloop, hread, hout, hworks⟩ := lzssDecLoop_of_literal (w := w) (m := m) (fuel := fuel + records.length)
          (win := lastSymbols w done) hr
        rw [lzssTrim_lastSymbols_append] at hloop
        exact ⟨[b], z, q, rfl, hz, hloop, hread, hout, hworks⟩
      | copy t l =>
        obtain ⟨⟨hle, ht, hl⟩, z, hz, rfl⟩ := lzssSpell_copy_eq_some.1 hs
        rw [lzssBits, List.append_assoc, List.append_assoc] at hr
        obtain ⟨q, hloop, hread, hout, hworks⟩ := lzssDecLoop_of_copy (fuel := fuel + records.length) (win := lastSymbols w done) ht hl hr
        rw [lzssDecCopy_of_le hle, lzssTrim_lastSymbols_append] at hloop
        exact ⟨_, z, _, rfl, hz, hloop, hread.outBytes _, by rw [Io.outBytes_out, hout], hworks.trans rfl⟩
    obtain ⟨y, z, q, rfl, hz, hloop, hread, hout, hworks⟩ := hturn
    obtain ⟨q', hloop', hread', hout', hworks'⟩ := ih hz hread
    refine ⟨q', ?_, hread', by simp [hout', hout], hworks.trans hworks'⟩
    rw [← List.append_assoc, ← hloop', ← hloop]
    rfl

/-- R204: the normal ends of a stream end the loop at the end of the input. -/
theorem lzssDecLoop_of_end (h : LzssEnd rest) (hr : Reading rest p.io) :
    ∃ q, lzssDecLoop w m (fuel + 1) win p = .ok () q ∧ Drained q.io ∧ q.io.out = p.io.out ∧ p.WorksTo q := by
  obtain rfl | ⟨more, rfl, hmore⟩ := h
  · exact lzssDecLoop_of_nil hr
  · exact lzssDecLoop_of_literal_cut hr hmore

end

/-! ### The command -/

/-- s with the header of an LZSS stream loaded (R203, R206). -/
def lzssLoaded (s : State) (w m : Byte) : State := { s with windowBits := ⟨w.toNat, true⟩, maxMatchBits := ⟨m.toNat, true⟩ }

/-- LZSS.DEC when its loop begins, the two header bytes taken from `IN` and `bs` left on it. -/
def lzssDecReady (s : State) (w m : Byte) (bs : List Byte) : State :=
  let p := (s.start .header).dropChannel
  lzssDecStart (w, m) { p with io := { openOut p.io with inp := ⟨bs, s.io.inp.consumed + 2⟩ } }

theorem lzssDecReady_reading (s : State) (w m : Byte) (bs : List Byte) : Reading (streamBits bs) (lzssDecReady s w m bs).io :=
  reading_openReader (freeByte (s.start .header).freeCtr)
    (io := { openOut (s.start .header).dropChannel.io with inp := ⟨bs, s.io.inp.consumed + 2⟩ }) rfl

theorem lzssDecReady_out (s : State) (w m : Byte) (bs : List Byte) :
    (lzssDecReady s w m bs).io.out = ⟨s.io.out.opened.bytes, .writing⟩ := by
  rw [← OutStream.opened_sink s.io.out]; rfl

theorem worksTo_lzssDecReady (s : State) (w m : Byte) (bs : List Byte) : (lzssLoaded s w m).WorksTo (lzssDecReady s w m bs) := rfl

/-- R203: LZSS.DEC reads the two header bytes, and goes on to its loop. -/
theorem lzssDecBody_apply {s : State} {w m : Byte} {bs : List Byte} (hin : s.io.inp.rest = w :: m :: bs) :
    lzssDecBody s (s.start .header).dropChannel
      = (lzssDecLoop w.toNat m.toNat (unreadBits s.io + 1) [] >>= fun _ => setPhase .close) (lzssDecReady s w m bs) := by
  have hread : lzssReadHeader (openOut (s.start .header).dropChannel.io)
      = .ok (w, m) { openOut (s.start .header).dropChannel.io with inp := ⟨bs, s.io.inp.consumed + 2⟩ } := by
    simp [lzssReadHeader, inByte, hin]
  rw [lzssDecBody, Run.bind_apply, onIo_apply, Run.modify_apply]
  dsimp only
  rw [Run.bind_apply, onIo_apply, hread]
  exact lzssDecRest_apply s (w, m) _

/-- R204: without two header bytes the input is read to its end, and LZSS.DEC raises `TruncatedStream`. -/
theorem lzssDecBody_of_short {s : State} (h : s.io.inp.rest.length < 2) :
    ∃ u, lzssDecBody s (s.start .header).dropChannel = .error ⟨.truncatedStream, none⟩ u ∧ u.io.inp.rest = [] ∧ u.io.eos = false
      ∧ u.io.out = ⟨s.io.out.opened.bytes, .writing⟩ ∧ s.WorksTo u := by
  have hread : lzssReadHeader (openOut (s.start .header).dropChannel.io)
      = .error ⟨.truncatedStream, none⟩ { openOut (s.start .header).dropChannel.io with inp := allRead s } := by
    rcases hin : s.io.inp.rest with _ | ⟨a, _ | ⟨b, rest⟩⟩
    · simp [lzssReadHeader, inByte, hin, allRead, openOut]
      rw [← hin]
    · simp [lzssReadHeader, inByte, hin, allRead]
    · simp [hin] at h
  refine ⟨{ (s.start .header).dropChannel with
    io := { openOut (s.start .header).dropChannel.io with inp := allRead s } }, ?_, rfl, rfl, ?_, rfl⟩
  · rw [lzssDecBody, Run.bind_apply, onIo_apply, Run.modify_apply]
    dsimp only
    rw [Run.bind_apply, onIo_apply, hread]
  · rw [← OutStream.opened_sink s.io.out]; rfl

/-- R323: LZSS.DEC completes when its work is done. -/
theorem exec_lzssDec_completed {s base u : State} {bs : List Byte} (hbody : lzssDecBody s (s.start .header).dropChannel = .ok () u)
    (hworks : base.WorksTo u) (hdrained : Drained u.io) (hout : u.io.out = ⟨s.io.out.opened.bytes ++ bs, .writing⟩) :
    ∃ t, exec .lzssDec s = .next t ∧ Completed base (wrote s bs (allRead s) true) t := by
  have ht : exec .lzssDec s = .next u.released.completed := (exec_lzssDec s).trans (runUnit_ok rfl hbody)
  have hio := io_eq_wrote (u := u) ht rfl (by rw [hout, OutStream.ended_of_writing]) rfl
  rw [hdrained.rest, hdrained.eos, leaving_nil] at hio
  exact ⟨_, ht, hio ▸ hworks.completed⟩

/-- R322: LZSS.DEC raises what its work raises. -/
theorem exec_lzssDec_raised {s base u : State} {bs : List Byte} {r : Raise}
    (hbody : lzssDecBody s (s.start .header).dropChannel = .error r u) (hworks : base.WorksTo u)
    (hout : u.io.out = ⟨s.io.out.opened.bytes ++ bs, .writing⟩) :
    ∃ t, exec .lzssDec s = .next t ∧ Raised base (wrote s bs (leaving s u.io.inp.rest) u.io.eos) r.exc t.errinfo t
      ∧ ∀ i ∈ r.info, t.errinfo = i := by
  have ht : exec .lzssDec s = .next (u.released.raised r) := (exec_lzssDec s).trans (runUnit_error rfl hbody)
  have hio := io_eq_wrote (u := u) ht (by simp) (by rw [hout, OutStream.ended_of_writing]) (by simp)
  rw [State.raised_io] at hio
  refine ⟨_, ht, hio ▸ hworks.raised r, fun i hi => ?_⟩
  obtain ⟨e, info⟩ := r
  obtain rfl : info = some i := hi
  exact State.raised_errinfo e i u.released

/-- R203: after the header and valid records, the loop goes on with what they spell in the window and on `OUT`. -/
theorem lzssDecLoop_after_records {s : State} {w m : Byte} {bs symbols : List Byte} {records : List LzssRecord} {tail : Bits}
    (hin : s.io.inp.rest = w :: m :: bs) (hs : lzssSpell w.toNat m.toNat [] records = some symbols)
    (hbits : streamBits bs = lzssBits w.toNat m.toNat records ++ tail) :
    ∃ fuel q, lzssDecBody s (s.start .header).dropChannel
        = (lzssDecLoop w.toNat m.toNat (fuel + 1) (lastSymbols w.toNat symbols) >>= fun _ => setPhase .close) q
      ∧ Reading tail q.io ∧ q.io.out = ⟨s.io.out.opened.bytes ++ symbols, .writing⟩ ∧ (lzssLoaded s w m).WorksTo q := by
  have hle : records.length ≤ unreadBits s.io := by
    have := length_le_lzssBits_length w.toNat m.toNat records
    have hlen := congrArg List.length hbits
    rw [streamBits_length, List.length_append] at hlen
    rw [unreadBits, hin, List.length_cons, List.length_cons]
    omega
  obtain ⟨q, hloop, hread, hout, hworks⟩ := lzssDecLoop_of_records (fuel := unreadBits s.io - records.length + 1)
    (p := lzssDecReady s w m bs) hs (hbits ▸ lzssDecReady_reading s w m bs)
  refine ⟨unreadBits s.io - records.length, q, ?_, hread, by rw [hout, lzssDecReady_out], (worksTo_lzssDecReady s w m bs).trans hworks⟩
  have hfuel : unreadBits s.io - records.length + 1 + records.length = unreadBits s.io + 1 := by omega
  rw [hfuel, lastSymbols_nil, List.nil_append] at hloop
  rw [lzssDecBody_apply hin, Run.bind_apply, Run.bind_apply, hloop]

/-- Settles O32: the records are read by `lzssDecLoop_of_records`, and one of the two normal ends follows. -/
theorem lzssDecReadsRecords : Obligations.LzssDecReadsRecords := by
  intro s w m bs symbols records tail hin hs hbits hend
  obtain ⟨fuel, q, hbody, hread, hout, hworks⟩ := lzssDecLoop_after_records hin hs hbits
  obtain ⟨u, hloop, hdrained, hout', hworks'⟩ := lzssDecLoop_of_end (w := w.toNat) (m := m.toNat) (fuel := fuel)
    (win := lastSymbols w.toNat symbols) hend hread
  rw [Run.bind_apply, hloop] at hbody
  exact exec_lzssDec_completed hbody ((hworks.trans hworks').trans rfl) ⟨hdrained.rest, hdrained.eos⟩ (hout'.trans hout)

/-- Settles O34: the header is short, or the records before it are read by `lzssDecLoop_of_records` and the next one is rejected or
cut. -/
theorem lzssDecRejects : Obligations.LzssDecRejects := by
  refine ⟨fun s hshort => ?_, fun s w m bs symbols records o l more hin hs => ⟨fun ho hl hwin hbits => ?_, fun hmore hbits => ?_⟩⟩
  · obtain ⟨u, hbody, hrest, heos, hout, hworks⟩ := lzssDecBody_of_short hshort
    obtain ⟨t, ht, hraised, -⟩ := exec_lzssDec_raised (bs := []) hbody hworks (by rw [hout, List.append_nil])
    rw [hrest, heos, leaving_nil] at hraised
    exact ⟨t, ht, hraised⟩
  · rw [List.append_assoc] at hbits
    obtain ⟨fuel, q, hbody, hread, hout, hworks⟩ := lzssDecLoop_after_records hin hs hbits
    obtain ⟨u, hloop, hread', hout', hworks'⟩ := lzssDecLoop_of_copy (fuel := fuel) (win := lastSymbols w.toNat symbols) ho hl hread
    rw [lzssDecCopy_of_lt hwin] at hloop
    rw [Run.bind_apply, hloop] at hbody
    obtain ⟨t, ht, hraised, hinfo⟩ := exec_lzssDec_raised hbody (hworks.trans hworks') (hout'.trans hout)
    have hinp : t.io.inp = leaving s u.io.inp.rest := by rw [congrArg State.io hraised]; rfl
    rw [← hinp, hread'.eos, hinfo _ rfl] at hraised
    exact ⟨t, ht, hraised⟩
  · obtain ⟨fuel, q, hbody, hread, hout, hworks⟩ := lzssDecLoop_after_records hin hs hbits
    obtain ⟨u, hloop, hdrained, hout', hworks'⟩ := lzssDecLoop_of_copy_cut (fuel := fuel) (win := lastSymbols w.toNat symbols) hread hmore
    rw [Run.bind_apply, hloop] at hbody
    obtain ⟨t, ht, hraised, -⟩ := exec_lzssDec_raised hbody (hworks.trans hworks') (hout'.trans hout)
    rw [hdrained.rest, hdrained.eos, leaving_nil] at hraised
    exact ⟨t, ht, hraised⟩

end Sys2Proof.Machine
end

section
/-! LZSS.ENC (43_lzss.md R191 to R197): the engine following the parse, and the command. -/

namespace Sys2Proof.Machine

open Sys2Proof.Claims

/-! ### The engine between two symbols -/

/-- The engine after the symbols `done`, with its candidate: the window is the last symbols sent, and the index is the oldest place of the
candidate in it (R34, R193). -/
structure LzssEnc.Between (w : Nat) (done cand : List Byte) (e : LzssEnc) : Prop where
  win_eq : e.win = lastSymbols w done
  cand_eq : e.cand = cand
  idx_eq : oldest (lastSymbols w done) cand = some e.idx

theorem LzssEnc.between_fresh (w : Nat) : LzssEnc.fresh.Between w [] [] := ⟨(lastSymbols_nil w).symm, rfl, oldest_nil _⟩

/-- No candidate is at the start of the window. -/
theorem LzssEnc.between_nil (w : Nat) (done : List Byte) : LzssEnc.Between w done [] ⟨lastSymbols w done, [], 0⟩ :=
  ⟨rfl, rfl, oldest_nil _⟩

/-- R131: one bit is appended. -/
theorem Encoding.flag {pre rest : List Byte} {bits : Bits} {io : Io} (h : Encoding pre bits rest io) (b : Bool) :
    Encoding pre (bits ++ [b]) rest (wrBits [b] io) := by
  cases b
  · exact h.field 0 1
  · exact h.field 1 1

section
variable {prm : LzssParams} {done cand : List Byte} {c : Byte} {e : LzssEnc} {p : State} {pre rest : List Byte} {bits : Bits}

/-! ### Records -/

/-- R194: a literal record; the symbol enters the window. -/
theorem lzssLiteral_writes (b : Byte) (done : List Byte) (hp : Encoding pre bits rest p.io) :
    ∃ q, lzssLiteral prm b (lastSymbols prm.w done) p = .ok (lastSymbols prm.w (done ++ [b])) q
      ∧ Encoding pre (bits ++ lzssBits prm.w prm.m [.literal b]) rest q.io := by
  refine ⟨{ p with phase := .literal, io := wrVal b.toNat 8 (wrBits [false] p.io) }, ?_, ?_⟩
  · simp [lzssLiteral, onIo_apply, lzssTrim_lastSymbols_append]
  · simpa [lzssBits] using (hp.flag false).field b.toNat 8

/-- R194: the match record of the candidate; its symbols enter the window. -/
theorem LzssEnc.Between.match_writes (h : e.Between prm.w done cand) (hp : Encoding pre bits rest p.io) :
    ∃ q, lzssMatch prm e.idx e.cand e.win p = .ok (lastSymbols prm.w (done ++ cand)) q
      ∧ Encoding pre (bits ++ lzssBits prm.w prm.m [lzssCopy prm.w done cand]) rest q.io := by
  obtain ⟨hwin, hcand, hidx⟩ := h
  refine ⟨{ p with io := wrVal cand.length prm.m (wrVal e.idx prm.w (wrBits [true] p.io)) }, ?_, ?_⟩
  · simp [lzssMatch, onIo_apply, hwin, hcand, lzssTrim_lastSymbols_append]
  · simpa [lzssBits, lzssCopy, hidx] using ((hp.flag true).field e.idx prm.w).field cand.length prm.m

/-- R195 (c): what is pending at the end goes out as literals. -/
theorem lzssLiterals_writes (pend done : List Byte) (hp : Encoding pre bits rest p.io) :
    ∃ q, lzssLiterals prm pend (lastSymbols prm.w done) p = .ok (lastSymbols prm.w (done ++ pend)) q
      ∧ Encoding pre (bits ++ lzssBits prm.w prm.m (pend.map .literal)) rest q.io := by
  induction pend generalizing done p bits with
  | nil => exact ⟨p, by simp [lzssLiterals], by simpa [lzssBits] using hp⟩
  | cons b pend ih =>
    obtain ⟨q, hliteral, hq⟩ := lzssLiteral_writes (prm := prm) b done hp
    obtain ⟨q', hrest, hq'⟩ := ih (done ++ [b]) hq
    refine ⟨q', ?_, ?_⟩
    · rw [lzssLiterals, Run.bind_apply, hliteral]
      simpa using hrest
    · rw [List.map_cons, ← List.singleton_append, lzssBits_append, ← List.append_assoc]
      exact hq'

/-- R195 (b): the fallback drains what is pending. -/
theorem lzssFallback_drains (pend done : List Byte) (hp : Encoding pre bits rest p.io) :
    ∃ e' q, lzssFallback prm pend (lastSymbols prm.w done) p = .ok e' q
      ∧ e'.Between prm.w (lzssDrain prm.w done pend).2.1 (lzssDrain prm.w done pend).2.2
      ∧ Encoding pre (bits ++ lzssBits prm.w prm.m (lzssDrain prm.w done pend).1) rest q.io := by
  induction pend generalizing done p bits with
  | nil => exact ⟨_, p, rfl, LzssEnc.between_nil _ _, by simpa [lzssDrain, lzssBits] using hp⟩
  | cons b pend ih =>
    obtain ⟨q, hliteral, hq⟩ := lzssLiteral_writes (prm := prm) b done hp
    rw [lzssFallback, Run.bind_apply, hliteral, lzssDrain_cons]
    cases pend with
    | nil => exact ⟨_, q, rfl, LzssEnc.between_nil _ _, hq⟩
    | cons b' pend =>
      dsimp only [List.isEmpty_cons]
      rw [if_neg Bool.false_ne_true, lzssFind_eq_oldest]
      cases hfound : oldest (lastSymbols prm.w (done ++ [b])) (b' :: pend) with
      | some t => exact ⟨_, q, rfl, ⟨rfl, rfl, hfound⟩, hq⟩
      | none =>
        obtain ⟨e', q', hrest, hbetween, hq'⟩ := ih (done ++ [b]) hq
        rw [if_neg (by simp)]
        refine ⟨e', q', hrest, hbetween, ?_⟩
        rw [← List.singleton_append, lzssBits_append, ← List.append_assoc]
        exact hq'

/-! ### One symbol, and the end of the input -/

/-- R196: the extension test of the engine is that of the parse. -/
theorem LzssEnc.Between.extend (h : e.Between prm.w done cand) (hext : LzssExtends prm.w prm.m done cand c) :
    ∃ e', lzssExtend prm c e = some e' ∧ e'.Between prm.w done (cand ++ [c]) := by
  obtain ⟨hwin, hcand, -⟩ := h
  obtain ⟨hlen, hheld⟩ := hext
  obtain ⟨t, ht⟩ := Option.isSome_iff_exists.1 hheld
  refine ⟨⟨lastSymbols prm.w done, cand ++ [c], t⟩, ?_, ⟨rfl, rfl, ht⟩⟩
  rw [lzssExtend, hwin, hcand, lzssLmax, if_pos hlen, lzssFind_eq_oldest, ht, Option.map_some]

theorem LzssEnc.Between.not_extend (h : e.Between prm.w done cand) (hext : ¬ LzssExtends prm.w prm.m done cand c) :
    lzssExtend prm c e = none := by
  obtain ⟨hwin, hcand, -⟩ := h
  rw [lzssExtend, hwin, hcand, lzssLmax, lzssFind_eq_oldest]
  split
  case isTrue hlen => rw [Option.not_isSome_iff_eq_none.1 fun hheld => hext ⟨hlen, hheld⟩, Option.map_none]
  case isFalse => rfl

/-- R196: a symbol when no match is sent. -/
theorem LzssEnc.Between.short (h : e.Between prm.w done cand) (c : Byte) (hp : Encoding pre bits rest p.io) :
    ∃ e' q, lzssShort prm c e p = .ok e' q
      ∧ e'.Between prm.w (lzssGrow prm.w prm.m done cand c).2.1 (lzssGrow prm.w prm.m done cand c).2.2
      ∧ Encoding pre (bits ++ lzssBits prm.w prm.m (lzssGrow prm.w prm.m done cand c).1) rest q.io := by
  rw [lzssShort, lzssGrow]
  by_cases hext : LzssExtends prm.w prm.m done cand c
  · obtain ⟨e', he', hbetween⟩ := h.extend hext
    rw [he', if_pos hext]
    exact ⟨e', p, rfl, hbetween, by simpa [lzssBits] using hp⟩
  · rw [h.not_extend hext, if_neg hext, h.win_eq, h.cand_eq]
    exact lzssFallback_drains _ _ hp

/-- R196: a symbol. -/
theorem LzssEnc.Between.process (h : e.Between prm.w done cand) (c : Byte) (hp : Encoding pre bits rest p.io) :
    ∃ e' q, lzssProcess prm c e p = .ok e' q
      ∧ e'.Between prm.w (lzssTurn prm.w prm.m prm.min done cand c).2.1 (lzssTurn prm.w prm.m prm.min done cand c).2.2
      ∧ Encoding pre (bits ++ lzssBits prm.w prm.m (lzssTurn prm.w prm.m prm.min done cand c).1) rest q.io := by
  have hshort := h.short c hp
  obtain rfl := h.cand_eq
  by_cases hext : LzssExtends prm.w prm.m done e.cand c
  · obtain ⟨e', he', -⟩ := h.extend hext
    rw [lzssShort, he'] at hshort
    rwa [lzssProcess, he', lzssTurn_of_grow (.inl hext)]
  · rw [lzssProcess, h.not_extend hext]
    by_cases hmin : prm.min ≤ e.cand.length
    · obtain ⟨q, hmatch, hq⟩ := h.match_writes hp
      obtain ⟨e', q', hgrow, hbetween, hq'⟩ := (LzssEnc.between_nil prm.w (done ++ e.cand)).short c hq
      dsimp only
      rw [lzssTurn_of_match hext hmin, if_pos hmin, Run.bind_apply, hmatch]
      refine ⟨e', q', hgrow, hbetween, ?_⟩
      rw [← List.singleton_append, lzssBits_append, ← List.append_assoc]
      exact hq'
    · dsimp only
      rw [lzssTurn_of_grow (.inr (Nat.lt_of_not_le hmin)), if_neg hmin]
      rwa [lzssShort, h.not_extend hext] at hshort

/-- R195 (c): the end of the input. -/
theorem LzssEnc.Between.flush (h : e.Between prm.w done cand) (hp : Encoding pre bits rest p.io) :
    ∃ e' q, lzssFlush prm e p = .ok e' q
      ∧ Encoding pre (bits ++ lzssBits prm.w prm.m (lzssParse prm.w prm.m prm.min done cand [])) rest q.io := by
  rw [lzssFlush, lzssParse_nil, h.cand_eq]
  split
  case isTrue =>
    obtain ⟨q, hmatch, hq⟩ := h.match_writes hp
    exact ⟨_, q, by rw [Run.bind_apply, ← h.cand_eq, hmatch]; rfl, hq⟩
  case isFalse =>
    obtain ⟨q, hliterals, hq⟩ := lzssLiterals_writes (prm := prm) cand done hp
    exact ⟨_, q, by rw [Run.bind_apply, h.win_eq, hliterals]; rfl, hq⟩

/-- R196: the symbols of the input are processed one after the other, and then it ends: the records of the parse are written. -/
theorem LzssEnc.Between.symbols (cs : List Byte) (h : e.Between prm.w done cand) (hp : Encoding pre bits cs p.io) :
    ∃ e' q e'' q', forInput .lzssEnc (lzssProcess prm) cs e p = .ok e' q
      ∧ lzssFlush prm e' { q with phase := .flush } = .ok e'' q'
      ∧ Encoding pre (bits ++ lzssBits prm.w prm.m (lzssParse prm.w prm.m prm.min done cand cs)) [] q'.io := by
  induction cs generalizing done cand e p bits with
  | nil =>
    obtain ⟨e', q, hflush, hq⟩ := h.flush (p := { p with phase := .flush }) hp
    exact ⟨e, p, e', q, rfl, hflush, hq⟩
  | cons c cs ih =>
    obtain ⟨q, hq, hloop⟩ := hp.forInput .lzssEnc (lzssProcess prm) cs e
    obtain ⟨e₁, q₁, hprocess, hbetween, hq₁⟩ := h.process c hq
    obtain ⟨e₂, q₂, e₃, q₃, hrest, hflush, hq₃⟩ := ih (p := { q₁ with eng := .lzssEnc e₁ }) hbetween hq₁
    refine ⟨e₂, q₂, e₃, q₃, ?_, hflush, ?_⟩
    · rw [hloop, Run.bind_apply, hprocess]
      exact hrest
    · rw [lzssParse_cons, lzssBits_append, ← List.append_assoc]
      exact hq₃

end

/-! ### The command -/

/-- R191: operands in range do not offend. -/
theorem lzssEncBad_eq_nil {s : State} (h : LzssReady s) : lzssEncBad s = [] := by
  obtain ⟨hw, hw', hm, hm', hmin, hmin'⟩ := h
  simp only [lzssEncBad, List.append_eq_nil_iff, Reg.offends_nil, decide_eq_false_iff_not, Nat.not_lt]
  exact ⟨⟨⟨hw, hw'⟩, hm, hm'⟩, hmin, hmin'⟩

/-- LZSS.ENC when its loop begins: `OUT` opened under a fresh writer, the header written. -/
def lzssEncStart (s : State) : State :=
  let p := (s.start .header).dropChannel
  { p with io := wrVal s.maxMatchBits.val 8 (wrVal s.windowBits.val 8 (openWriter p.io)), eng := .lzssEnc .fresh }

/-- What LZSS.ENC does after its loop. -/
def lzssEncEnd (s : State) (e : LzssEnc) : Run State Unit := do
  setPhase .flush
  let e' ← lzssFlush s.lzssParams e
  setEngine (.lzssEnc e')
  setPhase .close
  onIo (modify (closeChannel s.embedded))

/-- The work of LZSS.ENC. -/
def lzssEncBody (s : State) : Run State Unit := do
  onIo (modify openWriter)
  setEngine (.lzssEnc .fresh)
  onIo (lzssHeader s.lzssParams)
  let e ← forInput .lzssEnc (lzssProcess s.lzssParams) s.io.inp.rest .fresh
  lzssEncEnd s e

theorem exec_lzssEnc {s : State} (h : LzssReady s) : exec .lzssEnc s = runUnit .header (fun _ => []) (lzssEncBody s) s := by
  have hexec : exec .lzssEnc s = runUnit .header lzssEncBad (lzssEncBody s) s := rfl
  rw [hexec, runUnit, lzssEncBad_eq_nil h]
  rfl

theorem lzssEncBody_apply (s : State) :
    lzssEncBody s (s.start .header).dropChannel
      = (forInput .lzssEnc (lzssProcess s.lzssParams) s.io.inp.rest .fresh >>= lzssEncEnd s) (lzssEncStart s) := rfl

/-- R103: the header is two bytes. -/
theorem streamBits_lzssHeaderBytes (s : State) :
    streamBits (lzssHeaderBytes s) = binN 8 s.windowBits.val ++ binN 8 s.maxMatchBits.val := by
  have hbyte : ∀ v : Nat, byteBits (BitVec.ofNat 8 v) = binN 8 v := fun v => by rw [byteBits, BitVec.toNat_ofNat, binN_mod]
  simp [lzssHeaderBytes, hbyte]

theorem lzssEncStart_io (s : State) : (lzssEncStart s).io
    = wrVal s.maxMatchBits.val 8 (wrVal s.windowBits.val 8 (openWriter (s.start .header).dropChannel.io)) := by
  simp only [lzssEncStart]

/-- The header stands on `OUT` before the records. -/
theorem lzssEncStart_encoding (s : State) :
    Encoding (s.io.out.opened.bytes ++ lzssHeaderBytes s) [] s.io.inp.rest (lzssEncStart s).io := by
  have hopened : Encoding s.io.out.opened.bytes [] s.io.inp.rest (openWriter (s.start .header).dropChannel.io) :=
    ⟨writing_openWriter (s.start .header).dropChannel.io, rfl, rfl⟩
  obtain ⟨⟨hsound, hopen, hsink, hwritten⟩, hrest, heos⟩ := (hopened.field s.windowBits.val 8).field s.maxMatchBits.val 8
  rw [lzssEncStart_io]
  refine ⟨⟨hsound, hopen, hsink, ?_⟩, hrest, heos⟩
  rw [hwritten, streamBits_append, streamBits_lzssHeaderBytes]
  simp

/-- R196: the whole input is consumed, and the header and the records of its parse stand on `OUT`, padded. -/
theorem exec_lzssEnc_completed {s : State} (h : LzssReady s) :
    ∃ t bs, exec .lzssEnc s = .next t ∧ Completed s (wrote s (lzssHeaderBytes s ++ bs) (allRead s) false) t
      ∧ streamBits bs = padded (lzssBits s.windowBits.val s.maxMatchBits.val
          (lzssParse s.windowBits.val s.maxMatchBits.val s.minMatchLen.val [] [] s.io.inp.rest)) := by
  obtain ⟨e, q, e', q', hloop, hflush, hq'⟩ := (LzssEnc.between_fresh s.lzssParams.w).symbols (prm := s.lzssParams) s.io.inp.rest
    (lzssEncStart_encoding s)
  obtain ⟨bs, hout, hbs⟩ := hq'.close s.embedded
  have hbody : lzssEncBody s (s.start .header).dropChannel
      = .ok () { q' with eng := .lzssEnc e', phase := .close, io := closeChannel s.embedded q'.io } := by
    rw [lzssEncBody_apply, Run.bind_apply, hloop]
    simp [lzssEncEnd, hflush, onIo_apply]
  have hended : (closeChannel s.embedded q'.io).out.ended s.embedded
      = ⟨s.io.out.opened.bytes ++ (lzssHeaderBytes s ++ bs), if s.embedded then .flushed else .closed⟩ := by
    rw [hout, OutStream.ended_settled, List.append_assoc]
  obtain ⟨t, ht, hdone⟩ := completed_of_runUnit (by decide) (by simp [writtenBy]) (exec_lzssEnc h) hbody hended
  rw [closeChannel_inp, closeChannel_eos, hq'.rest, hq'.eos, leaving_nil] at hdone
  exact ⟨t, bs, ht, hdone, hbs⟩

/-- The records of the parse of the whole input spell it. -/
theorem lzssSpell_of_lzssReady {s : State} (h : LzssReady s) :
    lzssSpell s.windowBits.val s.maxMatchBits.val []
      (lzssParse s.windowBits.val s.maxMatchBits.val s.minMatchLen.val [] [] s.io.inp.rest) = some s.io.inp.rest := by
  obtain ⟨-, -, -, -, -, hmin⟩ := h
  simpa using lzssSpell_lzssParse hmin (lzssPending_nil s.windowBits.val s.maxMatchBits.val []) s.io.inp.rest

/-- Settles O31: the symbols are followed by `LzssEnc.Between.symbols`, and the parse is a valid coding. -/
theorem lzssEncWritesValidCoding : Obligations.LzssEncWritesValidCoding := by
  intro s h records
  obtain ⟨t, bs, ht, hdone, hbs⟩ := exec_lzssEnc_completed h
  exact ⟨t, bs, ht, hdone, hbs, lzssSpell_of_lzssReady h, fun o l hmem => le_of_copy_mem_lzssParse hmem⟩

/-- The padding of a stream is one of its normal ends (R204). -/
theorem lzssEnd_padding (bits : Bits) : LzssEnd (List.replicate (padLength bits) false) := by
  have hpad := (padded_length_mod bits).2
  cases hn : padLength bits with
  | zero => exact .inl rfl
  | succ n => exact .inr ⟨List.replicate n false, rfl, by simp; omega⟩

/-- Settles O33: the encoder writes the header and the records of the parse, padded (O31); they spell the input, so the decoder outputs it
and ends in the padding (O32). -/
theorem lzssRoundTrip : Obligations.LzssRoundTrip := by
  intro s h
  obtain ⟨t, bs, ht, hdone, hbs⟩ := exec_lzssEnc_completed h
  refine ⟨t, _, ht, hdone, fun u hin => ?_⟩
  have hspell := lzssSpell_of_lzssReady h
  obtain ⟨-, hw, -, hm, -⟩ := h
  generalize lzssParse s.windowBits.val s.maxMatchBits.val s.minMatchLen.val [] [] s.io.inp.rest = records at hbs hspell
  have hw' : (BitVec.ofNat 8 s.windowBits.val).toNat = s.windowBits.val := Nat.mod_eq_of_lt (Nat.lt_succ_of_le hw)
  have hm' : (BitVec.ofNat 8 s.maxMatchBits.val).toNat = s.maxMatchBits.val := Nat.mod_eq_of_lt (Nat.lt_succ_of_le hm)
  have hdec := lzssDecReadsRecords u _ _ bs s.io.inp.rest records
    (List.replicate (padLength (lzssBits s.windowBits.val s.maxMatchBits.val records)) false) hin
  rw [hw', hm'] at hdec
  exact hdec hspell hbs (lzssEnd_padding _)

end Sys2Proof.Machine
end

section
/-! The block commands (44_dct_quant_zigzag.md): how each of them ends when its operands are right, Q.SETQ, and the two zigzag commands. -/

namespace Sys2Proof.Machine

open Sys2Proof.Claims

/-! ### How a block command ends -/

/-- The state that a block command leaves when its work has made the block buffers b. -/
def State.blockDone (s : State) (b : BlockUnit) : State :=
  ({ (s.start .compute).dropChannel with blk := b } : State).released.completed

@[simp] theorem State.blockDone_blkf (s : State) (b : BlockUnit) : (s.blockDone b).blk.blkf = b.blkf := rfl
@[simp] theorem State.blockDone_blki (s : State) (b : BlockUnit) : (s.blockDone b).blk.blki = b.blki := rfl
@[simp] theorem State.blockDone_seq (s : State) (b : BlockUnit) : (s.blockDone b).blk.seq = b.seq := rfl
@[simp] theorem State.blockDone_cfg (s : State) (b : BlockUnit) : (s.blockDone b).cfg = s.cfg := rfl
@[simp] theorem State.blockDone_qvalid (s : State) (b : BlockUnit) : (s.blockDone b).qvalid = s.qvalid := rfl

/-- The table that `SEL.CHROMA` selects is the same after a block command. -/
@[simp] theorem State.blockDone_qt (s : State) (b : BlockUnit) :
    (s.blockDone b).qt (s.blockDone b).chroma = s.qt s.chroma := rfl

/-- Nothing but the block buffers changed (R323). -/
theorem completed_blockDone (s : State) (b : BlockUnit) :
    Completed { s with blk := b } (readOnly s s.io.inp false) (s.blockDone b) := rfl

theorem runUnit_onBlock {bad : State → List Nat} {f : BlockUnit → BlockUnit} {s : State} (hb : bad s = []) :
    runUnit .compute bad (onBlock f) s = .next (s.blockDone (f s.blk)) := runUnit_ok hb rfl

section Blocks

variable {s : State}

theorem exec_dctFwd (h : ∀ k : Fin 64, s.blk.blkf[k.1].written = true) :
    exec .dctFwd s = .next (s.blockDone (s.blk.dctFwd s.cfg.numeric)) :=
  runUnit_onBlock (by simpa [blkfBad, allWritten_iff] using h)

theorem exec_dctInv (h : ∀ k : Fin 64, s.blk.blkf[k.1].written = true) :
    exec .dctInv s = .next (s.blockDone (s.blk.dctInv s.cfg.numeric)) :=
  runUnit_onBlock (by simpa [blkfBad, allWritten_iff] using h)

theorem exec_qQuant (h : ∀ k : Fin 64, s.blk.blkf[k.1].written = true) (hq : s.qvalid = true) :
    exec .qQuant s = .next (s.blockDone (s.blk.quant s.cfg.numeric s.cfg.round (s.qt s.chroma))) :=
  runUnit_onBlock (by simpa [quantBad, allWritten_iff, hq] using h)

theorem exec_qDequant (h : ∀ k : Fin 64, s.blk.blki[k.1].written = true) (hq : s.qvalid = true) :
    exec .qDequant s = .next (s.blockDone (s.blk.dequant (s.qt s.chroma))) :=
  runUnit_onBlock (by simpa [dequantBad, allWritten_iff, hq] using h)

theorem exec_zzFwd (h : ∀ k : Fin 64, s.blk.blki[k.1].written = true) :
    exec .zzFwd s = .next (s.blockDone (s.blk.zzFwd s.cfg.zigzag)) :=
  runUnit_onBlock (by simpa [blkiBad, allWritten_iff] using h)

theorem exec_zzInv (h : ∀ k : Fin 64, s.blk.seq[k.1].written = true) :
    exec .zzInv s = .next (s.blockDone (s.blk.zzInv s.cfg.zigzag)) :=
  runUnit_onBlock (by simpa [seqBad, allWritten_iff] using h)

end Blocks

/-! ### The elements of a block buffer -/

section Elements

variable {α : Type}

@[simp] theorem getElem_blockVals (v : Vector (Reg α) 64) (k : Nat) (hk : k < 64) : (blockVals v)[k] = v[k].val := by
  simp [blockVals]

@[simp] theorem getElem_blockOf (v : Vector α 64) (k : Nat) (hk : k < 64) : (blockOf v)[k] = Reg.of v[k] := by
  simp [blockOf]

@[simp] theorem blockVals_blockOf (v : Vector α 64) : blockVals (blockOf v) = v := by
  ext k hk; simp [Reg.of]

/-- A written element is determined by its value. -/
theorem Reg.of_val {r : Reg α} (h : r.written = true) : Reg.of r.val = r := by
  cases r; simp_all [Reg.of]

theorem blockOf_blockVals {v : Vector (Reg α) 64} (h : ∀ k : Fin 64, v[k.1].written = true) : blockOf (blockVals v) = v := by
  ext k hk
  rw [getElem_blockOf, getElem_blockVals, Reg.of_val (h ⟨k, hk⟩)]

end Elements

/-! ### Q.SETQ (R224 to R226) -/

/-- An entry of a base table is at least 1 (R317). -/
theorem one_le_of_baseTableWf {base : Vector Nat 64} (h : baseTableWf base = true) (k : Nat) (hk : k < 64) : 1 ≤ base[k] := by
  simpa using Vector.all_eq_true.mp h k hk

/-- R226: at quality 50 the scale is 100, which gives back every entry that is at least 1. -/
theorem scaledTable_fifty {base : Vector Nat 64} (h : baseTableWf base = true) : scaledTable 50 base = base := by
  ext k hk
  have hentry := one_le_of_baseTableWf h k hk
  simp only [scaledTable, Vector.getElem_map]
  norm_num
  omega

theorem baseTables_wf (c : CheckedConfig) : baseTableWf c.baseLuma = true ∧ baseTableWf c.baseChroma = true := by
  have hc := c.ok
  simp only [Config.wf, Bool.and_eq_true] at hc
  tauto

theorem exec_qSetq {s : State} (h : s.quality.written = true) (hle : s.quality.val ≤ 100) :
    exec .qSetq s = .next (s.start .compute).dropChannel.setTables.released.completed :=
  runUnit_ok (bad := setqBad) (body := always State.setTables) (by simpa [setqBad, h] using hle) rfl

/-- Settles O40: Q.SETQ runs `setTables`, whose entries are those of R224 and R225; at quality 50 they are the base entries. -/
theorem setqComputesTables : Obligations.SetqComputesTables := by
  intro s hwritten hle
  obtain ⟨hluma, hchroma⟩ := baseTables_wf s.cfg
  have hcompleted : Completed { s with
      qtLuma := scaledTable s.quality.val s.cfg.baseLuma, qtChroma := scaledTable s.quality.val s.cfg.baseChroma
      qvalid := true } (readOnly s s.io.inp false) (s.start .compute).dropChannel.setTables.released.completed := rfl
  refine ⟨_, exec_qSetq hwritten hle, hcompleted, fun h50 => ?_⟩
  rw [h50, scaledTable_fifty hluma, scaledTable_fifty hchroma] at hcompleted
  exact ⟨congrArg State.qtLuma hcompleted, congrArg State.qtChroma hcompleted⟩

/-! ### ZZ.FWD and ZZ.INV (R234 to R237) -/

/-- The configured table is a permutation (R234, R317): it takes all 64 values, so it takes each of them once. -/
theorem zigzag_bijective (c : CheckedConfig) : Function.Bijective fun k : Fin 64 => c.zigzag[k.1] := by
  have hwf : zigzagWf c.zigzag = true := by
    have hc := c.ok
    simp only [Config.wf, Bool.and_eq_true] at hc
    tauto
  have hsurj : Function.Surjective fun k : Fin 64 => c.zigzag[k.1] := fun i => by
    simp only [zigzagWf, Bool.and_eq_true, List.all_eq_true, List.mem_finRange, true_implies] at hwf
    obtain ⟨k, hk, heq⟩ := Vector.mem_iff_getElem.mp (show i ∈ c.zigzag by simpa using hwf.2 i)
    exact ⟨⟨k, hk⟩, heq⟩
  exact ⟨Finite.injective_iff_surjective.mpr hsurj, hsurj⟩

/-- Elements written one by one to places that are all different: each stays as it was written. -/
theorem getElem_foldl_set {α ι : Type} [DecidableEq ι] {n : Nat} {p : ι → Fin n} (hp : Function.Injective p) (g : ι → α) (l : List ι)
    (v : Vector α n) (i : ι) : (l.foldl (fun m k => m.set (p k).1 (g k) (p k).2) v)[p i] = if i ∈ l then g i else v[p i] := by
  induction l generalizing v with
  | nil => simp
  | cons k l ih =>
    rw [List.foldl_cons, ih]
    by_cases hki : i = k
    · subst hki; simp
    · have hne : (p k).1 ≠ (p i).1 := fun h => hki (hp (Fin.ext h)).symm
      simp [hki, Vector.getElem_set_ne _ _ hne]

theorem zzFwd_seq_getElem {b : BlockUnit} (h : ∀ k : Fin 64, b.blki[k.1].written = true) (zigzag : Vector (Fin 64) 64) (k : Fin 64) :
    (b.zzFwd zigzag).seq[k.1] = b.blki[zigzag[k.1]] := by
  have hmoved : (b.zzFwd zigzag).seq[k.1] = Reg.of b.blki[zigzag[k.1]].val := by simp [BlockUnit.zzFwd]
  exact hmoved.trans (Reg.of_val (h zigzag[k.1]))

theorem zzInv_blki_getElem {b : BlockUnit} (h : ∀ k : Fin 64, b.seq[k.1].written = true) {zigzag : Vector (Fin 64) 64}
    (hz : Function.Injective fun k : Fin 64 => zigzag[k.1]) (k : Fin 64) : (b.zzInv zigzag).blki[zigzag[k.1]] = b.seq[k.1] := by
  have hmoved := getElem_foldl_set hz (fun k : Fin 64 => Reg.of b.seq[k.1].val) (List.finRange 64) b.blki k
  rw [if_pos (List.mem_finRange k), Reg.of_val (h k)] at hmoved
  exact hmoved

/-- Settles O42: element by element, by the two lemmas above. -/
theorem zigzagMovesAlongPermutation : Obligations.ZigzagMovesAlongPermutation := by
  refine ⟨fun s h => ⟨_, exec_zzFwd h, completed_blockDone s _, fun k => ?_⟩,
    fun s h => ⟨_, exec_zzInv h, completed_blockDone s _, fun k => ?_⟩⟩
  · rw [State.blockDone_seq]
    exact zzFwd_seq_getElem h s.cfg.zigzag k
  · rw [State.blockDone_blki]
    exact zzInv_blki_getElem h (zigzag_bijective s.cfg).injective k

/-- Settles O43: every place of `BLKI` is `ZIGZAG[k]` for some k, and the two commands move element k between it and `SEQ[k]`. -/
theorem zigzagRoundTrip : Obligations.ZigzagRoundTrip := by
  refine ⟨fun s h => ?_, fun s h => ?_⟩
  all_goals obtain ⟨hinj, hsurj⟩ := zigzag_bijective s.cfg
  · have hseq := zzFwd_seq_getElem h s.cfg.zigzag
    have hwritten (k : Fin 64) : (s.blk.zzFwd s.cfg.zigzag).seq[k.1].written = true := by rw [hseq]; exact h s.cfg.zigzag[k.1]
    refine ⟨_, _, exec_zzFwd h, exec_zzInv hwritten, Vector.ext fun j hj => ?_⟩
    obtain ⟨k, hk⟩ := hsurj ⟨j, hj⟩
    have hback := (zzInv_blki_getElem (b := (s.blockDone (s.blk.zzFwd s.cfg.zigzag)).blk) hwritten hinj k).trans (hseq k)
    simpa [hk] using hback
  · have hblki := zzInv_blki_getElem h hinj
    have hwritten (j : Fin 64) : (s.blk.zzInv s.cfg.zigzag).blki[j.1].written = true := by
      obtain ⟨k, rfl⟩ := hsurj j
      exact (congrArg Reg.written (hblki k)).trans (h k)
    refine ⟨_, _, exec_zzInv h, exec_zzFwd hwritten, Vector.ext fun k hk => ?_⟩
    exact (zzFwd_seq_getElem (b := (s.blockDone (s.blk.zzInv s.cfg.zigzag)).blk) hwritten s.cfg.zigzag ⟨k, hk⟩).trans (hblki ⟨k, hk⟩)

end Sys2Proof.Machine
end

section
/-! The basis matrix and the two transforms over exact reals (44_dct_quant_zigzag.md R216 to R219): a block as a real 8×8 matrix, the matrix
`C`, and that a number of the image path is determined by the real it stands for. -/

namespace Sys2Proof.Machine

open Matrix

/-! ### The cosines -/

/-- The constants follow the recurrence of the cosines of the multiples of an angle. -/
theorem twoCosFirst_recurrence (k : Fin 7) :
    ((twoCosFirst 1).mul (twoCosFirst (k + 1))).sub (twoCosFirst k) = twoCosFirst (k + 2) := by
  revert k; decide +kernel

theorem two_cos_recurrence (x θ : ℝ) :
    2 * Real.cos (x + 2 * θ) = 2 * Real.cos θ * (2 * Real.cos (x + θ)) - 2 * Real.cos x := by
  have hnext := Real.cos_add (x + θ) θ
  have hprev := Real.cos_sub (x + θ) θ
  rw [show x + θ + θ = x + 2 * θ by ring] at hnext
  rw [add_sub_cancel_right] at hprev
  linear_combination 2 * hnext + 2 * hprev

theorem real_twoCosFirst_one : (twoCosFirst 1).real = 2 * Real.cos (Real.pi / 16) := by
  rw [Real.cos_pi_div_sixteen]
  simp [twoCosFirst, ExactNum.real]
  ring

theorem real_twoCosFirst {k : Nat} (hk : k ≤ 8) : (twoCosFirst k).real = 2 * Real.cos (k * Real.pi / 16) := by
  induction k using Nat.strong_induction_on with
  | h k ih =>
    match k with
    | 0 => simp [twoCosFirst]
    | 1 => simpa using real_twoCosFirst_one
    | n + 2 =>
      have hrec := congrArg ExactNum.real (twoCosFirst_recurrence ⟨n, by omega⟩)
      rw [ExactNum.real_sub, ExactNum.real_mul, real_twoCosFirst_one, ih (n + 1) (by omega) (by omega), ih n (by omega) (by omega)] at hrec
      rw [← hrec, show ((n + 2 : Nat) : ℝ) * Real.pi / 16 = n * Real.pi / 16 + 2 * (Real.pi / 16) by push_cast; ring,
        two_cos_recurrence]
      push_cast
      ring_nf

theorem cos_mod_period (k : Nat) : Real.cos (k * Real.pi / 16) = Real.cos ((k % 32 : Nat) * Real.pi / 16) := by
  have hk : (k : ℝ) = (k % 32 : Nat) + 32 * (k / 32 : Nat) := by exact_mod_cast (Nat.mod_add_div k 32).symm
  rw [show k * Real.pi / 16 = (k % 32 : Nat) * Real.pi / 16 + (k / 32 : Nat) * (2 * Real.pi) by
    linear_combination Real.pi / 16 * hk, Real.cos_add_nat_mul_two_pi]

/-- The symmetries by which `cosFold` reaches every multiple of `π/16`. -/
theorem real_twoCos (k : Nat) : (twoCos k).real = 2 * Real.cos (k * Real.pi / 16) := by
  rw [cos_mod_period, twoCos, cosFold]
  have hlt := Nat.mod_lt k (show 0 < 32 by norm_num)
  generalize k % 32 = r at hlt
  have hpi (x : ℝ) : (16 - x) * Real.pi / 16 = Real.pi - x * Real.pi / 16 := by ring
  have hpi' (x : ℝ) : (x - 16) * Real.pi / 16 = x * Real.pi / 16 - Real.pi := by ring
  have htwo (x : ℝ) : (32 - x) * Real.pi / 16 = 2 * Real.pi - x * Real.pi / 16 := by ring
  split_ifs with h8 h16 h24
  · exact real_twoCosFirst h8
  · rw [ExactNum.real_neg, real_twoCosFirst (by omega), Nat.cast_sub h16, Nat.cast_ofNat, hpi, Real.cos_pi_sub]
    ring
  · rw [ExactNum.real_neg, real_twoCosFirst (by omega), Nat.cast_sub (by omega), Nat.cast_ofNat, hpi', Real.cos_sub_pi]
    ring
  · rw [real_twoCosFirst (by omega), Nat.cast_sub (by omega), Nat.cast_ofNat, htwo, Real.cos_two_pi_sub]

/-- The factor of row i in R216. -/
noncomputable def rowFactor (i : Nat) : ℝ := if i = 0 then 1 / √8 else 1 / 2

theorem one_div_sqrt_eight : 1 / √8 = Real.cos (Real.pi / 4) / 2 := by
  have h8 : √(8 : ℝ) = 2 * √2 := by
    rw [show (8 : ℝ) = 2 ^ 2 * 2 by norm_num, Real.sqrt_mul (by norm_num), Real.sqrt_sq (by norm_num)]
  have hroot : √(2 : ℝ) * √2 = 2 := Real.mul_self_sqrt (by norm_num)
  rw [h8, Real.cos_pi_div_four]
  field_simp
  linarith

/-- Every entry is a cosine times the factor of its row; in row 0 the cosine is 1. -/
theorem real_dctBasis (i j : Nat) : (dctBasis i j).real = rowFactor i * Real.cos ((2 * j + 1) * (i * (Real.pi / 16))) := by
  rw [dctBasis, rowFactor]
  split_ifs with hi
  · rw [ExactNum.real_smul, real_twoCos, one_div_sqrt_eight, hi, show (4 : Nat) * Real.pi / 16 = Real.pi / 4 by push_cast; ring]
    simp
    ring
  · rw [ExactNum.real_smul, real_twoCos]
    push_cast
    ring_nf

/-! ### The rows are orthonormal (R217) -/

/-- The sum of the cosines of the odd multiples of x telescopes. -/
theorem two_sin_mul_sum_cos_odd (x : ℝ) (n : Nat) :
    2 * Real.sin x * ∑ j ∈ Finset.range n, Real.cos ((2 * j + 1) * x) = Real.sin (2 * n * x) := by
  have hterm (j : Nat) :
      2 * Real.sin x * Real.cos ((2 * j + 1) * x) = Real.sin (2 * (j + 1 : Nat) * x) - Real.sin (2 * j * x) := by
    have hup := Real.sin_add ((2 * j + 1) * x) x
    have hdown := Real.sin_sub ((2 * j + 1) * x) x
    rw [show (2 * j + 1) * x + x = 2 * (j + 1 : Nat) * x by push_cast; ring] at hup
    rw [show (2 * j + 1) * x - x = 2 * j * x by ring] at hdown
    linarith
  rw [Finset.mul_sum, Finset.sum_congr rfl fun j _ => hterm j, Finset.sum_range_sub fun j : Nat => Real.sin (2 * j * x)]
  simp

/-- So over the eight columns it vanishes at every multiple of `π/16` but those of π. -/
theorem sum_cos_odd_eq_zero {n : Int} (hn : n ≠ 0) (hgt : -16 < n) (hlt : n < 16) :
    ∑ j ∈ Finset.range 8, Real.cos ((2 * j + 1) * (n * (Real.pi / 16))) = 0 := by
  have hsin : Real.sin (n * (Real.pi / 16)) ≠ 0 := by
    rw [Real.sin_ne_zero_iff]
    intro m hm
    have hpi : (n : ℝ) = 16 * m := by
      have := Real.pi_pos
      field_simp at hm
      linarith
    have hmul : n = 16 * m := by exact_mod_cast hpi
    omega
  have htele := two_sin_mul_sum_cos_odd (n * (Real.pi / 16)) 8
  rw [show 2 * (8 : Nat) * (n * (Real.pi / 16)) = n * Real.pi by push_cast; ring, Real.sin_int_mul_pi] at htele
  simpa [hsin] using htele

theorem cos_mul_cos (x y : ℝ) : Real.cos x * Real.cos y = (Real.cos (x - y) + Real.cos (x + y)) / 2 := by
  rw [Real.cos_sub, Real.cos_add]
  ring

/-- R217: the products of the rows of `C`. -/
theorem sum_dctBasis_mul (i k : Fin 8) :
    ∑ j : Fin 8, (dctBasis i.1 j.1).real * (dctBasis k.1 j.1).real = if i = k then 1 else 0 := by
  have hsplit (j : Nat) : (dctBasis i.1 j).real * (dctBasis k.1 j).real
      = rowFactor i.1 * rowFactor k.1 / 2 * (Real.cos ((2 * j + 1) * ((i.1 - k.1 : Int) * (Real.pi / 16)))
        + Real.cos ((2 * j + 1) * ((i.1 + k.1 : Int) * (Real.pi / 16)))) := by
    have h := cos_mul_cos ((2 * j + 1) * (i.1 * (Real.pi / 16))) ((2 * j + 1) * (k.1 * (Real.pi / 16)))
    rw [← mul_sub, ← mul_add, ← sub_mul, ← add_mul] at h
    rw [real_dctBasis, real_dctBasis, mul_mul_mul_comm, h]
    push_cast
    ring
  rw [Fin.sum_univ_eq_sum_range fun j => (dctBasis i.1 j).real * (dctBasis k.1 j).real]
  simp only [hsplit, ← Finset.mul_sum, Finset.sum_add_distrib]
  split_ifs with hik
  · subst hik
    rcases eq_or_ne i.1 0 with hi | hi
    · simp [hi, rowFactor, ← mul_inv]
      norm_num
    · rw [sum_cos_odd_eq_zero (n := i.1 + i.1) (by omega) (by omega) (by omega)]
      simp [hi, rowFactor]
      norm_num
  · have hne : i.1 ≠ k.1 := fun h => hik (Fin.ext h)
    rw [sum_cos_odd_eq_zero (n := i.1 - k.1) (by omega) (by omega) (by omega),
      sum_cos_odd_eq_zero (n := i.1 + k.1) (by omega) (by omega) (by omega)]
    ring

theorem abs_real_dctBasis_le (i j : Nat) : |(dctBasis i j).real| ≤ 1 / 2 := by
  have hfactor : |rowFactor i| ≤ 1 / 2 := by
    rw [rowFactor, one_div_sqrt_eight]
    split_ifs
    · rw [abs_div, abs_two]
      linarith [Real.abs_cos_le_one (Real.pi / 4)]
    · norm_num
  rw [real_dctBasis, abs_mul]
  exact (mul_le_of_le_one_right (abs_nonneg _) (Real.abs_cos_le_one _)).trans hfactor

/-! ### A block as a matrix -/

/-- Element `[i][j]` of a block. -/
def blockElem (v : Vector ExactNum 64) (i j : Fin 8) : ExactNum := v[8 * i.1 + j.1]

/-- The real matrix that a block stands for. -/
noncomputable def realMatrix (v : Vector ExactNum 64) : Matrix (Fin 8) (Fin 8) ℝ := .of fun i j => (blockElem v i j).real

/-- The matrix `C` of R216. -/
noncomputable def dctMatrix : Matrix (Fin 8) (Fin 8) ℝ := .of fun i j => (dctBasis i.1 j.1).real

/-- Row and column of the element at linear index k. -/
def blockRow (k : Fin 64) : Fin 8 := ⟨k.1 / 8, by omega⟩
def blockCol (k : Fin 64) : Fin 8 := ⟨k.1 % 8, by omega⟩

theorem getElem_eq_blockElem (v : Vector ExactNum 64) (k : Fin 64) : v[k.1] = blockElem v (blockRow k) (blockCol k) := by
  simp only [blockElem, blockRow, blockCol, Nat.div_add_mod]

theorem realMatrix_apply (v : Vector ExactNum 64) (i j : Fin 8) : realMatrix v i j = (blockElem v i j).real := rfl

theorem blockElem_ofFn (f : Fin 64 → ExactNum) (i j : Fin 8) : blockElem (Vector.ofFn f) i j = f ⟨8 * i.1 + j.1, by omega⟩ := by
  simp [blockElem]

theorem blockElem_matMul (m : Numeric) (x y : Vector ExactNum 64) (i j : Fin 8) :
    blockElem (m.matMul x y) i j = m.sum ((List.finRange 8).map fun l => m.mul (blockElem x i l) (blockElem y l j)) := by
  have hi : (8 * i.1 + j.1) / 8 = i.1 := by omega
  have hj : (8 * i.1 + j.1) % 8 = j.1 := by omega
  rw [Numeric.matMul, blockElem_ofFn]
  simp only [blockElem, hi, hj]

theorem blockElem_basisMatrix (m : Numeric) (i j : Fin 8) : blockElem m.basisMatrix i j = m.basis i.1 j.1 := by
  rw [Numeric.basisMatrix, blockElem_ofFn]
  congr 1 <;> simp only <;> omega

theorem blockElem_basisTransposed (m : Numeric) (i j : Fin 8) : blockElem m.basisTransposed i j = m.basis j.1 i.1 := by
  rw [Numeric.basisTransposed, blockElem_ofFn]
  congr 1 <;> simp only <;> omega

theorem blockElem_shiftBlock (m : Numeric) (d : Int) (v : Vector ExactNum 64) (i j : Fin 8) :
    blockElem (shiftBlock m d v) i j = m.add (blockElem v i j) (.ofInt d) := by
  simp [shiftBlock, blockElem]

/-! ### Over exact reals -/

theorem real_foldl_add (xs : List ExactNum) (x : ExactNum) :
    (xs.foldl Numeric.exact.add x).real = x.real + (xs.map ExactNum.real).sum := by
  induction xs generalizing x with
  | nil => simp
  | cons y ys ih => simp [ih, add_assoc]

theorem real_sum_exact (xs : List ExactNum) : (Numeric.exact.sum xs).real = (xs.map ExactNum.real).sum := by
  simp [Numeric.sum, real_foldl_add]

theorem realMatrix_matMul_exact (x y : Vector ExactNum 64) :
    realMatrix (Numeric.exact.matMul x y) = realMatrix x * realMatrix y := by
  ext i j
  rw [realMatrix_apply, blockElem_matMul, real_sum_exact, Matrix.mul_apply, Fin.sum_univ_def, List.map_map]
  simp [Function.comp_def, realMatrix_apply]

theorem realMatrix_basisMatrix_exact : realMatrix Numeric.exact.basisMatrix = dctMatrix := by
  ext i j
  rw [realMatrix_apply, blockElem_basisMatrix]
  rfl

theorem realMatrix_basisTransposed_exact : realMatrix Numeric.exact.basisTransposed = dctMatrixᵀ := by
  ext i j
  rw [realMatrix_apply, blockElem_basisTransposed]
  rfl

theorem dctMatrix_mul_transpose : dctMatrix * dctMatrixᵀ = 1 := by
  ext i k
  rw [Matrix.mul_apply, Matrix.one_apply]
  exact sum_dctBasis_mul i k

theorem transpose_mul_dctMatrix : dctMatrixᵀ * dctMatrix = 1 := mul_eq_one_comm.mp dctMatrix_mul_transpose

/-- Settles O36: the entries by the cosines; the rows are orthonormal, and so are the columns, because a one-sided inverse of a square matrix is
two-sided. -/
theorem basisIsOrthonormalCosine : Obligations.BasisIsOrthonormalCosine := by
  refine ⟨fun i j => ?_, sum_dctBasis_mul, fun j l => ?_⟩
  · rw [real_dctBasis, rowFactor]
    split_ifs with hi
    · simp [hi]
    · ring_nf
  · have hcolumns := congrFun₂ transpose_mul_dctMatrix j l
    rwa [Matrix.mul_apply, Matrix.one_apply] at hcolumns

end Sys2Proof.Machine
end

section
/-! Two numbers of the image path that stand for the same real are the same number (00_scope.md R14, log 6): on each storey of roots
`a² = r²·b²` has no solution but zero, because the norm of the storey turns it into such an equation one storey below. -/

namespace Sys2Proof.Machine

/-! ### The rationals: `√2` is irrational -/

theorem eq_zero_of_sq_eq_two_mul_sq {p q : Rat} (h : p * p = 2 * (q * q)) : p = 0 ∧ q = 0 := by
  have hq : q = 0 := by
    by_contra hq
    have hsq : ((p / q : Rat) : ℝ) ^ 2 = 2 := by
      have : (p / q) ^ 2 = 2 := by field_simp; linarith
      exact_mod_cast this
    exact irrational_sqrt_two.ne_rat |p / q| (by rw [← hsq, Real.sqrt_sq_eq_abs]; norm_cast)
  simpa [hq] using h

/-! ### `a + b·√2` -/

theorem Quad.eq_zero_of_real {x : Quad} (h : x.real = 0) : x = .ofRat 0 := by
  have hroot : √(2 : ℝ) * √2 = 2 := Real.mul_self_sqrt (by positivity)
  have hsq : (x.a * x.a : ℝ) = 2 * (x.b * x.b) := by
    rw [Quad.real] at h
    linear_combination (x.a - x.b * √2 : ℝ) * h + (x.b * x.b : ℝ) * hroot
  obtain ⟨ha, hb⟩ := eq_zero_of_sq_eq_two_mul_sq (by exact_mod_cast hsq)
  exact congrArg₂ Quad.mk ha hb

theorem Quad.real_injective : Function.Injective Quad.real := fun x y h => by
  have hsub := Quad.eq_zero_of_real ((x.real_sub y).trans (sub_eq_zero.mpr h))
  cases x; cases y
  simpa [Quad.sub, Quad.ofRat, sub_eq_zero] using hsub

/-- `(a + b·√2)·(a − b·√2)`. -/
def Quad.norm (x : Quad) : Rat := x.a * x.a - 2 * (x.b * x.b)

theorem Quad.norm_mul (x y : Quad) : (x.mul y).norm = x.norm * y.norm := by
  simp only [Quad.norm, Quad.mul]; ring

theorem Quad.eq_zero_of_norm {x : Quad} (h : x.norm = 0) : x = .ofRat 0 := by
  obtain ⟨ha, hb⟩ := eq_zero_of_sq_eq_two_mul_sq (sub_eq_zero.mp h)
  exact congrArg₂ Quad.mk ha hb

/-- A multiplier of norm 2 gives `N(a)² = 2·N(b)²`. -/
theorem Quad.eq_zero_of_sq_eq {r a b : Quad} (hr : r.norm = 2) (h : a.mul a = r.mul (b.mul b)) : a = .ofRat 0 ∧ b = .ofRat 0 := by
  have hnorm := congrArg Quad.norm h
  rw [Quad.norm_mul, Quad.norm_mul, Quad.norm_mul, hr] at hnorm
  exact (eq_zero_of_sq_eq_two_mul_sq hnorm).imp Quad.eq_zero_of_norm Quad.eq_zero_of_norm

/-! ### `a + b·√(2+√2)` -/

theorem Quad.norm_root : Quad.root.norm = 2 := by norm_num [Quad.norm, Quad.root]

theorem Quartic.eq_zero_of_real {x : Quartic} (h : x.real = 0) : x = .ofRat 0 := by
  have hroot : √(2 + √2) * √(2 + √2) = 2 + √2 := Real.mul_self_sqrt (by positivity)
  have hsq : x.a.mul x.a = Quad.root.mul (x.b.mul x.b) := Quad.real_injective <| by
    rw [Quartic.real] at h
    simp only [Quad.real_mul, Quad.real_root]
    linear_combination (x.a.real - x.b.real * √(2 + √2)) * h + x.b.real * x.b.real * hroot
  obtain ⟨ha, hb⟩ := Quad.eq_zero_of_sq_eq Quad.norm_root hsq
  exact congrArg₂ Quartic.mk ha hb

theorem Quartic.real_injective : Function.Injective Quartic.real := fun x y h => by
  have hsub := Quartic.eq_zero_of_real ((x.real_sub y).trans (sub_eq_zero.mpr h))
  obtain ⟨ha, hb⟩ := Quartic.mk.inj hsub
  have hareal := congrArg Quad.real ha
  have hbreal := congrArg Quad.real hb
  rw [Quad.real_sub, Quad.real_ofRat, Rat.cast_zero, sub_eq_zero] at hareal hbreal
  exact congrArg₂ Quartic.mk (Quad.real_injective hareal) (Quad.real_injective hbreal)

/-- `(a + b·√(2+√2))·(a − b·√(2+√2))`. -/
def Quartic.norm (x : Quartic) : Quad := (x.a.mul x.a).sub (Quad.root.mul (x.b.mul x.b))

theorem Quartic.norm_mul (x y : Quartic) : (x.mul y).norm = x.norm.mul y.norm := by
  simp only [Quartic.norm, Quartic.mul, Quad.mul, Quad.sub, Quad.add, Quad.root, Quad.mk.injEq]
  constructor <;> ring

theorem Quartic.eq_zero_of_norm {x : Quartic} (h : x.norm = .ofRat 0) : x = .ofRat 0 := by
  have hreal := congrArg Quad.real h
  rw [Quartic.norm, Quad.real_sub, Quad.real_ofRat, Rat.cast_zero, sub_eq_zero] at hreal
  obtain ⟨ha, hb⟩ := Quad.eq_zero_of_sq_eq Quad.norm_root (Quad.real_injective hreal)
  exact congrArg₂ Quartic.mk ha hb

theorem Quartic.norm_norm_root : Quartic.root.norm.norm = 2 := by
  norm_num [Quartic.norm, Quartic.root, Quad.norm, Quad.root, Quad.mul, Quad.sub]

theorem Quartic.eq_zero_of_sq_eq {a b : Quartic} (h : a.mul a = Quartic.root.mul (b.mul b)) : a = .ofRat 0 ∧ b = .ofRat 0 := by
  have hnorm := congrArg Quartic.norm h
  rw [Quartic.norm_mul, Quartic.norm_mul, Quartic.norm_mul] at hnorm
  exact (Quad.eq_zero_of_sq_eq Quartic.norm_norm_root hnorm).imp Quartic.eq_zero_of_norm Quartic.eq_zero_of_norm

/-! ### `a + b·√(2+√(2+√2))` -/

theorem ExactNum.eq_zero_of_real {x : ExactNum} (h : x.real = 0) : x.a = .ofRat 0 ∧ x.b = .ofRat 0 := by
  have hroot : √(2 + √(2 + √2)) * √(2 + √(2 + √2)) = 2 + √(2 + √2) := Real.mul_self_sqrt (by positivity)
  refine Quartic.eq_zero_of_sq_eq (Quartic.real_injective ?_)
  rw [ExactNum.real] at h
  simp only [Quartic.real_mul, Quartic.real_root]
  linear_combination (x.a.real - x.b.real * √(2 + √(2 + √2))) * h + x.b.real * x.b.real * hroot

theorem ExactNum.real_injective : Function.Injective ExactNum.real := fun x y h => by
  obtain ⟨ha, hb⟩ := ExactNum.eq_zero_of_real ((x.real_sub y).trans (sub_eq_zero.mpr h))
  have hareal := congrArg Quartic.real ha
  have hbreal := congrArg Quartic.real hb
  rw [ExactNum.sub, Quartic.real_sub, Quartic.real_ofRat, Rat.cast_zero, sub_eq_zero] at hareal hbreal
  exact congrArg₂ ExactNum.mk (Quartic.real_injective hareal) (Quartic.real_injective hbreal)

end Sys2Proof.Machine
end

section
/-! How far binary64 rounding moves a result (44_dct_quant_zigzag.md R220, R221, log 22): one rounding, then sums of products, then the
product of two blocks. -/

namespace Sys2Proof.Machine

/-! ### One rounding -/

/-- A magnitude that leaves room below the overflow threshold. -/
noncomputable def safeMagnitude : ℝ := 2 ^ 1001

theorem safeMagnitude_lt : safeMagnitude < 2 ^ 1024 - 2 ^ 970 := by
  have htop : (2 : ℝ) ^ 1024 = 2 * 2 ^ 1023 := pow_succ' 2 1023
  have hhalf : (2 : ℝ) ^ 970 ≤ 2 ^ 1023 := pow_le_pow_right₀ one_le_two (by norm_num)
  have hlt : safeMagnitude < 2 ^ 1023 := pow_lt_pow_right₀ one_lt_two (by norm_num)
  rw [htop, two_mul]
  exact hlt.trans_le (le_sub_left_of_add_le (by gcongr))

theorem le_safeMagnitude {a : ℝ} (h : a ≤ 2 ^ 100) : a ≤ safeMagnitude :=
  h.trans (pow_le_pow_right₀ one_le_two (by norm_num))

/-- Below the overflow threshold the result is the exact one rounded to a multiple of its unit. -/
theorem exists_fit_eq {x : ExactNum} (hx : |x.real| < 2 ^ 1024 - 2 ^ 970) :
    ∃ n e : Int, (Numeric.binary64.fit x).real = n * 2 ^ e ∧ IsUlp |x.real| e ∧ RoundsHalfEven (x.real / 2 ^ e) n := by
  obtain ⟨n, e, heq, hulp, hn⟩ := exists_nearestDyadic_eq x
  obtain ⟨m, f, hmf, hformat, -⟩ := hn.exists_isBinary64 hulp hx
  exact ⟨n, e, by rw [Numeric.fit_binary64, ExactNum.real_ofRat, round64_eq (heq.trans hmf) hformat, heq], hulp, hn⟩

/-- Half a unit is `2^−53` of the number, or the half of the least unit, which is far below `2^−100`. -/
theorem abs_fit_sub_le {x : ExactNum} (hx : |x.real| ≤ safeMagnitude) :
    |(Numeric.binary64.fit x).real - x.real| ≤ |x.real| / 2 ^ 53 + 1 / 2 ^ 100 := by
  obtain ⟨n, e, heq, hulp, hn, -⟩ := exists_fit_eq (hx.trans_lt safeMagnitude_lt)
  have hpos : (0 : ℝ) < 2 ^ e := by positivity
  have hhalf : |(n * 2 ^ e : ℝ) - x.real| ≤ 2 ^ e / 2 := by
    have hscale : (n * 2 ^ e : ℝ) - x.real = -(x.real / 2 ^ e - n) * 2 ^ e := by field_simp; ring
    rw [hscale, abs_mul, abs_neg, abs_of_pos hpos]
    nlinarith
  rw [heq]
  rcases hulp.above with h | h
  · have : (2 : ℝ) ^ e / 2 ≤ |x.real| / 2 ^ 53 := by rw [le_div_iff₀ (by positivity)]; linarith
    linarith
  · have hleast : (2 : ℝ) ^ e ≤ 1 / 2 ^ 100 := (zpow_le_zpow_right₀ one_le_two (show e ≤ -100 by omega)).trans_eq (by norm_num)
    have : 0 ≤ |x.real| / 2 ^ 53 := by positivity
    linarith

/-- The distance from 1 to the next binary64 number. -/
noncomputable def epsilon64 : ℝ := 1 / 2 ^ 52

theorem epsilon64_nonneg : 0 ≤ epsilon64 := by unfold epsilon64; positivity

/-- One rounding of a result of magnitude at most a. -/
theorem abs_fit_sub_le_of_le {x : ExactNum} {a : ℝ} (hx : |x.real| ≤ a) (hone : 1 ≤ a) (hmax : a ≤ safeMagnitude) :
    |(Numeric.binary64.fit x).real - x.real| ≤ a * epsilon64 := by
  have hfit := abs_fit_sub_le (hx.trans hmax)
  rw [epsilon64]
  linarith

/-! ### A sum of products -/

/-- A computed product: the errors of the factors, relative to their bounds, add up, and one rounding comes on top. -/
theorem abs_mul_binary64_sub_le {x y : ExactNum} {r q A B α β : ℝ} (hr : |r| ≤ A) (hq : |q| ≤ B) (hx : |x.real - r| ≤ α * A)
    (hy : |y.real - q| ≤ β * B) (hsmall : α + β + α * β ≤ 1) (hone : 1 ≤ A * B) (hmax : 2 * (A * B) ≤ safeMagnitude) :
    |(Numeric.binary64.mul x y).real - r * q| ≤ (α + β + α * β + 2 * epsilon64) * (A * B) := by
  have hA : 0 ≤ α * A := (abs_nonneg _).trans hx
  have hprod : |x.real * y.real - r * q| ≤ (α + β + α * β) * (A * B) :=
    calc |x.real * y.real - r * q| = |(x.real - r) * (y.real - q) + (x.real - r) * q + r * (y.real - q)| := by ring_nf
      _ ≤ |x.real - r| * |y.real - q| + |x.real - r| * |q| + |r| * |y.real - q| := by
        simpa only [abs_mul] using abs_add_three ((x.real - r) * (y.real - q)) ((x.real - r) * q) (r * (y.real - q))
      _ ≤ α * A * (β * B) + α * A * B + A * (β * B) := by gcongr; exact (abs_nonneg _).trans hr
      _ = (α + β + α * β) * (A * B) := by ring
  have hexact : |r * q| ≤ A * B := by
    rw [abs_mul]
    exact mul_le_mul hr hq (abs_nonneg _) ((abs_nonneg _).trans hr)
  have hbound : |(x.mul y).real| ≤ 2 * (A * B) := by
    rw [ExactNum.real_mul]
    nlinarith [abs_sub_abs_le_abs_sub (x.real * y.real) (r * q)]
  have hround := abs_fit_sub_le_of_le hbound (by linarith) hmax
  rw [ExactNum.real_mul] at hround
  have htri := abs_sub_le (Numeric.binary64.mul x y).real (x.real * y.real) (r * q)
  rw [Numeric.mul] at htri ⊢
  linarith

/-- A sum from left to right after k terms, of at most eight: each term is off by at most δ and each sum of them by one rounding. -/
theorem abs_foldl_binary64_sub_le {ι : Type} {f : ι → ExactNum} {g : ι → ℝ} {T δ : ℝ} (hg : ∀ i, |g i| ≤ T)
    (hf : ∀ i, |(f i).real - g i| ≤ δ) (hsmall : δ + 16 * T * epsilon64 ≤ T) (hone : 1 ≤ T) (hmax : 16 * T ≤ safeMagnitude)
    (l : List ι) {k : Nat} (hk : k + l.length ≤ 8) {x : ExactNum} {r : ℝ} (hr : |r| ≤ k * T)
    (hx : |x.real - r| ≤ k * (δ + 16 * T * epsilon64)) :
    |((l.map f).foldl Numeric.binary64.add x).real - (r + (l.map g).sum)| ≤ (k + l.length) * (δ + 16 * T * epsilon64) := by
  induction l generalizing k x r with
  | nil => simpa using hx
  | cons i l ih =>
    rw [List.length_cons] at hk
    have hk8 : (k : ℝ) + 1 ≤ 8 := by exact_mod_cast (show k + 1 ≤ 8 by omega)
    have hr' : |r + g i| ≤ (k + 1 : Nat) * T := by
      push_cast
      linarith [abs_add_le r (g i), hg i]
    have hsum : |x.real + (f i).real - (r + g i)| ≤ k * (δ + 16 * T * epsilon64) + δ := by
      rw [add_sub_add_comm]
      exact (abs_add_le _ _).trans (add_le_add hx (hf i))
    have hbound : |(x.add (f i)).real| ≤ 16 * T := by
      rw [ExactNum.real_add]
      push_cast at hr'
      have := epsilon64_nonneg
      nlinarith [abs_sub_abs_le_abs_sub (x.real + (f i).real) (r + g i)]
    have hround := abs_fit_sub_le_of_le hbound (by linarith) hmax
    have hx' : |(Numeric.binary64.add x (f i)).real - (r + g i)| ≤ (k + 1 : Nat) * (δ + 16 * T * epsilon64) := by
      have htri := abs_sub_le (Numeric.binary64.add x (f i)).real (x.real + (f i).real) (r + g i)
      rw [ExactNum.real_add] at hround
      rw [Numeric.add] at htri ⊢
      push_cast
      linarith
    have hrest := ih (by omega) hr' hx'
    rw [List.map_cons, List.foldl_cons, List.map_cons, List.sum_cons, ← add_assoc, List.length_cons]
    push_cast at hrest ⊢
    linarith

/-! ### The product of two blocks -/

/-- The block v stands for the matrix M: no entry of M exceeds B, and no element of v is off by more than κ times that. -/
def Near (κ B : ℝ) (v : Vector ExactNum 64) (M : Matrix (Fin 8) (Fin 8) ℝ) : Prop :=
  ∀ i j, |M i j| ≤ B ∧ |realMatrix v i j - M i j| ≤ κ * B

variable {κ κ' B : ℝ} {v : Vector ExactNum 64} {M : Matrix (Fin 8) (Fin 8) ℝ}

theorem Near.mono (h : Near κ B v M) (hκ : κ ≤ κ') : Near κ' B v M := fun i j => by
  obtain ⟨hM, hv⟩ := h i j
  have hB : 0 ≤ B := (abs_nonneg _).trans hM
  exact ⟨hM, hv.trans (by gcongr)⟩

theorem Near.matMul {α β A B : ℝ} {x y : Vector ExactNum 64} {X Y : Matrix (Fin 8) (Fin 8) ℝ} (hx : Near α A x X) (hy : Near β B y Y)
    (hsmall : α + β + α * β + 18 * epsilon64 ≤ 1) (hone : 1 ≤ A * B) (hmax : 16 * (A * B) ≤ safeMagnitude) :
    Near (α + β + α * β + 18 * epsilon64) (8 * (A * B)) (Numeric.binary64.matMul x y) (X * Y) := by
  intro i j
  have hε := epsilon64_nonneg
  have hterm (l : Fin 8) : |X i l * Y l j| ≤ A * B := by
    rw [abs_mul]
    exact mul_le_mul (hx i l).1 (hy l j).1 (abs_nonneg _) ((abs_nonneg _).trans (hx i l).1)
  have hmul (l : Fin 8) := abs_mul_binary64_sub_le (hx i l).1 (hy l j).1 (hx i l).2 (hy l j).2 (by linarith) hone (by linarith)
  have hsum := abs_foldl_binary64_sub_le hterm hmul (by nlinarith) hone hmax (List.finRange 8) (k := 0) (x := .ofInt 0) (r := 0)
    (by simp) (by simp) (by simp)
  have hbound : |(X * Y) i j| ≤ 8 * (A * B) := by
    rw [Matrix.mul_apply]
    refine (Finset.abs_sum_le_sum_abs _ _).trans ((Finset.sum_le_card_nsmul _ _ _ fun l _ => hterm l).trans_eq ?_)
    simp
  refine ⟨hbound, ?_⟩
  rw [realMatrix_apply, blockElem_matMul, Numeric.sum, Matrix.mul_apply, Fin.sum_univ_def]
  simp only [List.length_finRange, zero_add, Nat.cast_zero] at hsum
  refine hsum.trans (le_of_eq ?_)
  push_cast
  ring

end Sys2Proof.Machine
end

section
/-! DCT.FWD and DCT.INV (44_dct_quant_zigzag.md R218 to R221): the two matrix products over exact reals, how near binary64 comes to them, and the
round trip. -/

namespace Sys2Proof.Machine

open Matrix Sys2Proof.Claims

/-! ### The two transforms of a block -/

/-- What DCT.FWD makes of a block. -/
def forwardBlock (m : Numeric) (v : Vector ExactNum 64) : Vector ExactNum 64 :=
  m.matMul (m.matMul m.basisMatrix (shiftBlock m (-128) v)) m.basisTransposed

/-- What DCT.INV makes of a block. -/
def inverseBlock (m : Numeric) (v : Vector ExactNum 64) : Vector ExactNum 64 :=
  shiftBlock m 128 (m.matMul (m.matMul m.basisTransposed v) m.basisMatrix)

theorem BlockUnit.dctFwd_blkf (m : Numeric) (b : BlockUnit) : (b.dctFwd m).blkf = blockOf (forwardBlock m (blockVals b.blkf)) := rfl

theorem BlockUnit.dctInv_blkf (m : Numeric) (b : BlockUnit) : (b.dctInv m).blkf = blockOf (inverseBlock m (blockVals b.blkf)) := rfl

/-- The matrix of the level shift. -/
def levelMatrix (d : ℝ) : Matrix (Fin 8) (Fin 8) ℝ := .of fun _ _ => d

theorem levelMatrix_apply (d : ℝ) (i j : Fin 8) : levelMatrix d i j = d := rfl

/-- R218. -/
noncomputable def forwardMatrix (M : Matrix (Fin 8) (Fin 8) ℝ) : Matrix (Fin 8) (Fin 8) ℝ :=
  dctMatrix * (M - levelMatrix 128) * dctMatrixᵀ

/-- R219. -/
noncomputable def inverseMatrix (F : Matrix (Fin 8) (Fin 8) ℝ) : Matrix (Fin 8) (Fin 8) ℝ :=
  dctMatrixᵀ * F * dctMatrix + levelMatrix 128

theorem conjugate_apply (P M Q : Matrix (Fin 8) (Fin 8) ℝ) (i j : Fin 8) :
    (P * M * Q) i j = ∑ a : Fin 8, ∑ b : Fin 8, P i a * M a b * Q b j := by
  simp only [Matrix.mul_apply, Finset.sum_mul]
  exact Finset.sum_comm

theorem forwardMatrix_apply (M : Matrix (Fin 8) (Fin 8) ℝ) (i j : Fin 8) :
    forwardMatrix M i j = ∑ a : Fin 8, ∑ b : Fin 8, (dctBasis i.1 a.1).real * (M a b - 128) * (dctBasis j.1 b.1).real :=
  conjugate_apply _ _ _ i j

theorem inverseMatrix_apply (F : Matrix (Fin 8) (Fin 8) ℝ) (i j : Fin 8) :
    inverseMatrix F i j = (∑ a : Fin 8, ∑ b : Fin 8, (dctBasis a.1 i.1).real * F a b * (dctBasis b.1 j.1).real) + 128 :=
  congrArg (· + 128) (conjugate_apply _ _ _ i j)

/-- R217: the two matrix products undo each other. -/
theorem inverseMatrix_forwardMatrix (M : Matrix (Fin 8) (Fin 8) ℝ) : inverseMatrix (forwardMatrix M) = M :=
  calc inverseMatrix (forwardMatrix M)
    _ = (dctMatrixᵀ * dctMatrix) * (M - levelMatrix 128) * (dctMatrixᵀ * dctMatrix) + levelMatrix 128 := by
      simp only [inverseMatrix, forwardMatrix, Matrix.mul_assoc]
    _ = M := by rw [transpose_mul_dctMatrix, Matrix.one_mul, Matrix.mul_one, sub_add_cancel]

/-! ### Over exact reals -/

theorem realMatrix_shiftBlock_exact (d : Int) (v : Vector ExactNum 64) :
    realMatrix (shiftBlock .exact d v) = realMatrix v + levelMatrix d := by
  ext i j
  simp [realMatrix_apply, blockElem_shiftBlock, levelMatrix_apply]

theorem realMatrix_forwardBlock_exact (v : Vector ExactNum 64) : realMatrix (forwardBlock .exact v) = forwardMatrix (realMatrix v) := by
  have hlevel : levelMatrix ((-128 : Int) : ℝ) = -levelMatrix 128 := by ext i j; simp [levelMatrix_apply]
  rw [forwardBlock, realMatrix_matMul_exact, realMatrix_matMul_exact, realMatrix_basisMatrix_exact, realMatrix_basisTransposed_exact,
    realMatrix_shiftBlock_exact, hlevel, ← sub_eq_add_neg, forwardMatrix]

theorem realMatrix_inverseBlock_exact (v : Vector ExactNum 64) : realMatrix (inverseBlock .exact v) = inverseMatrix (realMatrix v) := by
  rw [inverseBlock, realMatrix_shiftBlock_exact, realMatrix_matMul_exact, realMatrix_matMul_exact, realMatrix_basisMatrix_exact,
    realMatrix_basisTransposed_exact, inverseMatrix]
  norm_cast

/-- A block is determined by its real matrix, because its elements are by their reals. -/
theorem realMatrix_injective : Function.Injective realMatrix := fun v w h => by
  refine Vector.ext fun k hk => ExactNum.real_injective ?_
  have helem (u : Vector ExactNum 64) := getElem_eq_blockElem u ⟨k, hk⟩
  simpa only [helem, realMatrix_apply] using congrFun₂ h (blockRow ⟨k, hk⟩) (blockCol ⟨k, hk⟩)

theorem inverseBlock_forwardBlock_exact (v : Vector ExactNum 64) : inverseBlock .exact (forwardBlock .exact v) = v :=
  realMatrix_injective <| by rw [realMatrix_inverseBlock_exact, realMatrix_forwardBlock_exact, inverseMatrix_forwardMatrix]

/-! ### In binary64 -/

section Binary64

variable {κ B : ℝ} {v : Vector ExactNum 64} {M : Matrix (Fin 8) (Fin 8) ℝ}

/-- An exact block. -/
theorem near_realMatrix (h : ∀ i j, |realMatrix v i j| ≤ B) : Near 0 B v (realMatrix v) := fun i j => ⟨h i j, by simp⟩

theorem abs_basis_sub_le (i j : Nat) : |(Numeric.binary64.basis i j).real - (dctBasis i j).real| ≤ epsilon64 * (1 / 2) :=
  (abs_basis_binary64_sub_le i j).trans (by rw [epsilon64]; norm_num)

theorem near_basisMatrix : Near epsilon64 (1 / 2) Numeric.binary64.basisMatrix dctMatrix := fun i j => by
  rw [realMatrix_apply, blockElem_basisMatrix]
  exact ⟨abs_real_dctBasis_le i.1 j.1, abs_basis_sub_le i.1 j.1⟩

theorem near_basisTransposed : Near epsilon64 (1 / 2) Numeric.binary64.basisTransposed dctMatrixᵀ := fun i j => by
  rw [realMatrix_apply, blockElem_basisTransposed]
  exact ⟨abs_real_dctBasis_le j.1 i.1, abs_basis_sub_le j.1 i.1⟩

theorem epsilon64_le : epsilon64 ≤ 1 / 2 ^ 50 := by rw [epsilon64]; norm_num

/-- A block between two of the basis matrices: each of the two products costs at most 20 roundings of its bound. -/
theorem Near.conjugate {p q : Vector ExactNum 64} {P Q : Matrix (Fin 8) (Fin 8) ℝ} (hp : Near epsilon64 (1 / 2) p P)
    (hq : Near epsilon64 (1 / 2) q Q) (h : Near κ B v M) (h0 : 0 ≤ κ) (hκ : κ ≤ 1 / 2) (hone : 2 ≤ B) (hmax : B ≤ 2 ^ 90) :
    Near (κ + 40 * epsilon64) (16 * B) (Numeric.binary64.matMul (Numeric.binary64.matMul p v) q) (P * M * Q) := by
  have hε := epsilon64_nonneg
  have hε' := epsilon64_le
  have hleft : Near (κ + 20 * epsilon64) (8 * (1 / 2 * B)) (Numeric.binary64.matMul p v) (P * M) :=
    (hp.matMul h (by nlinarith) (by linarith) (le_safeMagnitude (by linarith))).mono (by nlinarith)
  have hboth := hleft.matMul hq (by nlinarith) (by linarith) (le_safeMagnitude (by linarith))
  rw [show 16 * B = 8 * (8 * (1 / 2 * B) * (1 / 2)) by ring]
  exact hboth.mono (by nlinarith)

/-- R220, R221: DCT.FWD on samples within B of the level. -/
theorem near_forwardBlock (h : ∀ i j, |realMatrix v i j - 128| ≤ B) (hone : 2 ≤ B) (hmax : B ≤ 2 ^ 90) :
    Near (41 * epsilon64) (16 * B) (forwardBlock .binary64 v) (forwardMatrix (realMatrix v)) := by
  have hshift : Near epsilon64 B (shiftBlock .binary64 (-128) v) (realMatrix v - levelMatrix 128) := fun i j => by
    have hreal : ((blockElem v i j).add (.ofInt (-128))).real = realMatrix v i j - 128 := by
      rw [ExactNum.real_add, ExactNum.real_ofInt, realMatrix_apply]
      push_cast
      ring
    have hround := abs_fit_sub_le_of_le (hreal.symm ▸ h i j) (by linarith) (le_safeMagnitude (by linarith))
    rw [realMatrix_apply, blockElem_shiftBlock, Matrix.sub_apply, levelMatrix_apply, Numeric.add, mul_comm, ← hreal]
    exact ⟨hreal ▸ h i j, hround⟩
  exact (near_basisMatrix.conjugate near_basisTransposed hshift epsilon64_nonneg (by linarith [epsilon64_le]) hone hmax).mono (by linarith)

/-- R220, R221: DCT.INV on coefficients up to B. -/
theorem abs_inverseBlock_sub_le (h : Near κ B v M) (h0 : 0 ≤ κ) (hκ : κ ≤ 1 / 2) (hone : 8 ≤ B) (hmax : B ≤ 2 ^ 90) (i j : Fin 8) :
    |realMatrix (inverseBlock .binary64 v) i j - inverseMatrix M i j| ≤ (κ + 43 * epsilon64) * (16 * B) := by
  have hprod := near_basisTransposed.conjugate near_basisMatrix h h0 hκ (by linarith) hmax
  obtain ⟨hbound, hnear⟩ := hprod i j
  have hε := epsilon64_le
  rw [inverseBlock, realMatrix_apply, blockElem_shiftBlock, Numeric.add, inverseMatrix, Matrix.add_apply, levelMatrix_apply]
  rw [realMatrix_apply] at hnear
  generalize (dctMatrixᵀ * M * dctMatrix) i j = product at hbound hnear
  generalize blockElem _ i j = computed at hnear
  have hreal : (computed.add (.ofInt 128)).real = computed.real + 128 := by
    rw [ExactNum.real_add, ExactNum.real_ofInt, Int.cast_ofNat]
  have hmag : |(computed.add (.ofInt 128)).real| ≤ 48 * B := by
    rw [hreal]
    have hadd := abs_add_le computed.real 128
    rw [abs_of_pos (show (0 : ℝ) < 128 by norm_num)] at hadd
    nlinarith [abs_sub_abs_le_abs_sub computed.real product]
  have hround := abs_fit_sub_le_of_le hmag (by linarith) (le_safeMagnitude (by linarith))
  have htri := abs_sub_le (Numeric.binary64.fit (computed.add (.ofInt 128))).real (computed.real + 128) (product + 128)
  rw [add_sub_add_right_eq_sub] at htri
  rw [hreal] at hround
  linarith

end Binary64

/-! ### The commands -/

theorem realMatrix_blockVals (v : Vector (Reg ExactNum) 64) (i j : Fin 8) :
    realMatrix (blockVals v) i j = (v[8 * i.1 + j.1]'(by omega)).val.real := by
  rw [realMatrix_apply, blockElem, getElem_blockVals]

theorem real_getElem (v : Vector (Reg ExactNum) 64) (k : Fin 64) : v[k.1].val.real = realMatrix (blockVals v) (blockRow k) (blockCol k) := by
  rw [← getElem_blockVals v k.1 k.2, getElem_eq_blockElem, realMatrix_apply]

/-- A bound on the 64 elements of a block is one on the entries of its matrix. -/
theorem realMatrix_blockVals_of_forall {p : ℝ → Prop} {v : Vector (Reg ExactNum) 64} (h : ∀ k : Fin 64, p v[k.1].val.real) (i j : Fin 8) :
    p (realMatrix (blockVals v) i j) := by
  rw [realMatrix_blockVals]
  exact h ⟨8 * i.1 + j.1, by omega⟩

theorem real_blockOf (v : Vector ExactNum 64) (k : Fin 64) : (blockOf v)[k.1].val.real = realMatrix v (blockRow k) (blockCol k) := by
  rw [real_getElem, blockVals_blockOf]

theorem written_blockOf {α : Type} (v : Vector α 64) (k : Fin 64) : (blockOf v)[k.1].written = true := by
  rw [getElem_blockOf]
  rfl

/-- Settles O38: the result is `forwardBlock` and `inverseBlock` of the block, which are the matrix products over exact reals and near them in
binary64. -/
theorem dctTransformsBlock : Obligations.DctTransformsBlock := by
  refine ⟨fun s h => ⟨_, exec_dctFwd h, completed_blockDone s _, fun k => ?_⟩,
    fun s h => ⟨_, exec_dctInv h, completed_blockDone s _, fun k => ?_⟩⟩
  · rw [State.blockDone_blkf, BlockUnit.dctFwd_blkf, real_blockOf]
    have hproduct := forwardMatrix_apply (realMatrix (blockVals s.blk.blkf)) (blockRow k) (blockCol k)
    simp only [realMatrix_blockVals, blockRow, blockCol] at hproduct
    refine ⟨written_blockOf _ k, fun hnum => ?_, fun hnum hle => ?_⟩
    · rw [hnum, realMatrix_forwardBlock_exact]
      exact hproduct
    · have hlevel (i j : Fin 8) : |realMatrix (blockVals s.blk.blkf) i j - 128| ≤ 4224 := by
        have hij := abs_le.mp (realMatrix_blockVals_of_forall (p := fun x => |x| ≤ 4096) hle i j)
        exact abs_le.mpr ⟨by linarith, by linarith⟩
      have hnear := (near_forwardBlock hlevel (by norm_num) (by norm_num) (blockRow k) (blockCol k)).2
      rw [hnum, ← hproduct]
      exact hnear.trans (by norm_num [epsilon64])
  · rw [State.blockDone_blkf, BlockUnit.dctInv_blkf, real_blockOf]
    have hsample := inverseMatrix_apply (realMatrix (blockVals s.blk.blkf)) (blockRow k) (blockCol k)
    simp only [realMatrix_blockVals, blockRow, blockCol] at hsample
    refine ⟨written_blockOf _ k, fun hnum => ?_, fun hnum hle => ?_⟩
    · rw [hnum, realMatrix_inverseBlock_exact]
      exact hsample
    · have hbound := realMatrix_blockVals_of_forall (p := fun x => |x| ≤ 4096) hle
      have hnear := abs_inverseBlock_sub_le (near_realMatrix hbound) le_rfl (by norm_num) (by norm_num) (by norm_num) (blockRow k) (blockCol k)
      rw [hnum, ← hsample]
      exact hnear.trans (by norm_num [epsilon64])

/-- Settles O39: `Cᵗ·(C·M·Cᵗ)·C = M`, over exact reals for the numbers themselves because their reals determine them; in binary64 DCT.INV
starts from coefficients that are near the exact ones. -/
theorem dctRoundTripIsExact : Obligations.DctRoundTripIsExact := by
  intro s h
  refine ⟨_, _, exec_dctFwd h, exec_dctInv fun k => written_blockOf _ k, fun hnum => ?_, fun hnum hle k => ?_⟩
  all_goals rw [State.blockDone_blkf, BlockUnit.dctInv_blkf, State.blockDone_cfg, State.blockDone_blkf, BlockUnit.dctFwd_blkf,
    blockVals_blockOf, hnum]
  · rw [inverseBlock_forwardBlock_exact, blockOf_blockVals h]
  · have hlevel (i j : Fin 8) : |realMatrix (blockVals s.blk.blkf) i j - 128| ≤ 128 := by
      have hij := realMatrix_blockVals_of_forall (p := fun x => 0 ≤ x ∧ x ≤ 255) hle i j
      exact abs_le.mpr ⟨by linarith, by linarith⟩
    have hforward := near_forwardBlock hlevel (by norm_num) (by norm_num)
    have hback := abs_inverseBlock_sub_le hforward (by linarith [epsilon64_nonneg]) (by linarith [epsilon64_le]) (by norm_num) (by norm_num)
      (blockRow k) (blockCol k)
    rw [inverseMatrix_forwardMatrix] at hback
    rw [real_blockOf, real_getElem]
    exact hback.trans (by norm_num [epsilon64])

end Sys2Proof.Machine
end

section
/-! Q.QUANT and Q.DEQUANT (44_dct_quant_zigzag.md R228 to R231): the selected table, the rounding of a quotient in each arithmetic, and what the
two commands together lose. -/

namespace Sys2Proof.Machine

open Sys2Proof.Claims

/-! ### The selected table (R228) -/

/-- The table entry that Q.QUANT and Q.DEQUANT use for element k. -/
theorem qt_chroma_getElem (s : State) (k : Fin 64) :
    (s.qt s.chroma)[k.1] = if s.sel.val % 2 = 1 then s.qtChroma[k.1] else s.qtLuma[k.1] := by
  simp only [State.qt, State.chroma, Nat.testBit_zero, decide_eq_true_eq]
  split_ifs <;> rfl

theorem one_le_qt {s : State} (h : s.TablesSound) (hq : s.qvalid = true) (k : Fin 64) : 1 ≤ (s.qt s.chroma)[k.1] := by
  obtain ⟨hluma, hchroma⟩ := h hq k
  rw [qt_chroma_getElem]
  split_ifs
  · exact hchroma
  · exact hluma

theorem BlockUnit.quant_blki_getElem (m : Numeric) (mode : RoundMode) (qt : Vector Nat 64) (b : BlockUnit) (k : Fin 64) :
    (b.quant m mode qt).blki[k.1] = Reg.of (m.round mode (m.div b.blkf[k.1].val qt[k.1])) := by
  simp [BlockUnit.quant]

theorem BlockUnit.dequant_blkf_getElem (qt : Vector Nat 64) (b : BlockUnit) (k : Fin 64) :
    (b.dequant qt).blkf[k.1] = Reg.of (.ofInt (b.blki[k.1].val * (qt[k.1] : Int))) := by
  simp [BlockUnit.dequant]

/-! ### Rounding a quotient (R229) -/

theorem real_smul_one_div (x : ExactNum) (n : Nat) : (x.smul (1 / (n : Rat))).real = x.real / n := by
  rw [ExactNum.real_smul]
  push_cast
  ring

/-- Every mode of `ROUND` gives a nearest integer (log 15). -/
theorem abs_sub_round_exact_le (mode : RoundMode) (x : ExactNum) : |x.real - Numeric.exact.round mode x| ≤ 1 / 2 := by
  cases mode with
  | halfUp => exact abs_sub_roundHalfUp_le x
  | halfDown => exact abs_sub_roundHalfDown_le x
  | halfEven => exact (roundsHalfEven_roundHalfEven x).1
  | halfAwayFromZero =>
    unfold Numeric.round
    split_ifs
    · exact abs_sub_roundHalfUp_le x
    · exact abs_sub_roundHalfDown_le x
  | halfTowardZero =>
    unfold Numeric.round
    split_ifs
    · exact abs_sub_roundHalfDown_le x
    · exact abs_sub_roundHalfUp_le x

/-- Only the default's `x + 1/2` is a sum of the image path's arithmetic (log 22). -/
theorem round_binary64_eq {mode : RoundMode} (h : mode ≠ .halfUp) (x : ExactNum) :
    Numeric.binary64.round mode x = Numeric.exact.round mode x := by
  cases mode with
  | halfUp => exact absurd rfl h
  | halfDown | halfEven | halfAwayFromZero | halfTowardZero => rfl

theorem round_binary64_halfUp (x : ExactNum) :
    Numeric.binary64.round .halfUp x = ⌊(Numeric.binary64.fit (x.add (.ofRat (1 / 2)))).real⌋ := ExactNum.floor_eq _

/-- No other rounded result is nearer. -/
theorem abs_fit_sub_le_dist {x z : ExactNum} (hx : |x.real| ≤ safeMagnitude) (hz : |z.real| ≤ safeMagnitude) :
    |(Numeric.binary64.fit x).real - x.real| ≤ |(Numeric.binary64.fit z).real - x.real| := by
  obtain ⟨m, e, heq, -, -, -, -, hnearest⟩ := binary64RoundsToNearest.1 x (hx.trans_lt safeMagnitude_lt)
  obtain ⟨m', e', heq', hm', hmin, hmax, -, -⟩ := binary64RoundsToNearest.1 z (hz.trans_lt safeMagnitude_lt)
  rw [heq, heq', abs_sub_comm, abs_sub_comm (m' * 2 ^ e' : ℝ)]
  exact (hnearest m' e' hm' hmin hmax).1

theorem two_pow_eq_safeMagnitude_div_two : (2 : ℝ) ^ 1000 = safeMagnitude / 2 := by
  rw [eq_div_iff two_ne_zero, ← pow_succ, safeMagnitude]

/-- The default `ROUND` in binary64, the quotient and the sum each rounded: from `2^53` on a rounded quotient is as near to the
sum as any number, below it the two roundings are small. -/
theorem abs_sub_round_halfUp_le {z : ExactNum} (hz : |z.real| ≤ safeMagnitude / 2) :
    |z.real - Numeric.binary64.round .halfUp (Numeric.binary64.fit z)| ≤ 1 / 2 + (|z.real| + 1) / 2 ^ 52 := by
  have hroom : (2 : ℝ) ^ 100 ≤ safeMagnitude := le_safeMagnitude le_rfl
  have hquotient := abs_fit_sub_le (hz.trans (by linarith))
  have hexact : ((Numeric.binary64.fit z).add (.ofRat (1 / 2))).real = (Numeric.binary64.fit z).real + 1 / 2 := by
    rw [ExactNum.real_add, ExactNum.real_ofRat]
    norm_num
  have hadd := abs_add_le (Numeric.binary64.fit z).real (1 / 2)
  rw [abs_of_pos (show (0 : ℝ) < 1 / 2 by norm_num)] at hadd
  have hmag := abs_sub_abs_le_abs_sub (Numeric.binary64.fit z).real z.real
  have hrange : |((Numeric.binary64.fit z).add (.ofRat (1 / 2))).real| ≤ safeMagnitude := by
    rw [hexact]
    linarith
  have hsum := abs_fit_sub_le hrange
  have hdist := abs_fit_sub_le_dist hrange (hz.trans (by linarith))
  rw [round_binary64_halfUp]
  rw [hexact] at hsum hdist
  rw [sub_add_cancel_left, abs_neg, abs_of_pos (show (0 : ℝ) < 1 / 2 by norm_num)] at hdist
  generalize (Numeric.binary64.fit ((Numeric.binary64.fit z).add (.ofRat (1 / 2)))).real = sum at hsum hdist
  generalize (Numeric.binary64.fit z).real = quotient at hquotient hadd hmag hsum hdist
  have hfloor := Int.floor_le sum
  have hfloor' := Int.lt_floor_add_one sum
  rcases le_total |z.real| (2 ^ 53) with hsmall | hlarge
  · have hle := abs_le.mp hquotient
    have hle' := abs_le.mp hsum
    exact abs_le.mpr ⟨by linarith, by linarith⟩
  · have hle := abs_le.mp hquotient
    have hle' := abs_le.mp hdist
    exact abs_le.mpr ⟨by linarith, by linarith⟩

/-- R229 in binary64: the rounding misses the exact quotient by no more than the roundings of the quotient and of the sum. -/
theorem abs_sub_round_binary64_le (mode : RoundMode) {z : ExactNum} (hz : |z.real| ≤ safeMagnitude / 2) :
    |z.real - Numeric.binary64.round mode (Numeric.binary64.fit z)| ≤ 1 / 2 + (|z.real| + 1) / 2 ^ 52 := by
  by_cases hmode : mode = .halfUp
  · rw [hmode]
    exact abs_sub_round_halfUp_le hz
  · have hroom : (2 : ℝ) ^ 100 ≤ safeMagnitude := le_safeMagnitude le_rfl
    have hquotient := abs_fit_sub_le (hz.trans (by linarith))
    have hround := abs_sub_round_exact_le mode (Numeric.binary64.fit z)
    have htri := abs_sub_le z.real (Numeric.binary64.fit z).real (Numeric.exact.round mode (Numeric.binary64.fit z))
    rw [abs_sub_comm] at hquotient
    rw [round_binary64_eq hmode]
    linarith [abs_nonneg z.real]

theorem abs_div_natCast_le (x : ℝ) (n : Nat) : |x / n| ≤ |x| := by
  rw [abs_div, Nat.abs_cast]
  rcases Nat.eq_zero_or_pos n with rfl | hn
  · simp
  · exact div_le_self (abs_nonneg x) (by exact_mod_cast hn)

/-- What Q.QUANT does to one coefficient over exact reals. -/
theorem abs_div_sub_round_exact_le (mode : RoundMode) (x : ExactNum) (n : Nat) :
    |x.real / n - Numeric.exact.round mode (Numeric.exact.div x n)| ≤ 1 / 2 := by
  have h := abs_sub_round_exact_le mode (Numeric.exact.div x n)
  rwa [Numeric.div_exact, real_smul_one_div] at h

theorem round_exact_halfUp_div (x : ExactNum) (n : Nat) :
    Numeric.exact.round .halfUp (Numeric.exact.div x n) = ⌊x.real / n + 1 / 2⌋ := by
  rw [Numeric.round_exact_halfUp, roundHalfUp_eq, Numeric.div_exact, real_smul_one_div]

/-- And in binary64. -/
theorem abs_div_sub_round_binary64_le (mode : RoundMode) {x : ExactNum} (hx : |x.real| ≤ 2 ^ 1000) (n : Nat) :
    |x.real / n - Numeric.binary64.round mode (Numeric.binary64.div x n)| ≤ 1 / 2 + (|x.real / n| + 1) / 2 ^ 52 := by
  rw [← real_smul_one_div]
  refine abs_sub_round_binary64_le mode ?_
  rw [real_smul_one_div, ← two_pow_eq_safeMagnitude_div_two]
  exact (abs_div_natCast_le _ _).trans hx

/-! ### The commands -/

/-- Multiplying back multiplies the distance to the quotient (R231). -/
theorem abs_real_product_sub_eq {n : Nat} (hn : 1 ≤ n) (x : ℝ) (r : Int) :
    |(ExactNum.ofInt (r * (n : Int))).real - x| = n * |x / n - r| := by
  have hpos : (0 : ℝ) < n := by exact_mod_cast hn
  rw [ExactNum.real_ofInt, Int.cast_mul, Int.cast_natCast]
  calc |(r * n : ℝ) - x| = |n * (x / n - r)| := by rw [abs_sub_comm, mul_sub, mul_div_cancel₀ x hpos.ne', mul_comm (r : ℝ)]
    _ = n * |x / n - r| := by rw [abs_mul, abs_of_pos hpos]

/-- The bound of R231 in binary64 is the one of R229 times the entry. -/
theorem half_add_mul_eq {n : Nat} (hn : 1 ≤ n) (x : ℝ) :
    (n : ℝ) / 2 + (|x| + n) / 2 ^ 52 = n * (1 / 2 + (|x / n| + 1) / 2 ^ 52) := by
  have hpos : (0 : ℝ) < n := by exact_mod_cast hn
  rw [abs_div, Nat.abs_cast]
  field_simp

/-- Settles O41: Q.QUANT rounds each quotient as above, Q.DEQUANT multiplies, and multiplying back scales the distance by the entry. -/
theorem quantAndDequantUseSelectedTable : Obligations.QuantAndDequantUseSelectedTable := by
  refine ⟨fun s h hq => ⟨_, exec_qQuant h hq, completed_blockDone s _, fun k => ?_⟩,
    fun s h hq => ⟨_, exec_qDequant h hq, completed_blockDone s _, fun k => ?_⟩, fun s h hq hsound => ?_⟩
  · rw [State.blockDone_blki, BlockUnit.quant_blki_getElem, ← qt_chroma_getElem]
    refine ⟨rfl, fun hnum => ?_, fun hnum hle => ?_⟩
    · rw [hnum]
      refine ⟨abs_div_sub_round_exact_le _ _ _, fun hmode => ?_⟩
      rw [hmode]
      exact round_exact_halfUp_div _ _
    · rw [hnum]
      exact abs_div_sub_round_binary64_le _ hle _
  · rw [State.blockDone_blkf, BlockUnit.dequant_blkf_getElem, ← qt_chroma_getElem]
    refine ⟨rfl, ?_⟩
    simp [Reg.of]
  · have hwritten (k : Fin 64) : (s.blk.quant s.cfg.numeric s.cfg.round (s.qt s.chroma)).blki[k.1].written = true := by
      rw [BlockUnit.quant_blki_getElem]
      rfl
    refine ⟨_, _, exec_qQuant h hq, exec_qDequant hwritten hq, fun k => ?_⟩
    have hn := one_le_qt hsound hq k
    rw [State.blockDone_blkf, BlockUnit.dequant_blkf_getElem, State.blockDone_qt, State.blockDone_blki, BlockUnit.quant_blki_getElem,
      ← qt_chroma_getElem]
    intro entry moved
    have hmoved : moved = entry * |s.blk.blkf[k.1].val.real / entry - s.cfg.numeric.round s.cfg.round (s.cfg.numeric.div _ entry)| :=
      abs_real_product_sub_eq hn _ _
    rw [hmoved]
    refine ⟨fun hnum => ?_, fun hnum hle => ?_⟩
    · rw [hnum]
      nlinarith [abs_div_sub_round_exact_le s.cfg.round s.blk.blkf[k.1].val entry]
    · rw [hnum, half_add_mul_eq hn]
      exact mul_le_mul_of_nonneg_left (abs_div_sub_round_binary64_le s.cfg.round hle entry) (Nat.cast_nonneg entry)

end Sys2Proof.Machine
end

section
/-! The stand-alone coding commands (45_huffman.md R257): how a command ends whose bits come as characters from `IN` or go as characters to
`OUT`. -/

namespace Sys2Proof.Machine

open Sys2Proof.Claims

theorem onCoder_ok {α : Type} {m : Run Coder α} {b : BlockUnit} {a : α} {c : Coder} (h : m b.coder = .ok a c) :
    onCoder m b = .ok a { b with coder := c } := by rw [onCoder_apply, h]

theorem onCoder_error {α : Type} {m : Run Coder α} {b : BlockUnit} {r : Raise} {c : Coder} (h : m b.coder = .error r c) :
    onCoder m b = .error r { b with coder := c } := by rw [onCoder_apply, h]

/-! ### `IN` as the source -/

/-- The coder of a decoding command when it stands before the characters `line`, with `pos` of them taken. -/
def Coder.reading (line : List Byte) (pos : Nat) : Coder := ⟨0, [], line, pos⟩

/-- The block unit when the decoding begins. -/
def State.sourceBlk (s : State) : BlockUnit := { s.blk with coder := .reading s.io.inp.rest 0 }

/-- The state when the decoding has made the block unit b. -/
def State.sourced (s : State) (b : BlockUnit) : State := takeLine { s with blk := b }

theorem withSource_ok {α : Type} {m : Run BlockUnit α} {s : State} {a : α} {b : BlockUnit} (h : m s.sourceBlk = .ok a b) :
    withSource m s = .ok a (s.sourced b) := by
  simp only [State.sourceBlk, Coder.reading] at h
  simp only [withSource, onBlk_apply, Coder.fresh, h, State.sourced]

theorem withSource_error {α : Type} {m : Run BlockUnit α} {s : State} {r : Raise} {b : BlockUnit} (h : m s.sourceBlk = .error r b) :
    withSource m s = .error r (s.sourced b) := by
  simp only [State.sourceBlk, Coder.reading] at h
  simp only [withSource, onBlk_apply, Coder.fresh, h, State.sourced]

/-- The work of a command that decodes one value from `IN` into `RES` (R254, 46_rle_entropy.md R268). -/
def decodeToRes {α : Type} (value : α → Int) (m : Run Coder α) : Run State Unit := do
  let v ← withSource (onCoder m)
  modify fun t => { t with res := .of (value v) }

theorem exec_hufDec (s : State) :
    exec .hufDec s = runUnit .compute (fun _ => [])
      (decodeToRes (fun sym : Nat => (sym : Int)) (huffDecode (codebook s.cfg.toConfig s.tableIndex) 0)) s := rfl

theorem exec_entDec (s : State) :
    exec .entDec s = runUnit .compute (fun s => s.n.unread 1) (decodeToRes id (entDecode s.n.val)) s := rfl

section

variable {α : Type} {bad : State → List Nat} {value : α → Int} {m : Run Coder α} {s : State} {read rest : List Byte}

theorem leaving_of_append (hin : s.io.inp.rest = read ++ rest) : leaving s rest = ⟨rest, s.io.inp.consumed + read.length⟩ := by
  simp [leaving, hin]

/-- R323: a value was decoded, and what follows its characters is left. -/
theorem runUnit_decodeToRes_ok {v : α} (hbad : bad s = []) (hin : s.io.inp.rest = read ++ rest)
    (hm : m (.reading (read ++ rest) 0) = .ok v (.reading rest read.length)) :
    ∃ t, runUnit .compute bad (decodeToRes value m) s = .next t
      ∧ Completed { s with res := ⟨value v, true⟩ } (readOnly s (leaving s rest) false) t := by
  rw [← hin] at hm
  have hcoder : onCoder m (s.start .compute).dropChannel.sourceBlk = .ok v { s.blk with coder := .reading rest read.length } :=
    onCoder_ok hm
  have hbody : decodeToRes value m (s.start .compute).dropChannel = .ok () _ := Run.bind_ok.2 ⟨_, _, withSource_ok hcoder, rfl⟩
  exact ⟨_, runUnit_ok hbad hbody, by rw [leaving_of_append hin]; rfl⟩

/-- R322: decoding raised; the characters it had taken are consumed. -/
theorem runUnit_decodeToRes_error {r : Raise} (hbad : bad s = []) (hin : s.io.inp.rest = read ++ rest)
    (hm : m (.reading (read ++ rest) 0) = .error r (.reading rest read.length)) :
    ∃ t, runUnit .compute bad (decodeToRes value m) s = .next t
      ∧ Raised s (readOnly s (leaving s rest) false) r.exc t.errinfo t ∧ ∀ i ∈ r.info, t.errinfo = i := by
  rw [← hin] at hm
  have hcoder : onCoder m (s.start .compute).dropChannel.sourceBlk = .error r { s.blk with coder := .reading rest read.length } :=
    onCoder_error hm
  have hbody : decodeToRes value m (s.start .compute).dropChannel = .error r _ := Run.bind_error.2 (.inl (withSource_error hcoder))
  refine ⟨_, runUnit_error hbad hbody, ?_⟩
  rw [leaving_of_append hin]
  obtain ⟨e, _ | i⟩ := r
  · exact ⟨rfl, by simp⟩
  · exact ⟨rfl, by simp [State.raised_errinfo]⟩

end

/-- HUF.DEC completes with the symbol decoded (R254). -/
theorem exec_hufDec_completed {s : State} {read rest : List Byte} {sym : Nat} (hin : s.io.inp.rest = read ++ rest)
    (hm : huffDecode (codebook s.cfg.toConfig s.tableIndex) 0 (.reading (read ++ rest) 0) = .ok sym (.reading rest read.length)) :
    ∃ t, exec .hufDec s = .next t
      ∧ Completed { s with res := ⟨(sym : Int), true⟩ } (readOnly s (leaving s rest) false) t := by
  rw [exec_hufDec]
  exact runUnit_decodeToRes_ok rfl hin hm

/-- HUF.DEC raises what the descent raises. -/
theorem exec_hufDec_raised {s : State} {read rest : List Byte} {r : Raise} (hin : s.io.inp.rest = read ++ rest)
    (hm : huffDecode (codebook s.cfg.toConfig s.tableIndex) 0 (.reading (read ++ rest) 0) = .error r (.reading rest read.length)) :
    ∃ t, exec .hufDec s = .next t
      ∧ Raised s (readOnly s (leaving s rest) false) r.exc t.errinfo t ∧ ∀ i ∈ r.info, t.errinfo = i := by
  rw [exec_hufDec]
  exact runUnit_decodeToRes_error rfl hin hm

/-- ENT.DEC completes with the value decoded (46_rle_entropy.md R268). -/
theorem exec_entDec_completed {s : State} {read rest : List Byte} {v : Int} (hn : s.n.written = true)
    (hin : s.io.inp.rest = read ++ rest)
    (hm : entDecode s.n.val (.reading (read ++ rest) 0) = .ok v (.reading rest read.length)) :
    ∃ t, exec .entDec s = .next t ∧ Completed { s with res := ⟨v, true⟩ } (readOnly s (leaving s rest) false) t := by
  rw [exec_entDec]
  exact runUnit_decodeToRes_ok ((Reg.unread_nil _ _).2 hn) hin hm

/-- ENT.DEC raises what reading its field raises. -/
theorem exec_entDec_raised {s : State} {read rest : List Byte} {r : Raise} (hn : s.n.written = true)
    (hin : s.io.inp.rest = read ++ rest)
    (hm : entDecode s.n.val (.reading (read ++ rest) 0) = .error r (.reading rest read.length)) :
    ∃ t, exec .entDec s = .next t
      ∧ Raised s (readOnly s (leaving s rest) false) r.exc t.errinfo t ∧ ∀ i ∈ r.info, t.errinfo = i := by
  rw [exec_entDec]
  exact runUnit_decodeToRes_error ((Reg.unread_nil _ _).2 hn) hin hm

/-! ### `OUT` as the sink -/

/-- The coder of an encoding command that has put `bits`. -/
def Coder.having (bits : Bits) : Coder := { Coder.fresh with bits := bits }

/-- The block unit when the encoding begins. -/
def State.sinkBlk (s : State) : BlockUnit := { s.blk with coder := .fresh }

/-- The state when the encoding has made the block unit b. -/
def State.sunk (s : State) (b : BlockUnit) : State := flushBits { s with io := openOut s.io, blk := b }

theorem withSink_ok {α : Type} {m : Run BlockUnit α} {s : State} {a : α} {b : BlockUnit} (h : m s.sinkBlk = .ok a b) :
    withSink m s = .ok a (s.sunk b) := by
  rw [State.sinkBlk] at h
  simp only [withSink, onBlk_apply, h, State.sunk]

theorem withSink_error {α : Type} {m : Run BlockUnit α} {s : State} {r : Raise} {b : BlockUnit} (h : m s.sinkBlk = .error r b) :
    withSink m s = .error r (s.sunk b) := by
  rw [State.sinkBlk] at h
  simp only [withSink, onBlk_apply, h, State.sunk]

/-- The work of a command that encodes one value to `OUT` and reports its bits in `RES` and `RES2` (R252, 46_rle_entropy.md R267). -/
def encodeAndReport (m : Run Coder Unit) : Run State Unit := do
  withSink (onCoder m)
  modify fun t => { t with res := .of (valOf t.blk.coder.bits), res2 := .of t.blk.coder.bits.length }

theorem exec_hufEnc (s : State) :
    exec .hufEnc s = runUnit .compute (fun s => s.a.unread 0)
      (encodeAndReport (putCode (lookupSymbol s.cfg.toConfig s.tableIndex s.a.val) s.a.val)) s := rfl

/-- An `OUT` that a command has opened and written ends as `MODE.EMBEDDED` says (20_memory.md R62). -/
theorem ended_outBytes_openOut (embedded : Bool) (bs : List Byte) (io : Io) :
    (outBytes bs (openOut io)).out.ended embedded = ⟨io.out.opened.bytes ++ bs, if embedded then .flushed else .closed⟩ := by
  rw [Io.outBytes_out, Io.openOut_out, OutStream.opened_sink, OutStream.ended_of_writing]

section

variable {bad : State → List Nat} {m : Run Coder Unit} {s : State} {bits : Bits}

/-- R323: the bits put are on `OUT` as characters. -/
theorem runUnit_encodeAndReport_ok (hbad : bad s = []) (hm : m .fresh = .ok () (.having bits)) :
    ∃ t, runUnit .compute bad (encodeAndReport m) s = .next t
      ∧ Completed { s with res := ⟨valOf bits, true⟩, res2 := ⟨bits.length, true⟩ } (wrote s (chars bits) s.io.inp false) t := by
  have hcoder : onCoder m (s.start .compute).dropChannel.sinkBlk = .ok () { s.blk with coder := .having bits } := onCoder_ok hm
  have hbody : encodeAndReport m (s.start .compute).dropChannel = .ok () _ := Run.bind_ok.2 ⟨_, _, withSink_ok hcoder, rfl⟩
  refine ⟨_, runUnit_ok hbad hbody, ?_⟩
  rw [wrote, ← ended_outBytes_openOut]
  rfl

/-- R322: encoding raised; the bits put before are on `OUT`. -/
theorem runUnit_encodeAndReport_error {e : Exc} {i : Int} (hbad : bad s = []) (hm : m .fresh = .error ⟨e, some i⟩ (.having bits)) :
    ∃ t, runUnit .compute bad (encodeAndReport m) s = .next t ∧ Raised s (wrote s (chars bits) s.io.inp false) e i t := by
  have hcoder : onCoder m (s.start .compute).dropChannel.sinkBlk = .error ⟨e, some i⟩ { s.blk with coder := .having bits } :=
    onCoder_error hm
  have hbody : encodeAndReport m (s.start .compute).dropChannel = .error ⟨e, some i⟩ _ :=
    Run.bind_error.2 (.inl (withSink_error hcoder))
  refine ⟨_, runUnit_error hbad hbody, ?_⟩
  rw [wrote, ← ended_outBytes_openOut]
  rfl

end

end Sys2Proof.Machine
end

section
/-! Codebooks (45_huffman.md R247 to R253): the two lookups find the first leaf of a symbol, and a descent that does not reach a leaf raises. -/

namespace Sys2Proof.Machine

open Sys2Proof.Claims

/-! ### Lookup -/

/-- The bound of R249 is a bound: no leaf carries a larger symbol. -/
theorem le_maxSym_of_mem_leaves {t : Trie} {l : Nat × Bits} (h : l ∈ leaves t) : (l.1 : Int) ≤ t.maxSym := by
  induction t with
  | empty => simp [leaves] at h
  | leaf sym code =>
    obtain rfl : l = (sym, code) := by simpa [leaves] using h
    exact le_rfl
  | node left right bound ihl ihr =>
    rcases List.mem_append.1 h with h | h
    · exact (ihl h).trans (le_max_left _ _)
    · exact (ihr h).trans (le_max_right _ _)

/-- R249: the bound is −1 or the symbol of a leaf. -/
theorem maxSym_eq_or_exists_mem_leaves (t : Trie) : t.maxSym = -1 ∨ ∃ l ∈ leaves t, (l.1 : Int) = t.maxSym := by
  induction t with
  | empty => exact .inl rfl
  | leaf sym code => exact .inr ⟨(sym, code), by simp [leaves], rfl⟩
  | node left right bound ihl ihr =>
    simp only [leaves, List.mem_append, Trie.maxSym]
    rcases max_choice left.maxSym right.maxSym with h | h <;> rw [h]
    · exact ihl.imp id fun ⟨l, hl, hsym⟩ => ⟨l, .inl hl, hsym⟩
    · exact ihr.imp id fun ⟨l, hl, hsym⟩ => ⟨l, .inr hl, hsym⟩

theorem find_leaves_eq_none {t : Trie} {k : Int} (h : ∀ l ∈ leaves t, (l.1 : Int) ≠ k) :
    (leaves t).find? (fun l => decide ((l.1 : Int) = k)) = none := by
  simpa using fun sym code hl => h (sym, code) hl

theorem increasing_node {l r : Trie} {bound : Int} (h : Increasing (.node l r bound)) :
    Increasing l ∧ Increasing r ∧ ∀ x ∈ leaves l, ∀ y ∈ leaves r, x.1 < y.1 := by
  rw [Increasing, leaves, List.map_append, List.pairwise_append] at h
  obtain ⟨hl, hr, hlr⟩ := h
  exact ⟨hl, hr, fun x hx y hy => hlr _ (List.mem_map_of_mem hx) _ (List.mem_map_of_mem hy)⟩

/-- R256: on a DC trie whose categories increase the pruned walk finds the leaf, since at every node the leaves on the left are those with
a category up to the bound. -/
theorem lookupDc_eq_find {t : Trie} {path : Bits} (hwf : Trie.wfAt true path t = true) (hinc : Increasing t) (k : Int) :
    lookupDc t k = ((leaves t).find? (fun l => decide ((l.1 : Int) = k))).map Prod.snd := by
  induction t generalizing path with
  | empty => rfl
  | leaf sym code => by_cases h : (sym : Int) = k <;> simp [lookupDc, leaves, h]
  | node l r bound ihl ihr =>
    simp only [Trie.wfAt, if_true, Bool.and_eq_true, beq_iff_eq] at hwf
    obtain ⟨⟨⟨-, hbound⟩, hwfl⟩, hwfr⟩ := hwf
    obtain ⟨hincl, hincr, hlr⟩ := increasing_node hinc
    rw [lookupDc, leaves, List.find?_append, hbound]
    split
    · next hlt =>
      have hleft : ∀ x ∈ leaves l, (x.1 : Int) ≠ k := fun x hx => ((le_maxSym_of_mem_leaves hx).trans_lt hlt).ne
      rw [find_leaves_eq_none hleft, Option.none_or]
      exact ihr hwfr hincr
    · next hle =>
      have hright : ∀ y ∈ leaves r, (y.1 : Int) ≠ k := by
        intro y hy
        rcases maxSym_eq_or_exists_mem_leaves l with hmax | ⟨x, hx, hmax⟩
        · omega
        · have := hlr x hx y hy
          omega
      rw [find_leaves_eq_none hright, Option.or_none]
      exact ihl hwfl hincl

/-- R256: whatever the table, the check at the leaf keeps the walk from another category's codeword. -/
theorem mem_leaves_of_lookupDc {t : Trie} {k : Int} {code : Bits} (h : lookupDc t k = some code) :
    ∃ sym : Nat, (sym : Int) = k ∧ (sym, code) ∈ leaves t := by
  induction t with
  | empty => simp [lookupDc] at h
  | leaf sym code' =>
    simp only [lookupDc, Option.ite_none_right_eq_some, Option.some.injEq] at h
    obtain ⟨hsym, rfl⟩ := h
    exact ⟨sym, hsym, by simp [leaves]⟩
  | node l r bound ihl ihr =>
    rw [lookupDc] at h
    simp only [leaves, List.mem_append]
    split at h
    · obtain ⟨sym, hsym, hmem⟩ := ihr h
      exact ⟨sym, hsym, .inr hmem⟩
    · obtain ⟨sym, hsym, hmem⟩ := ihl h
      exact ⟨sym, hsym, .inl hmem⟩

/-- The selected codebook meets its check from the root on. -/
theorem codebook_wfAt (s : State) : Trie.wfAt (!s.tableIndex.testBit 1) [] (codebook s.cfg.toConfig s.tableIndex) = true :=
  Trie.wfAt_of_wf (codebook_wf s.cfg s.tableIndex)

/-- R250, R251: the lookup of HUF.ENC answers the first leaf, left to right, that holds the symbol. -/
theorem lookupSymbol_eq_find (s : State)
    (h : s.tableIndex = 2 ∨ s.tableIndex = 3 ∨ Increasing (codebook s.cfg.toConfig s.tableIndex)) (k : Int) :
    lookupSymbol s.cfg.toConfig s.tableIndex k
      = ((leaves (codebook s.cfg.toConfig s.tableIndex)).find? (fun l => decide ((l.1 : Int) = k))).map Prod.snd := by
  unfold lookupSymbol
  split
  · exact lookupAc_eq_find _ k
  · next hdc =>
    have hwf := codebook_wfAt s
    rw [Bool.eq_false_of_not_eq_true hdc] at hwf
    rcases h with h | h | hinc
    · exact absurd (by rw [h]; rfl) hdc
    · exact absurd (by rw [h]; rfl) hdc
    · exact lookupDc_eq_find hwf hinc k

/-- Settles O44: the lookup is the first leaf of the symbol, and its codeword is put or refused. -/
theorem hufEncPutsCodeword : Obligations.HufEncPutsCodeword := by
  refine ⟨fun s hwritten htable => ?_, fun t k code => mem_leaves_of_lookupDc⟩
  have hlookup := lookupSymbol_eq_find s htable s.a.val
  have hbad : s.a.unread 0 = [] := (Reg.unread_nil _ _).2 hwritten
  rw [exec_hufEnc, hlookup]
  split
  · next sym code hfind =>
    rw [hfind]
    exact runUnit_encodeAndReport_ok hbad rfl
  · next hfind =>
    rw [hfind]
    exact runUnit_encodeAndReport_error (bits := []) hbad rfl

/-! ### Descent -/

section

variable {dc : Bool} {t : Trie} {path s : Bits} {l : Nat × Bits}

/-- The subtrie that a bit selects (R248). -/
def trieChild (b : Bool) : Trie → Trie
  | .node l r _ => if b then r else l
  | _ => .empty

theorem wfAt_child (h : Trie.wfAt dc path t = true) (b : Bool) : Trie.wfAt dc (b :: path) (trieChild b t) = true := by
  cases t with
  | empty | leaf => rfl
  | node left right bound =>
    simp only [Trie.wfAt, Bool.and_eq_true] at h
    cases b
    · exact h.1.2
    · exact h.2

theorem mem_leaves_of_mem_child {b : Bool} (h : l ∈ leaves (trieChild b t)) : l ∈ leaves t := by
  cases t with
  | empty | leaf => simp [trieChild, leaves] at h
  | node left right bound => cases b <;> simp_all [trieChild, leaves]

/-- A leaf whose codeword goes on with the bit b lies under the child of b. -/
theorem mem_leaves_child {b : Bool} (h : Trie.wfAt dc path t = true) (hl : l ∈ leaves t) (hp : path.reverse ++ b :: s <+: l.2) :
    l ∈ leaves (trieChild b t) := by
  obtain ⟨tail, htail⟩ := hp
  cases t with
  | empty => simp [leaves] at hl
  | leaf sym code =>
    simp only [Trie.wfAt, beq_iff_eq] at h
    obtain rfl : l = (sym, code) := by simpa [leaves] using hl
    simp [h] at htail
  | node left right bound =>
    rcases List.mem_append.1 hl with hl | hl
    · obtain ⟨u, hu⟩ := Trie.leaf_path (wfAt_child h false) hl
      obtain ⟨rfl, -⟩ : b = false ∧ s ++ tail = u := by simpa [← htail] using hu
      exact hl
    · obtain ⟨u, hu⟩ := Trie.leaf_path (wfAt_child h true) hl
      obtain ⟨rfl, -⟩ : b = true ∧ s ++ tail = u := by simpa [← htail] using hu
      exact hl

/-- Where a codeword does not end yet there is an inner node. -/
theorem exists_eq_node (h : Trie.wfAt dc path t = true) (hl : l ∈ leaves t) (hne : l.2 ≠ path.reverse) :
    ∃ left right bound, t = .node left right bound := by
  cases t with
  | empty => simp [leaves] at hl
  | leaf sym code =>
    simp only [Trie.wfAt, beq_iff_eq] at h
    obtain rfl : l = (sym, code) := by simpa [leaves] using hl
    exact absurd h hne
  | node left right bound => exact ⟨left, right, bound, rfl⟩

theorem ne_of_append_cons_isPrefix {p w : Bits} {b : Bool} (h : p ++ b :: s <+: w) : w ≠ p := by
  rintro rfl
  have := h.length_le
  simp at this

/-- R247: a node that some codeword reaches has a leaf under it. -/
theorem eq_empty_of_leaves_eq_nil (h : Trie.wfAt dc path t = true) (hl : leaves t = []) : t = .empty := by
  induction t generalizing path with
  | empty => rfl
  | leaf sym code => simp [leaves] at hl
  | node left right bound ihl ihr =>
    obtain ⟨hleft, hright⟩ := List.append_eq_nil_iff.1 hl
    obtain rfl := ihl (wfAt_child h false) hleft
    obtain rfl := ihr (wfAt_child h true) hright
    simp [Trie.wfAt] at h

/-- R253: at an inner node a bit is taken, and the descent goes on at its child. -/
theorem huffDecode_node_bit {left right : Trie} {bound : Int} {used : Nat} {c : Coder} {b : Bool} {rest : List Byte}
    (hc : c.line = bitChar b :: rest) :
    huffDecode (.node left right bound) used c
      = huffDecode (trieChild b (.node left right bound)) (used + 1) { c with line := rest, pos := c.pos + 1 } := by
  cases b <;> simp [huffDecode, nextBit_bit hc, trieChild]

/-- R253: where the characters end inside a codeword the descent raises `TruncatedStream`. -/
theorem huffDecode_cut (h : Trie.wfAt dc path t = true) (hl : l ∈ leaves t) (hp : path.reverse ++ s <+: l.2)
    (hne : path.reverse ++ s ≠ l.2) (used : Nat) (c : Coder) (hc : c.line = chars s) :
    huffDecode t used c = .error ⟨.truncatedStream, none⟩ { c with line := [], pos := c.pos + s.length } := by
  induction s generalizing path t used c with
  | nil =>
    obtain ⟨left, right, bound, rfl⟩ := exists_eq_node h hl (by simpa using hne.symm)
    cases c
    simp_all [huffDecode, nextBit_end]
  | cons b s ih =>
    obtain ⟨left, right, bound, rfl⟩ := exists_eq_node h hl (ne_of_append_cons_isPrefix hp)
    rw [huffDecode_node_bit (b := b) (by simpa using hc),
      ih (wfAt_child h b) (mem_leaves_child h hl hp) (by simpa using hp) (by simpa using hne) _ _ rfl]
    simp [Nat.add_comm, Nat.add_left_comm]

/-- R253: at the first bit with which no codeword begins the descent is at an unpopulated node. -/
theorem huffDecode_undefined (h : Trie.wfAt dc path t = true) (hnone : ∀ l ∈ leaves t, ¬ path.reverse ++ s <+: l.2)
    (hsome : s ≠ [] → ∃ l ∈ leaves t, path.reverse ++ s.dropLast <+: l.2 ∧ path.reverse ++ s.dropLast ≠ l.2)
    (used : Nat) (c : Coder) (rest : List Byte) (hc : c.line = chars s ++ rest) :
    huffDecode t used c
      = .error ⟨.corruptCodeword, some ((used + s.length : Nat) : Int)⟩ { c with line := rest, pos := c.pos + s.length } := by
  induction s generalizing path t used c with
  | nil =>
    have hleaves : leaves t = [] := List.eq_nil_iff_forall_not_mem.2 fun l hl => by
      obtain ⟨u, hu⟩ := Trie.leaf_path h hl
      exact hnone l hl ⟨u, by simp [hu]⟩
    obtain rfl := eq_empty_of_leaves_eq_nil h hleaves
    cases c
    simp_all [huffDecode]
  | cons b s ih =>
    obtain ⟨l, hl, hp, hne⟩ := hsome (by simp)
    have hnode : l.2 ≠ path.reverse := by
      rintro heq
      rw [heq] at hp hne
      exact hne (hp.eq_of_length_le (by simp))
    obtain ⟨left, right, bound, rfl⟩ := exists_eq_node h hl hnode
    have hnone' : ∀ l ∈ leaves (trieChild b (.node left right bound)), ¬ (b :: path).reverse ++ s <+: l.2 := fun l hl => by
      simpa using hnone l (mem_leaves_of_mem_child hl)
    have hsome' : s ≠ [] → ∃ l ∈ leaves (trieChild b (.node left right bound)),
        (b :: path).reverse ++ s.dropLast <+: l.2 ∧ (b :: path).reverse ++ s.dropLast ≠ l.2 := fun hs => by
      rw [List.dropLast_cons_of_ne_nil hs] at hp hne
      exact ⟨l, mem_leaves_child h hl hp, by simpa using hp, by simpa using hne⟩
    rw [huffDecode_node_bit (b := b) (by simpa using hc), ih (wfAt_child h b) hnone' hsome' _ _ rfl]
    simp [Nat.add_comm, Nat.add_left_comm]

end

/-- Settles O45: the descent reaches the leaf (`huffDecode_leaf`), is cut, or leaves the codewords. -/
theorem hufDecReadsCodeword : Obligations.HufDecReadsCodeword := by
  refine ⟨fun s sym code rest hl hin => ?_, fun s bits sym code hl hp hne hin => ?_, fun s bits rest hin hnone hsome => ?_⟩
  · have hm := huffDecode_leaf (codebook_wfAt s) hl 0 (.reading (chars code ++ rest) 0) rest rfl
    exact exec_hufDec_completed hin (by simpa [Coder.reading] using hm)
  · have hm := huffDecode_cut (codebook_wfAt s) hl hp hne 0 (.reading (chars bits) 0) rfl
    obtain ⟨t, ht, hraised, -⟩ := exec_hufDec_raised (read := chars bits) (rest := []) (by simpa using hin)
      (by simpa [Coder.reading] using hm)
    exact ⟨t, ht, hraised⟩
  · have hm := huffDecode_undefined (codebook_wfAt s) hnone hsome 0 (.reading (chars bits ++ rest) 0) rest rfl
    obtain ⟨t, ht, hraised, hinfo⟩ := exec_hufDec_raised hin (by simpa [Coder.reading] using hm)
    rw [hinfo _ rfl] at hraised
    exact ⟨t, ht, hraised⟩

end Sys2Proof.Machine
end

section
/-! ENT.DEC (46_rle_entropy.md R268): the value of a field, and what stands where a bit should. -/

namespace Sys2Proof.Machine

open Sys2Proof.Claims

/-- R268: a field of N characters is decoded, and what follows is left. -/
theorem entDecode_chars (bits : Bits) (rest : List Byte) :
    entDecode bits.length (.reading (chars bits ++ rest) 0) = .ok (entValue bits) (.reading rest (chars bits).length) := by
  have hm : takeBits bits.length (.reading (chars bits ++ rest) 0) = .ok bits (.reading rest (chars bits).length) := by
    simpa [Coder.reading] using takeBits_chars bits rest (.reading (chars bits ++ rest) 0) rfl
  simp [entDecode, hm]

/-- R279: where no bit is left before the field ends, it is `TruncatedStream`. -/
theorem entDecode_short {bits : Bits} {n : Nat} {tail read rest : List Byte} (hn : bits.length < n)
    (he : nextBit (.reading tail bits.length) = .ok none (.reading rest read.length)) :
    entDecode n (.reading (chars bits ++ tail) 0) = .error ⟨.truncatedStream, none⟩ (.reading rest read.length) := by
  have hm := takeBits_short bits n (.reading (chars bits ++ tail) 0) (.reading rest read.length) tail rfl hn
    (by simpa [Coder.reading] using he)
  simp [entDecode, hm]

/-- 45_huffman.md R257: where a stray character stands before the field ends, taking it raised. -/
theorem entDecode_stray {bits : Bits} {n : Nat} {tail read rest : List Byte} {r : Raise} (hn : bits.length < n)
    (he : nextBit (.reading tail bits.length) = .error r (.reading rest read.length)) :
    entDecode n (.reading (chars bits ++ tail) 0) = .error r (.reading rest read.length) := by
  have hm := takeBits_stray bits n (.reading (chars bits ++ tail) 0) (.reading rest read.length) r tail rfl hn
    (by simpa [Coder.reading] using he)
  simp [entDecode, hm]

/-- Settles O47: the field is there, or the end of `IN`, a line feed or a stray character stands where its next bit should. -/
theorem entDecReadsValue : Obligations.EntDecReadsValue := by
  refine ⟨fun s bits rest hn hlen hin => ?_, fun s bits hn hlen hin => ?_, fun s bits c rest hn hlen hin hc => ?_⟩
  · obtain ⟨t, ht, hcompleted⟩ := exec_entDec_completed hn hin (hlen ▸ entDecode_chars bits rest)
    have hres : t.res = ⟨entValue bits, true⟩ := by rw [hcompleted]
    refine ⟨t, ht, ?_⟩
    rw [hres, ← hlen]
    refine ⟨hcompleted, rfl, ?_⟩
    rcases bits with _ | ⟨_ | _, bits⟩ <;> rfl
  · obtain ⟨t, ht, hraised, -⟩ := exec_entDec_raised (read := chars bits) (rest := []) hn (by simpa using hin)
      (entDecode_short hlen (by simp [nextBit_end, Coder.reading]))
    exact ⟨t, ht, hraised⟩
  · have hsplit : chars bits ++ c :: rest = (chars bits ++ [c]) ++ rest := by simp
    have hpos : (chars bits ++ [c]).length = bits.length + 1 := by simp
    rw [hsplit] at hin
    simp only [List.mem_cons, List.not_mem_nil, or_false, not_or] at hc
    obtain ⟨h0, h1⟩ := hc
    by_cases hlf : c = lineFeed
    · obtain ⟨t, ht, hraised, -⟩ := exec_entDec_raised hn hin
        (hsplit ▸ entDecode_short hlen (by rw [nextBit_lineFeed (by rw [hlf]; rfl), hpos]; rfl))
      exact ⟨t, ht, fun _ => hraised, fun h => absurd hlf h⟩
    · obtain ⟨t, ht, hraised, hinfo⟩ := exec_entDec_raised hn hin
        (hsplit ▸ entDecode_stray hlen (by rw [nextBit_stray rfl h0 h1 hlf, hpos]; rfl))
      rw [hinfo _ rfl] at hraised
      exact ⟨t, ht, fun h => absurd h hlf, fun _ => hraised⟩

end Sys2Proof.Machine
end

section
/-! The value code (46_rle_entropy.md R266, R267, R275): what the value bits of an integer spell, that `entValue` undoes them, and ENT.ENC. -/

namespace Sys2Proof.Machine

open Sys2Proof.Claims

/-! ### The size of an integer -/

/-- R11: the n of a positive number is the one with `2^(n−1) ≤ v < 2^n`. -/
theorem bitLength_eq_succ {v n : Nat} (hlo : 2 ^ n ≤ v) (hhi : v < 2 ^ (n + 1)) : bitLength v = n + 1 :=
  le_antisymm ((bitLength_le v _).2 hhi) (Nat.lt_of_not_le fun h => absurd ((bitLength_le v n).1 h) hlo.not_gt)

theorem bitLengthInt_eq_zero {v : Int} : bitLengthInt v = 0 ↔ v = 0 := by
  constructor
  · intro h
    by_contra hv
    exact (bitLength_pos (Int.natAbs_ne_zero.2 hv)).ne' h
  · rintro rfl
    rfl

theorem bitLengthInt_pos {v : Int} (hv : v ≠ 0) : 0 < bitLengthInt v := bitLength_pos (Int.natAbs_ne_zero.2 hv)

theorem natAbs_lt_pow_bitLengthInt (v : Int) : v.natAbs < 2 ^ bitLengthInt v := lt_pow_bitLength _

theorem pow_bitLengthInt_le {v : Int} (hv : v ≠ 0) : 2 ^ (bitLengthInt v - 1) ≤ v.natAbs :=
  pow_bitLength_le (Int.natAbs_ne_zero.2 hv)

/-! ### The value bits of an integer (R266) -/

@[simp] theorem entBits_zero : entBits 0 = [] := rfl

@[simp] theorem entBits_length (v : Int) : (entBits v).length = bitLengthInt v := by
  unfold entBits
  split
  · next h => simp [h]
  · split <;> exact binN_length _ _

theorem entBits_ne_nil {v : Int} (hv : v ≠ 0) : entBits v ≠ [] := by
  rw [← List.length_pos_iff, entBits_length]
  exact bitLengthInt_pos hv

/-- R266: a positive integer is spelled directly, a negative one by the one's complement of its magnitude. -/
theorem valOf_entBits {v : Int} (hv : v ≠ 0) :
    valOf (entBits v) = if 0 < v then v.natAbs else 2 ^ bitLengthInt v - 1 - v.natAbs := by
  have hlt := natAbs_lt_pow_bitLengthInt v
  rw [entBits, if_neg (bitLengthInt_pos hv).ne']
  split <;> rw [valOf_binN, Nat.mod_eq_of_lt (by omega)]

/-! ### The two directions of the code (R275) -/

theorem entValue_true (bits : Bits) : entValue (true :: bits) = ((2 ^ bits.length + valOf bits : Nat) : Int) := by
  simp [entValue, valOf_cons]

/-- The one's complement of `0…` is a magnitude in the upper half. -/
theorem entValue_false (bits : Bits) :
    entValue (false :: bits) = -((2 ^ bits.length + (2 ^ bits.length - 1 - valOf bits) : Nat) : Int) := by
  have hlt := valOf_lt bits
  have hval : entValue (false :: bits) = (valOf bits : Int) - (2 ^ (bits.length + 1) - 1) := by simp [entValue, valOf_cons]
  rw [hval, pow_succ']
  zify at hlt
  push_cast [Nat.sub_sub, Nat.cast_sub (show 1 + valOf bits ≤ 2 ^ bits.length by zify; omega)]
  ring

/-- R275: every string of n bits stands for an integer of size n. -/
theorem bitLengthInt_entValue (bits : Bits) : bitLengthInt (entValue bits) = bits.length := by
  match bits with
  | [] => rfl
  | true :: bits =>
    have hlt := valOf_lt bits
    rw [entValue_true, bitLengthInt, Int.natAbs_natCast]
    exact bitLength_eq_succ (by omega) (by rw [pow_succ']; omega)
  | false :: bits =>
    have hlt := valOf_lt bits
    rw [entValue_false, bitLengthInt, Int.natAbs_neg, Int.natAbs_natCast]
    exact bitLength_eq_succ (by omega) (by rw [pow_succ']; omega)

theorem entBits_entValue (bits : Bits) : entBits (entValue bits) = bits := by
  rw [entBits, bitLengthInt_entValue]
  match bits with
  | [] => rfl
  | true :: bits =>
    have hpos : 0 < entValue (true :: bits) := by rw [entValue_true]; positivity
    have hval : (entValue (true :: bits)).natAbs = valOf (true :: bits) := by
      rw [entValue_true, Int.natAbs_natCast, valOf_cons, Bool.toNat_true, Nat.one_mul]
    rw [if_neg (by simp), if_pos hpos, hval, binN_valOf]
  | false :: bits =>
    have hlt := valOf_lt bits
    have hneg : ¬ 0 < entValue (false :: bits) := by rw [entValue_false]; omega
    have hval : 2 ^ (false :: bits).length - 1 - (entValue (false :: bits)).natAbs = valOf (false :: bits) := by
      rw [entValue_false, Int.natAbs_neg, Int.natAbs_natCast, valOf_cons, List.length_cons, pow_succ', Bool.toNat_false]
      omega
    rw [if_neg (by simp), if_neg hneg, hval, binN_valOf]

/-- R275: no two integers have the same value bits, since length and value of the bits fix the sign and the magnitude. -/
theorem entBits_injective {v w : Int} (h : entBits v = entBits w) : v = w := by
  have hlen : bitLengthInt v = bitLengthInt w := by rw [← entBits_length, h, entBits_length]
  by_cases hv : v = 0
  · rw [hv, bitLengthInt_eq_zero.2 rfl, eq_comm, bitLengthInt_eq_zero] at hlen
    rw [hv, hlen]
  · have hw : w ≠ 0 := fun hw => hv (bitLengthInt_eq_zero.1 (hlen.trans (bitLengthInt_eq_zero.2 hw)))
    have hvlo := pow_bitLengthInt_le hv
    have hwlo := pow_bitLengthInt_le hw
    have hvhi := natAbs_lt_pow_bitLengthInt v
    have hwhi := natAbs_lt_pow_bitLengthInt w
    have hval := (valOf_entBits hv).symm.trans ((congrArg valOf h).trans (valOf_entBits hw))
    have hpow : 2 ^ bitLengthInt w = 2 * 2 ^ (bitLengthInt w - 1) := by
      rw [← pow_succ', Nat.sub_add_cancel (bitLengthInt_pos hw)]
    rw [hlen] at hvlo hvhi hval
    split at hval <;> split at hval <;> omega

theorem entValue_entBits (v : Int) : entValue (entBits v) = v := entBits_injective (entBits_entValue (entBits v))

/-- R275: the value bits start with 1 exactly for a positive integer. -/
theorem head_entBits {v : Int} {b : Bool} {bits : Bits} (h : entBits v = b :: bits) : b = true ↔ 0 < v := by
  rw [← entValue_entBits v, h]
  cases b
  · have hlt := valOf_lt bits
    simp only [Bool.false_eq_true, false_iff, entValue_false]
    omega
  · simp only [true_iff, entValue_true]
    positivity

/-- R268: a value field that is there is read, and what follows it is left. -/
theorem entDecode_apply (bits : Bits) (rest : List Byte) (c : Coder) (h : c.line = chars bits ++ rest) :
    entDecode bits.length c = .ok (entValue bits) { c with line := rest, pos := c.pos + bits.length } := by
  simp [entDecode, takeBits_chars bits rest c h]

/-- Settles O48: `entBits` and `entValue` undo each other and keep the size. -/
theorem valueCodeIsBijection : Obligations.ValueCodeIsBijection := by
  refine ⟨fun v => ⟨entValue_entBits v, entBits_length v⟩, fun bits => ⟨bitLengthInt_entValue bits, entBits_entValue bits⟩,
    fun v b bits => head_entBits, fun v rest c hline => ?_⟩
  have hdec := entDecode_apply (entBits v) rest c hline
  rwa [entBits_length, entValue_entBits] at hdec

/-! ### ENT.ENC -/

theorem exec_entEnc (s : State) :
    exec .entEnc s = runUnit .compute (fun s => s.a.unread 0) (encodeAndReport (putBits (entBits s.a.val))) s := rfl

/-- Settles O46: the value bits are put, and they are the bits of R266. -/
theorem entEncPutsValueBits : Obligations.EntEncPutsValueBits := by
  intro s hwritten
  have hbad : s.a.unread 0 = [] := (Reg.unread_nil _ _).2 hwritten
  obtain ⟨t, ht, hcompleted⟩ := runUnit_encodeAndReport_ok (bad := fun s => s.a.unread 0)
    (m := putBits (entBits s.a.val)) (bits := entBits s.a.val) hbad rfl
  refine ⟨t, entBits s.a.val, ht, ?_, fun hzero => by rw [hzero, entBits_zero], fun hne => ?_⟩
  · rwa [entBits_length] at hcompleted
  · rw [entBits_length]
    exact ⟨pow_bitLengthInt_le hne, natAbs_lt_pow_bitLengthInt _, valOf_entBits hne⟩

end Sys2Proof.Machine
end

section
/-! RLE.ENC (46_rle_entropy.md R269 to R272): `EncodeBlock` puts the symbols of the block one after the other, up to the first that its
codebook does not hold. -/

namespace Sys2Proof.Machine

open Sys2Proof.Claims

/-! ### Putting symbols -/

/-- How a piece over the coder ends, as far as `OUT` and the command see it: what it raised, and the bits put by then. -/
def sinkOutcome (r : EStateM.Result Raise Coder Unit) : Option Raise × Bits :=
  match r with
  | .ok _ c => (none, c.bits)
  | .error e c => (some e, c.bits)

/-- Putting symbols one after the other behind the bits already put: the first without a codeword is refused (R270). -/
def putItems : Bits → List BlockItem → Option Raise × Bits
  | put, [] => (none, put)
  | put, x :: xs =>
    match x.code with
    | some code => putItems (put ++ (code ++ entBits x.value)) xs
    | none => (some ⟨.corruptCodeword, some x.blame⟩, put)

theorem sinkOutcome_ok {r : EStateM.Result Raise Coder Unit} {bits : Bits} (h : sinkOutcome r = (none, bits)) :
    ∃ c, r = .ok () c ∧ c.bits = bits := by
  cases r with
  | ok a c => exact ⟨c, rfl, by simpa [sinkOutcome] using h⟩
  | error e c => simp [sinkOutcome] at h

theorem sinkOutcome_error {r : EStateM.Result Raise Coder Unit} {e : Raise} {bits : Bits} (h : sinkOutcome r = (some e, bits)) :
    ∃ c, r = .error e c ∧ c.bits = bits := by
  cases r with
  | ok a c => simp [sinkOutcome] at h
  | error e' c =>
    obtain ⟨rfl, rfl⟩ : e' = e ∧ c.bits = bits := by simpa [sinkOutcome] using h
    exact ⟨c, rfl, rfl⟩

/-- Putting one symbol, its codeword and its value bits, and going on. -/
theorem sinkOutcome_putItem (x : BlockItem) (next : Run Coder Unit) (c : Coder) :
    sinkOutcome ((do putCode x.code x.blame; putBits (entBits x.value); next) c)
      = match x.code with
        | some code => sinkOutcome (next { c with bits := c.bits ++ (code ++ entBits x.value) })
        | none => (some ⟨.corruptCodeword, some x.blame⟩, c.bits) := by
  rw [Run.bind_apply, putCode_apply]
  cases x.code with
  | none => rfl
  | some code => simp [Run.bind_apply]

@[simp] theorem itemBits_nil : itemBits [] = [] := rfl

@[simp] theorem itemBits_append (xs ys : List BlockItem) : itemBits (xs ++ ys) = itemBits xs ++ itemBits ys := List.flatMap_append

theorem itemBits_cons (x : BlockItem) (xs : List BlockItem) :
    itemBits (x :: xs) = x.code.getD [] ++ entBits x.value ++ itemBits xs := List.flatMap_cons

theorem held_cons {x : BlockItem} {xs : List BlockItem} : Held (x :: xs) ↔ (∃ code, x.code = some code) ∧ Held xs := by
  simp [Held, Option.isSome_iff_exists]

theorem held_append {xs ys : List BlockItem} : Held (xs ++ ys) ↔ Held xs ∧ Held ys := List.forall_mem_append

/-- Symbols that the codebooks hold go out one after the other. -/
theorem putItems_append_of_held {xs : List BlockItem} (h : Held xs) (put : Bits) (ys : List BlockItem) :
    putItems put (xs ++ ys) = putItems (put ++ itemBits xs) ys := by
  induction xs generalizing put with
  | nil => simp
  | cons x xs ih =>
    obtain ⟨⟨code, hcode⟩, hxs⟩ := held_cons.1 h
    simp [putItems, hcode, ih hxs, itemBits_cons]

theorem putItems_of_held {xs : List BlockItem} (h : Held xs) (put : Bits) : putItems put xs = (none, put ++ itemBits xs) := by
  simpa [putItems] using putItems_append_of_held h put []

theorem putItems_of_missing {before after : List BlockItem} {x : BlockItem} (h : Held before) (hx : x.code = none) (put : Bits) :
    putItems put (before ++ x :: after) = (some ⟨.corruptCodeword, some x.blame⟩, put ++ itemBits before) := by
  simp [putItems_append_of_held h, putItems, hx]

/-! ### The AC symbols -/

/-- R270: the zeros after the last coefficient are one (0,0). -/
theorem acItems_allZero (ac : Trie) (gap : Nat) {vs : List Int} (h : ∀ v ∈ vs, v = 0) (hne : vs = [] → gap ≠ 0) :
    acItems ac gap vs = [⟨lookupAc ac symEob, 0, symEob⟩] := by
  induction vs generalizing gap with
  | nil => exact if_neg (hne rfl)
  | cons v vs ih =>
    obtain ⟨rfl, hvs⟩ := List.forall_mem_cons.1 h
    simpa [acItems] using ih (gap + 1) hvs (by simp)

/-- R270: sixteen zeros before a coefficient that is not 0 are one (15,0). -/
theorem acItems_sixteen (ac : Trie) (gap : Nat) {vs : List Int} (h : ∃ v ∈ vs, v ≠ 0) :
    acItems ac (gap + 16) vs = ⟨lookupAc ac symZrl, 0, symZrl⟩ :: acItems ac gap vs := by
  induction vs generalizing gap with
  | nil => simp at h
  | cons v vs ih =>
    by_cases hv : v = 0
    · subst hv
      have := ih (gap + 1) (by simpa using h)
      simpa [acItems, Nat.add_right_comm] using this
    · simp [acItems, hv, List.replicate_succ, symZrl]

/-- The sum of R270 as the symbol of `acItem`. -/
theorem acItem_of_size_le {ac : Trie} {run : Nat} {v : Int} (h : ¬ 15 < bitLengthInt v) :
    acItem ac run v = ⟨lookupAc ac (16 * run + bitLengthInt v), v, 16 * run + bitLengthInt v⟩ := by
  rw [acItem, if_neg h]
  push_cast
  rfl

/-- R270: from any position on, the AC loop puts the symbols of the coefficients left, with the pending zeros of `ZRUN`. -/
theorem sinkOutcome_encodeAc (ac : Trie) (vs : List Int) (c : Coder) (hrun : c.zrun < 16) (hend : vs = [] → c.zrun = 0) :
    sinkOutcome (encodeAc ac vs c) = putItems c.bits (acItems ac c.zrun vs) := by
  induction vs generalizing c with
  | nil => simp [encodeAc, acItems, hend, putItems, sinkOutcome]
  | cons v vs ih =>
    rw [encodeAc]
    split
    · next hzero =>
      have hall : ∀ w ∈ v :: vs, w = 0 := by simpa using hzero
      rw [acItems_allZero ac _ hall (by simp), putCode_apply]
      cases lookupAc ac symEob <;> simp [putItems, sinkOutcome]
    · next hzero =>
      split
      · next hv =>
        subst hv
        have hlater : ∃ w ∈ vs, w ≠ 0 := by simpa using hzero
        have hne : vs ≠ [] := by
          rintro rfl
          simp at hlater
        by_cases hfull : c.zrun + 1 = 16
        · have hgap : acItems ac c.zrun (0 :: vs) = ⟨lookupAc ac symZrl, 0, symZrl⟩ :: acItems ac 0 vs := by
            rw [acItems, if_pos rfl, hfull]
            exact acItems_sixteen ac 0 hlater
          rw [hgap]
          cases lookupAc ac symZrl with
          | none => simp [hfull, putCode, putItems, sinkOutcome]
          | some code =>
            simpa [hfull, putCode, putItems] using ih { c with zrun := 0, bits := c.bits ++ code } (by simp) (by simp)
        · have hcount : c.zrun + 1 < 16 := by omega
          simpa [hfull, acItems] using ih { c with zrun := c.zrun + 1 } hcount (fun h => absurd h hne)
      · next hv =>
        have hgap : acItems ac c.zrun (v :: vs) = acItem ac c.zrun v :: acItems ac 0 vs := by
          simp [acItems, hv, Nat.div_eq_of_lt hrun, Nat.mod_eq_of_lt hrun]
        rw [hgap]
        split
        · next hsize => simp [acItem, hsize, putItems, sinkOutcome]
        · next hsize =>
          rw [acItem_of_size_le hsize]
          have hput := sinkOutcome_putItem ⟨lookupAc ac (16 * c.zrun + bitLengthInt v), v, 16 * c.zrun + bitLengthInt v⟩
            (do modify fun c => { c with zrun := 0 }; encodeAc ac vs) c
          rw [putItems]
          refine Eq.trans hput ?_
          cases lookupAc ac (16 * c.zrun + bitLengthInt v) with
          | none => rfl
          | some code => exact ih { c with zrun := 0, bits := _ } (by simp) (by simp)

/-! ### The block and the command -/

/-- R269, R270: `EncodeBlock` puts the symbols of the block. -/
theorem sinkOutcome_encodeBlock (dc ac : Trie) (first : Int) (vs : List Int) (c : Coder) :
    sinkOutcome (encodeBlock dc ac first vs c) = putItems c.bits (blockItems dc ac (first :: vs)) := by
  have hput := sinkOutcome_putItem ⟨lookupDc dc (bitLengthInt first), first, bitLengthInt first⟩
    (do modify fun c => { c with zrun := 0 }; encodeAc ac vs) c
  rw [blockItems, putItems]
  refine Eq.trans hput ?_
  cases lookupDc dc (bitLengthInt first) with
  | none => rfl
  | some code => exact sinkOutcome_encodeAc ac vs { c with zrun := 0, bits := _ } (by simp) (by simp)

/-- `EncodeBlock` on the `SEQ` of s. -/
def encodeSeqOf (s : State) : Run Coder Unit :=
  encodeBlock (dcTrie s.cfg.toConfig s.chroma) (acTrie s.cfg.toConfig s.chroma) s.blk.seq[0].val
    ((blockVals s.blk.seq).toList.drop 1)

theorem seqVals_eq_blockVals (seq : Vector (Reg Int) 64) : seq.toList.map Reg.val = (blockVals seq).toList := by
  simp [blockVals, Vector.toList_map]

/-- The coefficients of `SEQ`: the first, and the others. -/
theorem seqVals_eq_cons (seq : Vector (Reg Int) 64) :
    seq.toList.map Reg.val = seq[0].val :: (blockVals seq).toList.drop 1 := by
  have hlen : 0 < (blockVals seq).toList.length := by simp
  rw [seqVals_eq_blockVals, ← List.drop_zero (l := (blockVals seq).toList), List.drop_eq_getElem_cons hlen]
  simp [blockVals]

theorem sinkOutcome_encodeSeqOf (s : State) : sinkOutcome (encodeSeqOf s .fresh) = putItems [] (seqItems s) := by
  rw [seqItems, seqVals_eq_cons]
  exact sinkOutcome_encodeBlock _ _ _ _ _

section

variable {s : State} {bits : Bits}

/-- R323: the block code is on `OUT` as characters. -/
theorem exec_rleEnc_completed (hwritten : ∀ k : Fin 64, s.blk.seq[k.1].written = true) (h : putItems [] (seqItems s) = (none, bits)) :
    ∃ t, exec .rleEnc s = .next t ∧ Completed s (wrote s (chars bits) s.io.inp false) t := by
  obtain ⟨c, hc, rfl⟩ := sinkOutcome_ok ((sinkOutcome_encodeSeqOf s).trans h)
  have hbad : offUnless (allWritten s.blk.seq) = [] := (offUnless_nil _).2 ((allWritten_iff _).2 hwritten)
  have hcoder : BlockUnit.encodeSeq s.cfg.toConfig s.chroma (s.start .compute).dropChannel.sinkBlk = .ok () { s.blk with coder := c } :=
    onCoder_ok hc
  refine ⟨_, runUnit_ok (bad := fun s => offUnless (allWritten s.blk.seq)) hbad (withSink_ok hcoder), ?_⟩
  rw [wrote, ← ended_outBytes_openOut]
  rfl

/-- R322: the bits before the exception are on `OUT`. -/
theorem exec_rleEnc_raised {e : Exc} {i : Int} (hwritten : ∀ k : Fin 64, s.blk.seq[k.1].written = true)
    (h : putItems [] (seqItems s) = (some ⟨e, some i⟩, bits)) :
    ∃ t, exec .rleEnc s = .next t ∧ Raised s (wrote s (chars bits) s.io.inp false) e i t := by
  obtain ⟨c, hc, rfl⟩ := sinkOutcome_error ((sinkOutcome_encodeSeqOf s).trans h)
  have hbad : offUnless (allWritten s.blk.seq) = [] := (offUnless_nil _).2 ((allWritten_iff _).2 hwritten)
  have hcoder : BlockUnit.encodeSeq s.cfg.toConfig s.chroma (s.start .compute).dropChannel.sinkBlk
      = .error ⟨e, some i⟩ { s.blk with coder := c } := onCoder_error hc
  refine ⟨_, runUnit_error (bad := fun s => offUnless (allWritten s.blk.seq)) hbad (withSink_error hcoder), ?_⟩
  rw [wrote, ← ended_outBytes_openOut]
  rfl

/-- R270: the symbols of a block of zeros. -/
theorem seqItems_zero (h : ∀ k : Fin 64, s.blk.seq[k.1] = ⟨0, true⟩) :
    seqItems s = [⟨lookupDc (dcTrie s.cfg.toConfig s.chroma) 0, 0, 0⟩, ⟨lookupAc (acTrie s.cfg.toConfig s.chroma) symEob, 0, symEob⟩] := by
  have hseq : s.blk.seq.toList.map Reg.val = 0 :: List.replicate 63 0 := by
    rw [show s.blk.seq = Vector.replicate 64 ⟨0, true⟩ from Vector.ext fun i hi => by simpa using h ⟨i, hi⟩]
    simp [List.replicate_succ]
  have hac := acItems_allZero (acTrie s.cfg.toConfig s.chroma) 0 (vs := List.replicate 63 0) (by simp) (by simp)
  rw [seqItems, hseq, blockItems, hac]
  rfl

end

/-- Settles O50: putting symbols stops at the first without a codeword, and a block of zeros has two symbols. -/
theorem blockCodeEdges : Obligations.BlockCodeEdges := by
  refine ⟨fun s before after item hwritten hitems hbefore hitem => ?_, fun s dc eob hzero hdc heob => ?_⟩
  · exact exec_rleEnc_raised hwritten (by rw [hitems, putItems_of_missing hbefore hitem, List.nil_append])
  · have hput : putItems [] (seqItems s) = (none, dc ++ eob) := by
      rw [seqItems_zero hzero, hdc, symEob, heob]
      simp [putItems]
    exact exec_rleEnc_completed (fun k => by rw [hzero k]) hput

end Sys2Proof.Machine
end

section
/-! RLE.DEC reading a block code (46_rle_entropy.md R276 to R279): `DecodeBlock` after the first symbols of a block code, then how it ends. -/

namespace Sys2Proof.Machine

open Sys2Proof.Claims

/-! ### `SEQ` while it is being filled -/

/-- The contents of `SEQ` when the coefficients `done` have been written over `seq`. -/
def overwritten (seq : Vector (Reg Int) 64) (done : List Int) : Vector (Reg Int) 64 :=
  Vector.ofFn fun k : Fin 64 => ((done[k.1]?).map Reg.of).getD seq[k.1]

theorem overwritten_getElem (seq : Vector (Reg Int) 64) (done : List Int) (i : Nat) (hi : i < 64) :
    (overwritten seq done)[i] = ((done[i]?).map Reg.of).getD seq[i] := by simp [overwritten]

@[simp] theorem overwritten_nil (seq : Vector (Reg Int) 64) : overwritten seq [] = seq :=
  Vector.ext fun i hi => by simp [overwritten_getElem]

/-- The next coefficient is written behind those written so far. -/
theorem setIfInBounds_overwritten (seq : Vector (Reg Int) 64) (done : List Int) (v : Int) :
    (overwritten seq done).setIfInBounds done.length (.of v) = overwritten seq (done ++ [v]) := by
  refine Vector.ext fun i hi => ?_
  rw [Vector.getElem_setIfInBounds hi, overwritten_getElem, overwritten_getElem]
  rcases Nat.lt_trichotomy i done.length with h | rfl | h
  · simp [h.ne', List.getElem?_append_left h]
  · simp
  · simp [h.ne, List.getElem?_eq_none (show (done ++ [v]).length ≤ i by simp; omega), List.getElem?_eq_none h.le]

/-- When all 64 coefficients are there nothing is left of the old contents. -/
theorem overwritten_toList (seq : Vector (Reg Int) 64) (vals : Vector Int 64) :
    overwritten seq vals.toList = vals.map fun v => ⟨v, true⟩ :=
  Vector.ext fun i hi => by simp [overwritten_getElem, Reg.of, hi]

/-- The block unit while the characters `line` are left, `pos` have been taken, and the coefficients `done` read. -/
def BlockUnit.decoding (b : BlockUnit) (done : List Int) (line : List Byte) (pos : Nat) : BlockUnit :=
  { b with seq := overwritten b.seq done, coder := .reading line pos }

section

variable {b : BlockUnit} {done : List Int} {line : List Byte} {pos : Nat}

theorem setSeq_decoding (v : Int) :
    setSeq done.length v (b.decoding done line pos) = .ok () (b.decoding (done ++ [v]) line pos) := by
  simp [setSeq, BlockUnit.decoding, setIfInBounds_overwritten]

theorem zeroSeq_decoding (n : Nat) :
    zeroSeq done.length n (b.decoding done line pos) = .ok () (b.decoding (done ++ List.replicate n 0) line pos) := by
  induction n generalizing done with
  | zero => simp [zeroSeq]
  | succ n ih =>
    have := ih (done := done ++ [0])
    rw [List.length_append, List.length_singleton] at this
    simp [zeroSeq, setSeq_decoding, this, List.replicate_succ]

theorem onCoder_decoding_ok {α : Type} {m : Run Coder α} {a : α} {rest : List Byte} {pos' : Nat}
    (h : m (.reading line pos) = .ok a (.reading rest pos')) :
    onCoder m (b.decoding done line pos) = .ok a (b.decoding done rest pos') := by
  rw [BlockUnit.decoding, onCoder_apply, h, BlockUnit.decoding]

theorem onCoder_decoding_error {α : Type} {m : Run Coder α} {r : Raise} {rest : List Byte} {pos' : Nat}
    (h : m (.reading line pos) = .error r (.reading rest pos')) :
    onCoder m (b.decoding done line pos) = .error r (b.decoding done rest pos') := by
  rw [BlockUnit.decoding, onCoder_apply, h, BlockUnit.decoding]

/-- R268: the value after a codeword. -/
theorem entDecode_decoding (raw : Bits) (tail : List Byte) :
    onCoder (entDecode raw.length) (b.decoding done (chars raw ++ tail) pos)
      = .ok (entValue raw) (b.decoding done tail (pos + raw.length)) :=
  onCoder_decoding_ok (entDecode_apply raw tail (.reading (chars raw ++ tail) pos) rfl)

end

/-- Every codebook a block uses meets its check from the root on. -/
theorem nextTrie_wfAt (s : State) (done : List Int) : ∃ dc, Trie.wfAt dc [] (nextTrie s done) = true := by
  have hdc := codebook_wf s.cfg s.chroma.toNat
  have hac := codebook_wf s.cfg (2 + s.chroma.toNat)
  unfold nextTrie
  split
  · cases h : s.chroma <;> rw [h] at hdc <;> exact ⟨_, Trie.wfAt_of_wf hdc⟩
  · cases h : s.chroma <;> rw [h] at hac <;> exact ⟨_, Trie.wfAt_of_wf hac⟩

/-- R253: the next codeword of a block code. -/
theorem huffDecode_decoding {s : State} {b : BlockUnit} {done : List Int} {sym : Nat} {code : Bits}
    (hl : (sym, code) ∈ leaves (nextTrie s done)) (tail : List Byte) (pos : Nat) :
    onCoder (huffDecode (nextTrie s done) 0) (b.decoding done (chars code ++ tail) pos)
      = .ok sym (b.decoding done tail (pos + code.length)) := by
  obtain ⟨dc, hwf⟩ := nextTrie_wfAt s done
  exact onCoder_decoding_ok (huffDecode_leaf hwf hl 0 (.reading (chars code ++ tail) pos) tail rfl)

/-! ### One turn of the AC loop (R276, R278) -/

section

variable {ac : Trie} {fuel i sym : Nat} {b c : BlockUnit}

theorem decodeAc_past (h : 63 < i) : decodeAc ac fuel i b = .ok () b := by
  cases fuel <;> simp [decodeAc, h]

theorem decodeAc_error {r : Raise} (hi : i ≤ 63) (h : onCoder (huffDecode ac 0) b = .error r c) :
    decodeAc ac (fuel + 1) i b = .error r c := by
  rw [decodeAc, if_neg (by omega), Run.bind_apply, h]

theorem decodeAc_eob (hi : i ≤ 63) (h : onCoder (huffDecode ac 0) b = .ok 0 c) :
    decodeAc ac (fuel + 1) i b = zeroSeq i (64 - i) c := by
  rw [decodeAc, if_neg (by omega), Run.bind_apply, h]
  rfl

theorem decodeAc_zrl (hfit : i + 16 ≤ 64) (h : onCoder (huffDecode ac 0) b = .ok 0xF0 c) :
    decodeAc ac (fuel + 1) i b = (do zeroSeq i 16; decodeAc ac fuel (i + 16)) c := by
  rw [decodeAc, if_neg (by omega), Run.bind_apply, h]
  simp [show ¬ 64 < i + 16 by omega]

theorem decodeAc_pair (hsize : sym % 16 ≠ 0) (hfit : i + sym / 16 ≤ 63) (hsym : sym ≤ 255)
    (h : onCoder (huffDecode ac 0) b = .ok sym c) :
    decodeAc ac (fuel + 1) i b = (do
      zeroSeq i (sym / 16)
      let v ← onCoder (entDecode (sym % 16))
      setSeq (i + sym / 16) v
      decodeAc ac fuel (i + sym / 16 + 1)) c := by
  rw [decodeAc, if_neg (by omega), Run.bind_apply, h]
  simp only [if_neg hsize, if_neg (show ¬ (63 < i + sym / 16 ∨ 255 < sym) by omega)]

theorem decodeAc_illegal {done : List Int} (hill : SymbolIllegal done sym) (hi : done.length ≤ 63)
    (h : onCoder (huffDecode ac 0) b = .ok sym c) :
    decodeAc ac (fuel + 1) done.length b = .error ⟨.corruptCodeword, some sym⟩ c := by
  rw [decodeAc, if_neg (by omega), Run.bind_apply, h]
  obtain ⟨-, ⟨hsize, hrun⟩ | ⟨rfl, hrun⟩ | ⟨hsize, hrun0, hrun15⟩⟩ := hill
  · simp [hsize, hrun]
  · simp [hrun]
  · simp [hsize, hrun0, hrun15]

end

/-! ### After the first symbols of a block code -/

/-- What is left of `DecodeBlock` when the coefficients `done` have been read. -/
def resumeBlock (s : State) (fuel : Nat) (done : List Int) : Run BlockUnit Unit :=
  if done = [] then decodeBlock s.cfg.toConfig s.chroma else decodeAc (acTrie s.cfg.toConfig s.chroma) fuel done.length

/-- The count of turns does not end the loop before position 63 (log 16). -/
def FuelFor (fuel : Nat) (done : List Int) : Prop := done = [] ∨ 64 ≤ fuel + done.length

theorem resumeBlock_nil (s : State) (fuel : Nat) : resumeBlock s fuel [] = decodeBlock s.cfg.toConfig s.chroma := if_pos rfl

theorem resumeBlock_of_ne_nil {s : State} {fuel : Nat} {done : List Int} (h : done ≠ []) :
    resumeBlock s fuel done = decodeAc (acTrie s.cfg.toConfig s.chroma) fuel done.length := if_neg h

theorem nextTrie_nil (s : State) : nextTrie s [] = dcTrie s.cfg.toConfig s.chroma := if_pos rfl

theorem nextTrie_of_ne_nil {s : State} {done : List Int} (h : done ≠ []) :
    nextTrie s done = acTrie s.cfg.toConfig s.chroma := if_neg h

theorem symbolFits_nil {sym n size : Nat} : SymbolFits [] sym n size ↔ n = 0 ∧ size = sym := by simp [SymbolFits]

theorem symbolFits_of_ne_nil {done : List Int} {sym n size : Nat} (h : done ≠ []) :
    SymbolFits done sym n size ↔
      (sym = 0xF0 ∧ n = 16 ∧ size = 0 ∧ done.length + 16 ≤ 64)
        ∨ (sym ≤ 255 ∧ sym % 16 ≠ 0 ∧ n = sym / 16 ∧ size = sym % 16 ∧ done.length + sym / 16 ≤ 63) := by
  rw [SymbolFits, if_neg h]

theorem FuelFor.exists_succ {fuel : Nat} {done : List Int} (h : FuelFor fuel done) (hne : done ≠ []) (hlen : done.length ≤ 63) :
    ∃ f, fuel = f + 1 ∧ 64 ≤ f + (done.length + 1) := by
  obtain h | h := h
  · exact absurd h hne
  · exact ⟨fuel - 1, by omega, by omega⟩

section

variable {s : State} {fuel sym n size : Nat} {done : List Int} {b c : BlockUnit}

/-- An exception of the next codeword ends the decoding. -/
theorem resumeBlock_error {r : Raise} (hf : FuelFor fuel done) (hlen : done.length < 64)
    (h : onCoder (huffDecode (nextTrie s done) 0) b = .error r c) : resumeBlock s fuel done b = .error r c := by
  by_cases hne : done = []
  · subst hne
    rw [nextTrie_nil] at h
    rw [resumeBlock_nil, decodeBlock, Run.bind_apply, h]
  · obtain ⟨f, rfl, -⟩ := hf.exists_succ hne (by omega)
    rw [nextTrie_of_ne_nil hne] at h
    rw [resumeBlock_of_ne_nil hne, decodeAc_error (by omega) h]

/-- A (15,0) is sixteen zeros. -/
theorem resumeBlock_zrl (hf : FuelFor fuel done) (hne : done ≠ []) (hfit : done.length + 16 ≤ 64)
    (h : onCoder (huffDecode (nextTrie s done) 0) b = .ok 0xF0 c) :
    ∃ f, 64 ≤ f + (done.length + 16)
      ∧ resumeBlock s fuel done b
        = (do zeroSeq done.length 16; decodeAc (acTrie s.cfg.toConfig s.chroma) f (done.length + 16)) c := by
  obtain ⟨f, rfl, hf'⟩ := hf.exists_succ hne (by omega)
  rw [nextTrie_of_ne_nil hne] at h
  exact ⟨f, by omega, by rw [resumeBlock_of_ne_nil hne, decodeAc_zrl hfit h]⟩

/-- A category or a pair is zeros and a value. -/
theorem resumeBlock_value (hf : FuelFor fuel done) (hfits : SymbolFits done sym n size) (hsize : done = [] ∨ size ≠ 0)
    (h : onCoder (huffDecode (nextTrie s done) 0) b = .ok sym c) :
    ∃ f, 64 ≤ f + (done.length + n + 1)
      ∧ resumeBlock s fuel done b = (do
          zeroSeq done.length n
          let v ← onCoder (entDecode size)
          setSeq (done.length + n) v
          decodeAc (acTrie s.cfg.toConfig s.chroma) f (done.length + n + 1)) c := by
  by_cases hne : done = []
  · subst hne
    obtain ⟨rfl, rfl⟩ := symbolFits_nil.1 hfits
    rw [nextTrie_nil] at h
    exact ⟨63, by simp, by rw [resumeBlock_nil, decodeBlock, Run.bind_apply, h]; rfl⟩
  · obtain ⟨-, -, hzero, -⟩ | ⟨hsym, hmod, rfl, rfl, hfit⟩ := (symbolFits_of_ne_nil hne).1 hfits
    · exact absurd hzero (hsize.resolve_left hne)
    · obtain ⟨f, rfl, hf'⟩ := hf.exists_succ hne (by omega)
      rw [nextTrie_of_ne_nil hne] at h
      exact ⟨f, by omega, by rw [resumeBlock_of_ne_nil hne, decodeAc_pair hmod hfit hsym h]⟩

end

/-- The state between two symbols: `DecodeBlock` on `bits` and what follows has read them all and the coefficients `done`. -/
def Resumes (s : State) (done : List Int) (bits : Bits) : Prop :=
  ∀ (b : BlockUnit) (tail : List Byte), ∃ fuel, FuelFor fuel done
    ∧ decodeBlock s.cfg.toConfig s.chroma (b.decoding [] (chars bits ++ tail) 0)
      = resumeBlock s fuel done (b.decoding done tail bits.length)

theorem Resumes.zrl {s : State} {done : List Int} {bits code : Bits} (h : Resumes s done bits) (hne : done ≠ [])
    (hl : (0xF0, code) ∈ leaves (nextTrie s done)) (hfit : done.length + 16 ≤ 64) :
    Resumes s (done ++ List.replicate 16 0) (bits ++ code) := by
  intro b tail
  obtain ⟨fuel, hf, hdec⟩ := h b (chars code ++ tail)
  obtain ⟨f, hf', hres⟩ := resumeBlock_zrl hf hne hfit (huffDecode_decoding (b := b) hl tail bits.length)
  refine ⟨f, .inr (by simpa using hf'), ?_⟩
  rw [chars_append, List.append_assoc, hdec, hres, Run.bind_apply, zeroSeq_decoding, resumeBlock_of_ne_nil (by simp)]
  simp

theorem Resumes.value {s : State} {done : List Int} {bits code raw : Bits} {sym n : Nat} (h : Resumes s done bits)
    (hl : (sym, code) ∈ leaves (nextTrie s done)) (hfits : SymbolFits done sym n raw.length) (hraw : done = [] ∨ raw ≠ []) :
    Resumes s (done ++ List.replicate n 0 ++ [entValue raw]) (bits ++ code ++ raw) := by
  intro b tail
  have hsize : done = [] ∨ raw.length ≠ 0 := hraw.imp id fun hne hzero => hne (List.length_eq_zero_iff.1 hzero)
  obtain ⟨fuel, hf, hdec⟩ := h b (chars code ++ (chars raw ++ tail))
  obtain ⟨f, hf', hres⟩ := resumeBlock_value hf hfits hsize (huffDecode_decoding (b := b) hl (chars raw ++ tail) bits.length)
  have hset := setSeq_decoding (b := b) (done := done ++ List.replicate n 0) (line := tail)
    (pos := bits.length + code.length + raw.length) (entValue raw)
  rw [List.length_append, List.length_replicate] at hset
  refine ⟨f, .inr (by simpa [Nat.add_assoc] using hf'), ?_⟩
  rw [chars_append, chars_append, List.append_assoc, List.append_assoc, hdec, hres, Run.bind_apply, zeroSeq_decoding,
    resumeBlock_of_ne_nil (by simp)]
  simp only [Run.bind_apply, entDecode_decoding, hset]
  simp [Nat.add_assoc]

/-- R276: `DecodeBlock` reads the first symbols of a block code. -/
theorem resumes_of_blockPrefix {s : State} {done : List Int} {bits : Bits} (h : BlockPrefix s done bits) : Resumes s done bits := by
  induction h with
  | start => exact fun b tail => ⟨0, .inl rfl, by rw [resumeBlock_nil]; rfl⟩
  | zeros _ hne hl hfits ih =>
    obtain ⟨rfl, rfl, -, hfit⟩ | ⟨-, hmod, -, hzero, -⟩ := (symbolFits_of_ne_nil hne).1 hfits
    · exact ih.zrl hne hl hfit
    · exact absurd hzero.symm hmod
  | value _ hl hfits hraw ih => exact ih.value hl hfits hraw

/-! ### How `DecodeBlock` ends -/

section

variable {s : State} {done : List Int} {bits : Bits} {tail : List Byte} {b c : BlockUnit}

/-- R276: position 64 is reached. -/
theorem decodeBlock_full (h : BlockPrefix s done bits) (hlen : done.length = 64) :
    decodeBlock s.cfg.toConfig s.chroma (b.decoding [] (chars bits ++ tail) 0) = .ok () (b.decoding done tail bits.length) := by
  obtain ⟨fuel, -, hdec⟩ := resumes_of_blockPrefix h b tail
  have hne : done ≠ [] := by
    rintro rfl
    simp at hlen
  rw [hdec, resumeBlock_of_ne_nil hne, decodeAc_past (by omega)]

/-- R276: (0,0) is the end of the block. -/
theorem decodeBlock_eob {eob : Bits} (h : BlockPrefix s done bits) (hne : done ≠ []) (hlen : done.length < 64)
    (hl : (0x00, eob) ∈ leaves (nextTrie s done)) :
    decodeBlock s.cfg.toConfig s.chroma (b.decoding [] (chars (bits ++ eob) ++ tail) 0)
      = .ok () (b.decoding (done ++ List.replicate (64 - done.length) 0) tail (bits ++ eob).length) := by
  obtain ⟨fuel, hf, hdec⟩ := resumes_of_blockPrefix h b (chars eob ++ tail)
  obtain ⟨f, rfl, -⟩ := hf.exists_succ hne (by omega)
  have hsym := huffDecode_decoding (b := b) hl tail bits.length
  rw [nextTrie_of_ne_nil hne] at hsym
  rw [chars_append, List.append_assoc, hdec, resumeBlock_of_ne_nil hne, decodeAc_eob (by omega) hsym, zeroSeq_decoding,
    List.length_append]

/-- R278: a symbol that cannot stand there. -/
theorem decodeBlock_illegal {sym : Nat} {code : Bits} (h : BlockPrefix s done bits) (hlen : done.length < 64)
    (hl : (sym, code) ∈ leaves (nextTrie s done)) (hill : SymbolIllegal done sym) :
    decodeBlock s.cfg.toConfig s.chroma (b.decoding [] (chars (bits ++ code) ++ tail) 0)
      = .error ⟨.corruptCodeword, some sym⟩ (b.decoding done tail (bits ++ code).length) := by
  obtain ⟨fuel, hf, hdec⟩ := resumes_of_blockPrefix h b (chars code ++ tail)
  have hne : done ≠ [] := hill.1
  obtain ⟨f, rfl, -⟩ := hf.exists_succ hne (by omega)
  have hsym := huffDecode_decoding (b := b) hl tail bits.length
  rw [nextTrie_of_ne_nil hne] at hsym
  rw [chars_append, List.append_assoc, hdec, resumeBlock_of_ne_nil hne, decodeAc_illegal hill (by omega) hsym, List.length_append]

/-- A codeword that is not there: its exception is that of the block. -/
theorem decodeBlock_symbol_error {r : Raise} (h : BlockPrefix s done bits) (hlen : done.length < 64)
    (hsym : onCoder (huffDecode (nextTrie s done) 0) (b.decoding done tail bits.length) = .error r c) :
    decodeBlock s.cfg.toConfig s.chroma (b.decoding [] (chars bits ++ tail) 0) = .error r c := by
  obtain ⟨fuel, hf, hdec⟩ := resumes_of_blockPrefix h b tail
  rw [hdec, resumeBlock_error hf hlen hsym]

/-- A value that is not there: its exception is that of the block. -/
theorem decodeBlock_value_error {r : Raise} {sym n size : Nat} {code : Bits} (h : BlockPrefix s done bits)
    (hl : (sym, code) ∈ leaves (nextTrie s done)) (hfits : SymbolFits done sym n size) (hsize : size ≠ 0)
    (hval : onCoder (entDecode size) (b.decoding (done ++ List.replicate n 0) tail (bits ++ code).length) = .error r c) :
    decodeBlock s.cfg.toConfig s.chroma (b.decoding [] (chars (bits ++ code) ++ tail) 0) = .error r c := by
  obtain ⟨fuel, hf, hdec⟩ := resumes_of_blockPrefix h b (chars code ++ tail)
  obtain ⟨f, -, hres⟩ := resumeBlock_value hf hfits (.inr hsize) (huffDecode_decoding (b := b) hl tail bits.length)
  rw [List.length_append] at hval
  rw [chars_append, List.append_assoc, hdec, hres, Run.bind_apply, zeroSeq_decoding]
  simp only [Run.bind_apply, hval]

end

/-! ### What stands where a bit should (R279, 45_huffman.md R257) -/

/-- What the characters `stop`, of which the first is no bit, raise. -/
def stopRaise : List Byte → Raise
  | [] => ⟨.truncatedStream, none⟩
  | c :: _ => if c = lineFeed then ⟨.truncatedStream, none⟩ else ⟨.corruptCodeword, some c.toNat⟩

section

variable {stop : List Byte} (hstop : ∀ ch ∈ stop.head?, ch ∉ [0x30, 0x31])

include hstop

/-- R257: at such characters no bit is taken; one character is, where there is one. -/
theorem nextBit_stop (c : Coder) (hc : c.line = stop) :
    (stopRaise stop = ⟨.truncatedStream, none⟩
        ∧ nextBit c = .ok none { c with line := stop.tail, pos := c.pos + (stop.take 1).length })
      ∨ nextBit c = .error (stopRaise stop) { c with line := stop.tail, pos := c.pos + (stop.take 1).length } := by
  cases stop with
  | nil =>
    refine .inl ⟨rfl, (nextBit_end hc).trans ?_⟩
    cases c
    simp_all
  | cons ch rest =>
    obtain ⟨h0, h1⟩ : ch ≠ 0x30 ∧ ch ≠ 0x31 := by simpa using hstop
    by_cases hlf : ch = lineFeed
    · exact .inl ⟨if_pos hlf, nextBit_lineFeed (hlf ▸ hc)⟩
    · refine .inr ((nextBit_stray hc h0 h1 hlf).trans ?_)
      simp [stopRaise, hlf]

/-- R253: a codeword of which only the bits `s` are there. -/
theorem huffDecode_stop {dc : Bool} {t : Trie} {path s : Bits} {l : Nat × Bits} (h : Trie.wfAt dc path t = true) (hl : l ∈ leaves t)
    (hp : path.reverse ++ s <+: l.2) (hne : path.reverse ++ s ≠ l.2) (used : Nat) (c : Coder) (hc : c.line = chars s ++ stop) :
    huffDecode t used c
      = .error (stopRaise stop) { c with line := stop.tail, pos := c.pos + s.length + (stop.take 1).length } := by
  induction s generalizing path t used c with
  | nil =>
    obtain ⟨left, right, bound, rfl⟩ := exists_eq_node h hl (by simpa using hne.symm)
    obtain ⟨hraise, hbit⟩ | hbit := nextBit_stop hstop c hc
    · simp [huffDecode, hbit, hraise]
    · simp [huffDecode, hbit]
  | cons b s ih =>
    obtain ⟨left, right, bound, rfl⟩ := exists_eq_node h hl (ne_of_append_cons_isPrefix hp)
    rw [huffDecode_node_bit (b := b) (by simpa using hc),
      ih (wfAt_child h b) (mem_leaves_child h hl hp) (by simpa using hp) (by simpa using hne) _ _ rfl]
    simp [Nat.add_comm, Nat.add_left_comm]

/-- R268: a value field of which only the bits `raw` are there. -/
theorem entDecode_stop {raw : Bits} {size : Nat} (hsize : raw.length < size) (c : Coder) (hc : c.line = chars raw ++ stop) :
    entDecode size c
      = .error (stopRaise stop) { c with line := stop.tail, pos := c.pos + raw.length + (stop.take 1).length } := by
  have htake : takeBits size c
      = .error (stopRaise stop) { c with line := stop.tail, pos := c.pos + raw.length + (stop.take 1).length } := by
    obtain ⟨hraise, hbit⟩ | hbit := nextBit_stop hstop { c with line := stop, pos := c.pos + raw.length } rfl
    · rw [hraise]
      exact takeBits_short raw size c _ stop hc hsize hbit
    · exact takeBits_stray raw size c _ _ stop hc hsize hbit
  simp [entDecode, htake]

/-- R279: where the codeword or the value after the first symbols is cut, the block raises what stands there. -/
theorem decodeBlock_stop {s : State} {done : List Int} {bits code part : Bits} {sym : Nat} (b : BlockUnit)
    (h : BlockPrefix s done bits) (hlen : done.length < 64) (hl : (sym, code) ∈ leaves (nextTrie s done))
    (hpart : (part <+: code ∧ part ≠ code)
      ∨ ∃ (zeros size : Nat) (raw : Bits), SymbolFits done sym zeros size ∧ raw.length < size ∧ part = code ++ raw) :
    ∃ vals, decodeBlock s.cfg.toConfig s.chroma (b.decoding [] (chars (bits ++ part) ++ stop) 0)
      = .error (stopRaise stop) (b.decoding vals stop.tail ((bits ++ part).length + (stop.take 1).length)) := by
  obtain ⟨hp, hne⟩ | ⟨zeros, size, raw, hfits, hsize, rfl⟩ := hpart
  · obtain ⟨dc, hwf⟩ := nextTrie_wfAt s done
    have hcut := huffDecode_stop hstop hwf hl hp hne 0 (.reading (chars part ++ stop) bits.length) rfl
    refine ⟨done, ?_⟩
    rw [chars_append, List.append_assoc, List.length_append]
    exact decodeBlock_symbol_error h hlen (onCoder_decoding_error hcut)
  · have hcut := entDecode_stop hstop hsize (.reading (chars raw ++ stop) (bits ++ code).length) rfl
    refine ⟨done ++ List.replicate zeros 0, ?_⟩
    rw [← List.append_assoc, chars_append, List.append_assoc, List.length_append]
    exact decodeBlock_value_error h hl hfits (by omega) (onCoder_decoding_error hcut)

end

/-! ### The command -/

theorem exec_rleDec (s : State) :
    exec .rleDec s = runUnit .compute (fun _ => []) (rleDecBody s.cfg.toConfig s.chroma) s := rfl

theorem BlockUnit.decoding_nil (b : BlockUnit) (line : List Byte) (pos : Nat) :
    b.decoding [] line pos = { b with coder := .reading line pos } := by simp [BlockUnit.decoding]

/-- The state after RLE.DEC raised with the coefficients `vals` read (R277, R322). -/
def State.rleDecRaised (s : State) (vals : List Int) (rest : List Byte) (pos : Nat) (r : Raise) : State :=
  ((s.start .compute).dropChannel.sourced (s.blk.decoding vals rest pos)).forgetSeq.released.raised r

/-- R277: only `SEQ` and the count of free values are touched when `SEQ` becomes unspecified. -/
theorem forgetSeq_eq (s : State) :
    ∃ seq, s.forgetSeq = { s with blk := { s.blk with seq := seq }, freeCtr := s.freeCtr + 1 } := ⟨_, rfl⟩

/-- R322: beside `SEQ`, what RLE.DEC leaves is what any command leaves that raised. -/
theorem raised_rleDecRaised (s : State) (vals : List Int) (rest : List Byte) (pos : Nat) (r : Raise) :
    Raised { s with blk := { s.blk with seq := (s.rleDecRaised vals rest pos r).blk.seq } }
        (readOnly s ⟨rest, s.io.inp.consumed + pos⟩ false) r.exc (s.rleDecRaised vals rest pos r).errinfo
        (s.rleDecRaised vals rest pos r)
      ∧ ∀ i ∈ r.info, (s.rleDecRaised vals rest pos r).errinfo = i := by
  obtain ⟨seq, hforget⟩ := forgetSeq_eq ((s.start .compute).dropChannel.sourced (s.blk.decoding vals rest pos))
  have hseq : (s.rleDecRaised vals rest pos r).blk.seq = seq := by
    rw [State.rleDecRaised, hforget, State.raised_blk]
    rfl
  rw [hseq, State.rleDecRaised, hforget, BlockUnit.decoding]
  generalize overwritten s.blk.seq vals = written
  obtain ⟨e, _ | i⟩ := r
  · exact ⟨rfl, by simp⟩
  · exact ⟨rfl, by simp [State.raised_errinfo]⟩

section

variable {s : State} {done : List Int} {bits : Bits} {read rest : List Byte} {vals : List Int}

/-- R323: the block was read, and what follows its characters is left. -/
theorem exec_rleDec_completed (hin : s.io.inp.rest = read ++ rest)
    (hm : decodeBlock s.cfg.toConfig s.chroma (s.blk.decoding [] (read ++ rest) 0) = .ok () (s.blk.decoding vals rest read.length)) :
    ∃ t, exec .rleDec s = .next t
      ∧ Completed { s with blk := { s.blk with seq := overwritten s.blk.seq vals } } (readOnly s (leaving s rest) false) t := by
  rw [← hin, BlockUnit.decoding_nil] at hm
  have hsource := withSource_ok (s := (s.start .compute).dropChannel) hm
  have hbody : rleDecBody s.cfg.toConfig s.chroma (s.start .compute).dropChannel
      = .ok () ((s.start .compute).dropChannel.sourced (s.blk.decoding vals rest read.length)) := by
    rw [rleDecBody, hsource]
  exact ⟨_, by rw [exec_rleDec]; exact runUnit_ok rfl hbody, by rw [leaving_of_append hin]; rfl⟩

/-- R322: reading the block raised; the characters it had taken are consumed, and `SEQ` is unspecified (R277). -/
theorem exec_rleDec_raised {r : Raise} (hin : s.io.inp.rest = read ++ rest)
    (hm : decodeBlock s.cfg.toConfig s.chroma (s.blk.decoding [] (read ++ rest) 0)
      = .error r (s.blk.decoding vals rest read.length)) :
    ∃ t, exec .rleDec s = .next t
      ∧ Raised { s with blk := { s.blk with seq := t.blk.seq } } (readOnly s (leaving s rest) false) r.exc t.errinfo t
      ∧ ∀ i ∈ r.info, t.errinfo = i := by
  rw [← hin, BlockUnit.decoding_nil] at hm
  have hsource := withSource_error (s := (s.start .compute).dropChannel) hm
  have hbody : rleDecBody s.cfg.toConfig s.chroma (s.start .compute).dropChannel
      = .error r ((s.start .compute).dropChannel.sourced (s.blk.decoding vals rest read.length)).forgetSeq := by
    rw [rleDecBody, hsource]
  rw [leaving_of_append hin]
  exact ⟨s.rleDecRaised vals rest read.length r, by rw [exec_rleDec]; exact runUnit_error rfl hbody, raised_rleDecRaised _ _ _ _ _⟩

/-- The same where the information is named. -/
theorem exec_rleDec_raised_info {e : Exc} {i : Int} (hin : s.io.inp.rest = read ++ rest)
    (hm : decodeBlock s.cfg.toConfig s.chroma (s.blk.decoding [] (read ++ rest) 0)
      = .error ⟨e, some i⟩ (s.blk.decoding vals rest read.length)) :
    ∃ t, exec .rleDec s = .next t
      ∧ Raised { s with blk := { s.blk with seq := t.blk.seq } } (readOnly s (leaving s rest) false) e i t := by
  obtain ⟨t, ht, hraised, hinfo⟩ := exec_rleDec_raised hin hm
  rw [hinfo i rfl] at hraised
  exact ⟨t, ht, hraised⟩

/-- R279, R257: the command that met `stop` where a bit should be. -/
theorem exec_rleDec_stops {part : Bits} {stop : List Byte} (hstop : ∀ ch ∈ stop.head?, ch ∉ [0x30, 0x31])
    (hin : s.io.inp.rest = chars part ++ stop)
    (hm : decodeBlock s.cfg.toConfig s.chroma (s.blk.decoding [] (chars part ++ stop) 0)
      = .error (stopRaise stop) (s.blk.decoding vals stop.tail (part.length + (stop.take 1).length))) :
    ∃ t, exec .rleDec s = .next t ∧ StopsAt { s with blk := { s.blk with seq := t.blk.seq } } stop t := by
  have hsplit : chars part ++ stop = (chars part ++ stop.take 1) ++ stop.tail := by
    rw [List.append_assoc, ← List.drop_one, List.take_append_drop]
  have hlen : part.length + (stop.take 1).length = (chars part ++ stop.take 1).length := by simp
  rw [hsplit] at hin
  rw [hsplit, hlen] at hm
  obtain ⟨t, ht, hraised, hinfo⟩ := exec_rleDec_raised hin hm
  refine ⟨t, ht, ?_⟩
  cases stop with
  | nil => exact hraised
  | cons ch rest =>
    refine ⟨hstop ch rfl, ?_⟩
    by_cases hlf : ch = lineFeed
    · simp only [stopRaise, if_pos hlf] at hraised
      rw [if_pos hlf]
      exact hraised
    · simp only [stopRaise, if_neg hlf] at hraised hinfo
      rw [if_neg hlf]
      rw [hinfo _ rfl] at hraised
      exact hraised

end

/-- Settles O51: the illegal symbol is read as a codeword and refused, undefined bits end the descent. -/
theorem illegalBlockCodeRejected : Obligations.IllegalBlockCodeRejected := by
  refine fun s done bits rest hprefix hlen => ⟨fun sym code hl hill hin => ?_, fun part hnone hsome hin => ?_⟩
  · exact exec_rleDec_raised_info hin (by rw [chars_length]; exact decodeBlock_illegal hprefix hlen hl hill)
  · obtain ⟨dc, hwf⟩ := nextTrie_wfAt s done
    have hund := huffDecode_undefined hwf hnone hsome 0 (.reading (chars part ++ rest) bits.length) rest rfl
    rw [Nat.zero_add] at hund
    refine exec_rleDec_raised_info (vals := done) hin ?_
    rw [chars_length, chars_append, List.append_assoc, List.length_append]
    exact decodeBlock_symbol_error hprefix hlen (onCoder_decoding_error hund)

/-- A block code that was read whole, at position 64 or by (0,0). -/
theorem exec_rleDec_blockCode {s : State} {done : List Int} {bits eob : Bits} {seq : Vector Int 64} {rest : List Byte}
    (hprefix : BlockPrefix s done bits)
    (hend : (done = seq.toList ∧ eob = [])
      ∨ (done ≠ [] ∧ done.length < 64 ∧ (0x00, eob) ∈ leaves (nextTrie s done)
          ∧ done ++ List.replicate (64 - done.length) 0 = seq.toList))
    (hin : s.io.inp.rest = chars (bits ++ eob) ++ rest) :
    ∃ t, exec .rleDec s = .next t
      ∧ Completed { s with blk := { s.blk with seq := seq.map fun v => ⟨v, true⟩ } } (readOnly s (leaving s rest) false) t := by
  rw [← overwritten_toList s.blk.seq]
  refine exec_rleDec_completed hin ?_
  rw [chars_length]
  obtain ⟨rfl, rfl⟩ | ⟨hne, hlen, hl, hseq⟩ := hend
  · rw [List.append_nil]
    exact decodeBlock_full hprefix (by simp)
  · rw [← hseq]
    exact decodeBlock_eob hprefix hne hlen hl

/-- Settles O52: a whole block code is read, a cut one stops where it is cut. -/
theorem rleDecReadsBlockCode : Obligations.RleDecReadsBlockCode := by
  refine fun s done bits hprefix => ⟨fun seq rest eob hend hin => exec_rleDec_blockCode hprefix hend hin,
    fun hlen sym code part stop hl hpart hstop hin => ?_⟩
  obtain ⟨vals, hdec⟩ := decodeBlock_stop hstop s.blk hprefix hlen hl hpart
  exact exec_rleDec_stops hstop hin hdec

end Sys2Proof.Machine
end

section
/-! The round trip of one block (46_rle_entropy.md R273, R280): the symbols that RLE.ENC puts make a block code of the coefficients. -/

namespace Sys2Proof.Machine

open Sys2Proof.Claims

/-! ### A lookup answers a leaf -/

theorem mem_leaves_of_lookupAc {t : Trie} {sym : Nat} {code : Bits} (h : lookupAc t sym = some code) : (sym, code) ∈ leaves t := by
  rw [lookupAc_eq_find, Option.map_eq_some_iff] at h
  obtain ⟨⟨sym', code'⟩, hfind, rfl⟩ := h
  have hsym : sym' = sym := by simpa using List.find?_some hfind
  exact hsym ▸ List.mem_of_find?_eq_some hfind

theorem mem_leaves_of_lookupDc_nat {t : Trie} {sym : Nat} {code : Bits} (h : lookupDc t sym = some code) :
    (sym, code) ∈ leaves t := by
  obtain ⟨sym', hsym, hmem⟩ := mem_leaves_of_lookupDc h
  rwa [Int.ofNat_inj.1 hsym] at hmem

/-! ### Whole block codes -/

/-- `bits` is the code of the coefficients `vals`: symbols up to position 64, or symbols and a (0,0) for the zeros left (R273). -/
def BlockCode (s : State) (vals : List Int) (bits : Bits) : Prop :=
  ∃ done body eob, BlockPrefix s done body ∧ bits = body ++ eob
    ∧ ((done = vals ∧ eob = [])
      ∨ (done ≠ [] ∧ done.length < 64 ∧ (0x00, eob) ∈ leaves (nextTrie s done)
          ∧ done ++ List.replicate (64 - done.length) 0 = vals))

/-- RLE.DEC reads a whole block code (R276). -/
theorem exec_rleDec_of_blockCode {s : State} {seq : Vector Int 64} {bits : Bits} {rest : List Byte}
    (h : BlockCode s seq.toList bits) (hin : s.io.inp.rest = chars bits ++ rest) :
    ∃ t, exec .rleDec s = .next t
      ∧ Completed { s with blk := { s.blk with seq := seq.map fun v => ⟨v, true⟩ } } (readOnly s (leaving s rest) false) t := by
  obtain ⟨done, body, eob, hprefix, rfl, hend⟩ := h
  exact exec_rleDec_blockCode hprefix hend hin

section

variable {s : State} {done : List Int} {bits : Bits}

/-- R271: a (15,0) for each sixteen zeros. -/
theorem blockPrefix_zrls (h : BlockPrefix s done bits) (hne : done ≠ []) (n : Nat) (hfit : done.length + 16 * n ≤ 64)
    (hheld : Held (List.replicate n ⟨lookupAc (acTrie s.cfg.toConfig s.chroma) 0xF0, 0, 0xF0⟩)) :
    BlockPrefix s (done ++ List.replicate (16 * n) 0)
      (bits ++ itemBits (List.replicate n ⟨lookupAc (acTrie s.cfg.toConfig s.chroma) 0xF0, 0, 0xF0⟩)) := by
  induction n with
  | zero => simpa using h
  | succ n ih =>
    rw [List.replicate_succ', held_append] at hheld
    obtain ⟨hn, hlast⟩ := hheld
    obtain ⟨⟨code, hcode⟩, -⟩ := held_cons.1 hlast
    have hmem : (0xF0, code) ∈ leaves (nextTrie s (done ++ List.replicate (16 * n) 0)) := by
      rw [nextTrie_of_ne_nil (by simp [hne])]
      exact mem_leaves_of_lookupAc hcode
    have hfits : SymbolFits (done ++ List.replicate (16 * n) 0) 0xF0 16 0 := by
      rw [symbolFits_of_ne_nil (by simp [hne])]
      exact .inl ⟨rfl, rfl, rfl, by simp; omega⟩
    have hnext := (ih (by omega) hn).zeros (by simp [hne]) hmem hfits
    rw [List.replicate_succ', itemBits_append, itemBits_cons, hcode, ← List.append_assoc, Nat.mul_succ, List.replicate_add,
      ← List.append_assoc]
    simpa using hnext

theorem acItem_value (ac : Trie) (run : Nat) (v : Int) : (acItem ac run v).value = v := by
  rw [acItem]
  split <;> rfl

theorem acItem_code {ac : Trie} {run : Nat} {v : Int} {code : Bits} (h : (acItem ac run v).code = some code) :
    ¬ 15 < bitLengthInt v ∧ lookupAc ac (16 * run + bitLengthInt v : Nat) = some code := by
  rw [acItem] at h
  split at h
  · simp at h
  · next hsize => exact ⟨hsize, h⟩

/-- R271: a pair (run, size) and its value. -/
theorem blockPrefix_pair {run : Nat} {v : Int} {code : Bits} (h : BlockPrefix s done bits) (hne : done ≠ []) (hv : v ≠ 0)
    (hsize : ¬ 15 < bitLengthInt v) (hrun : run < 16)
    (hl : lookupAc (acTrie s.cfg.toConfig s.chroma) (16 * run + bitLengthInt v : Nat) = some code)
    (hfit : done.length + run ≤ 63) :
    BlockPrefix s (done ++ List.replicate run 0 ++ [v]) (bits ++ code ++ entBits v) := by
  have hpos := bitLengthInt_pos hv
  have hmem : (16 * run + bitLengthInt v, code) ∈ leaves (nextTrie s done) := by
    rw [nextTrie_of_ne_nil hne]
    exact mem_leaves_of_lookupAc hl
  have hfits : SymbolFits done (16 * run + bitLengthInt v) run (entBits v).length := by
    rw [symbolFits_of_ne_nil hne, entBits_length]
    exact .inr ⟨by omega, by omega, by omega, by omega, by omega⟩
  simpa [entValue_entBits] using h.value hmem hfits (.inr (entBits_ne_nil hv))

/-- R273: the AC symbols account for the coefficients in order, without gap or overlap. -/
theorem blockCode_of_acItems (vs : List Int) (gap : Nat) (h : BlockPrefix s done bits) (hne : done ≠ [])
    (hlen : done.length + gap + vs.length = 64) (hheld : Held (acItems (acTrie s.cfg.toConfig s.chroma) gap vs)) :
    BlockCode s (done ++ List.replicate gap 0 ++ vs) (bits ++ itemBits (acItems (acTrie s.cfg.toConfig s.chroma) gap vs)) := by
  induction vs generalizing done bits gap with
  | nil =>
    rw [List.length_nil, Nat.add_zero] at hlen
    rw [acItems] at hheld ⊢
    split
    · next hgap =>
      subst hgap
      exact ⟨done, bits, [], h, by simp, .inl ⟨by simp, rfl⟩⟩
    · next hgap =>
      rw [if_neg hgap] at hheld
      obtain ⟨⟨eob, heob⟩, -⟩ := held_cons.1 hheld
      have hmem : (0x00, eob) ∈ leaves (nextTrie s done) := by
        rw [nextTrie_of_ne_nil hne]
        exact mem_leaves_of_lookupAc heob
      exact ⟨done, bits, eob, h, by simp_all [itemBits_cons],
        .inr ⟨hne, by omega, hmem, by rw [← hlen, Nat.add_sub_cancel_left, List.append_nil]⟩⟩
  | cons v vs ih =>
    rw [List.length_cons] at hlen
    by_cases hv : v = 0
    · subst hv
      rw [acItems, if_pos rfl] at hheld ⊢
      have hcode := ih (gap + 1) h hne (by omega) hheld
      rwa [List.replicate_succ', ← List.append_assoc, List.append_assoc _ [(0 : Int)] vs] at hcode
    · rw [acItems, if_neg hv] at hheld ⊢
      obtain ⟨hzrls, hheld⟩ := held_append.1 hheld
      obtain ⟨⟨code, hcode⟩, hheld⟩ := held_cons.1 hheld
      obtain ⟨hsize, hlookup⟩ := acItem_code hcode
      have hzeros := blockPrefix_zrls h hne (gap / 16) (by omega) hzrls
      have hpair := blockPrefix_pair hzeros (by simp [hne]) hv hsize (Nat.mod_lt _ (by omega)) hlookup (by simp; omega)
      have hgap : List.replicate (16 * (gap / 16)) (0 : Int) ++ List.replicate (gap % 16) 0 = List.replicate gap 0 := by
        rw [← List.replicate_add, Nat.div_add_mod]
      rw [List.append_assoc done, hgap] at hpair
      have htail := ih 0 hpair (by simp) (by simp; omega) hheld
      rw [itemBits_append, itemBits_cons, hcode, acItem_value]
      simpa using htail

end

/-- R269, R273: the symbols of a block make its code. -/
theorem blockCode_of_blockItems (s : State) (first : Int) (vs : List Int) (hlen : (first :: vs).length = 64)
    (hheld : Held (blockItems (dcTrie s.cfg.toConfig s.chroma) (acTrie s.cfg.toConfig s.chroma) (first :: vs))) :
    BlockCode s (first :: vs)
      (itemBits (blockItems (dcTrie s.cfg.toConfig s.chroma) (acTrie s.cfg.toConfig s.chroma) (first :: vs))) := by
  rw [blockItems] at hheld ⊢
  obtain ⟨⟨code, hcode⟩, hheld⟩ := held_cons.1 hheld
  have hmem : (bitLengthInt first, code) ∈ leaves (nextTrie s []) := by
    rw [nextTrie_nil]
    exact mem_leaves_of_lookupDc_nat hcode
  have hfits : SymbolFits [] (bitLengthInt first) 0 (entBits first).length := symbolFits_nil.2 ⟨rfl, entBits_length first⟩
  have hdc : BlockPrefix s [first] (code ++ entBits first) := by
    simpa [entValue_entBits] using BlockPrefix.start.value hmem hfits (.inl rfl)
  have hac := blockCode_of_acItems vs 0 hdc (by simp) (by simpa [Nat.add_comm] using hlen) hheld
  rw [itemBits_cons, hcode]
  simpa using hac

/-- R280: the symbols of the block in `SEQ` make its code, for every state with the same codebooks selected. -/
theorem blockCode_seqItems {s u : State} (hcfg : u.cfg = s.cfg) (hchroma : u.chroma = s.chroma) (hheld : Held (seqItems s)) :
    BlockCode u (blockVals s.blk.seq).toList (itemBits (seqItems s)) := by
  have hcons := seqVals_eq_cons s.blk.seq
  have hlen := congrArg List.length hcons
  rw [List.length_map, Vector.length_toList] at hlen
  rw [seqItems, ← hcfg, ← hchroma, hcons] at hheld ⊢
  rw [← seqVals_eq_blockVals, hcons]
  exact blockCode_of_blockItems u _ _ hlen.symm hheld

/-! ### Which blocks have codes -/

theorem held_acItems {ac : Trie} (heob : (lookupAc ac 0x00).isSome = true) (hzrl : (lookupAc ac 0xF0).isSome = true)
    (hpair : ∀ (r : Fin 16) (n : Fin 10), (lookupAc ac (16 * r.1 + (n.1 + 1) : Nat)).isSome = true)
    (vs : List Int) (gap : Nat) (hsize : ∀ v ∈ vs, bitLengthInt v ≤ 10) : Held (acItems ac gap vs) := by
  induction vs generalizing gap with
  | nil =>
    rw [acItems]
    split
    · simp [Held]
    · simpa [Held] using heob
  | cons v vs ih =>
    obtain ⟨hv, hvs⟩ := List.forall_mem_cons.1 hsize
    rw [acItems]
    split
    · exact ih _ hvs
    · next hne =>
      have hpos := bitLengthInt_pos hne
      have hlookup := hpair ⟨gap % 16, Nat.mod_lt _ (by omega)⟩ ⟨bitLengthInt v - 1, by omega⟩
      simp only [Nat.sub_add_cancel hpos] at hlookup
      have hitem : (acItem ac (gap % 16) v).code.isSome = true := by rwa [acItem, if_neg (by omega)]
      refine held_append.2 ⟨fun x hx => ?_, List.forall_mem_cons.2 ⟨hitem, ih 0 hvs⟩⟩
      rw [List.eq_of_mem_replicate hx]
      exact hzrl

/-- R272: codebooks for coefficients of at most 11 and 10 bits hold every symbol of such a block. -/
theorem held_seqItems {s : State} (hcodes : CodesSymbols s.cfg.toConfig s.chroma) (hfit : SizesFit s.blk.seq) : Held (seqItems s) := by
  obtain ⟨hdc, heob, hzrl, hpair⟩ := hcodes
  obtain ⟨hfirst, hothers⟩ := hfit
  rw [seqItems, seqVals_eq_cons, blockItems]
  refine List.forall_mem_cons.2 ⟨hdc ⟨_, Nat.lt_succ_of_le hfirst⟩, held_acItems heob hzrl hpair _ _ fun v hv => ?_⟩
  obtain ⟨k, hk, rfl⟩ := List.mem_iff_getElem.1 hv
  have hk' : k < 63 := by simpa using hk
  simpa [blockVals, Nat.add_comm] using hothers ⟨k + 1, by omega⟩ (by simp [Fin.ext_iff])

/-- Settles O49: a block whose symbols are held is put whole (`putItems_of_held`), and what is put is a block code. -/
theorem blockCodeRoundTrip : Obligations.BlockCodeRoundTrip := by
  refine ⟨fun s hwritten hheld => ?_, fun s hcodes hfit => held_seqItems hcodes hfit⟩
  obtain ⟨t, ht, hcompleted⟩ := exec_rleEnc_completed hwritten (putItems_of_held hheld [])
  refine ⟨t, ht, hcompleted, fun u rest hcfg hchroma hin => ?_⟩
  have hseq : (blockVals s.blk.seq).map (fun v => (⟨v, true⟩ : Reg Int)) = s.blk.seq := Vector.ext fun i hi => by
    have := hwritten ⟨i, hi⟩
    simp [blockVals, ← this]
  rw [← hseq]
  exact exec_rleDec_of_blockCode (blockCode_seqItems hcfg hchroma hheld) hin

end Sys2Proof.Machine
end

section
/-! The host's ports (10_state.md R22, 20_memory.md R61 to R63, R80, 60_exceptions.md R328, R329, 70_reset_and_hazards.md R350 to R353): what
a step does with the action at the head of the host's queue, and that a command starts afresh however the last one ended. -/

namespace Sys2Proof.Machine

open Sys2Proof.Claims

/-! ### One action of the host -/

/-- An action that is neither a command nor a reset: an access to a register, a memory element or a stream (R22, R61 to R63). -/
def HostAct.isAccess : HostAct → Bool
  | .cmd _ | .powerOnReset => false
  | _ => true

/-- R351. -/
theorem step_of_idle {s : State} (h : s.host = []) : step s = .next s := by simp [step, State.hostStep, h]

/-- A step takes the action at the head of the queue. -/
theorem step_eq_act {s : State} {act : HostAct} {rest : List HostAct} (h : s.host = act :: rest) :
    step s = ({ s with host := rest } : State).act act := by simp [step, State.hostStep, h]

/-- R329: `CMD` drops what is written to it while `BUSY`. -/
theorem step_of_cmd_busy {s : State} {b : Byte} {rest : List HostAct} (h : s.host = .cmd b :: rest) (hrun : s.run = .busy) :
    step s = .next { s with host := rest } := by
  rw [step_eq_act h]
  simp [State.act, hrun]

/-- R353: a reset is taken in every state. -/
theorem step_of_reset {s : State} {rest : List HostAct} (h : s.host = .powerOnReset :: rest) :
    step s = .next ({ s with host := rest } : State).powerOn := by
  rw [step_eq_act h]
  rfl

theorem State.act_of_access {act : HostAct} (h : act.isAccess = true) (s : State) :
    s.act act = if s.run = .busy then .fault .hostAccessWhileBusy else .next (s.hostWrite act) := by
  cases act with
  | cmd b => simp [HostAct.isAccess] at h
  | powerOnReset => simp [HostAct.isAccess] at h
  | _ => rfl

/-- R80 (c), log 8. -/
theorem step_of_access_busy {s : State} {act : HostAct} {rest : List HostAct} (h : s.host = act :: rest) (ha : act.isAccess = true)
    (hrun : s.run = .busy) : step s = .fault .hostAccessWhileBusy := by
  rw [step_eq_act h, State.act_of_access ha, if_pos (by exact hrun)]

theorem step_of_access {s : State} {act : HostAct} {rest : List HostAct} (h : s.host = act :: rest) (ha : act.isAccess = true)
    (hrun : s.run ≠ .busy) : step s = .next (({ s with host := rest } : State).hostWrite act) := by
  rw [step_eq_act h, State.act_of_access ha, if_neg (by exact hrun)]

theorem HostAct.isAccess_of_ne {act : HostAct} (hcmd : ∀ b, act ≠ .cmd b) (hreset : act ≠ .powerOnReset) : act.isAccess = true := by
  cases act with
  | cmd b => exact absurd rfl (hcmd b)
  | powerOnReset => exact absurd rfl hreset
  | _ => rfl

/-- Settles O5: the head of the queue is a command, nothing, or an access; an access writes what `hostWrite` says of it. -/
theorem portActions : Obligations.PortActions := by
  refine ⟨fun s b rest hrun h => step_of_cmd_busy h hrun, fun s h => step_of_idle h,
    fun s act rest hrun h hcmd hreset => step_of_access_busy h (HostAct.isAccess_of_ne hcmd hreset) hrun, fun s rest hrun => ?_⟩
  have hwrite {act : HostAct} (h : s.host = act :: rest) (ha : act.isAccess = true) := step_of_access h ha hrun
  refine ⟨fun v h => hwrite h rfl, fun v h => hwrite h rfl, fun v h => hwrite h rfl, fun v h => hwrite h rfl,
    fun v h => hwrite h rfl, fun v h => hwrite h rfl, fun v h => hwrite h rfl, fun v h => hwrite h rfl,
    fun v h => hwrite h rfl, fun v h => hwrite h rfl, fun v h => hwrite h rfl, fun v h => hwrite h rfl,
    fun k v h => hwrite h rfl, fun k v h => hwrite h rfl, fun k v h => hwrite h rfl,
    fun k v h => ⟨s.rgb.write k v, hwrite h rfl, s.rgb.read_write k v⟩,
    fun k v h => ⟨s.ycc.write k (s.cfg.numeric.fit v), hwrite h rfl, s.ycc.read_write k _⟩,
    fun bytes h => hwrite h rfl, fun h => ⟨_, hwrite h rfl⟩⟩

/-! ### Reset -/

/-- Settles O7: the state after `powerOn` is that of reset, but for what R352 and R353 keep. -/
theorem powerOnResetKeepsConfiguration : Obligations.PowerOnResetKeepsConfiguration := by
  intro s rest h
  obtain ⟨hsel, hmode, hrun, -, -, -, hstatus, hphase, -, -, -, hro, hrc, hre, heng, hcoder, ha, -, -, -, hq, -, -, -, -, -, hrgb, hycc,
    hblk⟩ := resetValues
  exact ⟨_, step_of_reset h, rfl, rfl, rfl, hstatus, hrun, hsel, hmode, hphase, rfl, hro, hrc, hre, heng, hcoder, ha, hq, hrgb, hycc, hblk⟩

/-! ### How the last command ended -/

/-- Settles O13: the start of a command (R42) overwrites `STATE`, `ERRCODE`, `ERRINFO`, `PHASE` and `EOS`, and neither the operands' check nor
the work of a command reads them before; so each command's run from the one state is, by its definition, its run from the other. -/
theorem lastOutcomeIsForgotten : Obligations.LastOutcomeIsForgotten := by
  intro i s r e info p eos
  cases i with
  | _ => rfl

end Sys2Proof.Machine
end

section
/-! What a command can raise (60_exceptions.md R333): the exceptions of each piece of pseudocode, from the primitives to the commands. -/

namespace Sys2Proof.Machine

open Sys2Proof.Claims

/-! ### The exceptions of a piece -/

section
variable {σ α β : Type} {E E' : Exc → Prop}

/-- Every exception the piece raises satisfies E. -/
def Run.Raises (E : Exc → Prop) (m : Run σ α) : Prop := m.Does (fun _ _ => True) E

theorem Run.Does.raises {R : σ → σ → Prop} {m : Run σ α} (h : m.Does R E) : m.Raises E := h.mono (fun _ _ _ => trivial) fun _ => id

theorem Run.Raises.mono {m : Run σ α} (h : m.Raises E) (hE : ∀ e, E e → E' e) : m.Raises E' := Run.Does.mono h (fun _ _ => id) hE

theorem Run.Raises.of_error {m : Run σ α} (h : m.Raises E) {p q : σ} {r : Raise} (he : m p = .error r q) : E r.exc := by
  have := h p
  simp only [he] at this
  exact this.2

/-- A piece that goes on from every state. -/
theorem Run.raises_of_ok {m : Run σ α} (h : ∀ p, ∃ a q, m p = .ok a q) : m.Raises E := by
  intro p
  obtain ⟨a, q, hp⟩ := h p
  rw [hp]
  trivial

theorem Run.raises_pure (a : α) : (pure a : Run σ α).Raises E := fun _ => trivial

theorem Run.raises_modify (f : σ → σ) : (modify f : Run σ Unit).Raises E := fun _ => trivial

theorem Run.raises_get : (get : Run σ σ).Raises E := fun _ => trivial

theorem Run.raises_set (q : σ) : (set q : Run σ Unit).Raises E := fun _ => trivial

theorem Run.raises_raise {e : Exc} (h : E e) (i : Int) : (raise e i : Run σ α).Raises E := fun _ => ⟨trivial, h⟩

theorem Run.Raises.bind {m : Run σ α} {f : α → Run σ β} (hm : m.Raises E) (hf : ∀ a, (f a).Raises E) : (m >>= f).Raises E :=
  Run.Does.bind (R := fun _ _ => True) (fun _ _ _ _ _ => trivial) hm hf

theorem Run.Raises.onIo {m : Run Io α} (hm : m.Raises E) : (onIo m).Raises E := Run.Does.on hm fun _ _ _ => trivial

theorem Run.Raises.onBlk {m : Run BlockUnit α} (hm : m.Raises E) : (onBlk m).Raises E := Run.Does.on hm fun _ _ _ => trivial

theorem Run.Raises.onCoder {m : Run Coder α} (hm : m.Raises E) : (onCoder m).Raises E := Run.Does.on hm fun _ _ _ => trivial

theorem Run.raises_always (f : State → State) : (always f).Raises E := fun _ => trivial

theorem Run.raises_setPhase (p : Phase) : (setPhase p).Raises E := fun _ => trivial

theorem Run.raises_setEngine (e : Engine) : (setEngine e).Raises E := fun _ => trivial

theorem Run.raises_writeBits (s : Bits) : (writeBits s).Raises E := fun _ => trivial

theorem Run.raises_writeVal (v : Int) (n : Nat) : (writeVal v n).Raises E := fun _ => trivial

theorem Run.raises_emitBytes (bs : List Byte) : (emitBytes bs).Raises E := fun _ => trivial

theorem Run.raises_readBits (n : Nat) : (readBits n).Raises E := fun _ => trivial

theorem Run.raises_readLine : readLine.Raises E := Run.raises_of_ok readLine_ok

theorem Run.Raises.forInput {ε : Type} {engine : ε → Engine} {f : Byte → ε → Run State ε} (hf : ∀ c e, (f c e).Raises E)
    (cs : List Byte) (e : ε) : (forInput engine f cs e).Raises E :=
  Run.Does.forInput (R := fun _ _ => True) (fun _ => trivial) (fun _ _ _ _ _ => trivial) (fun _ _ => trivial) (fun _ _ => trivial)
    (fun _ => trivial) hf cs e

end

/-! ### The dictionary codecs: without a bound no `DictFull` (10_state.md R44) -/

section
variable {E : Exc → Prop} {cfg : Config}

theorem ne_none_of_not_withinBound {bound : Option Nat} {v : Nat} (h : ¬ withinBound bound v = true) : bound ≠ none := by
  rintro rfl
  exact h rfl

theorem Run.raises_lz78Record (next code : Nat) (literal : Byte) : (lz78Record cfg next code literal).Raises E :=
  (Run.forward_lz78Record _ _ _ _).raises

theorem Run.raises_lz78EncByte (hfull : cfg.lz78MaxCode ≠ none → E .dictFull) (c : Byte) (e : Lz78Enc) :
    (lz78EncByte cfg c e).Raises E := by
  unfold lz78EncByte
  split
  · exact raises_pure _
  · split
    · exact .bind (raises_lz78Record _ _ _) fun _ => raises_pure _
    · next hbound => exact raises_raise (hfull (ne_none_of_not_withinBound hbound)) _

theorem Run.raises_lz78DecLoop (hfull : cfg.lz78MaxCode ≠ none → E .dictFull) (hcorrupt : E .corruptCodeword)
    (htrunc : E .truncatedStream) (fuel : Nat) (e : Lz78Dec) : (lz78DecLoop cfg fuel e).Raises E := by
  induction fuel generalizing e with
  | zero => exact raises_pure _
  | succ fuel ih =>
    refine .bind (raises_setEngine _) fun _ => .bind (raises_setPhase _) fun _ => .bind (raises_readBits _).onIo fun k => ?_
    cases k with
    | none => exact raises_pure _
    | some k =>
      refine .bind (raises_setPhase _) fun _ => .bind (raises_readBits _).onIo fun l => ?_
      cases l with
      | none =>
        dsimp only
        split
        · exact raises_pure _
        · exact raises_raise htrunc _
      | some l =>
        dsimp only
        split
        · exact raises_raise hcorrupt _
        · split
          · exact raises_raise hcorrupt _
          · refine .bind (raises_emitBytes _).onIo fun _ => ?_
            split
            · exact ih _
            · next hbound => exact raises_raise (hfull (ne_none_of_not_withinBound hbound)) _

theorem Run.raises_lzwEncByte (hfull : cfg.lzwMaxCode ≠ none → E .dictFull) (c : Byte) (e : LzwEnc) :
    (lzwEncByte cfg c e).Raises E := by
  unfold lzwEncByte
  split
  · exact raises_pure _
  · split
    · exact raises_pure _
    · refine .bind (raises_writeVal _ _).onIo fun _ => ?_
      split
      · exact raises_pure _
      · next hbound => exact raises_raise (hfull (ne_none_of_not_withinBound hbound)) _

theorem Run.raises_lzwDecLoop (hfull : cfg.lzwMaxCode ≠ none → E .dictFull) (hcorrupt : E .corruptCodeword)
    (htrunc : E .truncatedStream) (fuel : Nat) (e : LzwDec) : (lzwDecLoop cfg fuel e).Raises E := by
  induction fuel generalizing e with
  | zero => exact raises_pure _
  | succ fuel ih =>
    refine .bind (raises_setEngine _) fun _ => .bind (raises_readBits _).onIo fun k => ?_
    cases k with
    | none => exact raises_raise htrunc _
    | some k =>
      dsimp only
      split
      · exact raises_pure _
      · split
        · split
          · exact raises_raise hcorrupt _
          · exact .bind (raises_emitBytes _).onIo fun _ => ih _
        · split
          · exact raises_raise hcorrupt _
          · split
            · exact .bind (raises_emitBytes _).onIo fun _ => ih _
            · next hbound => exact raises_raise (hfull (ne_none_of_not_withinBound hbound)) _

end

/-! ### The coder and the image pass -/

section
variable {α : Type} {E : Exc → Prop}

theorem Run.Raises.withSink {m : Run BlockUnit α} (hm : m.Raises E) : (withSink m).Raises E := by
  intro s
  unfold Machine.withSink
  have h := hm.onBlk { s with io := openOut s.io, blk := { s.blk with coder := .fresh } }
  cases hr : Machine.onBlk m { s with io := openOut s.io, blk := { s.blk with coder := .fresh } } with
  | ok a t => trivial
  | error r t =>
    simp only [hr] at h
    exact h

theorem Run.raises_putCode (hcorrupt : E .corruptCodeword) (code : Option Bits) (k : Int) : (putCode code k).Raises E := by
  unfold putCode
  split
  · exact raises_modify _
  · exact raises_raise hcorrupt _

theorem Run.raises_putBits (s : Bits) : (putBits s).Raises E := raises_modify _

theorem Run.raises_encodeAc (hcorrupt : E .corruptCodeword) (ac : Trie) (vs : List Int) : (encodeAc ac vs).Raises E := by
  induction vs with
  | nil => exact raises_pure ()
  | cons v vs ih =>
    unfold encodeAc
    split_ifs
    · exact raises_putCode hcorrupt _ _
    · refine .bind (raises_modify _) fun _ => .bind raises_get fun c => ?_
      split
      · exact .bind (raises_putCode hcorrupt _ _) fun _ => .bind (raises_modify _) fun _ => ih
      · exact ih
    · exact raises_raise hcorrupt _
    · exact .bind raises_get fun _ => .bind (raises_putCode hcorrupt _ _) fun _ => .bind (raises_putBits _) fun _ =>
        .bind (raises_modify _) fun _ => ih

theorem Run.raises_encodeSeq (hcorrupt : E .corruptCodeword) (cfg : Config) (chroma : Bool) :
    (BlockUnit.encodeSeq cfg chroma).Raises E := fun b =>
  (Run.Raises.bind (raises_putCode hcorrupt _ _) fun _ => .bind (raises_putBits _) fun _ => .bind (raises_modify _) fun _ =>
    raises_encodeAc hcorrupt _ _).onCoder b

theorem Run.raises_decodeBlock (hcorrupt : E .corruptCodeword) (htrunc : E .truncatedStream) (cfg : Config) (chroma : Bool) :
    (decodeBlock cfg chroma).Raises E := by
  refine (Run.Does.raises (reads_decodeBlock cfg chroma)).mono fun e he => ?_
  rcases he with rfl | rfl
  · exact hcorrupt
  · exact htrunc

theorem Run.raises_allTiles {m : Nat → Nat → Run State Unit} (hm : ∀ y x, (m y x).Raises E) : (allTiles m).Raises E := by
  have htiles (across n i : Nat) : (forTiles m across n i).Raises E := by
    induction n generalizing i with
    | zero => exact raises_pure ()
    | succ n ih => exact .bind (hm _ _) fun _ => ih _
  exact .bind raises_get fun _ => htiles _ _ _

theorem Run.raises_forPlanes {m : Fin 3 → Run State Unit} (hm : ∀ p, (m p).Raises E) (ps : List (Fin 3)) : (forPlanes m ps).Raises E := by
  induction ps with
  | nil => exact raises_pure ()
  | cons p ps ih => exact .bind (hm p) fun _ => ih

theorem Run.raises_encodePlane (hcorrupt : E .corruptCodeword) (p : Fin 3) : (encodePlane p).Raises E :=
  .bind (raises_setPhase _) fun _ => .bind (raises_set _).onCoder.onBlk fun _ =>
    .bind (raises_allTiles fun _ _ => .bind (raises_modify _) fun _ => .bind raises_get fun _ =>
      .bind (raises_modify _).onBlk fun _ => (raises_encodeSeq hcorrupt _ _).onBlk) fun _ =>
    .bind (raises_setPhase _) fun _ => .bind raises_get fun _ => (raises_emitBytes _).onIo

theorem Run.raises_decodePlane (hcorrupt : E .corruptCodeword) (htrunc : E .truncatedStream) (p : Fin 3) : (decodePlane p).Raises E := by
  refine .bind raises_readLine.onIo fun _ => .bind (raises_set _).onCoder.onBlk fun _ =>
    .bind (raises_allTiles fun _ _ => .bind raises_get fun _ => .bind (raises_decodeBlock hcorrupt htrunc _ _).onBlk fun _ =>
      .bind (raises_modify _).onBlk fun _ => raises_modify _) fun _ => .bind raises_get fun _ => ?_
  split
  · exact raises_pure ()
  · exact raises_raise hcorrupt _

end

/-! ### The commands -/

/-- The operands' check of each command: the indices that offend, lowest first (R321, R330). -/
def operandsBad : Instr → State → List Nat
  | .bcWrbits => wrbitsBad
  | .bcWrval => wrvalBad
  | .bcRdbits => rdbitsBad
  | .lzssEnc => lzssEncBad
  | .dctFwd | .dctInv => blkfBad
  | .qSetq => setqBad
  | .qQuant => quantBad
  | .qDequant => dequantBad
  | .zzFwd => blkiBad
  | .zzInv | .rleEnc => seqBad
  | .hufEnc | .entEnc => fun s => s.a.unread 0
  | .entDec => fun s => s.n.unread 1
  | .ctFwd => ctFwdBad
  | .ctInv => ctInvBad
  | .imgEnc => imgEncBad
  | .bcOpenw | .bcOpenr | .bcClose | .lz78Enc | .lz78Dec | .lzwEnc | .lzwDec | .lzssDec | .hufDec | .rleDec | .imgDec => fun _ => []

/-- The exceptions that the work of a command can raise once its operands are right. -/
def WorkRaises (cfg : Config) (i : Instr) (e : Exc) : Prop := e ≠ .badOperand ∧ MayRaise cfg e i

section
variable {i : Instr} {s : State}

/-- A BitChannel command is its operands' check and work that never raises. -/
theorem exec_channel (hi : i ∈ channelCommands) :
    ∃ body : Run State Unit, exec i s = runChannel (operandsBad i) body s ∧ body.Raises (WorkRaises s.cfg.toConfig i) := by
  simp only [channelCommands, List.mem_cons, List.not_mem_nil, or_false] at hi
  rcases hi with rfl | rfl | rfl | rfl | rfl | rfl <;> unfold exec
  · refine ⟨_, rfl, ?_⟩
    exact (Run.raises_modify _).onIo
  · refine ⟨_, rfl, ?_⟩
    exact Run.raises_always _
  · refine ⟨_, rfl, ?_⟩
    exact (Run.raises_writeBits _).onIo
  · refine ⟨_, rfl, ?_⟩
    exact (Run.raises_writeVal _ _).onIo
  · refine ⟨_, rfl, ?_⟩
    exact .bind (Run.raises_readBits _).onIo fun _ => Run.raises_modify _
  · refine ⟨_, rfl, ?_⟩
    exact (Run.raises_modify _).onIo

/-- The exceptions of reading characters, for the commands that R333 gives both. -/
theorem workRaises_of_readError {cfg : Config} (hcorrupt : WorkRaises cfg i .corruptCodeword) (htrunc : WorkRaises cfg i .truncatedStream)
    (e : Exc) (he : ReadError e) : WorkRaises cfg i e := by
  rcases he with rfl | rfl
  · exact hcorrupt
  · exact htrunc

/-- A command of another unit is its operands' check and work that raises what R333 gives it. -/
theorem exec_unit (hi : i ∉ channelCommands) :
    ∃ (p : Phase) (body : Run State Unit), exec i s = runUnit p (operandsBad i) body s ∧ body.Raises (WorkRaises s.cfg.toConfig i) := by
  have hmay {e : Exc} (hne : e ≠ .badOperand := by decide) (h : MayRaise s.cfg.toConfig e i := by simp [MayRaise]) :
    WorkRaises s.cfg.toConfig i e := ⟨hne, h⟩
  cases i with
  | bcOpenw | bcOpenr | bcWrbits | bcWrval | bcRdbits | bcClose => simp [channelCommands] at hi
  | dctFwd | dctInv | qSetq | qQuant | qDequant | zzFwd | zzInv | ctFwd | ctInv =>
    unfold exec
    refine ⟨_, _, rfl, ?_⟩
    exact Run.raises_always _
  | lz78Enc =>
    unfold exec
    refine ⟨_, _, rfl, ?_⟩
    exact .bind (Run.raises_modify _).onIo fun _ => .bind (Run.raises_setEngine _) fun _ =>
      .bind (.forInput (Run.raises_lz78EncByte fun h => hmay (h := .inl ⟨by simp, h⟩)) _ _) fun _ => .bind (Run.raises_setPhase _) fun _ =>
        .bind (Run.forward_lz78Flush _ _).raises fun _ => .bind (Run.raises_setPhase _) fun _ => (Run.raises_modify _).onIo
  | lz78Dec =>
    unfold exec
    refine ⟨_, _, rfl, ?_⟩
    exact .bind (Run.raises_modify _) fun _ => .bind (Run.raises_modify _).onIo fun _ =>
      .bind (Run.raises_lz78DecLoop (fun h => hmay (h := .inl ⟨by simp, h⟩)) hmay hmay _ _) fun _ => Run.raises_setPhase _
  | lzwEnc =>
    unfold exec
    refine ⟨_, _, rfl, ?_⟩
    exact .bind (Run.raises_modify _).onIo fun _ => .bind (Run.raises_setEngine _) fun _ =>
      .bind (.forInput (Run.raises_lzwEncByte fun h => hmay (h := .inr ⟨by simp, h⟩)) _ _) fun _ => .bind (Run.raises_setPhase _) fun _ =>
        .bind (Run.forward_lzwFlush _ _).onIo.raises fun _ => .bind (Run.raises_setPhase _) fun _ => (Run.raises_modify _).onIo
  | lzwDec =>
    unfold exec
    refine ⟨_, _, rfl, ?_⟩
    exact .bind (Run.raises_modify _) fun _ => .bind (Run.raises_modify _).onIo fun _ =>
      .bind (Run.raises_lzwDecLoop (fun h => hmay (h := .inr ⟨by simp, h⟩)) hmay hmay _ _) fun _ => Run.raises_setPhase _
  | lzssEnc =>
    unfold exec
    refine ⟨_, _, rfl, ?_⟩
    exact .bind (Run.raises_modify _).onIo fun _ => .bind (Run.raises_setEngine _) fun _ =>
      .bind (Run.forward_lzssHeader _).onIo.raises fun _ => .bind (.forInput (fun c e => (Run.forward_lzssProcess _ c e).raises) _ _) fun _ =>
        .bind (Run.raises_setPhase _) fun _ => .bind (Run.forward_lzssFlush _ _).raises fun _ => .bind (Run.raises_setEngine _) fun _ =>
          .bind (Run.raises_setPhase _) fun _ => (Run.raises_modify _).onIo
  | lzssDec =>
    unfold exec
    refine ⟨_, _, rfl, ?_⟩
    exact .bind (Run.raises_modify _).onIo fun _ => .bind (Run.forward_lzssReadHeader hmay).onIo.raises fun _ =>
      .bind (Run.raises_modify _) fun _ => .bind (Run.raises_modify _) fun _ =>
        .bind (Run.forward_lzssDecLoop hmay hmay _ _ _ _).raises fun _ => Run.raises_setPhase _
  | hufEnc =>
    unfold exec
    refine ⟨_, _, rfl, ?_⟩
    exact .bind (Run.raises_putCode hmay _ _).onCoder.withSink fun _ => Run.raises_modify _
  | hufDec =>
    unfold exec
    refine ⟨_, _, rfl, ?_⟩
    exact .bind ((Run.Does.raises (Run.reads_huffDecode _ _).onCoder.withSource).mono (workRaises_of_readError hmay hmay)) fun _ =>
      Run.raises_modify _
  | entEnc =>
    unfold exec
    refine ⟨_, _, rfl, ?_⟩
    exact .bind (Run.raises_putBits _).onCoder.withSink fun _ => Run.raises_modify _
  | entDec =>
    unfold exec
    refine ⟨_, _, rfl, ?_⟩
    exact .bind ((Run.Does.raises (Run.reads_entDecode _).onCoder.withSource).mono (workRaises_of_readError hmay hmay)) fun _ =>
      Run.raises_modify _
  | rleEnc =>
    unfold exec
    refine ⟨_, _, rfl, ?_⟩
    exact (Run.raises_encodeSeq hmay _ _).withSink
  | rleDec =>
    unfold exec
    refine ⟨_, _, rfl, ?_⟩
    exact (Run.Does.raises (Run.forward_rleDecBody _ _)).mono (workRaises_of_readError hmay hmay)
  | imgEnc =>
    unfold exec
    refine ⟨_, _, rfl, ?_⟩
    exact .bind (Run.raises_modify _).onIo fun _ => .bind (Run.raises_modify _) fun _ => .bind (Run.raises_modify _) fun _ =>
      .bind (Run.raises_setPhase _) fun _ => .bind (Run.raises_emitBytes _).onIo fun _ =>
        Run.raises_forPlanes (Run.raises_encodePlane hmay) _
  | imgDec =>
    unfold exec
    refine ⟨_, _, rfl, ?_⟩
    refine .bind Run.raises_readLine.onIo fun line => ?_
    split
    · exact Run.raises_raise hmay _
    · exact .bind (Run.raises_modify _) fun _ => .bind (Run.raises_setPhase _) fun _ => .bind (Run.raises_modify _) fun _ =>
        .bind (Run.raises_setPhase _) fun _ => .bind (Run.raises_forPlanes (Run.raises_decodePlane hmay hmay) _) fun _ =>
          .bind (Run.raises_setPhase _) fun _ => Run.raises_modify _

/-- Where an exception comes from: an operand offended, or the work raised. -/
theorem exec_err {t : State} {e : Exc} (h : exec i s = .next t) (he : t.err = some e) :
    (e = .badOperand ∧ operandsBad i s ≠ []) ∨ WorkRaises s.cfg.toConfig i e := by
  by_cases hi : i ∈ channelCommands
  · obtain ⟨body, hexec, hbody⟩ := exec_channel (s := s) hi
    rcases runChannel_cases _ _ _ _ (hexec ▸ h) with ⟨j, rest, hbad, rfl⟩ | ⟨-, u, -, rfl⟩ | ⟨-, r, u, hu, rfl⟩
    · exact .inl ⟨by simpa using he.symm, by simp [hbad]⟩
    · simp at he
    · obtain rfl : r.exc = e := by simpa using he
      exact .inr (hbody.of_error hu)
  · obtain ⟨p, body, hexec, hbody⟩ := exec_unit (s := s) hi
    rcases runUnit_cases _ _ _ _ _ (hexec ▸ h) with ⟨j, rest, hbad, rfl⟩ | ⟨-, u, -, rfl⟩ | ⟨-, r, u, hu, rfl⟩
    · exact .inl ⟨by simpa using he.symm, by simp [hbad]⟩
    · simp at he
    · obtain rfl : r.exc = e := by simpa using he
      exact .inr (hbody.of_error hu)

/-- R330, R333: a command with an operand to check is listed. -/
theorem mayRaise_badOperand (cfg : Config) (h : operandsBad i s ≠ []) : MayRaise cfg .badOperand i := by
  cases i with
  | bcOpenw | bcOpenr | bcClose | lz78Enc | lz78Dec | lzwEnc | lzwDec | lzssDec | hufDec | rleDec | imgDec => exact absurd rfl h
  | _ => simp [MayRaise]

end

/-- Settles O11: an exception comes from the operands' check or from the work. -/
theorem commandsRaiseOnlyTheirExceptions : Obligations.CommandsRaiseOnlyTheirExceptions := by
  intro i s t e h he
  rcases exec_err h he with ⟨rfl, hbad⟩ | ⟨-, hmay⟩
  · exact mayRaise_badOperand _ hbad
  · exact hmay

end Sys2Proof.Machine
end

section
/-! `BadOperand` (60_exceptions.md R321, R325, R330): the operands' check of a command lists the indices that offend, the lowest first, and
an operand that offends is all that such a command sees. -/

namespace Sys2Proof.Machine

open Sys2Proof.Claims

/-! ### What a check lists -/

section
variable {α : Type} {j : Nat}

theorem Reg.mem_offends {r : Reg α} {k : Nat} {outside : α → Bool} :
    j ∈ r.offends k outside ↔ j = k ∧ (r.written = false ∨ outside r.val = true) := by
  unfold Reg.offends
  cases r.written <;> cases outside r.val <;> simp

theorem Reg.mem_unread {r : Reg α} {k : Nat} : j ∈ r.unread k ↔ j = k ∧ r.written = false := by
  simp [Reg.unread, Reg.mem_offends]

theorem mem_offUnless {ok : Bool} : j ∈ offUnless ok ↔ j = 255 ∧ ok = false := by
  cases ok <;> simp [offUnless, notRegister]

/-- The check of one register, said with `Wrong`. -/
theorem Reg.mem_offends_iff_wrong {r : Reg α} {k : Nat} {outside : α → Bool} {allowed : α → Prop}
    (h : ∀ v, outside v = true ↔ ¬ allowed v) : j ∈ r.offends k outside ↔ j = k ∧ Wrong r allowed := by
  rw [Reg.mem_offends, h, Wrong]

theorem allWritten_eq_false_iff (v : Vector (Reg α) 64) : allWritten v = false ↔ ∃ k : Fin 64, v[k.1].written = false := by
  rw [← Bool.not_eq_true, allWritten_iff]
  simp

/-- The check of one block buffer. -/
theorem mem_offUnless_allWritten (v : Vector (Reg α) 64) :
    j ∈ offUnless (allWritten v) ↔ j = 255 ∧ ∃ k : Fin 64, v[k.1].written = false := by rw [mem_offUnless, allWritten_eq_false_iff]

/-- The check of one block buffer and of the tables. -/
theorem mem_offUnless_allWritten_and (v : Vector (Reg α) 64) (q : Bool) :
    j ∈ offUnless (allWritten v && q) ↔ j = 255 ∧ (q = false ∨ ∃ k : Fin 64, v[k.1].written = false) := by
  rw [mem_offUnless, Bool.and_eq_false_iff, allWritten_eq_false_iff, or_comm]

/-- A width that `VALUE_MAX_WIDTH` forbids. -/
theorem not_withinBound_iff (bound : Option Nat) (n : Nat) : (!withinBound bound n) = true ↔ ¬ ∀ m ∈ bound, n ≤ m := by
  cases bound <;> simp [withinBound]

theorem sidesBad_eq_nil_iff {s : State} : sidesBad s = [] ↔ SidesReady s := by
  simp [sidesBad, SidesReady, and_assoc, Nat.one_le_iff_ne_zero]

theorem mem_sidesBad {s : State} :
    j ∈ sidesBad s ↔ (j = 8 ∧ Wrong s.height (fun h => 1 ≤ h)) ∨ (j = 9 ∧ Wrong s.width (fun w => 1 ≤ w)) := by
  rw [sidesBad, List.mem_append, Reg.mem_offends_iff_wrong (allowed := fun h => 1 ≤ h) (by simp),
    Reg.mem_offends_iff_wrong (allowed := fun w => 1 ≤ w) (by simp)]

/-- The check of the sides, and of a plane once they are right. -/
theorem mem_planeBad {s : State} (m : Sparse α) :
    (j ∈ if (sidesBad s).isEmpty then offUnless (planesWritten m s.height.val s.width.val) else sidesBad s) ↔
      (j = 8 ∧ Wrong s.height (fun h => 1 ≤ h)) ∨ (j = 9 ∧ Wrong s.width (fun w => 1 ≤ w))
        ∨ (j = 255 ∧ SidesReady s ∧ ¬ PlanesReady m s.height.val s.width.val) := by
  rw [← or_assoc, ← mem_sidesBad, ← planesWritten_iff, Bool.not_eq_true]
  by_cases hs : SidesReady s
  · simp [hs, mem_offUnless, sidesBad_eq_nil_iff.2 hs]
  · simp [hs, sidesBad_eq_nil_iff]

/-- The operands' check lists what the rules of the command say (R321, R330). -/
theorem mem_operandsBad {i : Instr} {s : State} : j ∈ operandsBad i s ↔ Offends i s j := by
  cases i with
  | bcWrbits =>
    rw [operandsBad, wrbitsBad, List.mem_append, List.mem_append, Reg.mem_unread, mem_offUnless, or_assoc, Offends,
      Reg.mem_offends_iff_wrong (allowed := fun a => 0 ≤ a ∧ (s.n.written = true → a < 2 ^ s.n.val))]
    intro a
    simp only [Bool.or_eq_true, decide_eq_true_eq, Bool.and_eq_true, not_and_or, Classical.not_imp, not_le, not_lt]
  | bcWrval =>
    rw [operandsBad, wrvalBad, List.mem_append, List.mem_append, mem_offUnless, or_assoc, Offends,
      Reg.mem_offends_iff_wrong (allowed := fun a => -128 ≤ a) (by simp), Reg.mem_offends_iff_wrong (not_withinBound_iff _)]
  | bcRdbits => rw [operandsBad, rdbitsBad, List.mem_append, mem_offUnless, Offends, Reg.mem_offends_iff_wrong (not_withinBound_iff _)]
  | lzssEnc =>
    rw [operandsBad, lzssEncBad, List.mem_append, List.mem_append, or_assoc, Offends,
      Reg.mem_offends_iff_wrong (allowed := fun w => w ≤ 255) (by simp), Reg.mem_offends_iff_wrong (allowed := fun m => m ≤ 255) (by simp),
      Reg.mem_offends_iff_wrong (allowed := fun m => 1 ≤ m) (by simp)]
  | dctFwd | dctInv => exact mem_offUnless_allWritten _
  | qSetq => rw [operandsBad, setqBad, Offends, Reg.mem_offends_iff_wrong (allowed := fun q => q ≤ 100) (by simp)]
  | qQuant | qDequant => exact mem_offUnless_allWritten_and _ _
  | zzFwd | zzInv | rleEnc => exact mem_offUnless_allWritten _
  | hufEnc | entEnc | entDec => exact Reg.mem_unread
  | ctFwd | ctInv => exact mem_planeBad _
  | imgEnc =>
    rw [operandsBad, imgEncBad, List.mem_append, setqBad, Reg.mem_offends_iff_wrong (allowed := fun q => q ≤ 100) (by simp), ctFwdBad,
      mem_planeBad, Offends]
  | bcOpenw | bcOpenr | bcClose | lz78Enc | lz78Dec | lzwEnc | lzwDec | lzssDec | hufDec | rleDec | imgDec =>
    exact List.mem_nil_iff j

/-! ### The lowest index comes first (R321) -/

theorem Reg.offends_sorted (r : Reg α) (k : Nat) (outside : α → Bool) : (r.offends k outside).Pairwise (· ≤ ·) := by
  rcases r.offends_eq k outside with h | h <;> rw [h] <;> simp

theorem offUnless_sorted (ok : Bool) : (offUnless ok).Pairwise (· ≤ ·) := by
  rcases offUnless_eq ok with h | h <;> rw [h] <;> simp

/-- Checks one after the other, the indices of the later one being higher. -/
theorem sorted_append {k : Nat} {l m : List Nat} (hl : l.Pairwise (· ≤ ·)) (hm : m.Pairwise (· ≤ ·)) (hlk : ∀ a ∈ l, a ≤ k)
    (hmk : ∀ b ∈ m, k ≤ b) : (l ++ m).Pairwise (· ≤ ·) :=
  List.pairwise_append.2 ⟨hl, hm, fun a ha b hb => (hlk a ha).trans (hmk b hb)⟩

theorem Reg.eq_of_mem_offends {r : Reg α} {k : Nat} {outside : α → Bool} (h : j ∈ r.offends k outside) : j = k := (Reg.mem_offends.1 h).1

theorem eq_of_mem_offUnless {ok : Bool} (h : j ∈ offUnless ok) : j = 255 := (mem_offUnless.1 h).1

theorem sidesBad_sorted (s : State) : (sidesBad s).Pairwise (· ≤ ·) :=
  sorted_append (k := 8) (Reg.offends_sorted _ _ _) (Reg.offends_sorted _ _ _) (fun a ha => (Reg.eq_of_mem_offends ha).le)
    fun b hb => by rw [Reg.eq_of_mem_offends hb]; decide

theorem planeBad_sorted (s : State) (ok : Bool) :
    (if (sidesBad s).isEmpty then offUnless ok else sidesBad s).Pairwise (· ≤ ·) := by
  split
  · exact offUnless_sorted _
  · exact sidesBad_sorted s

theorem operandsBad_sorted (i : Instr) (s : State) : (operandsBad i s).Pairwise (· ≤ ·) := by
  have hreg {β : Type} {r : Reg β} {k m : Nat} {f : β → Bool} (hk : k ≤ m := by decide) : ∀ a ∈ r.offends k f, a ≤ m := fun a ha => by
    rw [Reg.eq_of_mem_offends ha]; exact hk
  have hreg' {β : Type} {r : Reg β} {k m : Nat} {f : β → Bool} (hk : m ≤ k := by decide) : ∀ a ∈ r.offends k f, m ≤ a := fun a ha => by
    rw [Reg.eq_of_mem_offends ha]; exact hk
  have hunless {ok : Bool} {m : Nat} (hk : m ≤ 255 := by decide) : ∀ a ∈ offUnless ok, m ≤ a := fun a ha => by
    rw [eq_of_mem_offUnless ha]; exact hk
  have happend {l l' : List Nat} {m : Nat} (h : ∀ a ∈ l, a ≤ m) (h' : ∀ a ∈ l', a ≤ m) : ∀ a ∈ l ++ l', a ≤ m := fun a ha =>
    (List.mem_append.1 ha).elim (h a) (h' a)
  cases i with
  | bcWrbits | bcWrval =>
    exact sorted_append (k := 1) (sorted_append (k := 0) (Reg.offends_sorted _ _ _) (Reg.offends_sorted _ _ _) hreg hreg')
      (offUnless_sorted _) (happend hreg hreg) hunless
  | bcRdbits => exact sorted_append (k := 1) (Reg.offends_sorted _ _ _) (offUnless_sorted _) hreg hunless
  | lzssEnc =>
    exact sorted_append (k := 6) (sorted_append (k := 5) (Reg.offends_sorted _ _ _) (Reg.offends_sorted _ _ _) hreg hreg')
      (Reg.offends_sorted _ _ _) (happend hreg hreg) hreg'
  | qSetq =>
    rw [operandsBad, setqBad]
    exact Reg.offends_sorted _ _ _
  | hufEnc | entEnc | entDec =>
    simp only [operandsBad, Reg.unread]
    exact Reg.offends_sorted _ _ _
  | dctFwd | dctInv | qQuant | qDequant | zzFwd | zzInv | rleEnc => exact offUnless_sorted _
  | ctFwd | ctInv => exact planeBad_sorted s _
  | imgEnc =>
    refine sorted_append (k := 4) (Reg.offends_sorted _ _ _) (planeBad_sorted s _) hreg fun b hb => ?_
    rcases (mem_planeBad _).1 hb with ⟨rfl, -⟩ | ⟨rfl, -⟩ | ⟨rfl, -⟩ <;> decide
  | bcOpenw | bcOpenr | bcClose | lz78Enc | lz78Dec | lzwEnc | lzwDec | lzssDec | hufDec | rleDec | imgDec => exact .nil

end

/-- The lowest offending index heads the list of the check. -/
theorem operandsBad_eq_cons {i : Instr} {s : State} {k : Nat} (hk : Offends i s k) (hmin : ∀ j, Offends i s j → k ≤ j) :
    ∃ rest, operandsBad i s = k :: rest := by
  cases hl : operandsBad i s with
  | nil => exact absurd (mem_operandsBad.2 hk) (by simp [hl])
  | cons j rest =>
    have hsorted := operandsBad_sorted i s
    have hmem := mem_operandsBad.2 hk
    rw [hl] at hsorted hmem
    have hle : k ≤ j := hmin j (mem_operandsBad.1 (by simp [hl]))
    have hge : j ≤ k := (List.mem_cons.1 hmem).elim (fun h => h.ge) (List.rel_of_pairwise_cons hsorted)
    exact ⟨rest, by rw [Nat.le_antisymm hle hge]⟩

/-! ### The commands -/

/-- Settles O12: the check's first index is the lowest that offends, and the command's work, which raises no `BadOperand`, runs only when
none does. -/
theorem badOperandBeforeAnyEffect : Obligations.BadOperandBeforeAnyEffect := by
  intro i s
  refine ⟨fun k hk hmin => ?_, fun hnone => ?_⟩
  · obtain ⟨rest, hbad⟩ := operandsBad_eq_cons hk hmin
    split
    · next hi =>
      obtain ⟨body, hexec, -⟩ := exec_channel (s := s) hi
      exact ⟨(s.start .compute).raised ⟨.badOperand, some k⟩, by rw [hexec, runChannel, hbad], rfl⟩
    · next hi =>
      obtain ⟨p, body, hexec, -⟩ := exec_unit (s := s) hi
      exact ⟨(s.start p).dropChannel.released.raised ⟨.badOperand, some k⟩, by rw [hexec, runUnit, hbad], rfl⟩
  · obtain ⟨t, ht⟩ := exec_next i s
    refine ⟨t, ht, fun he => ?_⟩
    have hbad : operandsBad i s = [] := List.eq_nil_iff_forall_not_mem.2 fun k hk => hnone k (mem_operandsBad.1 hk)
    rcases exec_err ht he with ⟨-, hne⟩ | ⟨hne, -⟩
    · exact hne hbad
    · exact hne rfl

end Sys2Proof.Machine
end

section
/-! The colour transform (47_image_pipeline.md R286 to R289): what it reads and writes of the planes, its linear forms over exact reals, and
how near binary64 comes to them. -/

namespace Sys2Proof.Machine

open Sys2Proof.Claims

/-! ### Every pixel of the image, and no other -/

section
variable {α β : Type}

/-- A pixel's step that writes, of all addresses, those of that pixel. -/
def WritesPixel (g : Key → β) (f : Nat → Nat → Sparse β → Sparse β) : Prop :=
  ∀ (y x : Nat) (m : Sparse β) (k : Key), (f y x m).read k = if k.y = y ∧ k.x = x then some (g k) else m.read k

/-- Pixels written from number i on. -/
theorem read_forPixels_from {g : Key → β} {f : Nat → Nat → Sparse β → Sparse β} (hf : WritesPixel g f) (w n i : Nat) (m : Sparse β)
    (k : Key) :
    ((∃ j, i ≤ j ∧ j < i + n ∧ k.y = j / w ∧ k.x = j % w) → (forPixels f w n i m).read k = some (g k))
      ∧ ((¬ ∃ j, i ≤ j ∧ j < i + n ∧ k.y = j / w ∧ k.x = j % w) → (forPixels f w n i m).read k = m.read k) := by
  induction n generalizing i m with
  | zero => exact ⟨fun ⟨j, h1, h2, _⟩ => by omega, fun _ => rfl⟩
  | succ n ih =>
    obtain ⟨hin, hout⟩ := ih (i + 1) (f (i / w) (i % w) m)
    rw [forPixels]
    by_cases hlater : ∃ j, i + 1 ≤ j ∧ j < i + 1 + n ∧ k.y = j / w ∧ k.x = j % w
    · refine ⟨fun _ => hin hlater, fun hnone => ?_⟩
      obtain ⟨j, h1, h2, hk⟩ := hlater
      exact absurd ⟨j, by omega, by omega, hk⟩ hnone
    · rw [hout hlater, hf]
      refine ⟨fun ⟨j, h1, h2, hk⟩ => ?_, fun hnone => if_neg fun hk => hnone ⟨i, by omega, by omega, hk⟩⟩
      rcases Nat.eq_or_lt_of_le h1 with rfl | h1
      · exact if_pos hk
      · exact absurd ⟨j, h1, by omega, hk⟩ hlater

/-- The pixels of an image are numbered row by row. -/
theorem exists_pixel_iff {h w y x : Nat} : (∃ j, 0 ≤ j ∧ j < 0 + h * w ∧ y = j / w ∧ x = j % w) ↔ y < h ∧ x < w := by
  constructor
  · rintro ⟨j, -, hj, rfl, rfl⟩
    rw [Nat.zero_add] at hj
    have hw : 0 < w := Nat.pos_of_ne_zero (by rintro rfl; simp at hj)
    exact ⟨(Nat.div_lt_iff_lt_mul hw).2 hj, Nat.mod_lt _ hw⟩
  · rintro ⟨hy, hx⟩
    have hw : 0 < w := by omega
    refine ⟨w * y + x, Nat.zero_le _, ?_, ?_, ?_⟩
    · have : w * (y + 1) ≤ w * h := Nat.mul_le_mul_left w hy
      rw [Nat.mul_succ] at this
      rw [Nat.zero_add, Nat.mul_comm h w]
      omega
    · rw [Nat.mul_add_div hw, Nat.div_eq_of_lt hx, Nat.add_zero]
    · rw [Nat.mul_add_mod, Nat.mod_eq_of_lt hx]

theorem read_forPixels {g : Key → β} {f : Nat → Nat → Sparse β → Sparse β} (hf : WritesPixel g f) (h w : Nat) (m : Sparse β) (k : Key) :
    (forPixels f w (h * w) 0 m).read k = if k.y < h ∧ k.x < w then some (g k) else m.read k := by
  obtain ⟨hin, hout⟩ := read_forPixels_from hf w (h * w) 0 m k
  rw [exists_pixel_iff] at hin hout
  split
  · next hk => exact hin hk
  · next hk => exact hout hk

end

/-- What CT.FWD makes of the pixel at an address (R286). -/
def forwardSample (m : Numeric) (rgb : Sparse Byte) (k : Key) : ExactNum :=
  let form := if k.c = 0 then lumaOf m else if k.c = 1 then cbOf m else crOf m
  form (rgbAt rgb 0 k.y k.x) (rgbAt rgb 1 k.y k.x) (rgbAt rgb 2 k.y k.x)

/-- What CT.INV makes of the pixel at an address before it is clamped (R287). -/
def inverseChannel (m : Numeric) (ycc : Sparse ExactNum) (k : Key) : ExactNum :=
  let form := if k.c = 0 then redOf m else if k.c = 1 then greenOf m else blueOf m
  form (yccAt ycc 0 k.y k.x) (yccAt ycc 1 k.y k.x) (yccAt ycc 2 k.y k.x)

/-- Three writes, one in each plane, write a pixel. -/
theorem writesPixel_of_three {β : Type} (g : Key → β) :
    WritesPixel g fun y x m => ((m.write ⟨0, y, x⟩ (g ⟨0, y, x⟩)).write ⟨1, y, x⟩ (g ⟨1, y, x⟩)).write ⟨2, y, x⟩ (g ⟨2, y, x⟩) := by
  intro y x m k
  obtain ⟨c, ky, kx⟩ := k
  simp only [Sparse.read_write, Key.mk.injEq]
  by_cases h : ky = y ∧ kx = x
  · obtain ⟨rfl, rfl⟩ := h
    fin_cases c <;> simp
  · simp [h]

theorem ctFwdPixel_writes (m : Numeric) (rgb : Sparse Byte) : WritesPixel (forwardSample m rgb) (ctFwdPixel m rgb) :=
  writesPixel_of_three (forwardSample m rgb)

theorem ctInvPixel_writes (m : Numeric) (ycc : Sparse ExactNum) :
    WritesPixel (fun k => sampleByte (inverseChannel m ycc k)) (ctInvPixel m ycc) :=
  writesPixel_of_three fun k => sampleByte (inverseChannel m ycc k)

/-- `YCC` after CT.FWD. -/
theorem State.read_ctFwd_ycc (s : State) (k : Key) :
    s.ctFwd.ycc.read k
      = if k.y < s.height.val ∧ k.x < s.width.val then some (forwardSample s.cfg.numeric s.rgb k) else s.ycc.read k := by
  rw [State.ctFwd_ycc, read_forPixels (ctFwdPixel_writes _ _)]

/-- `RGB` after CT.INV. -/
theorem State.read_ctInv_rgb (s : State) (k : Key) :
    s.ctInv.rgb.read k
      = if k.y < s.height.val ∧ k.x < s.width.val then some (sampleByte (inverseChannel s.cfg.numeric s.ycc k)) else s.rgb.read k := by
  rw [State.ctInv_rgb, read_forPixels (ctInvPixel_writes _ _)]

/-! ### The commands -/

/-- A state after a command of a unit whose work is `f`, started in s. -/
def State.unitDone (f : State → State) (s : State) : State := (f (s.start .compute).dropChannel).released.completed

theorem exec_ctFwd {s : State} (hs : SidesReady s) (hp : PlanesReady s.rgb s.height.val s.width.val) :
    exec .ctFwd s = .next (s.unitDone State.ctFwd) := by
  have hbad : ctFwdBad s = [] := by
    rw [ctFwdBad, sidesBad_eq_nil_iff.2 hs]
    exact (offUnless_nil _).2 ((planesWritten_iff _ _ _).2 hp)
  exact runUnit_ok (body := always State.ctFwd) hbad rfl

theorem exec_ctInv {s : State} (hs : SidesReady s) (hp : PlanesReady s.ycc s.height.val s.width.val) :
    exec .ctInv s = .next (s.unitDone State.ctInv) := by
  have hbad : ctInvBad s = [] := by
    rw [ctInvBad, sidesBad_eq_nil_iff.2 hs]
    exact (offUnless_nil _).2 ((planesWritten_iff _ _ _).2 hp)
  exact runUnit_ok (body := always State.ctInv) hbad rfl

theorem completed_unitDone_ctFwd (s : State) :
    Completed { s with ycc := (s.unitDone State.ctFwd).ycc } (readOnly s s.io.inp false) (s.unitDone State.ctFwd) := rfl

theorem completed_unitDone_ctInv (s : State) :
    Completed { s with rgb := (s.unitDone State.ctInv).rgb } (readOnly s s.io.inp false) (s.unitDone State.ctInv) := rfl

theorem read_unitDone_ctFwd (s : State) (k : Key) :
    (s.unitDone State.ctFwd).ycc.read k
      = if k.y < s.height.val ∧ k.x < s.width.val then some (forwardSample s.cfg.numeric s.rgb k) else s.ycc.read k :=
  (s.start .compute).dropChannel.read_ctFwd_ycc k

theorem read_unitDone_ctInv (s : State) (k : Key) :
    (s.unitDone State.ctInv).rgb.read k
      = if k.y < s.height.val ∧ k.x < s.width.val then some (sampleByte (inverseChannel s.cfg.numeric s.ycc k)) else s.rgb.read k :=
  (s.start .compute).dropChannel.read_ctInv_rgb k

/-! ### Clamping and truncating (R287, R288) -/

theorem real_clampSample (x : ExactNum) : (clampSample x).real = max 0 (min 255 x.real) := by
  unfold clampSample
  split_ifs with hlow hhigh
  · rw [ExactNum.lt_iff, ExactNum.real_ofInt, Int.cast_zero] at hlow
    rw [max_eq_left (min_le_right _ _ |>.trans hlow.le), ExactNum.real_ofInt, Int.cast_zero]
  · rw [ExactNum.lt_iff, ExactNum.real_ofInt] at hhigh
    rw [min_eq_left (by exact_mod_cast hhigh.le), max_eq_right (by norm_num), ExactNum.real_ofInt]
    norm_num
  · rw [ExactNum.lt_iff, ExactNum.real_ofInt, not_lt] at hlow hhigh
    rw [min_eq_right (by exact_mod_cast hhigh), max_eq_right (by exact_mod_cast hlow)]

theorem sampleByte_toNat (x : ExactNum) : ((sampleByte x).toNat : Int) = ⌊max 0 (min 255 x.real)⌋ := by
  have hlow : 0 ≤ ⌊max 0 (min 255 x.real)⌋ := Int.floor_nonneg.2 (le_max_left _ _)
  have hhigh : ⌊max 0 (min 255 x.real)⌋ < 256 := Int.floor_lt.2 (by
    have : max 0 (min 255 x.real) ≤ 255 := max_le (by norm_num) (min_le_left _ _)
    push_cast
    linarith)
  rw [sampleByte, ExactNum.floor_eq, real_clampSample, BitVec.toNat_ofInt]
  omega

/-! ### The forms over exact reals -/

section
variable (x y z : ExactNum)

theorem real_lumaOf_exact : (lumaOf .exact x y z).real = 299 / 1000 * x.real + 587 / 1000 * y.real + 114 / 1000 * z.real := by
  simp [lumaOf]

theorem real_cbOf_exact :
    (cbOf .exact x y z).real = -(1687 / 10000) * x.real - 3313 / 10000 * y.real + 1 / 2 * z.real + 128 := by
  simp [cbOf]

theorem real_crOf_exact :
    (crOf .exact x y z).real = 1 / 2 * x.real - 4187 / 10000 * y.real - 813 / 10000 * z.real + 128 := by
  simp [crOf]

theorem real_redOf_exact : (redOf .exact x y z).real = x.real + 1.402 * (z.real - 128) := by
  simp [redOf]
  norm_num

theorem real_greenOf_exact :
    (greenOf .exact x y z).real = x.real - 0.34414 * (y.real - 128) - 0.71414 * (z.real - 128) := by
  simp [greenOf]
  norm_num

theorem real_blueOf_exact : (blueOf .exact x y z).real = x.real + 1.772 * (y.real - 128) := by
  simp [blueOf]
  norm_num

end

/-! ### The forms in binary64 -/

/-- A number of the image path within e of the real r. -/
def Within (e : ℝ) (x : ExactNum) (r : ℝ) : Prop := |x.real - r| ≤ e

section
variable {x y : ExactNum} {e f r q B : ℝ}

theorem within_self (x : ExactNum) : Within 0 x x.real := by rw [Within, sub_self, abs_zero]

/-- One more rounding of a result that is within e of r. -/
theorem Within.fit (h : Within e x r) (hB : |r| + e ≤ B) (hone : 1 ≤ B) (hmax : B ≤ 2 ^ 100) :
    Within (e + B * epsilon64) (Numeric.binary64.fit x) r := by
  have hx : |x.real| ≤ B := by
    have := abs_add_le (x.real - r) r
    rw [sub_add_cancel] at this
    exact this.trans (by rw [Within] at h; linarith)
  have hround := abs_fit_sub_le_of_le hx hone (le_safeMagnitude hmax)
  have htri := abs_sub_le (Numeric.binary64.fit x).real x.real r
  rw [Within] at h ⊢
  linarith

theorem Within.add (hx : Within e x r) (hy : Within f y q) (hB : |r + q| + (e + f) ≤ B) (hone : 1 ≤ B) (hmax : B ≤ 2 ^ 100) :
    Within (e + f + B * epsilon64) (Numeric.binary64.add x y) (r + q) := by
  refine Within.fit ?_ hB hone hmax
  rw [Within, ExactNum.real_add, add_sub_add_comm]
  exact (abs_add_le _ _).trans (add_le_add hx hy)

theorem Within.sub (hx : Within e x r) (hy : Within f y q) (hB : |r - q| + (e + f) ≤ B) (hone : 1 ≤ B) (hmax : B ≤ 2 ^ 100) :
    Within (e + f + B * epsilon64) (Numeric.binary64.sub x y) (r - q) := by
  refine Within.fit ?_ hB hone hmax
  rw [Within, ExactNum.real_sub, sub_sub_sub_comm]
  exact (abs_sub _ _).trans (add_le_add hx hy)

/-- A decimal constant in binary64. -/
theorem abs_const_sub_le {c : Rat} {Q : ℝ} (hc : |(c : ℝ)| ≤ Q) (hone : 1 ≤ Q) (hmax : Q ≤ 2 ^ 100) :
    |((Numeric.binary64.const c : Rat) : ℝ) - c| ≤ Q * epsilon64 := by
  have h := abs_fit_sub_le_of_le (x := .ofRat c) (by rwa [ExactNum.real_ofRat]) hone (le_safeMagnitude hmax)
  rwa [Numeric.fit_binary64, ExactNum.real_ofRat, ExactNum.real_ofRat] at h

/-- A decimal constant times a number: the rounding of the constant, and that of the product. -/
theorem Within.scale {c : Rat} {Q A : ℝ} (hx : Within e x r) (hA : |r| + e ≤ A) (hc : |(c : ℝ)| ≤ Q) (hAone : 1 ≤ A) (hQone : 1 ≤ Q)
    (hmax : 2 * (Q * A) ≤ 2 ^ 100) : Within (Q * (e + 3 * (A * epsilon64))) (Numeric.binary64.scale c x) (c * r) := by
  have heps := epsilon64_nonneg
  have hepsle : epsilon64 ≤ 1 / 2 := epsilon64_le.trans (by norm_num)
  have he : 0 ≤ e := (abs_nonneg _).trans hx
  have hQA : 1 ≤ Q * A := one_le_mul_of_one_le_of_one_le hQone hAone
  have hQmax : Q ≤ 2 ^ 100 := by nlinarith
  have hconst := abs_const_sub_le hc hQone hQmax
  have hxA : |x.real| ≤ A := by
    have := abs_add_le (x.real - r) r
    rw [sub_add_cancel] at this
    exact this.trans (by rw [Within] at hx; linarith)
  have hprod : Within (Q * e + Q * (A * epsilon64)) (x.smul (Numeric.binary64.const c)) (c * r) := by
    rw [Within, ExactNum.real_smul]
    calc |((Numeric.binary64.const c : Rat) : ℝ) * x.real - c * r|
        = |(((Numeric.binary64.const c : Rat) : ℝ) - c) * x.real + c * (x.real - r)| := by ring_nf
      _ ≤ |((Numeric.binary64.const c : Rat) : ℝ) - c| * |x.real| + |(c : ℝ)| * |x.real - r| := by
        simpa only [abs_mul] using abs_add_le ((((Numeric.binary64.const c : Rat) : ℝ) - c) * x.real) (c * (x.real - r))
      _ ≤ Q * epsilon64 * A + Q * e := by gcongr; exact hx
      _ = Q * e + Q * (A * epsilon64) := by ring
  have hbound : |(c : ℝ) * r| + (Q * e + Q * (A * epsilon64)) ≤ 2 * (Q * A) := by
    rw [abs_mul]
    have hcr : |(c : ℝ)| * |r| ≤ Q * |r| := mul_le_mul_of_nonneg_right hc (abs_nonneg _)
    nlinarith
  refine (hprod.fit hbound (by linarith) hmax).trans_eq ?_
  ring

end

end Sys2Proof.Machine
end

section
/-! CT.FWD and CT.INV (47_image_pipeline.md R286 to R289): the error of the two transforms of a pixel in binary64, and the commands. -/

namespace Sys2Proof.Machine

open Sys2Proof.Claims

/-! ### A pixel in binary64 -/

section
variable {x y z : ExactNum} {e f r B : ℝ}

theorem Within.mono (h : Within e x r) (hef : e ≤ f) : Within f x r := le_trans h hef

theorem epsilon64_small : epsilon64 ≤ 1 / 10 ^ 15 := by rw [epsilon64]; norm_num

theorem abs_add_le_of_bounds {A : ℝ} (h : -A ≤ r) (h' : r ≤ A) (he : A + e ≤ B) : |r| + e ≤ B := by
  linarith [abs_le.2 ⟨h, h'⟩]

/-- A sample times a constant of R286. -/
theorem within_scale_sample {c : Rat} (hc : |(c : ℝ)| ≤ 1) (hx : |x.real| ≤ 255) :
    Within (768 * epsilon64) (Numeric.binary64.scale c x) (c * x.real) := by
  have h := (within_self x).scale (c := c) (Q := 1) (A := 256) (by linarith) hc (by norm_num) le_rfl (by norm_num)
  exact h.mono (by linarith)

/-- A centred element times a constant of R287 of magnitude at most Q. -/
theorem within_scale_centred {c : Rat} {Q : ℝ} (hc : |(c : ℝ)| ≤ Q) (hQ : 1 ≤ Q) (hQ2 : Q ≤ 2) (hx : |x.real| ≤ 1024) :
    Within (Q * (8192 * epsilon64)) (Numeric.binary64.scale c (Numeric.binary64.sub x (.ofInt 128))) (c * (x.real - 128)) := by
  have heps := epsilon64_small
  obtain ⟨hlow, hhigh⟩ := abs_le.1 hx
  have hcentred : Within (2048 * epsilon64) (Numeric.binary64.sub x (.ofInt 128)) (x.real - 128) := by
    have h := (within_self x).sub (within_self (.ofInt 128)) (B := 2048) (by
      rw [ExactNum.real_ofInt]
      exact abs_add_le_of_bounds (A := 1152) (by push_cast; linarith) (by push_cast; linarith) (by norm_num)) (by norm_num) (by norm_num)
    rw [ExactNum.real_ofInt] at h
    exact (by exact_mod_cast h : Within (0 + 0 + 2048 * epsilon64) _ (x.real - 128)).mono (by linarith)
  have h := hcentred.scale (c := c) (Q := Q) (A := 2048)
    (abs_add_le_of_bounds (A := 1152) (by linarith) (by linarith) (by linarith)) hc (by norm_num) hQ (by linarith)
  exact h.mono (by linarith)

section Forward

variable (hx : 0 ≤ x.real ∧ x.real ≤ 255) (hy : 0 ≤ y.real ∧ y.real ≤ 255) (hz : 0 ≤ z.real ∧ z.real ≤ 255)
include hx hy hz

theorem within_lumaOf :
    Within (3840 * epsilon64) (lumaOf .binary64 x y z) (299 / 1000 * x.real + 587 / 1000 * y.real + 114 / 1000 * z.real) := by
  have heps := epsilon64_small
  obtain ⟨hx0, hx1⟩ := hx
  obtain ⟨hy0, hy1⟩ := hy
  obtain ⟨hz0, hz1⟩ := hz
  have h1 := within_scale_sample (c := 299 / 1000) (by norm_num [abs_of_pos]) (abs_le.2 ⟨by linarith, hx1⟩)
  have h2 := within_scale_sample (c := 587 / 1000) (by norm_num [abs_of_pos]) (abs_le.2 ⟨by linarith, hy1⟩)
  have h3 := within_scale_sample (c := 114 / 1000) (by norm_num [abs_of_pos]) (abs_le.2 ⟨by linarith, hz1⟩)
  push_cast at h1 h2 h3
  have h12 := h1.add h2 (B := 512) (abs_add_le_of_bounds (A := 500) (by linarith) (by linarith) (by linarith)) (by norm_num) (by norm_num)
  have h := h12.add h3 (B := 512) (abs_add_le_of_bounds (A := 500) (by linarith) (by linarith) (by linarith)) (by norm_num) (by norm_num)
  exact h.mono (by linarith [epsilon64_nonneg])

theorem within_cbOf :
    Within (3840 * epsilon64) (cbOf .binary64 x y z)
      (-(1687 / 10000) * x.real - 3313 / 10000 * y.real + 1 / 2 * z.real + 128) := by
  have heps := epsilon64_small
  obtain ⟨hx0, hx1⟩ := hx
  obtain ⟨hy0, hy1⟩ := hy
  obtain ⟨hz0, hz1⟩ := hz
  have h1 := within_scale_sample (c := -(1687 / 10000)) (by norm_num [abs_of_pos]) (abs_le.2 ⟨by linarith, hx1⟩)
  have h2 := within_scale_sample (c := 3313 / 10000) (by norm_num [abs_of_pos]) (abs_le.2 ⟨by linarith, hy1⟩)
  have h3 := within_scale_sample (c := 1 / 2) (by norm_num [abs_of_pos]) (abs_le.2 ⟨by linarith, hz1⟩)
  have h4 := within_self (.ofInt 128)
  rw [ExactNum.real_ofInt] at h4
  push_cast at h1 h2 h3 h4
  have h12 := h1.sub h2 (B := 512) (abs_add_le_of_bounds (A := 500) (by linarith) (by linarith) (by linarith)) (by norm_num) (by norm_num)
  have h123 := h12.add h3 (B := 512) (abs_add_le_of_bounds (A := 500) (by linarith) (by linarith) (by linarith)) (by norm_num) (by norm_num)
  have h := h123.add h4 (B := 512) (abs_add_le_of_bounds (A := 500) (by linarith) (by linarith) (by linarith)) (by norm_num) (by norm_num)
  exact h.mono (by linarith [epsilon64_nonneg])

theorem within_crOf :
    Within (3840 * epsilon64) (crOf .binary64 x y z)
      (1 / 2 * x.real - 4187 / 10000 * y.real - 813 / 10000 * z.real + 128) := by
  have heps := epsilon64_small
  obtain ⟨hx0, hx1⟩ := hx
  obtain ⟨hy0, hy1⟩ := hy
  obtain ⟨hz0, hz1⟩ := hz
  have h1 := within_scale_sample (c := 1 / 2) (by norm_num [abs_of_pos]) (abs_le.2 ⟨by linarith, hx1⟩)
  have h2 := within_scale_sample (c := 4187 / 10000) (by norm_num [abs_of_pos]) (abs_le.2 ⟨by linarith, hy1⟩)
  have h3 := within_scale_sample (c := 813 / 10000) (by norm_num [abs_of_pos]) (abs_le.2 ⟨by linarith, hz1⟩)
  have h4 := within_self (.ofInt 128)
  rw [ExactNum.real_ofInt] at h4
  push_cast at h1 h2 h3 h4
  have h12 := h1.sub h2 (B := 512) (abs_add_le_of_bounds (A := 500) (by linarith) (by linarith) (by linarith)) (by norm_num) (by norm_num)
  have h123 := h12.sub h3 (B := 512) (abs_add_le_of_bounds (A := 500) (by linarith) (by linarith) (by linarith)) (by norm_num) (by norm_num)
  have h := h123.add h4 (B := 512) (abs_add_le_of_bounds (A := 500) (by linarith) (by linarith) (by linarith)) (by norm_num) (by norm_num)
  exact h.mono (by linarith [epsilon64_nonneg])

end Forward

section Inverse

/-- The one centred term of red and of blue. -/
theorem within_add_centred {c : Rat} (hc : 0 ≤ (c : ℝ) ∧ (c : ℝ) ≤ 2) (hx : |x.real| ≤ 1024) (hz : |z.real| ≤ 1024) :
    Within (20480 * epsilon64) (Numeric.binary64.add x (Numeric.binary64.scale c (Numeric.binary64.sub z (.ofInt 128))))
      (x.real + c * (z.real - 128)) := by
  have heps := epsilon64_small
  obtain ⟨hc0, hc2⟩ := hc
  have hterm := within_scale_centred (c := c) (abs_le.2 ⟨by linarith, hc2⟩) (by norm_num) le_rfl hz
  obtain ⟨hx0, hx1⟩ := abs_le.1 hx
  obtain ⟨hz0, hz1⟩ := abs_le.1 hz
  have h := (within_self x).add hterm (B := 4096) (abs_add_le_of_bounds (A := 4000) (by nlinarith) (by nlinarith) (by linarith))
    (by norm_num) (by norm_num)
  exact h.mono (by linarith)

theorem within_redOf (hx : |x.real| ≤ 1024) (hz : |z.real| ≤ 1024) :
    Within (22528 * epsilon64) (redOf .binary64 x y z) (x.real + 1.402 * (z.real - 128)) := by
  have h := within_add_centred (c := 1402 / 1000) (by norm_num) hx hz
  rw [show (((1402 / 1000 : Rat)) : ℝ) = 1.402 by norm_num] at h
  exact h.mono (by linarith [epsilon64_nonneg])

theorem within_blueOf (hx : |x.real| ≤ 1024) (hy : |y.real| ≤ 1024) :
    Within (22528 * epsilon64) (blueOf .binary64 x y z) (x.real + 1.772 * (y.real - 128)) := by
  have h := within_add_centred (c := 1772 / 1000) (by norm_num) hx hy
  rw [show (((1772 / 1000 : Rat)) : ℝ) = 1.772 by norm_num] at h
  exact h.mono (by linarith [epsilon64_nonneg])

theorem within_greenOf (hx : |x.real| ≤ 1024) (hy : |y.real| ≤ 1024) (hz : |z.real| ≤ 1024) :
    Within (22528 * epsilon64) (greenOf .binary64 x y z) (x.real - 0.34414 * (y.real - 128) - 0.71414 * (z.real - 128)) := by
  have heps := epsilon64_small
  have h1 := within_scale_centred (c := 34414 / 100000) (Q := 1) (by norm_num [abs_of_pos]) le_rfl (by norm_num) hy
  have h2 := within_scale_centred (c := 71414 / 100000) (Q := 1) (by norm_num [abs_of_pos]) le_rfl (by norm_num) hz
  rw [show (((34414 / 100000 : Rat)) : ℝ) = 0.34414 by norm_num] at h1
  rw [show (((71414 / 100000 : Rat)) : ℝ) = 0.71414 by norm_num] at h2
  obtain ⟨hx0, hx1⟩ := abs_le.1 hx
  obtain ⟨hy0, hy1⟩ := abs_le.1 hy
  obtain ⟨hz0, hz1⟩ := abs_le.1 hz
  have h01 := (within_self x).sub h1 (B := 2048) (abs_add_le_of_bounds (A := 2000) (by linarith) (by linarith) (by linarith))
    (by norm_num) (by norm_num)
  have h := h01.sub h2 (B := 4096) (abs_add_le_of_bounds (A := 4000) (by linarith) (by linarith) (by linarith)) (by norm_num) (by norm_num)
  exact h.mono (by linarith)

end Inverse

end

/-! ### CT.FWD -/

/-- The linear forms of R286. -/
def forwardForm (c : Fin 3) (r g b : Rat) : Rat :=
  if c = 0 then 299 / 1000 * r + 587 / 1000 * g + 114 / 1000 * b
  else if c = 1 then -(1687 / 10000) * r - 3313 / 10000 * g + 1 / 2 * b + 128
  else 1 / 2 * r - 4187 / 10000 * g - 813 / 10000 * b + 128

@[simp] theorem forwardForm_luma (r g b : Rat) : forwardForm 0 r g b = 299 / 1000 * r + 587 / 1000 * g + 114 / 1000 * b := rfl
@[simp] theorem forwardForm_cb (r g b : Rat) :
    forwardForm 1 r g b = -(1687 / 10000) * r - 3313 / 10000 * g + 1 / 2 * b + 128 := rfl
@[simp] theorem forwardForm_cr (r g b : Rat) :
    forwardForm 2 r g b = 1 / 2 * r - 4187 / 10000 * g - 813 / 10000 * b + 128 := rfl

theorem real_rgbAt (m : Sparse Byte) (c : Fin 3) (y x : Nat) : (rgbAt m c y x).real = sampleAt m c y x := by
  simp [rgbAt, sampleAt]

theorem sampleAt_bounds (m : Sparse Byte) (c : Fin 3) (y x : Nat) : 0 ≤ sampleAt m c y x ∧ sampleAt m c y x ≤ 255 := by
  have h := ((m.read ⟨c, y, x⟩).getD 0).isLt
  refine ⟨by simp [sampleAt], ?_⟩
  rw [sampleAt]
  exact_mod_cast (show ((m.read ⟨c, y, x⟩).getD 0).toNat ≤ 255 by omega)

theorem real_rgbAt_bounds (m : Sparse Byte) (c : Fin 3) (y x : Nat) : 0 ≤ (rgbAt m c y x).real ∧ (rgbAt m c y x).real ≤ 255 := by
  rw [real_rgbAt]
  exact_mod_cast sampleAt_bounds m c y x

theorem real_forwardSample_exact (rgb : Sparse Byte) (k : Key) :
    (forwardSample .exact rgb k).real
      = forwardForm k.c (sampleAt rgb 0 k.y k.x) (sampleAt rgb 1 k.y k.x) (sampleAt rgb 2 k.y k.x) := by
  obtain ⟨c, y, x⟩ := k
  match c with
  | 0 => simpa [forwardSample, real_rgbAt] using real_lumaOf_exact (rgbAt rgb 0 y x) (rgbAt rgb 1 y x) (rgbAt rgb 2 y x)
  | 1 => simpa [forwardSample, real_rgbAt] using real_cbOf_exact (rgbAt rgb 0 y x) (rgbAt rgb 1 y x) (rgbAt rgb 2 y x)
  | 2 => simpa [forwardSample, real_rgbAt] using real_crOf_exact (rgbAt rgb 0 y x) (rgbAt rgb 1 y x) (rgbAt rgb 2 y x)

theorem within_forwardSample_binary64 (rgb : Sparse Byte) (k : Key) :
    Within (3840 * epsilon64) (forwardSample .binary64 rgb k)
      (forwardForm k.c (sampleAt rgb 0 k.y k.x) (sampleAt rgb 1 k.y k.x) (sampleAt rgb 2 k.y k.x) : Rat) := by
  rw [← real_forwardSample_exact]
  obtain ⟨c, y, x⟩ := k
  have h (c : Fin 3) := real_rgbAt_bounds rgb c y x
  match c with
  | 0 => simpa [forwardSample, real_lumaOf_exact] using within_lumaOf (h 0) (h 1) (h 2)
  | 1 => simpa [forwardSample, real_cbOf_exact] using within_cbOf (h 0) (h 1) (h 2)
  | 2 => simpa [forwardSample, real_crOf_exact] using within_crOf (h 0) (h 1) (h 2)

/-- Settles O53: every pixel of the image gets its three forms, exactly or with the roundings of binary64. -/
theorem ctFwdTransformsPixels : Obligations.CtFwdTransformsPixels := by
  intro s hs hp
  refine ⟨_, exec_ctFwd hs hp, completed_unitDone_ctFwd s, fun y x hy hx => ?_, fun k hk => ?_⟩
  · intro r g b form c
    have hread := read_unitDone_ctFwd s ⟨c, y, x⟩
    rw [if_pos ⟨hy, hx⟩] at hread
    refine ⟨_, hread, ?_⟩
    cases hn : s.cfg.numeric with
    | exact =>
      have hexact : (forwardSample .exact s.rgb ⟨c, y, x⟩).real = (form c : Rat) := real_forwardSample_exact s.rgb ⟨c, y, x⟩
      refine ⟨fun _ => ExactNum.real_injective (by rw [hexact, ExactNum.real_ofRat]), ?_⟩
      rw [hexact, sub_self, abs_zero]
      norm_num
    | binary64 =>
      refine ⟨fun h => by simp at h, (within_forwardSample_binary64 s.rgb ⟨c, y, x⟩).trans ?_⟩
      rw [epsilon64]
      norm_num
  · rw [read_unitDone_ctFwd, if_neg hk]

/-! ### CT.INV -/

/-- The linear forms of R287. -/
noncomputable def inverseForm (c : Fin 3) (l cb cr : ℝ) : ℝ :=
  if c = 0 then l + 1.402 * (cr - 128)
  else if c = 1 then l - 0.34414 * (cb - 128) - 0.71414 * (cr - 128)
  else l + 1.772 * (cb - 128)

@[simp] theorem inverseForm_red (l cb cr : ℝ) : inverseForm 0 l cb cr = l + 1.402 * (cr - 128) := rfl
@[simp] theorem inverseForm_green (l cb cr : ℝ) : inverseForm 1 l cb cr = l - 0.34414 * (cb - 128) - 0.71414 * (cr - 128) := rfl
@[simp] theorem inverseForm_blue (l cb cr : ℝ) : inverseForm 2 l cb cr = l + 1.772 * (cb - 128) := rfl

section
variable {ycc : Sparse ExactNum} {y x : Nat} {l cb cr : ExactNum} (hl : ycc.read ⟨0, y, x⟩ = some l)
  (hcb : ycc.read ⟨1, y, x⟩ = some cb) (hcr : ycc.read ⟨2, y, x⟩ = some cr)
include hl hcb hcr

theorem real_inverseChannel_exact (c : Fin 3) : (inverseChannel .exact ycc ⟨c, y, x⟩).real = inverseForm c l.real cb.real cr.real := by
  match c with
  | 0 => simpa [inverseChannel, yccAt, hl, hcb, hcr] using real_redOf_exact l cb cr
  | 1 => simpa [inverseChannel, yccAt, hl, hcb, hcr] using real_greenOf_exact l cb cr
  | 2 => simpa [inverseChannel, yccAt, hl, hcb, hcr] using real_blueOf_exact l cb cr

theorem within_inverseChannel_binary64 (c : Fin 3) (h0 : |l.real| ≤ 1024) (h1 : |cb.real| ≤ 1024) (h2 : |cr.real| ≤ 1024) :
    Within (22528 * epsilon64) (inverseChannel .binary64 ycc ⟨c, y, x⟩) (inverseForm c l.real cb.real cr.real) := by
  match c with
  | 0 => simpa [inverseChannel, yccAt, hl, hcb, hcr] using within_redOf (y := cb) h0 h2
  | 1 => simpa [inverseChannel, yccAt, hl, hcb, hcr] using within_greenOf h0 h1 h2
  | 2 => simpa [inverseChannel, yccAt, hl, hcb, hcr] using within_blueOf (z := cr) h0 h1

end

/-- Settles O54: every pixel of the image gets its three forms, clamped and truncated. -/
theorem ctInvTransformsPixels : Obligations.CtInvTransformsPixels := by
  intro s hs hp
  refine ⟨_, exec_ctInv hs hp, completed_unitDone_ctInv s, fun y x l cb cr hy hx hl hcb hcr => ?_, fun k hk => ?_⟩
  · intro form c
    have hread := read_unitDone_ctInv s ⟨c, y, x⟩
    rw [if_pos ⟨hy, hx⟩] at hread
    refine ⟨_, _, hread, sampleByte_toNat _, fun hn => ?_, fun hn h0 h1 h2 => ?_⟩
    · rw [hn]
      exact real_inverseChannel_exact hl hcb hcr c
    · rw [hn]
      refine (within_inverseChannel_binary64 hl hcb hcr c h0 h1 h2).trans ?_
      rw [epsilon64]
      norm_num
  · rw [read_unitDone_ctInv, if_neg hk]

/-! ### The two together over exact reals (R289) -/

/-- The composition of the forms: each channel comes back up to a small multiple of the differences of the samples. -/
theorem abs_inverseForm_forwardForm_sub_le {v : Fin 3 → Rat} (hv : ∀ c, 0 ≤ v c ∧ v c ≤ 255) (c : Fin 3) :
    |inverseForm c (forwardForm 0 (v 0) (v 1) (v 2) : Rat) (forwardForm 1 (v 0) (v 1) (v 2) : Rat) (forwardForm 2 (v 0) (v 1) (v 2) : Rat)
      - v c| ≤ 1 / 50 := by
  have hv' (c : Fin 3) : (0 : ℝ) ≤ v c ∧ (v c : ℝ) ≤ 255 := by exact_mod_cast hv c
  obtain ⟨hr0, hr1⟩ := hv' 0
  obtain ⟨hg0, hg1⟩ := hv' 1
  obtain ⟨hb0, hb1⟩ := hv' 2
  rw [abs_le]
  match c with
  | 0 => norm_num; constructor <;> linarith
  | 1 => norm_num; constructor <;> linarith
  | 2 => norm_num; constructor <;> linarith

/-- For a gray pixel the composition is the identity. -/
theorem inverseForm_forwardForm_gray (g : Rat) (c : Fin 3) :
    inverseForm c (forwardForm 0 g g g : Rat) (forwardForm 1 g g g : Rat) (forwardForm 2 g g g : Rat) = g := by
  match c with
  | 0 => norm_num; ring
  | 1 => norm_num; ring
  | 2 => norm_num; ring

/-- A byte clamped and truncated from a number close to it: it, or it less 1. -/
theorem floor_clamp_near {v : ℝ} {n : Nat} (hn : n ≤ 255) (h : |v - n| ≤ 1 / 50) :
    ⌊max 0 (min 255 v)⌋ = n ∨ ⌊max 0 (min 255 v)⌋ + 1 = (n : Int) := by
  obtain ⟨hlow, hhigh⟩ := abs_le.1 h
  have hn' : (n : ℝ) ≤ 255 := by exact_mod_cast hn
  have hn0 : (0 : ℝ) ≤ n := Nat.cast_nonneg n
  have hup : max 0 (min 255 v) < (n : ℝ) + 1 := max_lt (by linarith) ((min_le_right _ _).trans_lt (by linarith))
  have hdown : (n : ℝ) - 1 ≤ max 0 (min 255 v) := (le_min (by linarith) (by linarith)).trans (le_max_right _ _)
  have h1 : ⌊max 0 (min 255 v)⌋ < (n : Int) + 1 := Int.floor_lt.2 (by exact_mod_cast hup)
  have h2 : (n : Int) - 1 ≤ ⌊max 0 (min 255 v)⌋ := Int.le_floor.2 (by exact_mod_cast hdown)
  omega

theorem floor_clamp_self {n : Nat} (hn : n ≤ 255) : ⌊max 0 (min 255 (n : ℝ))⌋ = n := by
  have hn' : (n : ℝ) ≤ 255 := by exact_mod_cast hn
  rw [min_eq_right hn', max_eq_right (Nat.cast_nonneg n), Int.floor_natCast]

section
variable {s : State} (hexact : s.cfg.numeric = .exact) {y x : Nat} (hy : y < s.height.val) (hx : x < s.width.val)
include hexact hy hx

/-- The number that CT.INV clamps after CT.FWD. -/
theorem real_inverseChannel_after_ctFwd (c : Fin 3) :
    (inverseChannel .exact (s.unitDone State.ctFwd).ycc ⟨c, y, x⟩).real
      = inverseForm c (forwardForm 0 (sampleAt s.rgb 0 y x) (sampleAt s.rgb 1 y x) (sampleAt s.rgb 2 y x) : Rat)
          (forwardForm 1 (sampleAt s.rgb 0 y x) (sampleAt s.rgb 1 y x) (sampleAt s.rgb 2 y x) : Rat)
          (forwardForm 2 (sampleAt s.rgb 0 y x) (sampleAt s.rgb 1 y x) (sampleAt s.rgb 2 y x) : Rat) := by
  have hread (c : Fin 3) := read_unitDone_ctFwd s ⟨c, y, x⟩
  simp only [if_pos (And.intro hy hx), hexact] at hread
  rw [real_inverseChannel_exact (hread 0) (hread 1) (hread 2), real_forwardSample_exact, real_forwardSample_exact, real_forwardSample_exact]

end

/-- Settles O55: the forms of R287 after those of R286 miss a channel by far less than 1, and a gray one not at all. -/
theorem colourRoundTripLosesAtMostOne : Obligations.ColourRoundTripLosesAtMostOne := by
  intro s hexact hs hp
  have hready : PlanesReady (s.unitDone State.ctFwd).ycc s.height.val s.width.val := fun c y x hy hx => by
    rw [read_unitDone_ctFwd, if_pos ⟨hy, hx⟩]
    rfl
  refine ⟨_, _, exec_ctFwd hs hp, exec_ctInv (s := s.unitDone State.ctFwd) hs hready, fun y x hy hx => ?_⟩
  have hread (c : Fin 3) := read_unitDone_ctInv (s.unitDone State.ctFwd) ⟨c, y, x⟩
  have hchannel := real_inverseChannel_after_ctFwd hexact hy hx
  have hcond : y < (s.unitDone State.ctFwd).height.val ∧ x < (s.unitDone State.ctFwd).width.val := ⟨hy, hx⟩
  have hnum : (s.unitDone State.ctFwd).cfg.numeric = .exact := hexact
  simp only [if_pos hcond, hnum] at hread
  refine ⟨fun c before after hbefore hafter => ?_, fun g hg c => ?_⟩
  · have hsample : sampleAt s.rgb c y x = before.toNat := by rw [sampleAt, hbefore, Option.getD_some]
    have hnear := abs_inverseForm_forwardForm_sub_le (v := fun c => sampleAt s.rgb c y x) (fun c => sampleAt_bounds s.rgb c y x) c
    rw [← hchannel c, hsample, Rat.cast_natCast] at hnear
    obtain rfl : sampleByte _ = after := Option.some.inj ((hread c).symm.trans hafter)
    have hbyte := sampleByte_toNat (inverseChannel .exact (s.unitDone State.ctFwd).ycc ⟨c, y, x⟩)
    have hlt := before.isLt
    rcases floor_clamp_near (by omega) hnear with h | h <;> omega
  · have hsample (c : Fin 3) : sampleAt s.rgb c y x = g.toNat := by rw [sampleAt, hg c, Option.getD_some]
    rw [hread c]
    have hbyte := sampleByte_toNat (inverseChannel .exact (s.unitDone State.ctFwd).ycc ⟨c, y, x⟩)
    have hlt := g.isLt
    rw [hchannel c, hsample, hsample, hsample, inverseForm_forwardForm_gray, Rat.cast_natCast, floor_clamp_self (by omega)] at hbyte
    exact congrArg some (BitVec.eq_of_toNat_eq (by exact_mod_cast hbyte))

end Sys2Proof.Machine
end

section
/-! The lines of an image stream and its header (47_image_pipeline.md R293 to R295): what `ReadLine` leaves, and which lines `ParseHeader`
accepts. -/

namespace Sys2Proof.Machine

open Sys2Proof.Claims

/-! ### The fields of a header line -/

theorem bitChar_ne_space (b : Bool) : bitChar b ≠ space := by cases b <;> decide

theorem bitChar_ne_lineFeed (b : Bool) : bitChar b ≠ lineFeed := by cases b <;> decide

theorem bitChar_eq_one_iff (b : Bool) : (bitChar b == 0x31) = b := by cases b <;> decide

theorem space_not_mem_chars (bits : Bits) : space ∉ chars bits := by
  simp only [chars, List.mem_map, not_exists, not_and]
  exact fun b _ => bitChar_ne_space b

theorem lineFeed_not_mem_chars (bits : Bits) : lineFeed ∉ chars bits := by
  simp only [chars, List.mem_map, not_exists, not_and]
  exact fun b _ => bitChar_ne_lineFeed b

theorem chars_injective : Function.Injective chars := by
  refine List.map_injective_iff.2 fun a b h => ?_
  rw [← bitChar_eq_one_iff a, h, bitChar_eq_one_iff]

/-- Characters that are all `'0'` or `'1'` are the characters of bits. -/
theorem eq_chars_of_binary {f : List Byte} (h : ∀ c ∈ f, c = 0x30 ∨ c = 0x31) : f = chars (f.map fun c => c == 0x31) := by
  have hmap : f.map (bitChar ∘ fun c => c == 0x31) = f.map id := List.map_congr_left fun c hc => by
    rcases h c hc with rfl | rfl <;> rfl
  rw [chars, List.map_map, hmap, List.map_id]

theorem parseBin_eq_some {f : List Byte} {n : Nat} : parseBin f = some n ↔ BinaryField f n := by
  constructor
  · intro h
    simp only [parseBin, Option.ite_none_left_eq_some, Bool.or_eq_true, not_or, Bool.not_eq_true, List.isEmpty_eq_false_iff,
      Bool.not_eq_false', List.all_eq_true, beq_iff_eq, Option.some.injEq] at h
    obtain ⟨⟨hne, hall⟩, hval⟩ := h
    exact ⟨_, by simpa using hne, eq_chars_of_binary hall, hval⟩
  · rintro ⟨bits, hne, rfl, rfl⟩
    have hmap : (chars bits).map (fun c => c == 0x31) = bits := by
      rw [chars, List.map_map]
      exact (List.map_congr_left fun b _ => bitChar_eq_one_iff b).trans bits.map_id
    have hall : (chars bits).all (fun c => c == 0x30 || c == 0x31) = true := by
      rw [chars, List.all_map, List.all_eq_true]
      exact fun b _ => by cases b <;> decide
    have hempty : (chars bits).isEmpty = false := by simpa [chars] using hne
    rw [parseBin, hempty, hall, hmap]
    rfl

theorem splitSpaces_of_not_mem {f : List Byte} (h : space ∉ f) : splitSpaces f = [f] := by
  induction f with
  | nil => rfl
  | cons c cs ih =>
    have hc : (c == space) = false := by simpa using fun e : c = space => h (e ▸ List.mem_cons_self)
    rw [splitSpaces, hc, ih fun e => h (List.mem_cons_of_mem _ e)]
    rfl

theorem splitSpaces_append {f : List Byte} (h : space ∉ f) (g : List Byte) :
    splitSpaces (f ++ space :: g) = f :: splitSpaces g := by
  induction f with
  | nil => simp [splitSpaces]
  | cons c cs ih =>
    have hc : (c == space) = false := by simpa using fun e : c = space => h (e ▸ List.mem_cons_self)
    rw [List.cons_append, splitSpaces, hc, ih fun e => h (List.mem_cons_of_mem _ e)]
    rfl

theorem splitSpaces_ne_nil (l : List Byte) : splitSpaces l ≠ [] := by
  cases l with
  | nil => simp [splitSpaces]
  | cons c cs =>
    rw [splitSpaces]
    split
    · simp
    · split <;> simp

/-- The fields with a space between each two are the line. -/
theorem intercalate_splitSpaces (l : List Byte) : [space].intercalate (splitSpaces l) = l := by
  induction l with
  | nil => rfl
  | cons c cs ih =>
    obtain ⟨f, fs, hs⟩ := List.exists_cons_of_ne_nil (splitSpaces_ne_nil cs)
    rw [splitSpaces, hs]
    rw [hs] at ih
    split
    · rename_i hc
      rw [← ih, (by simpa using hc : c = space)]
      simp [List.intercalate]
    · rw [← ih]
      cases fs <;> simp [List.intercalate]

theorem space_not_mem_of_binaryField {f : List Byte} {n : Nat} (h : BinaryField f n) : space ∉ f := by
  obtain ⟨bits, -, rfl, -⟩ := h
  exact space_not_mem_chars bits

theorem lineFeed_not_mem_of_binaryField {f : List Byte} {n : Nat} (h : BinaryField f n) : lineFeed ∉ f := by
  obtain ⟨bits, -, rfl, -⟩ := h
  exact lineFeed_not_mem_chars bits

/-- `ParseHeader` accepts exactly the good header lines (R295). -/
theorem parseHeader_eq_some {line : List Byte} {h w q : Nat} : parseHeader line = some (h, w, q) ↔ GoodHeader line h w q := by
  constructor
  · intro hp
    unfold parseHeader at hp
    split at hp
    · rename_i f0 f1 f2 hs
      split at hp
      · rename_i h' w' q' e0 e1 e2
        rw [Option.ite_none_left_eq_some] at hp
        obtain ⟨hrange, hsome⟩ := hp
        simp only [Option.some.injEq, Prod.mk.injEq] at hsome
        obtain ⟨rfl, rfl, rfl⟩ := hsome
        have hline := intercalate_splitSpaces line
        rw [hs] at hline
        refine ⟨f0, f1, f2, by rw [← hline]; simp [List.intercalate], parseBin_eq_some.1 e0, parseBin_eq_some.1 e1,
          parseBin_eq_some.1 e2, ?_, ?_, ?_⟩ <;> omega
      · cases hp
    · cases hp
  · rintro ⟨f0, f1, f2, rfl, e0, e1, e2, hh, hw, hq⟩
    have hs : splitSpaces (f0 ++ [space] ++ f1 ++ [space] ++ f2) = [f0, f1, f2] := by
      simp only [List.append_assoc, List.cons_append, List.nil_append]
      rw [splitSpaces_append (space_not_mem_of_binaryField e0), splitSpaces_append (space_not_mem_of_binaryField e1),
        splitSpaces_of_not_mem (space_not_mem_of_binaryField e2)]
    rw [parseHeader, hs]
    simp only [parseBin_eq_some.2 e0, parseBin_eq_some.2 e1, parseBin_eq_some.2 e2]
    rw [if_neg (by omega)]

theorem parseHeader_eq_none {line : List Byte} (h : ∀ h w q, ¬ GoodHeader line h w q) : parseHeader line = none := by
  rw [Option.eq_none_iff_forall_ne_some]
  exact fun ⟨a, b, c⟩ hp => h a b c (parseHeader_eq_some.1 hp)

theorem binaryField_binShort (n : Nat) : BinaryField (chars (binShort n)) n := by
  refine ⟨binShort n, ?_, rfl, ?_⟩
  · unfold binShort
    split
    · exact List.cons_ne_nil _ _
    · rename_i hn
      exact List.ne_nil_of_length_pos (by rw [binN_length]; exact bitLength_pos hn)
  · unfold binShort
    split
    · simp [*, valOf]
    · rw [valOf_binN, Nat.mod_eq_of_lt (lt_pow_bitLength n)]

/-- The header line of an encoder is one that the decoder accepts. -/
theorem goodHeader_headerChars {h w q : Nat} (hh : 1 ≤ h) (hw : 1 ≤ w) (hq : q ≤ 100) : GoodHeader (headerChars h w q) h w q :=
  ⟨_, _, _, by simp [headerChars, chars], binaryField_binShort h, binaryField_binShort w, binaryField_binShort q, hh, hw, hq⟩

theorem headerLine_eq (h w q : Nat) : headerLine h w q = headerChars h w q ++ [lineFeed] := by
  simp [headerLine, headerChars, chars]

theorem lineFeed_not_mem_of_goodHeader {line : List Byte} {h w q : Nat} (hg : GoodHeader line h w q) : lineFeed ∉ line := by
  obtain ⟨f0, f1, f2, rfl, e0, e1, e2, -⟩ := hg
  simp [lineFeed_not_mem_of_binaryField e0, lineFeed_not_mem_of_binaryField e1, lineFeed_not_mem_of_binaryField e2,
    show lineFeed ≠ space by decide]

/-! ### Lines -/

theorem firstLine_append {line : List Byte} (h : lineFeed ∉ line) (rest : List Byte) : firstLine (line ++ lineFeed :: rest) = line := by
  induction line with
  | nil => simp [firstLine]
  | cons c cs ih =>
    have hc : c ≠ lineFeed := fun e => h (e ▸ List.mem_cons_self)
    have := ih fun e => h (List.mem_cons_of_mem _ e)
    simp_all [firstLine]

theorem afterLine_append {line : List Byte} (h : lineFeed ∉ line) (rest : List Byte) : afterLine (line ++ lineFeed :: rest) = rest := by
  induction line with
  | nil => simp [afterLine]
  | cons c cs ih =>
    have hc : c ≠ lineFeed := fun e => h (e ▸ List.mem_cons_self)
    have := ih fun e => h (List.mem_cons_of_mem _ e)
    simp_all [afterLine]

theorem firstLine_of_not_mem {x : List Byte} (h : lineFeed ∉ x) : firstLine x = x := by
  refine List.takeWhile_eq_self_iff.2 fun c hc => ?_
  simpa using fun e : c = lineFeed => h (e ▸ hc)

theorem afterLine_of_not_mem {x : List Byte} (h : lineFeed ∉ x) : afterLine x = [] := by
  have : x.dropWhile (fun c => c != lineFeed) = [] := by
    refine List.dropWhile_eq_nil_iff.2 fun c hc => ?_
    simpa using fun e : c = lineFeed => h (e ▸ hc)
  rw [afterLine, this]
  rfl

/-- A stream begins with a line that a line feed ends, or it is one line. -/
theorem exists_line (x : List Byte) :
    lineFeed ∉ firstLine x ∧ (x = firstLine x ++ lineFeed :: afterLine x ∨ (lineFeed ∉ x ∧ firstLine x = x ∧ afterLine x = [])) := by
  by_cases h : lineFeed ∈ x
  · obtain ⟨line, rest, rfl, hline⟩ := List.eq_append_cons_of_mem h
    rw [firstLine_append hline, afterLine_append hline]
    exact ⟨hline, .inl rfl⟩
  · rw [firstLine_of_not_mem h, afterLine_of_not_mem h]
    exact ⟨h, .inr ⟨h, rfl, rfl⟩⟩

theorem length_afterLine_le (x : List Byte) : (afterLine x).length ≤ x.length := by
  rcases (exists_line x).2 with h | ⟨-, -, h⟩
  · have := congrArg List.length h
    simp at this
    omega
  · simp [h]

theorem afterLines_zero (x : List Byte) : afterLines 0 x = x := rfl

theorem afterLines_succ (n : Nat) (x : List Byte) : afterLines (n + 1) x = afterLine (afterLines n x) :=
  Function.iterate_succ_apply' _ _ _

theorem length_afterLines_le (n : Nat) (x : List Byte) : (afterLines n x).length ≤ x.length := by
  induction n with
  | zero => exact le_rfl
  | succ n ih => rw [afterLines_succ]; exact (length_afterLine_le _).trans ih

theorem count_afterLine (x : List Byte) : (afterLine x).count lineFeed = x.count lineFeed - 1 := by
  obtain ⟨hline, h | ⟨hx, -, h⟩⟩ := exists_line x
  · have := congrArg (List.count lineFeed) h
    rw [List.count_append, List.count_eq_zero_of_not_mem hline, List.count_cons_self] at this
    omega
  · rw [h, List.count_eq_zero_of_not_mem hx]
    rfl

theorem count_afterLines (n : Nat) (x : List Byte) : (afterLines n x).count lineFeed = x.count lineFeed - n := by
  induction n with
  | zero => rfl
  | succ n ih => rw [afterLines_succ, count_afterLine, ih]; omega

theorem linesHitEnd_zero (x : List Byte) : linesHitEnd 0 x = false := by simp [linesHitEnd]

theorem linesHitEnd_one (x : List Byte) : linesHitEnd 1 x = true ↔ lineFeed ∉ x := by
  simp [linesHitEnd, List.count_eq_zero]

/-! ### `ReadLine` on the state -/

/-- The streams once n lines have been read of the `IN` that `s` holds. -/
def State.linesRead (s : State) (n : Nat) (io : Io) : Io :=
  { io with inp := leaving s (afterLines n s.io.inp.rest), eos := linesHitEnd n s.io.inp.rest }

/-- The start of a command has read no line. -/
theorem State.linesRead_zero (s : State) (p : Phase) : s.linesRead 0 (s.start p).dropChannel.io = (s.start p).dropChannel.io := by
  simp [State.linesRead, leaving, afterLines_zero, linesHitEnd_zero]

/-- `ReadLine` takes the next line (R294). -/
theorem readLine_linesRead (s : State) (n : Nat) (io : Io) :
    readLine (s.linesRead n io) = .ok (firstLine (afterLines n s.io.inp.rest)) (s.linesRead (n + 1) io) := by
  set x := afterLines n s.io.inp.rest with hx
  have hlen : x.length ≤ s.io.inp.rest.length := length_afterLines_le n _
  have hcount : x.count lineFeed = s.io.inp.rest.count lineFeed - n := count_afterLines n _
  obtain ⟨hline, hsplit | ⟨hnone, hfirst, hafter⟩⟩ := exists_line x
  · have hpos : n + 1 ≤ s.io.inp.rest.count lineFeed := by
      have := congrArg (List.count lineFeed) hsplit
      rw [List.count_append, List.count_cons_self] at this
      omega
    have hlength := congrArg List.length hsplit
    rw [List.length_append, List.length_cons] at hlength
    rw [readLine_lineFeed (rest := afterLine x) hsplit hline]
    simp only [State.linesRead, leaving, afterLines_succ, ← hx, linesHitEnd, EStateM.Result.ok.injEq, Io.mk.injEq, InStream.mk.injEq,
      true_and]
    refine ⟨by omega, ?_⟩
    rw [decide_eq_false (by omega), decide_eq_false (by omega)]
  · have hzero : s.io.inp.rest.count lineFeed < n + 1 := by
      have := List.count_eq_zero_of_not_mem hnone
      omega
    rw [readLine_end (line := x) rfl hnone]
    simp only [State.linesRead, leaving, afterLines_succ, ← hx, hfirst, hafter, linesHitEnd, EStateM.Result.ok.injEq, Io.mk.injEq,
      InStream.mk.injEq, true_and, List.length_nil]
    exact ⟨by omega, (decide_eq_true hzero).symm⟩

/-! ### The header of IMG.DEC -/

/-- IMG.DEC after a line that is no header. -/
theorem exec_imgDec_malformed {s : State} (h : parseHeader (firstLine s.io.inp.rest) = none) :
    exec .imgDec s = .next (({ (s.start .header).dropChannel with
      io := s.linesRead 1 (s.start .header).dropChannel.io } : State).released.raised ⟨.malformedHeader, some 0⟩) := by
  rw [exec, execImgDec]
  refine runUnit_error rfl ?_
  have hread := readLine_linesRead s 0 (s.start .header).dropChannel.io
  rw [State.linesRead_zero] at hread
  rw [Run.bind_apply, onIo_apply, hread]
  simp only [afterLines_zero, h]
  rfl

/-- Settles O60: `ReadLine` is all that happens before `ParseHeader` refuses the line. -/
theorem malformedHeaderRejected : Obligations.MalformedHeaderRejected := by
  unfold Obligations.MalformedHeaderRejected
  intro s line rest hline hin hbad
  have hfirst : firstLine s.io.inp.rest = line ∧ afterLine s.io.inp.rest = rest ∧
      (linesHitEnd 1 s.io.inp.rest = true ↔ s.io.inp.rest = line) := by
    rcases hin with h | ⟨h, rfl⟩
    · rw [h, firstLine_append hline, afterLine_append hline, linesHitEnd_one]
      simp
    · rw [h, firstLine_of_not_mem hline, afterLine_of_not_mem hline, linesHitEnd_one]
      simp [hline]
  obtain ⟨hfirst, hafter, heos⟩ := hfirst
  refine ⟨_, exec_imgDec_malformed (by rw [hfirst]; exact parseHeader_eq_none hbad), ?_, heos⟩
  rw [Raised, ← hafter]
  rfl

end Sys2Proof.Machine
end

section
/-! IMG.ENC (47_image_pipeline.md R290 to R297): one tile by the block commands and inside the image pass, the tiles of a plane, the planes,
and the command. -/

namespace Sys2Proof.Machine

open Sys2Proof.Claims

/-- A command answers one state. -/
theorem exec_unique {i : Instr} {s t t' : State} (h : exec i s = .next t) (h' : exec i s = .next t') : t = t' :=
  Host.Outcome.next.inj (h.symm.trans h')

/-! ### A tile up to `SEQ` -/

/-- The work of R292 on the block buffers before the entropy coder. -/
def BlockUnit.forward (cfg : Config) (qt : Vector Nat 64) (b : BlockUnit) : BlockUnit :=
  ((b.dctFwd cfg.numeric).quant cfg.numeric cfg.round qt).zzFwd cfg.zigzag

/-- It reads `BLKF` alone, and overwrites the three buffers. -/
theorem BlockUnit.forward_congr {b b' : BlockUnit} (h : b.blkf = b'.blkf) (cfg : Config) (qt : Vector Nat 64) :
    b.forward cfg qt = { b'.forward cfg qt with coder := b.coder } := by
  obtain ⟨blkf, blki, seq, coder⟩ := b
  subst h
  rfl

theorem planeSel_chroma (p : Fin 3) : (planeSel p).val.testBit 0 = planeChroma p := by revert p; decide

theorem State.blockDone_blk (s : State) (b : BlockUnit) : (s.blockDone b).blk = { b with coder := .fresh } := rfl

theorem State.blockDone_chroma (s : State) (b : BlockUnit) : (s.blockDone b).chroma = s.chroma := rfl

/-- A block command leaves an `OUT` that is not being written. -/
theorem State.blockDone_out_of_idle {s : State} (h : s.io.out = ⟨[], .idle⟩) (b : BlockUnit) : (s.blockDone b).io.out = ⟨[], .idle⟩ := by
  have hout : (s.blockDone b).io.out = s.io.out.ended s.embedded := rfl
  rw [hout, h]
  rfl

/-- The operations leave the coder alone, and do not read it. -/
theorem BlockUnit.quant_with_coder (b : BlockUnit) (c : Coder) (m : Numeric) (r : RoundMode) (qt : Vector Nat 64) :
    ({ b with coder := c } : BlockUnit).quant m r qt = { b.quant m r qt with coder := c } := rfl

theorem BlockUnit.zzFwd_with_coder (b : BlockUnit) (c : Coder) (z : Vector (Fin 64) 64) :
    ({ b with coder := c } : BlockUnit).zzFwd z = { b.zzFwd z with coder := c } := rfl

section
variable (u : State) (p : Fin 3) (n : Nat)

/-- u before, between and after the block commands of R292 on tile n of plane p, run one by one. -/
@[irreducible] def State.tileStart : State :=
  { u with sel := planeSel p, blk := { u.blk with blkf := tileSamples u p n }, io := { u.io with out := ⟨[], .idle⟩ } }

@[irreducible] def State.tileTransformed : State := (u.tileStart p n).blockDone ((u.tileStart p n).blk.dctFwd u.cfg.numeric)

@[irreducible] def State.tileRounded : State :=
  (u.tileTransformed p n).blockDone ((u.tileTransformed p n).blk.quant u.cfg.numeric u.cfg.round (u.qt (planeChroma p)))

@[irreducible] def State.tileQuantised : State := (u.tileRounded p n).blockDone ((u.tileRounded p n).blk.zzFwd u.cfg.zigzag)

theorem State.tileStart_cfg : (u.tileStart p n).cfg = u.cfg := by rw [State.tileStart]

theorem State.tileStart_chroma : (u.tileStart p n).chroma = planeChroma p := by rw [State.tileStart]; exact planeSel_chroma p

theorem State.tileStart_qt (c : Bool) : (u.tileStart p n).qt c = u.qt c := by rw [State.tileStart]; rfl

theorem State.tileStart_blk : (u.tileStart p n).blk = { u.blk with blkf := tileSamples u p n } := by rw [State.tileStart]

theorem State.tileStart_qvalid : (u.tileStart p n).qvalid = u.qvalid := by rw [State.tileStart]

theorem State.tileTransformed_cfg : (u.tileTransformed p n).cfg = u.cfg := by
  rw [State.tileTransformed, State.blockDone_cfg, State.tileStart_cfg]

theorem State.tileRounded_cfg : (u.tileRounded p n).cfg = u.cfg := by
  rw [State.tileRounded, State.blockDone_cfg, State.tileTransformed_cfg]

@[simp] theorem State.tileQuantised_cfg : (u.tileQuantised p n).cfg = u.cfg := by
  rw [State.tileQuantised, State.blockDone_cfg, State.tileRounded_cfg]

@[simp] theorem State.tileQuantised_chroma : (u.tileQuantised p n).chroma = planeChroma p := by
  rw [State.tileQuantised, State.blockDone_chroma, State.tileRounded, State.blockDone_chroma, State.tileTransformed,
    State.blockDone_chroma, State.tileStart_chroma]

theorem State.tileTransformed_qt : (u.tileTransformed p n).qt (u.tileTransformed p n).chroma = u.qt (planeChroma p) := by
  rw [State.tileTransformed, State.blockDone_qt, State.tileStart_chroma, State.tileStart_qt]

theorem State.tileTransformed_qvalid : (u.tileTransformed p n).qvalid = u.qvalid := by
  rw [State.tileTransformed, State.blockDone_qvalid, State.tileStart_qvalid]

theorem State.tileQuantised_qvalid : (u.tileQuantised p n).qvalid = u.qvalid := by
  rw [State.tileQuantised, State.blockDone_qvalid, State.tileRounded, State.blockDone_qvalid, State.tileTransformed_qvalid]

theorem State.tileQuantised_out : (u.tileQuantised p n).io.out = ⟨[], .idle⟩ := by
  rw [State.tileQuantised, State.tileRounded, State.tileTransformed, State.tileStart]
  exact State.blockDone_out_of_idle (State.blockDone_out_of_idle (State.blockDone_out_of_idle rfl _) _) _

theorem State.tileQuantised_blk :
    (u.tileQuantised p n).blk
      = { ({ u.blk with blkf := tileSamples u p n } : BlockUnit).forward u.cfg.toConfig (u.qt (planeChroma p)) with coder := .fresh } := by
  rw [State.tileQuantised, State.blockDone_blk, State.tileRounded, State.blockDone_blk, State.tileTransformed, State.blockDone_blk,
    State.tileStart_blk, BlockUnit.quant_with_coder, BlockUnit.zzFwd_with_coder, BlockUnit.zzFwd_with_coder]
  rfl

theorem State.tileStart_written (k : Fin 64) : (u.tileStart p n).blk.blkf[k.1].written = true := by
  rw [State.tileStart_blk]
  simp [tileSamples]

theorem State.tileTransformed_written (k : Fin 64) : (u.tileTransformed p n).blk.blkf[k.1].written = true := by
  rw [State.tileTransformed, State.blockDone_blk, BlockUnit.dctFwd_blkf]
  exact written_blockOf _ k

theorem State.tileRounded_written (k : Fin 64) : (u.tileRounded p n).blk.blki[k.1].written = true := by
  rw [State.tileRounded, State.blockDone_blk, BlockUnit.quant_blki_getElem]
  rfl

theorem State.tileSeq_written (k : Fin 64) : (u.tileQuantised p n).blk.seq[k.1].written = true := by
  rw [State.tileQuantised, State.blockDone_blk]
  simp [BlockUnit.zzFwd, Reg.of]

/-- The commands of R292 up to ZZ.FWD lead to one state. -/
theorem tileQuantised_iff (hq : u.qvalid = true) (t : State) : TileQuantised u p n t ↔ t = u.tileQuantised p n := by
  have hdct : exec .dctFwd (u.tileStart p n) = .next (u.tileTransformed p n) := by
    rw [exec_dctFwd (u.tileStart_written p n), State.tileStart_cfg, ← State.tileTransformed]
  have hquant : exec .qQuant (u.tileTransformed p n) = .next (u.tileRounded p n) := by
    rw [exec_qQuant (u.tileTransformed_written p n) ((u.tileTransformed_qvalid p n).trans hq), State.tileTransformed_cfg,
      State.tileTransformed_qt, ← State.tileRounded]
  have hzz : exec .zzFwd (u.tileRounded p n) = .next (u.tileQuantised p n) := by
    rw [exec_zzFwd (u.tileRounded_written p n), State.tileRounded_cfg, ← State.tileQuantised]
  have hdone : (u.tileTransformed p n).run = .done ∧ (u.tileRounded p n).run = .done ∧ (u.tileQuantised p n).run = .done := by
    rw [State.tileQuantised, State.tileRounded, State.tileTransformed]
    exact ⟨rfl, rfl, rfl⟩
  rw [TileQuantised, ← State.tileStart]
  constructor
  · rintro ⟨a, b, ⟨ha, -⟩, ⟨hb, -⟩, hc, -⟩
    obtain rfl : u.tileTransformed p n = a := exec_unique hdct ha
    obtain rfl : u.tileRounded p n = b := exec_unique hquant hb
    exact exec_unique hc hzz
  · rintro rfl
    exact ⟨_, _, ⟨hdct, hdone.1⟩, ⟨hquant, hdone.2.1⟩, hzz, hdone.2.2⟩

/-- The symbols of tile n of plane p. -/
@[irreducible] def State.tileItems : List BlockItem := seqItems (u.tileQuantised p n)

end

/-- What becomes of the bits does not depend on those put before. -/
theorem putItems_of_not_held {items : List BlockItem} (h : ¬ Held items) :
    ∃ (i : Int) (bits : Bits), ∀ put, putItems put items = (some ⟨.corruptCodeword, some i⟩, put ++ bits) := by
  induction items with
  | nil => exact absurd (fun _ hx => absurd hx List.not_mem_nil) h
  | cons x xs ih =>
    cases hx : x.code with
    | none => exact ⟨x.blame, [], fun put => by simp [putItems, hx]⟩
    | some code =>
      obtain ⟨i, bits, hput⟩ := ih fun hxs => h (held_cons.2 ⟨⟨code, hx⟩, hxs⟩)
      exact ⟨i, code ++ entBits x.value ++ bits, fun put => by simp [putItems, hx, hput]⟩

theorem State.tileItems_eq (u : State) (p : Fin 3) (n : Nat) : u.tileItems p n = seqItems (u.tileQuantised p n) := by
  rw [State.tileItems]

theorem State.tileQuantised_blk_coder (u : State) (p : Fin 3) (n : Nat) :
    ({ (u.tileQuantised p n).blk with coder := .fresh } : BlockUnit) = (u.tileQuantised p n).blk := by
  rw [State.tileQuantised_blk]

section Ends
variable {s t : State} {io : Io} {e : Exc} {i : Int}

theorem completed_run_eq (h : Completed s io t) : t.run = .done := by rw [h]

theorem completed_io_eq (h : Completed s io t) : t.io = io := by rw [h]

theorem completed_blk_eq (h : Completed s io t) : t.blk = { s.blk with coder := .fresh } := by rw [h]

theorem raised_run_eq (h : Raised s io e i t) : t.run = .error := by rw [h]

theorem raised_errinfo_eq (h : Raised s io e i t) : t.errinfo = i := by rw [h]

theorem raised_blk_eq (h : Raised s io e i t) : t.blk = { s.blk with coder := .fresh } := by rw [h]

end Ends

/-- RLE.ENC on the tile, when the codebooks hold its symbols, and when they do not. -/
theorem exec_rleEnc_tile (u : State) (p : Fin 3) (n : Nat) :
    (Held (u.tileItems p n) → ∃ t, Runs .rleEnc (u.tileQuantised p n) t ∧ t.blk = (u.tileQuantised p n).blk
        ∧ t.io.out.bytes = chars (itemBits (u.tileItems p n)))
      ∧ (¬ Held (u.tileItems p n) → ∃ (t : State) (i : Int) (bits : Bits), exec .rleEnc (u.tileQuantised p n) = .next t
        ∧ t.run = .error ∧ t.blk = (u.tileQuantised p n).blk ∧ t.errinfo = i
        ∧ ∀ put, putItems put (u.tileItems p n) = (some ⟨.corruptCodeword, some i⟩, put ++ bits)) := by
  rw [State.tileItems_eq]
  refine ⟨fun h => ?_, fun h => ?_⟩
  · obtain ⟨t, ht, hdone⟩ := exec_rleEnc_completed (u.tileSeq_written p n) (putItems_of_held h [])
    refine ⟨t, ⟨ht, (completed_run_eq hdone)⟩, (completed_blk_eq hdone).trans (u.tileQuantised_blk_coder p n), ?_⟩
    rw [(completed_io_eq hdone), wrote, State.tileQuantised_out]
    rfl
  · obtain ⟨i, bits, hput⟩ := putItems_of_not_held h
    obtain ⟨t, ht, hraised⟩ := exec_rleEnc_raised (u.tileSeq_written p n) (hput [])
    exact ⟨t, i, bits, ht, (raised_run_eq hraised), (raised_blk_eq hraised).trans (u.tileQuantised_blk_coder p n), (raised_errinfo_eq hraised), hput⟩

/-- A tile has a code exactly when the codebooks hold its symbols; the code is theirs. -/
theorem tileCoded_iff {u : State} (hq : u.qvalid = true) (p : Fin 3) (n : Nat) (code : Bits) :
    (∃ t, TileCoded u p n code t) ↔ Held (u.tileItems p n) ∧ code = itemBits (u.tileItems p n) := by
  constructor
  · rintro ⟨t, c, hc, ⟨ht, hrun⟩, hbytes⟩
    obtain rfl := (tileQuantised_iff u p n hq c).1 hc
    obtain ⟨hheld, hmissing⟩ := exec_rleEnc_tile u p n
    by_cases h : Held (u.tileItems p n)
    · obtain ⟨t', ⟨ht', -⟩, -, hbytes'⟩ := hheld h
      obtain rfl : t = t' := exec_unique ht ht'
      exact ⟨h, chars_injective (hbytes.symm.trans hbytes')⟩
    · obtain ⟨t', i, bits, ht', hrun', -⟩ := hmissing h
      obtain rfl : t = t' := exec_unique ht ht'
      rw [hrun'] at hrun
      cases hrun
  · rintro ⟨h, rfl⟩
    obtain ⟨t, ht, -, hbytes⟩ := (exec_rleEnc_tile u p n).1 h
    exact ⟨t, _, (tileQuantised_iff u p n hq _).2 rfl, ht, hbytes⟩

/-- The block buffers after a coded tile. -/
theorem tileCoded_blk {u : State} (hq : u.qvalid = true) {p : Fin 3} {n : Nat} {code : Bits} {t : State} (h : TileCoded u p n code t) :
    t.blk = (u.tileQuantised p n).blk := by
  have hheld := ((tileCoded_iff hq p n code).1 ⟨t, h⟩).1
  obtain ⟨c, hc, ⟨ht, -⟩, -⟩ := h
  obtain rfl := (tileQuantised_iff u p n hq c).1 hc
  obtain ⟨t', ⟨ht', -⟩, hblk, -⟩ := (exec_rleEnc_tile u p n).1 hheld
  obtain rfl : t = t' := exec_unique ht ht'
  exact hblk

/-! ### A tile inside the image pass -/

/-- s in the midst of an image command: the parts that the planes' work changes. -/
def State.working (s : State) (ph : Phase) (b : BlockUnit) (io : Io) : State := { s with phase := ph, blk := b, io := io }

/-- The two states agree on what the encoder of an image reads. -/
structure SameImage (s u : State) : Prop where
  cfg : s.cfg = u.cfg
  height : s.height = u.height
  width : s.width = u.width
  ycc : s.ycc = u.ycc
  qt : ∀ c, s.qt c = u.qt c

section
variable {s u : State} {p : Fin 3} {ph : Phase} {b : BlockUnit} {io : Io}

/-- The pieces of a command act on those parts. -/
theorem onBlk_working {α : Type} (m : Run BlockUnit α) :
    onBlk m (s.working ph b io) = match m b with
      | .ok a b' => .ok a (s.working ph b' io)
      | .error r b' => .error r (s.working ph b' io) := onBlk_apply m _

theorem onIo_working {α : Type} (m : Run Io α) :
    onIo m (s.working ph b io) = match m io with
      | .ok a io' => .ok a (s.working ph b io')
      | .error r io' => .error r (s.working ph b io') := onIo_apply m _

theorem setPhase_working (ph' : Phase) : setPhase ph' (s.working ph b io) = .ok () (s.working ph' b io) := rfl

theorem loadTile_working (h : SameImage s u) (n : Nat) :
    (s.working ph b io).loadTile p (n / tilesAlong u.width.val) (n % tilesAlong u.width.val)
      = s.working ph { b with blkf := tileSamples u p n } io := by
  simp only [State.loadTile, State.working, tileSamples, yccAt, h.ycc, h.height, h.width]
  rfl

/-- `EncodeBlock` on the block buffers that hold the `SEQ` of t, by the codebooks that t selects. -/
theorem encodeSeq_eq (t : State) (c : Coder) :
    BlockUnit.encodeSeq t.cfg.toConfig t.chroma { t.blk with coder := c } = onCoder (encodeSeqOf t) { t.blk with coder := c } := rfl

/-- The operations of R292 on the samples of tile n. -/
theorem forward_tileSamples (n : Nat) :
    ({ b with blkf := tileSamples u p n } : BlockUnit).forward u.cfg.toConfig (u.qt (planeChroma p))
      = { (u.tileQuantised p n).blk with coder := b.coder } := by
  rw [State.tileQuantised_blk]
  exact BlockUnit.forward_congr rfl _ _

theorem working_cfg : (s.working ph b io).cfg = s.cfg := rfl

theorem working_qt (c : Bool) : (s.working ph b io).qt c = s.qt c := rfl

/-- `EncodeTile` is the loading of the tile, the operations of R292, and the entropy coder. -/
theorem encodeTile_apply (ty tx : Nat) (s : State) :
    encodeTile p ty tx s = (do
      onBlk (modify fun b : BlockUnit => b.forward (s.loadTile p ty tx).cfg.toConfig ((s.loadTile p ty tx).qt (planeChroma p)))
      onBlk (BlockUnit.encodeSeq (s.loadTile p ty tx).cfg.toConfig (planeChroma p))) (s.loadTile p ty tx) := by
  rw [encodeTile, Run.bind_apply, Run.modify_apply]
  simp only [Run.bind_apply, Run.get_apply, onBlk_apply, Run.modify_apply, BlockUnit.forward]

/-- `EncodeTile`: the block buffers are those of the block commands, and the coder goes on. -/
theorem encodeTile_working (h : SameImage s u) (n : Nat) :
    encodeTile p (n / tilesAlong u.width.val) (n % tilesAlong u.width.val) (s.working ph b io)
      = onBlk (onCoder (encodeSeqOf (u.tileQuantised p n))) (s.working ph { (u.tileQuantised p n).blk with coder := b.coder } io) := by
  have hseq := encodeSeq_eq (u.tileQuantised p n) b.coder
  rw [State.tileQuantised_cfg, State.tileQuantised_chroma] at hseq
  rw [encodeTile_apply, loadTile_working h, working_cfg, working_qt, h.cfg, h.qt, Run.bind_apply, onBlk_working, Run.modify_apply,
    forward_tileSamples]
  simp only [onBlk_working, hseq]

theorem sinkOutcome_encodeSeqOf_put (s : State) (c : Coder) : sinkOutcome (encodeSeqOf s c) = putItems c.bits (seqItems s) := by
  rw [seqItems, seqVals_eq_cons]
  exact sinkOutcome_encodeBlock _ _ _ _ _

theorem encodeTile_held (h : SameImage s u) {n : Nat} (hheld : Held (u.tileItems p n)) :
    ∃ c, c.bits = b.coder.bits ++ itemBits (u.tileItems p n)
      ∧ encodeTile p (n / tilesAlong u.width.val) (n % tilesAlong u.width.val) (s.working ph b io)
        = .ok () (s.working ph { (u.tileQuantised p n).blk with coder := c } io) := by
  rw [State.tileItems_eq] at hheld ⊢
  obtain ⟨c, hc, hbits⟩ := sinkOutcome_ok ((sinkOutcome_encodeSeqOf_put _ b.coder).trans (putItems_of_held hheld _))
  refine ⟨c, hbits, ?_⟩
  have hrun := onCoder_ok (b := { (u.tileQuantised p n).blk with coder := b.coder }) hc
  rw [encodeTile_working h, onBlk_working, hrun]

theorem encodeTile_missing (h : SameImage s u) {n : Nat} {r : Raise} {bits : Bits}
    (hput : ∀ put, putItems put (u.tileItems p n) = (some r, put ++ bits)) :
    ∃ c, encodeTile p (n / tilesAlong u.width.val) (n % tilesAlong u.width.val) (s.working ph b io)
      = .error r (s.working ph { (u.tileQuantised p n).blk with coder := c } io) := by
  rw [State.tileItems_eq] at hput
  obtain ⟨c, hc, -⟩ := sinkOutcome_error ((sinkOutcome_encodeSeqOf_put _ b.coder).trans (hput _))
  refine ⟨c, ?_⟩
  have hrun := onCoder_error (b := { (u.tileQuantised p n).blk with coder := b.coder }) hc
  rw [encodeTile_working h, onBlk_working, hrun]

/-! ### The tiles of a plane, and the planes -/

/-- The bits of n tiles of plane p from number i on. -/
def State.tileBits (u : State) (p : Fin 3) (i n : Nat) : Bits := (List.range' i n).flatMap fun j => itemBits (u.tileItems p j)

/-- The block buffers, whatever the coder holds, are those of tile n of plane p. -/
def HoldsTile (u : State) (p : Fin 3) (n : Nat) (b : BlockUnit) : Prop := ∃ c, b = { (u.tileQuantised p n).blk with coder := c }

theorem HoldsTile.dropped {n : Nat} {b : BlockUnit} (h : HoldsTile u p n b) :
    ({ b with coder := .fresh } : BlockUnit) = (u.tileQuantised p n).blk := by
  obtain ⟨c, rfl⟩ := h
  exact u.tileQuantised_blk_coder p n

theorem encodeTiles_held (h : SameImage s u) (n i : Nat) (hheld : ∀ j, i ≤ j → j < i + n → Held (u.tileItems p j)) :
    ∃ b', b'.coder.bits = b.coder.bits ++ u.tileBits p i n ∧ (0 < n → HoldsTile u p (i + n - 1) b')
      ∧ forTiles (encodeTile p) (tilesAlong u.width.val) n i (s.working ph b io) = .ok () (s.working ph b' io) := by
  induction n generalizing i b with
  | zero => exact ⟨b, by simp [State.tileBits], fun h => absurd h (lt_irrefl 0), rfl⟩
  | succ n ih =>
    obtain ⟨c, hbits, htile⟩ := encodeTile_held (ph := ph) (b := b) (io := io) h (hheld i le_rfl (by omega))
    obtain ⟨b', hbits', hholds, hrest⟩ := ih (b := { (u.tileQuantised p i).blk with coder := c }) (i + 1)
      fun j hj hlt => hheld j (by omega) (by omega)
    refine ⟨b', ?_, fun _ => ?_, ?_⟩
    · rw [hbits', hbits, State.tileBits, State.tileBits, List.range'_succ, List.flatMap_cons, List.append_assoc]
    · rcases Nat.eq_zero_or_pos n with rfl | hn
      · cases hrest
        exact ⟨c, rfl⟩
      · rw [show i + (n + 1) - 1 = i + 1 + n - 1 by omega]
        exact hholds hn
    · rw [forTiles, Run.bind_apply, htile]
      exact hrest

theorem encodeTiles_missing (h : SameImage s u) {k : Nat} {r : Raise} {bits : Bits}
    (hput : ∀ put, putItems put (u.tileItems p k) = (some r, put ++ bits)) (n i : Nat) (hik : i ≤ k) (hk : k < i + n)
    (hheld : ∀ j, i ≤ j → j < k → Held (u.tileItems p j)) :
    ∃ b', HoldsTile u p k b'
      ∧ forTiles (encodeTile p) (tilesAlong u.width.val) n i (s.working ph b io) = .error r (s.working ph b' io) := by
  induction n generalizing i b with
  | zero => omega
  | succ n ih =>
    rw [forTiles, Run.bind_apply]
    rcases Nat.eq_or_lt_of_le hik with rfl | hlt
    · obtain ⟨c, htile⟩ := encodeTile_missing (ph := ph) (b := b) (io := io) h hput
      exact ⟨_, ⟨c, rfl⟩, by rw [htile]⟩
    · obtain ⟨c, -, htile⟩ := encodeTile_held (ph := ph) (b := b) (io := io) h (hheld i le_rfl hlt)
      rw [htile]
      exact ih (i + 1) hlt (by omega) fun j hj hjk => hheld j (by omega) hjk

/-- The line of plane p on `OUT` (R296). -/
def State.planeLineOut (u : State) (p : Fin 3) : List Byte := chars (u.tileBits p 0 (tileCount u)) ++ [lineFeed]

theorem allTiles_working (h : SameImage s u) (m : Nat → Nat → Run State Unit) :
    allTiles m (s.working ph b io) = forTiles m (tilesAlong u.width.val) (tileCount u) 0 (s.working ph b io) := by
  rw [allTiles, Run.bind_apply, Run.get_apply]
  simp only [State.working, h.height, h.width]
  rfl

theorem encodePlane_held (h : SameImage s u) (hpos : 0 < tileCount u) (hheld : ∀ j, j < tileCount u → Held (u.tileItems p j)) :
    ∃ b', HoldsTile u p (tileCount u - 1) b'
      ∧ encodePlane p (s.working ph b io) = .ok () (s.working .flush b' (outBytes (u.planeLineOut p) io)) := by
  obtain ⟨b', hbits, hholds, htiles⟩ := encodeTiles_held (ph := .record) (b := { b with coder := .fresh }) (io := io) h (tileCount u) 0
    fun j _ hj => hheld j (by omega)
  refine ⟨b', by simpa using hholds hpos, ?_⟩
  have hline : b'.coder.bits.map bitChar ++ [lineFeed] = u.planeLineOut p := by
    rw [hbits]
    rfl
  rw [encodePlane, Run.bind_apply, setPhase_working]
  simp only [Run.bind_apply, onBlk_working, onCoder_apply, Run.set_apply, allTiles_working h, htiles, setPhase_working, Run.get_apply,
    onIo_working, Run.emitBytes_apply]
  rw [← hline]
  rfl

theorem encodePlane_missing (h : SameImage s u) {k : Nat} {r : Raise} {bits : Bits}
    (hput : ∀ put, putItems put (u.tileItems p k) = (some r, put ++ bits)) (hk : k < tileCount u)
    (hheld : ∀ j, j < k → Held (u.tileItems p j)) :
    ∃ b', HoldsTile u p k b' ∧ encodePlane p (s.working ph b io) = .error r (s.working .record b' io) := by
  obtain ⟨b', hholds, htiles⟩ := encodeTiles_missing (ph := .record) (b := { b with coder := .fresh }) (io := io) h hput (tileCount u) 0
    (Nat.zero_le k) (by omega) fun j _ hj => hheld j hj
  refine ⟨b', hholds, ?_⟩
  rw [encodePlane, Run.bind_apply, setPhase_working]
  simp only [Run.bind_apply, onBlk_working, onCoder_apply, Run.set_apply, allTiles_working h, htiles]

theorem forPlanes_append (m : Fin 3 → Run State Unit) (ps qs : List (Fin 3)) (s : State) :
    forPlanes m (ps ++ qs) s = (do forPlanes m ps; forPlanes m qs) s := by
  induction ps generalizing s with
  | nil => rfl
  | cons p ps ih =>
    simp only [List.cons_append, forPlanes, Run.bind_apply]
    cases m p s with
    | ok a t => simpa using ih t
    | error r t => rfl

theorem encodePlanes_held (h : SameImage s u) (hpos : 0 < tileCount u) (ps : List (Fin 3))
    (hheld : ∀ p ∈ ps, ∀ j, j < tileCount u → Held (u.tileItems p j)) :
    ∃ ph' b', forPlanes encodePlane ps (s.working ph b io) = .ok () (s.working ph' b' (outBytes (ps.flatMap u.planeLineOut) io)) := by
  induction ps generalizing ph b io with
  | nil => exact ⟨ph, b, by simp [forPlanes, outBytes]⟩
  | cons p ps ih =>
    obtain ⟨b', -, hplane⟩ := encodePlane_held (ph := ph) (b := b) (io := io) h hpos (hheld p List.mem_cons_self)
    obtain ⟨ph'', b'', hrest⟩ := ih (ph := .flush) (b := b') (io := outBytes (u.planeLineOut p) io)
      fun q hq => hheld q (List.mem_cons_of_mem _ hq)
    refine ⟨ph'', b'', ?_⟩
    rw [forPlanes, Run.bind_apply, hplane]
    simpa [outBytes] using hrest

end

end Sys2Proof.Machine
end

section
/-! IMG.ENC as a command (47_image_pipeline.md R296): its state and what it raises, its normal end and the first tile without a code. -/

namespace Sys2Proof.Machine

open Sys2Proof.Claims

/-! ### The state before the planes -/

/-- s once IMG.ENC has run CT.FWD and Q.SETQ inside itself. -/
@[irreducible] def State.encodingBase (s : State) : State := (s.start .compute).dropChannel.ctFwd.setTables

/-- s after CT.FWD and Q.SETQ as commands. -/
@[irreducible] def State.quantReady (s : State) : State :=
  ((s.unitDone State.ctFwd).start .compute).dropChannel.setTables.released.completed

/-- With the operands of IMG.ENC right the header's registers are those of the image, and `headed` is Q.SETQ. -/
theorem headed_self {s : State} (h : ImgReady s) : headed s s.height.val s.width.val s.quality.val = s.setTables := by
  obtain ⟨hq, -, ⟨hh, -, hw, -⟩, -⟩ := h
  have hheight : (⟨s.height.val, true⟩ : Reg Nat) = s.height := Reg.of_val hh
  have hwidth : (⟨s.width.val, true⟩ : Reg Nat) = s.width := Reg.of_val hw
  have hquality : (⟨s.quality.val, true⟩ : Reg Nat) = s.quality := Reg.of_val hq
  rw [headed, hheight, hwidth, hquality]
  rfl

section
variable (s : State)

theorem completed_kept {s t : State} {io : Io} (h : Completed s io t) :
    t.cfg = s.cfg ∧ t.height = s.height ∧ t.width = s.width ∧ t.quality = s.quality := by
  rw [h]
  exact ⟨rfl, rfl, rfl, rfl⟩

theorem unitDone_ctFwd_kept :
    (s.unitDone State.ctFwd).cfg = s.cfg ∧ (s.unitDone State.ctFwd).height = s.height ∧ (s.unitDone State.ctFwd).width = s.width
      ∧ (s.unitDone State.ctFwd).quality = s.quality := by
  have hkept := completed_kept (completed_unitDone_ctFwd s)
  exact hkept

theorem State.quantReady_cfg : s.quantReady.cfg = s.cfg := by
  obtain ⟨hcfg, -⟩ := unitDone_ctFwd_kept s
  simpa only [State.quantReady, State.completed_cfg, State.released_cfg, State.setTables_cfg, State.dropChannel_cfg, State.start_cfg]

theorem State.quantReady_height : s.quantReady.height = s.height := by
  obtain ⟨-, hheight, -⟩ := unitDone_ctFwd_kept s
  simpa only [State.quantReady, State.completed_height, State.released_height, State.setTables_height, State.dropChannel_height,
    State.start_height]

theorem State.quantReady_width : s.quantReady.width = s.width := by
  obtain ⟨-, -, hwidth, -⟩ := unitDone_ctFwd_kept s
  simpa only [State.quantReady, State.completed_width, State.released_width, State.setTables_width, State.dropChannel_width,
    State.start_width]

theorem State.quantReady_qvalid : s.quantReady.qvalid = true := by
  simp only [State.quantReady, State.completed_qvalid, State.released_qvalid, State.setTables_qvalid]

theorem State.quantReady_ycc : s.quantReady.ycc = (s.unitDone State.ctFwd).ycc := by
  simp only [State.quantReady, State.completed_ycc, State.released_ycc, State.setTables_ycc, State.dropChannel_ycc, State.start_ycc]

theorem State.quantReady_qt (c : Bool) : s.quantReady.qt c = s.setTables.qt c := by
  obtain ⟨hcfg, -, -, hquality⟩ := unitDone_ctFwd_kept s
  cases c <;>
    simp only [State.qt, State.quantReady, State.completed_qtLuma, State.released_qtLuma, State.setTables_qtLuma,
      State.completed_qtChroma, State.released_qtChroma, State.setTables_qtChroma, State.dropChannel_cfg, State.start_cfg,
      State.dropChannel_quality, State.start_quality, hcfg, hquality]

theorem tileCount_quantReady : tileCount s.quantReady = tileCount s := by
  rw [tileCount, State.quantReady_height, State.quantReady_width, tileCount]

theorem sameImage_encodingBase : SameImage s.encodingBase s.quantReady where
  cfg := by rw [State.encodingBase, State.quantReady_cfg]; rfl
  height := by rw [State.encodingBase, State.quantReady_height]; rfl
  width := by rw [State.encodingBase, State.quantReady_width]; rfl
  ycc := by rw [State.encodingBase, State.quantReady_ycc]; rfl
  qt c := by rw [State.encodingBase, State.quantReady_qt]; rfl

end

section
variable {s : State} (h : ImgReady s)
include h

theorem runs_ctFwd_of_imgReady : Runs .ctFwd s (s.unitDone State.ctFwd) := by
  obtain ⟨-, -, hs, hp⟩ := h
  exact ⟨exec_ctFwd hs hp, rfl⟩

theorem runs_qSetq_of_imgReady : Runs .qSetq (s.unitDone State.ctFwd) s.quantReady := by
  obtain ⟨hq, hle, -⟩ := h
  rw [State.quantReady]
  exact ⟨exec_qSetq (s := s.unitDone State.ctFwd) hq hle, rfl⟩

theorem tileCount_pos : 0 < tileCount s := by
  obtain ⟨-, -, ⟨-, hh, -, hw⟩, -⟩ := h
  exact Nat.mul_pos (Nat.div_pos (by omega) (by norm_num)) (Nat.div_pos (by omega) (by norm_num))

theorem imgEncBad_eq_nil : imgEncBad s = [] := by
  obtain ⟨hq, hle, hs, hp⟩ := h
  have hquality : setqBad s = [] := by simpa [setqBad, hq] using hle
  rw [imgEncBad, hquality, ctFwdBad, sidesBad_eq_nil_iff.2 hs]
  exact (offUnless_nil _).2 ((planesWritten_iff _ _ _).2 hp)

end

/-- `OUT` once IMG.ENC has opened it and put `bs` on it. -/
def State.encodingIo (s : State) (bs : List Byte) : Io := outBytes bs (openOut (s.start .compute).dropChannel.io)

/-- The state of IMG.ENC before the planes. -/
def State.encodingStart (s : State) : State :=
  s.encodingBase.working .header s.blk (s.encodingIo (headerLine s.height.val s.width.val s.quality.val))

/-- IMG.ENC is its planes, from that state on. -/
theorem execImgEnc_body (s : State) :
    (do
      onIo (modify openOut)
      modify State.ctFwd
      modify State.setTables
      setPhase .header
      onIo (emitBytes (headerChars s.height.val s.width.val s.quality.val ++ [lineFeed]))
      forPlanes encodePlane planes : Run State Unit) (s.start .compute).dropChannel
      = forPlanes encodePlane planes s.encodingStart := by
  simp only [Run.bind_apply, onIo_apply, Run.modify_apply, Run.setPhase_apply, Run.emitBytes_apply]
  rw [State.encodingStart, State.encodingBase, headerLine_eq]
  rfl

theorem exec_imgEnc_ok {s t : State} (h : ImgReady s) (hplanes : forPlanes encodePlane planes s.encodingStart = .ok () t) :
    exec .imgEnc s = .next t.released.completed := by
  rw [exec, execImgEnc]
  exact runUnit_ok (imgEncBad_eq_nil h) ((execImgEnc_body s).trans hplanes)

theorem exec_imgEnc_error {s t : State} {r : Raise} (h : ImgReady s)
    (hplanes : forPlanes encodePlane planes s.encodingStart = .error r t) : exec .imgEnc s = .next (t.released.raised r) := by
  rw [exec, execImgEnc]
  exact runUnit_error (imgEncBad_eq_nil h) ((execImgEnc_body s).trans hplanes)

/-! ### How IMG.ENC ends -/

section
variable {s : State} {ph : Phase} {b blk : BlockUnit} {bs : List Byte}

theorem completed_encodingBase (h : ImgReady s) (hblk : ({ b with coder := .fresh } : BlockUnit) = { blk with coder := .fresh }) :
    Completed { headed s s.height.val s.width.val s.quality.val with ycc := s.quantReady.ycc, blk := blk } (wrote s bs s.io.inp false)
      (s.encodingBase.working ph b (s.encodingIo bs)).released.completed := by
  rw [Completed, headed_self h, ← hblk, State.quantReady_ycc, wrote, ← ended_outBytes_openOut, State.encodingBase]
  rfl

theorem raised_encodingBase {e : Exc} {i : Int} (h : ImgReady s)
    (hblk : ({ b with coder := .fresh } : BlockUnit) = { blk with coder := .fresh }) :
    Raised { headed s s.height.val s.width.val s.quality.val with ycc := s.quantReady.ycc, blk := blk } (wrote s bs s.io.inp false) e i
      ((s.encodingBase.working ph b (s.encodingIo bs)).released.raised ⟨e, some i⟩) := by
  rw [Raised, headed_self h, ← hblk, State.quantReady_ycc, wrote, ← ended_outBytes_openOut, State.encodingBase]
  rfl

end

/-- The bytes that IMG.ENC puts on `OUT`: the header line, and the lines of the planes ps. -/
def State.streamOut (s : State) (ps : List (Fin 3)) : List Byte :=
  headerLine s.height.val s.width.val s.quality.val ++ ps.flatMap s.quantReady.planeLineOut

theorem outBytes_encodingIo (s : State) (bs cs : List Byte) : outBytes cs (s.encodingIo bs) = s.encodingIo (bs ++ cs) := by
  simp [State.encodingIo, outBytes]

/-- The codebooks hold the symbols of every tile of plane p. -/
def PlaneHeld (s : State) (p : Fin 3) : Prop := ∀ n, n < tileCount s → Held (s.quantReady.tileItems p n)

/-- IMG.ENC, when the codebooks hold the symbols of every tile. -/
theorem exec_imgEnc_completed {s : State} (h : ImgReady s) (hheld : ∀ p, PlaneHeld s p) :
    ∃ t, exec .imgEnc s = .next t
      ∧ Completed { headed s s.height.val s.width.val s.quality.val with
          ycc := s.quantReady.ycc, blk := (s.quantReady.tileQuantised 2 (tileCount s - 1)).blk }
        (wrote s (s.streamOut planes) s.io.inp false) t := by
  have hsame := sameImage_encodingBase s
  have hpos : 0 < tileCount s.quantReady := by rw [tileCount_quantReady]; exact tileCount_pos h
  have hheld' (p : Fin 3) : ∀ n, n < tileCount s.quantReady → Held (s.quantReady.tileItems p n) := by
    rw [tileCount_quantReady]
    exact hheld p
  obtain ⟨ph, b, hfirst⟩ := encodePlanes_held (ph := .header) (b := s.blk)
    (io := s.encodingIo (headerLine s.height.val s.width.val s.quality.val)) hsame hpos [0, 1] fun p _ => hheld' p
  obtain ⟨b', hholds, hlast⟩ := encodePlane_held (p := 2) (ph := ph) (b := b)
    (io := outBytes (([0, 1] : List (Fin 3)).flatMap s.quantReady.planeLineOut)
      (s.encodingIo (headerLine s.height.val s.width.val s.quality.val))) hsame hpos (hheld' 2)
  simp only [outBytes_encodingIo] at hfirst hlast
  have hplanes : forPlanes encodePlane planes s.encodingStart
      = .ok () (s.encodingBase.working .flush b' (s.encodingIo (s.streamOut planes))) := by
    rw [show planes = [0, 1] ++ [2] from rfl, forPlanes_append, Run.bind_apply, State.encodingStart, hfirst]
    simp only [forPlanes, Run.bind_apply, hlast, Run.pure_apply]
    simp [State.streamOut]
  refine ⟨_, exec_imgEnc_ok h hplanes, completed_encodingBase h ?_⟩
  rw [tileCount_quantReady] at hholds
  rw [hholds.dropped, State.tileQuantised_blk_coder]

/-- IMG.ENC, when tile n of plane p is the first whose symbols the codebooks do not hold. -/
theorem exec_imgEnc_raised {s : State} (h : ImgReady s) {p : Fin 3} {n : Nat} {i : Int} {bits : Bits} (hn : n < tileCount s)
    (hbefore : ∀ q, q < p → PlaneHeld s q) (htiles : ∀ j, j < n → Held (s.quantReady.tileItems p j))
    (hput : ∀ put, putItems put (s.quantReady.tileItems p n) = (some ⟨.corruptCodeword, some i⟩, put ++ bits)) :
    ∃ t, exec .imgEnc s = .next t
      ∧ Raised { headed s s.height.val s.width.val s.quality.val with
          ycc := s.quantReady.ycc, blk := (s.quantReady.tileQuantised p n).blk }
        (wrote s (s.streamOut (planes.filter (· < p))) s.io.inp false) .corruptCodeword i t := by
  have hsame := sameImage_encodingBase s
  have hpos : 0 < tileCount s.quantReady := by rw [tileCount_quantReady]; exact tileCount_pos h
  have hsplit : planes = planes.filter (· < p) ++ p :: planes.filter (p < ·) := by clear * -; revert p; decide
  obtain ⟨ph, b, hfirst⟩ := encodePlanes_held (ph := .header) (b := s.blk)
    (io := s.encodingIo (headerLine s.height.val s.width.val s.quality.val)) hsame hpos (planes.filter (· < p)) fun q hq => by
      rw [tileCount_quantReady]
      exact hbefore q (by simpa using (List.mem_filter.1 hq).2)
  obtain ⟨b', hholds, hlast⟩ := encodePlane_missing (p := p) (ph := ph) (b := b)
    (io := outBytes ((planes.filter (· < p)).flatMap s.quantReady.planeLineOut)
      (s.encodingIo (headerLine s.height.val s.width.val s.quality.val))) hsame hput (by rwa [tileCount_quantReady]) htiles
  simp only [outBytes_encodingIo] at hfirst hlast
  have hplanes : forPlanes encodePlane planes s.encodingStart
      = .error ⟨.corruptCodeword, some i⟩ (s.encodingBase.working .record b' (s.encodingIo (s.streamOut (planes.filter (· < p))))) := by
    rw [hsplit, forPlanes_append, Run.bind_apply, State.encodingStart, hfirst]
    simp only [forPlanes, Run.bind_apply, hlast, ← hsplit, State.streamOut]
  refine ⟨_, exec_imgEnc_error h hplanes, raised_encodingBase h ?_⟩
  rw [hholds.dropped, State.tileQuantised_blk_coder]

end Sys2Proof.Machine
end

section
/-! The sizes of the coefficients of an image over exact reals (95_test_vectors.md V47.10), and the statement about IMG.ENC. -/

namespace Sys2Proof.Machine

open Sys2Proof.Claims

/-! ### A coefficient of the transform -/

/-- The sum of a row of `C`: its product with the constant row. -/
theorem sum_dctBasis_eq_zero {i : Fin 8} (hi : i ≠ 0) : ∑ a : Fin 8, (dctBasis i.1 a.1).real = 0 := by
  have hconst (a : Fin 8) : (dctBasis (0 : Fin 8).1 a.1).real = 1 / √8 := by
    rw [real_dctBasis, rowFactor]
    simp
  have horth := sum_dctBasis_mul i 0
  rw [if_neg hi] at horth
  simp only [hconst, ← Finset.sum_mul] at horth
  exact (mul_eq_zero.1 horth).resolve_right (by positivity)

/-- Products of two rows of `C` are an orthonormal system of blocks. -/
theorem sum_sq_dctBasis_mul (i j : Fin 8) :
    ∑ x : Fin 8 × Fin 8, ((dctBasis i.1 x.1.1).real * (dctBasis j.1 x.2.1).real) ^ 2 = 1 := by
  have hi := sum_dctBasis_mul i i
  have hj := sum_dctBasis_mul j j
  rw [if_pos rfl] at hi hj
  rw [Fintype.sum_prod_type]
  calc ∑ a : Fin 8, ∑ b : Fin 8, ((dctBasis i.1 a.1).real * (dctBasis j.1 b.1).real) ^ 2
    _ = (∑ a : Fin 8, (dctBasis i.1 a.1).real * (dctBasis i.1 a.1).real)
        * ∑ b : Fin 8, (dctBasis j.1 b.1).real * (dctBasis j.1 b.1).real := by
      rw [Finset.sum_mul_sum]
      exact Finset.sum_congr rfl fun a _ => Finset.sum_congr rfl fun b _ => by ring
    _ = 1 := by rw [hi, hj, one_mul]

/-- The level of a block is in its first coefficient alone. -/
theorem forwardMatrix_level (M : Matrix (Fin 8) (Fin 8) ℝ) {i j : Fin 8} {c : ℝ} (hc : c = 128 ∨ i ≠ 0 ∨ j ≠ 0) :
    forwardMatrix M i j
      = ∑ x : Fin 8 × Fin 8, ((dctBasis i.1 x.1.1).real * (dctBasis j.1 x.2.1).real) * (M x.1 x.2 - c) := by
  have hsum : (c - 128) * ((∑ a : Fin 8, (dctBasis i.1 a.1).real) * ∑ b : Fin 8, (dctBasis j.1 b.1).real) = 0 := by
    rcases hc with rfl | hi | hj
    · simp
    · simp [sum_dctBasis_eq_zero hi]
    · simp [sum_dctBasis_eq_zero hj]
  rw [Finset.sum_mul_sum, Finset.mul_sum] at hsum
  rw [forwardMatrix_apply, Fintype.sum_prod_type, ← sub_eq_zero, ← hsum, ← Finset.sum_sub_distrib]
  refine Finset.sum_congr rfl fun a _ => ?_
  rw [← Finset.sum_sub_distrib, Finset.mul_sum]
  exact Finset.sum_congr rfl fun b _ => by ring

/-- Samples within B of a level c give coefficients of at most 8·B, the first one aside unless the level is 128. -/
theorem abs_forwardMatrix_le {M : Matrix (Fin 8) (Fin 8) ℝ} {i j : Fin 8} {c B : ℝ} (hc : c = 128 ∨ i ≠ 0 ∨ j ≠ 0)
    (hM : ∀ a b, |M a b - c| ≤ B) : |forwardMatrix M i j| ≤ 8 * B := by
  have hB : 0 ≤ B := (abs_nonneg _).trans (hM 0 0)
  have hsq : ∑ x : Fin 8 × Fin 8, (M x.1 x.2 - c) ^ 2 ≤ 64 * B ^ 2 := by
    have hle : ∑ x : Fin 8 × Fin 8, (M x.1 x.2 - c) ^ 2 ≤ ∑ _x : Fin 8 × Fin 8, B ^ 2 :=
      Finset.sum_le_sum fun x _ => sq_le_sq' (by linarith [abs_le.1 (hM x.1 x.2)]) (abs_le.1 (hM x.1 x.2)).2
    refine hle.trans_eq ?_
    simp
  have hcs := Finset.sum_mul_sq_le_sq_mul_sq Finset.univ
    (fun x : Fin 8 × Fin 8 => (dctBasis i.1 x.1.1).real * (dctBasis j.1 x.2.1).real) fun x => M x.1 x.2 - c
  rw [sum_sq_dctBasis_mul, one_mul, ← forwardMatrix_level M hc] at hcs
  exact abs_le_of_sq_le_sq (by nlinarith) (by linarith)

/-! ### The coefficients of a tile -/

theorem natAbs_lt_of_abs_sub_le {v : Int} {x : ℝ} {n : Nat} (h : |x - v| ≤ 1 / 2) (hx : |x| + 1 / 2 < n) : v.natAbs < n := by
  have hv : |(v : ℝ)| < n := by
    have := abs_sub_abs_le_abs_sub (v : ℝ) x
    rw [abs_sub_comm] at this
    linarith
  rw [← Int.cast_abs, Int.abs_eq_natAbs, Int.cast_natCast] at hv
  exact_mod_cast hv

/-- A sample of CT.FWD is within 128 of the level 128, and within 127.75 of the middle of what the three forms can give. -/
theorem forwardSample_exact_bounds (rgb : Sparse Byte) (k : Key) :
    |(forwardSample .exact rgb k).real - 128| ≤ 128 ∧ |(forwardSample .exact rgb k).real - 127.75| ≤ 127.75 := by
  obtain ⟨r0, r1⟩ := real_rgbAt_bounds rgb 0 k.y k.x
  obtain ⟨g0, g1⟩ := real_rgbAt_bounds rgb 1 k.y k.x
  obtain ⟨b0, b1⟩ := real_rgbAt_bounds rgb 2 k.y k.x
  simp only [abs_le]
  obtain ⟨c, y, x⟩ := k
  match c with
  | 0 =>
    rw [show forwardSample .exact rgb ⟨_, y, x⟩ = lumaOf .exact _ _ _ from rfl, real_lumaOf_exact]
    refine ⟨⟨?_, ?_⟩, ?_, ?_⟩ <;> linarith
  | 1 =>
    rw [show forwardSample .exact rgb ⟨_, y, x⟩ = cbOf .exact _ _ _ from rfl, real_cbOf_exact]
    refine ⟨⟨?_, ?_⟩, ?_, ?_⟩ <;> linarith
  | 2 =>
    rw [show forwardSample .exact rgb ⟨_, y, x⟩ = crOf .exact _ _ _ from rfl, real_crOf_exact]
    refine ⟨⟨?_, ?_⟩, ?_, ?_⟩ <;> linarith

/-- A coefficient of a tile in `SEQ`: an entry of the transformed samples, divided and rounded (R229, R235). -/
theorem tileSeq_getElem (u : State) (p : Fin 3) (n : Nat) (k : Fin 64) :
    (u.tileQuantised p n).blk.seq[k.1].val
      = u.cfg.numeric.round u.cfg.round (u.cfg.numeric.div
          (forwardBlock u.cfg.numeric (blockVals (tileSamples u p n)))[u.cfg.zigzag[k.1]]
          (u.qt (planeChroma p))[u.cfg.zigzag[k.1]]) := by
  rw [State.tileQuantised_blk]
  simp only [BlockUnit.forward]
  rw [zzFwd_seq_getElem (fun j => by rw [BlockUnit.quant_blki_getElem]; rfl), Fin.getElem_fin, BlockUnit.quant_blki_getElem,
    BlockUnit.dctFwd_blkf, getElem_blockOf]
  rfl

/-- The samples of a tile of the image are samples of CT.FWD. -/
theorem tileSamples_quantReady {s : State} (h : ImgReady s) (p : Fin 3) (n : Nat) (k : Fin 64) :
    ∃ y x, (tileSamples s.quantReady p n)[k.1].val = forwardSample s.cfg.numeric s.rgb ⟨p, y, x⟩ := by
  obtain ⟨-, -, ⟨-, hh, -, hw⟩, -⟩ := h
  simp only [tileSamples, Vector.getElem_ofFn]
  rw [State.quantReady_ycc, read_unitDone_ctFwd, State.quantReady_height, State.quantReady_width,
    if_pos ⟨by simp only; omega, by simp only; omega⟩]
  exact ⟨_, _, rfl⟩

theorem zigzag_zero (c : CheckedConfig) : c.zigzag[0] = 0 := by
  have hc := c.ok
  simp only [Config.wf, zigzagWf, Bool.and_eq_true, beq_iff_eq] at hc
  tauto

/-- An AC position is not that of the first coefficient. -/
theorem zigzag_ac (c : CheckedConfig) {k : Fin 64} (hk : k ≠ 0) : blockRow c.zigzag[k.1] ≠ 0 ∨ blockCol c.zigzag[k.1] ≠ 0 := by
  have hne : c.zigzag[k.1] ≠ 0 := fun h => hk ((zigzag_bijective c).1 (h.trans (zigzag_zero c).symm))
  simp only [blockRow, blockCol, Ne, Fin.ext_iff, Fin.val_zero] at hne ⊢
  omega

/-- V47.10: over exact reals the coefficients of a tile have at most 11 bits (DC) and 10 bits (AC). -/
theorem sizesFit_tile {s : State} (h : ImgReady s) (hexact : s.cfg.numeric = .exact) (p : Fin 3) (n : Nat) :
    SizesFit (s.quantReady.tileQuantised p n).blk.seq := by
  have hexact' : s.quantReady.cfg.numeric = .exact := by rw [State.quantReady_cfg, hexact]
  have hbound (k : Fin 64) {c B : ℝ}
      (hc : c = 128 ∨ blockRow s.quantReady.cfg.zigzag[k.1] ≠ 0 ∨ blockCol s.quantReady.cfg.zigzag[k.1] ≠ 0)
      (hB : ∀ key, |(forwardSample .exact s.rgb key).real - c| ≤ B) (m : Nat) (hm : 8 * B + 1 / 2 < (2 ^ m : Nat)) :
      bitLengthInt (s.quantReady.tileQuantised p n).blk.seq[k.1].val ≤ m := by
    rw [tileSeq_getElem, hexact', bitLengthInt, bitLength_le]
    refine natAbs_lt_of_abs_sub_le (abs_div_sub_round_exact_le _ _ _) (lt_of_le_of_lt (add_le_add_left ?_ _) hm)
    refine (abs_div_natCast_le _ _).trans ?_
    rw [Fin.getElem_fin, getElem_eq_blockElem, ← realMatrix_apply, realMatrix_forwardBlock_exact]
    refine abs_forwardMatrix_le hc fun a b => ?_
    rw [realMatrix_blockVals]
    obtain ⟨y, x, hsample⟩ := tileSamples_quantReady h p n ⟨8 * a.1 + b.1, by omega⟩
    rw [hsample, hexact]
    exact hB _
  refine ⟨?_, fun k hk => ?_⟩
  · exact hbound 0 (.inl rfl) (fun key => (forwardSample_exact_bounds s.rgb key).1) 11 (by norm_num)
  · exact hbound k (.inr (zigzag_ac _ hk)) (fun key => (forwardSample_exact_bounds s.rgb key).2) 10 (by norm_num)

/-- With codebooks for those sizes every tile has a code. -/
theorem planeHeld_of_codesSymbols {s : State} (h : ImgReady s) (hexact : s.cfg.numeric = .exact)
    (hluma : CodesSymbols s.cfg.toConfig false) (hchroma : CodesSymbols s.cfg.toConfig true) (p : Fin 3) : PlaneHeld s p := by
  intro n _
  rw [State.tileItems_eq]
  refine held_seqItems ?_ (sizesFit_tile h hexact p n)
  rw [State.tileQuantised_cfg, State.tileQuantised_chroma, State.quantReady_cfg]
  cases planeChroma p
  · exact hluma
  · exact hchroma

/-! ### The statement -/

theorem tileBits_congr {u : State} {p : Fin 3} {count : Nat} {codes : Nat → Bits}
    (h : ∀ n, n < count → codes n = itemBits (u.tileItems p n)) : (List.range count).flatMap codes = u.tileBits p 0 count := by
  rw [State.tileBits, ← List.range_eq_range']
  exact List.flatMap_congr fun n hn => h n (List.mem_range.1 hn)

/-- The line that the codes of a plane's tiles make. -/
theorem planeLineOut_eq {s : State} {p : Fin 3} {codes : Nat → Bits}
    (h : ∀ n, n < tileCount s → codes n = itemBits (s.quantReady.tileItems p n)) :
    chars ((List.range (tileCount s)).flatMap codes) ++ [lineFeed] = s.quantReady.planeLineOut p := by
  rw [State.planeLineOut, tileBits_congr h, tileCount_quantReady]

/-- Settles O56: the planes of IMG.ENC are the tiles one by one, each by the block commands, and a tile's code is that of its symbols; over
exact reals the symbols are among those that the codebooks hold. -/
theorem imgEncWritesFourLines : Obligations.ImgEncWritesFourLines := by
  unfold Obligations.ImgEncWritesFourLines
  intro s h
  have hq := State.quantReady_qvalid s
  refine ⟨_, s.quantReady, runs_ctFwd_of_imgReady h, runs_qSetq_of_imgReady h, fun codes hcodes => ?_,
    fun codes p n b c hn hbefore hb hc hrun => ?_, fun hexact hluma hchroma => ?_⟩
  · have hitems (p : Fin 3) (n : Nat) (hn : n < tileCount s) := (tileCoded_iff hq p n _).1 (hcodes p n hn)
    obtain ⟨t, ht, hdone⟩ := exec_imgEnc_completed h fun p n hn => (hitems p n hn).1
    obtain ⟨b, hb⟩ := hcodes 2 (tileCount s - 1) (by have := tileCount_pos h; omega)
    refine ⟨t, b, ht, hb, ?_⟩
    simp only [planeLineOut_eq fun n hn => (hitems _ n hn).2, tileCoded_blk hq hb]
    simpa [State.streamOut, planes] using hdone
  · obtain rfl := (tileQuantised_iff _ p n hq b).1 hb
    have hitems (p' : Fin 3) (n' : Nat) (hn' : n' < tileCount s) (hlt : p' < p ∨ (p' = p ∧ n' < n)) :=
      (tileCoded_iff hq p' n' _).1 (hbefore p' n' hn' hlt)
    have hmissing : ¬ Held (s.quantReady.tileItems p n) := fun hheld => by
      obtain ⟨t, ⟨ht, htrun⟩, -⟩ := (exec_rleEnc_tile s.quantReady p n).1 hheld
      rw [exec_unique hc ht, htrun] at hrun
      cases hrun
    obtain ⟨c', i, bits, hc', -, hblk, hinfo, hput⟩ := (exec_rleEnc_tile s.quantReady p n).2 hmissing
    obtain rfl : c = c' := exec_unique hc hc'
    obtain ⟨t, ht, hraised⟩ := exec_imgEnc_raised h hn (fun q hq' n' hn' => (hitems q n' hn' (.inl hq')).1)
      (fun j hj => (hitems p j (by omega) (.inr ⟨rfl, hj⟩)).1) hput
    refine ⟨t, ht, ?_⟩
    have hlines : (([0, 1, 2] : List (Fin 3)).filter (· < p)).flatMap
        (fun p' => chars ((List.range (tileCount s)).flatMap (codes p')) ++ [lineFeed])
          = (planes.filter (· < p)).flatMap s.quantReady.planeLineOut :=
      List.flatMap_congr fun p' hp' =>
        planeLineOut_eq fun n' hn' => (hitems p' n' hn' (.inl (by simpa using (List.mem_filter.1 hp').2))).2
    rw [hlines, hblk, hinfo]
    exact hraised
  · have hheld := planeHeld_of_codesSymbols h hexact hluma hchroma
    obtain ⟨t, ht, hdone⟩ := exec_imgEnc_completed h hheld
    exact ⟨fun p n hn => ⟨_, (tileCoded_iff hq p n _).2 ⟨hheld p n hn, rfl⟩⟩, t, ht, completed_run_eq hdone⟩

end Sys2Proof.Machine
end

section
/-! `DecodeBlock` (46_rle_entropy.md R276) reads a line of characters the same way whatever the block buffers hold and however many characters
were taken before: what it makes of the line is settled by the line. -/

namespace Sys2Proof.Machine

open Sys2Proof.Claims

/-! ### Pieces over the coder -/

/-- An exception of the decoder that names a number, but for the end of the characters (R257, R279). -/
def NamesCorrupt (r : Raise) : Prop := r.exc = .corruptCodeword → r.info.isSome = true

section
variable {α β : Type}

/-- The piece takes `line` up to `rest` and goes on with a. -/
def Run.Takes (m : Run Coder α) (line : List Byte) (a : α) (rest : List Byte) : Prop :=
  ∃ read, line = read ++ rest ∧ ∀ pos, m (.reading line pos) = .ok a (.reading rest (pos + read.length))

/-- The piece takes `line` up to `rest` and raises. -/
def Run.Refuses (m : Run Coder α) (line : List Byte) (r : Raise) (rest : List Byte) : Prop :=
  NamesCorrupt r ∧ ∃ read, line = read ++ rest ∧ ∀ pos, m (.reading line pos) = .error r (.reading rest (pos + read.length))

/-- What the piece does is settled by the line. -/
def Run.Settled (m : Run Coder α) : Prop := ∀ line, (∃ a rest, m.Takes line a rest) ∨ ∃ r rest, m.Refuses line r rest

theorem Run.takes_pure (a : α) (line : List Byte) : (pure a : Run Coder α).Takes line a line := ⟨[], rfl, fun _ => rfl⟩

theorem Run.settled_pure (a : α) : (pure a : Run Coder α).Settled := fun line => .inl ⟨a, line, takes_pure a line⟩

theorem Run.settled_corrupt (i : Int) : (raise .corruptCodeword i : Run Coder α).Settled :=
  fun line => .inr ⟨_, line, fun _ => rfl, [], rfl, fun _ => rfl⟩

theorem Run.settled_truncated : (raiseBare .truncatedStream : Run Coder α).Settled :=
  fun line => .inr ⟨_, line, fun h => (by cases h), [], rfl, fun _ => rfl⟩

theorem Run.Settled.bind {m : Run Coder α} {f : α → Run Coder β} (hm : m.Settled) (hf : ∀ a, (f a).Settled) : (m >>= f).Settled := by
  intro line
  rcases hm line with ⟨a, mid, read, rfl, hread⟩ | ⟨r, rest, hr, read, rfl, hread⟩
  · rcases hf a mid with ⟨b, rest, read', rfl, hread'⟩ | ⟨r, rest, hr, read', rfl, hread'⟩
    · exact .inl ⟨b, rest, read ++ read', (List.append_assoc ..).symm, fun pos => by
        rw [Run.bind_apply, hread]
        simp only [hread', List.length_append, Nat.add_assoc]⟩
    · exact .inr ⟨r, rest, hr, read ++ read', (List.append_assoc ..).symm, fun pos => by
        rw [Run.bind_apply, hread]
        simp only [hread', List.length_append, Nat.add_assoc]⟩
  · exact .inr ⟨r, rest, hr, read, rfl, fun pos => by rw [Run.bind_apply, hread]⟩

/-- `NextBit()` looks at the next character alone. -/
theorem Run.settled_nextBit : nextBit.Settled := by
  intro line
  cases line with
  | nil => exact .inl ⟨none, [], [], rfl, fun _ => rfl⟩
  | cons ch rest =>
    by_cases h0 : ch = 0x30
    · exact .inl ⟨some false, rest, [ch], rfl, fun pos => nextBit_bit (b := false) (by rw [h0]; rfl)⟩
    · by_cases h1 : ch = 0x31
      · exact .inl ⟨some true, rest, [ch], rfl, fun pos => nextBit_bit (b := true) (by rw [h1]; rfl)⟩
      · by_cases hl : ch = lineFeed
        · exact .inl ⟨none, rest, [ch], rfl, fun pos => nextBit_lineFeed (by rw [hl]; rfl)⟩
        · exact .inr ⟨_, rest, fun _ => rfl, [ch], rfl, fun pos => nextBit_stray rfl h0 h1 hl⟩

theorem Run.settled_huffDecode (t : Trie) (used : Nat) : (huffDecode t used).Settled := by
  induction t generalizing used with
  | empty => exact settled_corrupt _
  | leaf sym code => exact settled_pure _
  | node l r bound ihl ihr =>
    refine settled_nextBit.bind fun bit => ?_
    match bit with
    | none => exact settled_truncated
    | some false => exact ihl _
    | some true => exact ihr _

theorem Run.settled_takeBits (n : Nat) : (takeBits n).Settled := by
  induction n with
  | zero => exact settled_pure _
  | succ n ih =>
    refine settled_nextBit.bind fun bit => ?_
    cases bit with
    | none => exact settled_truncated
    | some b => exact ih.bind fun _ => settled_pure _

theorem Run.settled_entDecode (n : Nat) : (entDecode n).Settled := (settled_takeBits n).bind fun _ => settled_pure _

/-! ### Pieces over the block buffers -/

/-- With the coefficients `done` read, the piece takes `line` up to `rest` and goes on with a and the coefficients `vals`. -/
def Run.BlockTakes (m : Run BlockUnit α) (done : List Int) (line : List Byte) (a : α) (vals : List Int) (rest : List Byte) : Prop :=
  ∃ read, line = read ++ rest ∧ ∀ b pos, m (BlockUnit.decoding b done line pos) = .ok a (b.decoding vals rest (pos + read.length))

/-- The same where the piece raises. -/
def Run.BlockRefuses (m : Run BlockUnit α) (done : List Int) (line : List Byte) (r : Raise) (vals : List Int) (rest : List Byte) : Prop :=
  NamesCorrupt r
    ∧ ∃ read, line = read ++ rest ∧ ∀ b pos, m (BlockUnit.decoding b done line pos) = .error r (b.decoding vals rest (pos + read.length))

/-- What the piece does is settled by the line and the count of coefficients before it; where it goes on, Q holds. -/
def Run.BlockSettled (m : Run BlockUnit α) (done : List Int) (Q : α → List Int → Prop) : Prop :=
  ∀ line, (∃ a vals rest, Q a vals ∧ m.BlockTakes done line a vals rest) ∨ ∃ r vals rest, m.BlockRefuses done line r vals rest

variable {done : List Int} {Q : α → List Int → Prop}

theorem Run.BlockSettled.bind {R : β → List Int → Prop} {m : Run BlockUnit α} {f : α → Run BlockUnit β} (hm : m.BlockSettled done Q)
    (hf : ∀ a vals, Q a vals → (f a).BlockSettled vals R) : (m >>= f).BlockSettled done R := by
  intro line
  rcases hm line with ⟨a, vals, mid, hQ, read, rfl, hread⟩ | ⟨r, vals, rest, hr, read, rfl, hread⟩
  · rcases hf a vals hQ mid with ⟨b, vals', rest, hR, read', rfl, hread'⟩ | ⟨r, vals', rest, hr, read', rfl, hread'⟩
    · exact .inl ⟨b, vals', rest, hR, read ++ read', (List.append_assoc ..).symm, fun b pos => by
        rw [Run.bind_apply, hread]
        simp only [hread', List.length_append, Nat.add_assoc]⟩
    · exact .inr ⟨r, vals', rest, hr, read ++ read', (List.append_assoc ..).symm, fun b pos => by
        rw [Run.bind_apply, hread]
        simp only [hread', List.length_append, Nat.add_assoc]⟩
  · exact .inr ⟨r, vals, rest, hr, read, rfl, fun b pos => by rw [Run.bind_apply, hread]⟩

/-- A piece that takes no character. -/
theorem Run.blockSettled_of_ok {m : Run BlockUnit α} {a : α} {vals : List Int} (hQ : Q a vals)
    (h : ∀ (b : BlockUnit) line pos, m (b.decoding done line pos) = .ok a (b.decoding vals line pos)) : m.BlockSettled done Q :=
  fun line => .inl ⟨a, vals, line, hQ, [], rfl, fun b pos => h b line pos⟩

theorem Run.blockSettled_corrupt (i : Int) : (raise .corruptCodeword i : Run BlockUnit α).BlockSettled done Q :=
  fun line => .inr ⟨_, done, line, fun _ => rfl, [], rfl, fun _ _ => rfl⟩

theorem Run.Settled.onCoder {m : Run Coder α} (hm : m.Settled) : (onCoder m).BlockSettled done fun _ vals => vals = done := by
  intro line
  rcases hm line with ⟨a, rest, read, rfl, hread⟩ | ⟨r, rest, hr, read, rfl, hread⟩
  · exact .inl ⟨a, done, rest, rfl, read, rfl, fun b pos => onCoder_decoding_ok (hread pos)⟩
  · exact .inr ⟨r, done, rest, hr, read, rfl, fun b pos => onCoder_decoding_error (hread pos)⟩

end

theorem Run.blockSettled_setSeq {done : List Int} {i : Nat} (hi : i = done.length) (v : Int) :
    (setSeq i v).BlockSettled done fun _ vals => vals.length = i + 1 := by
  subst hi
  exact blockSettled_of_ok (by simp) fun b line pos => setSeq_decoding v

theorem Run.blockSettled_zeroSeq {done : List Int} {i : Nat} (hi : i = done.length) (n : Nat) :
    (zeroSeq i n).BlockSettled done fun _ vals => vals.length = i + n := by
  subst hi
  exact blockSettled_of_ok (by simp) fun b line pos => zeroSeq_decoding n

/-- The loop of `DecodeBlock` (R276, R278) ends with 64 coefficients. -/
theorem Run.blockSettled_decodeAc (ac : Trie) (fuel i : Nat) {done : List Int} (hi : i = done.length) (hle : i ≤ 64)
    (hfuel : 64 ≤ fuel + i) : (decodeAc ac fuel i).BlockSettled done fun _ vals => vals.length = 64 := by
  induction fuel generalizing i done with
  | zero => exact blockSettled_of_ok (by omega) fun _ _ _ => rfl
  | succ fuel ih =>
    rw [decodeAc]
    split
    · exact blockSettled_of_ok (by omega) fun _ _ _ => rfl
    · refine (settled_huffDecode ac 0).onCoder.bind fun rs vals hvals => ?_
      subst hvals
      split
      · split
        · rw [show (64 : Nat) = i + (64 - i) by omega, Nat.add_sub_cancel_left]
          exact blockSettled_zeroSeq hi _
        · split
          · split
            · exact blockSettled_corrupt _
            · exact (blockSettled_zeroSeq hi 16).bind fun _ vals hvals => ih (i + 16) hvals.symm (by omega) (by omega)
          · exact blockSettled_corrupt _
      · split
        · exact blockSettled_corrupt _
        · refine (blockSettled_zeroSeq hi _).bind fun _ vals hvals => (settled_entDecode _).onCoder.bind fun v vals' hvals' => ?_
          subst hvals'
          exact (blockSettled_setSeq hvals.symm v).bind fun _ vals'' hvals'' => ih _ hvals''.symm (by omega) (by omega)

theorem Run.blockSettled_decodeBlock (cfg : Config) (chroma : Bool) :
    (decodeBlock cfg chroma).BlockSettled [] fun _ vals => vals.length = 64 := by
  rw [decodeBlock]
  refine (settled_huffDecode _ _).onCoder.bind fun k vals hvals => ?_
  subst hvals
  refine (settled_entDecode k).onCoder.bind fun v vals hvals => ?_
  subst hvals
  exact (blockSettled_setSeq (i := 0) (done := []) rfl v).bind fun _ vals hvals => blockSettled_decodeAc _ 63 1 hvals.symm (by omega) (by omega)

end Sys2Proof.Machine
end

section
/-! A tile from its characters to its samples (47_image_pipeline.md R292): the commands run one by one, and the operations of the image pass. -/

namespace Sys2Proof.Machine

open Sys2Proof.Claims

/-! ### From `SEQ` to samples -/

/-- The work of R292 on the block buffers behind the entropy decoder. -/
def BlockUnit.backward (cfg : Config) (qt : Vector Nat 64) (b : BlockUnit) : BlockUnit :=
  ((b.zzInv cfg.zigzag).dequant qt).dctInv cfg.numeric

@[simp] theorem BlockUnit.backward_coder (b : BlockUnit) (cfg : Config) (qt : Vector Nat 64) : (b.backward cfg qt).coder = b.coder := by
  simp only [BlockUnit.backward, BlockUnit.dctInv, BlockUnit.dequant, BlockUnit.zzInv]

/-- ZZ.INV writes every element of `BLKI` from `SEQ`. -/
theorem zzInv_blki_eq (c : CheckedConfig) (b : BlockUnit) (k : Fin 64) :
    (b.zzInv c.zigzag).blki[c.zigzag[k.1]] = Reg.of b.seq[k.1].val := by
  have hmoved := getElem_foldl_set (zigzag_bijective c).1 (fun k : Fin 64 => Reg.of b.seq[k.1].val) (List.finRange 64) b.blki k
  rwa [if_pos (List.mem_finRange k)] at hmoved

theorem zzInv_blki_congr (c : CheckedConfig) {b b' : BlockUnit} (h : b.seq = b'.seq) :
    (b.zzInv c.zigzag).blki = (b'.zzInv c.zigzag).blki := by
  refine Vector.ext fun i hi => ?_
  obtain ⟨k, hk⟩ := (zigzag_bijective c).2 ⟨i, hi⟩
  have hb := zzInv_blki_eq c b k
  have hb' := zzInv_blki_eq c b' k
  simp only [Fin.getElem_fin, (congrArg Fin.val hk : c.zigzag[k.1].1 = i)] at hb hb'
  rw [hb, hb', h]

theorem zzInv_blki_written (c : CheckedConfig) (b : BlockUnit) (i : Fin 64) : (b.zzInv c.zigzag).blki[i.1].written = true := by
  obtain ⟨k, rfl⟩ := (zigzag_bijective c).2 i
  have hb := zzInv_blki_eq c b k
  simp only [Fin.getElem_fin] at hb ⊢
  rw [hb]
  rfl

theorem dequant_blkf_congr {b b' : BlockUnit} (h : b.blki = b'.blki) (qt : Vector Nat 64) : (b.dequant qt).blkf = (b'.dequant qt).blkf := by
  rw [BlockUnit.dequant, BlockUnit.dequant, h]

theorem dctInv_blkf_congr {b b' : BlockUnit} (h : b.blkf = b'.blkf) (m : Numeric) : (b.dctInv m).blkf = (b'.dctInv m).blkf := by
  rw [BlockUnit.dctInv, BlockUnit.dctInv, h]

/-- The samples depend on `SEQ` alone. -/
theorem backward_blkf_congr (c : CheckedConfig) (qt : Vector Nat 64) {b b' : BlockUnit} (h : b.seq = b'.seq) :
    (b.backward c.toConfig qt).blkf = (b'.backward c.toConfig qt).blkf :=
  dctInv_blkf_congr (dequant_blkf_congr (zzInv_blki_congr c h) qt) _

/-- What the block commands read of a state beside the block buffers. -/
def SameTables (s t : State) : Prop := t.cfg = s.cfg ∧ t.qvalid = s.qvalid ∧ t.qt t.chroma = s.qt s.chroma

theorem sameTables_blockDone (s : State) (b : BlockUnit) : SameTables s (s.blockDone b) :=
  ⟨State.blockDone_cfg s b, State.blockDone_qvalid s b, State.blockDone_qt s b⟩

section
variable {s : State}

theorem runs_zzInv (h : ∀ k : Fin 64, s.blk.seq[k.1].written = true) :
    ∃ t, Runs .zzInv s t ∧ t.blk.blki = (s.blk.zzInv s.cfg.zigzag).blki ∧ SameTables s t :=
  ⟨_, ⟨exec_zzInv h, rfl⟩, State.blockDone_blki _ _, sameTables_blockDone _ _⟩

theorem runs_qDequant (h : ∀ k : Fin 64, s.blk.blki[k.1].written = true) (hq : s.qvalid = true) :
    ∃ t, Runs .qDequant s t ∧ t.blk.blkf = (s.blk.dequant (s.qt s.chroma)).blkf ∧ SameTables s t :=
  ⟨_, ⟨exec_qDequant h hq, rfl⟩, State.blockDone_blkf _ _, sameTables_blockDone _ _⟩

theorem runs_dctInv (h : ∀ k : Fin 64, s.blk.blkf[k.1].written = true) :
    ∃ t, Runs .dctInv s t ∧ t.blk.blkf = (s.blk.dctInv s.cfg.numeric).blkf :=
  ⟨_, ⟨exec_dctInv h, rfl⟩, State.blockDone_blkf _ _⟩

end

theorem runs_unique {i : Instr} {s t t' : State} (h : Runs i s t) (h' : Runs i s t') : t = t' := exec_unique h.1 h'.1

/-- The block commands of R292 behind RLE.DEC, run one by one. -/
theorem tileRestored_spec {a : State} (hq : a.qvalid = true) (hseq : ∀ k : Fin 64, a.blk.seq[k.1].written = true) :
    (∃ t, TileRestored a t)
      ∧ ∀ t, TileRestored a t → t.blk.blkf = (a.blk.backward a.cfg.toConfig (a.qt a.chroma)).blkf := by
  obtain ⟨b, hb, hblki, hbcfg, hbq, hbqt⟩ := runs_zzInv hseq
  obtain ⟨c, hc, hcblkf, hccfg, -⟩ := runs_qDequant (s := b) (by rw [hblki]; exact zzInv_blki_written _ _) (hbq.trans hq)
  obtain ⟨d, hd, hdblkf⟩ := runs_dctInv (s := c) (by rw [hcblkf]; exact written_blockOf _)
  refine ⟨⟨d, b, c, hb, hc, hd⟩, ?_⟩
  rintro t ⟨b', c', hb', hc', ht⟩
  obtain rfl := runs_unique hb hb'
  obtain rfl := runs_unique hc hc'
  obtain rfl := runs_unique hd ht
  have hc' : c.blk.blkf = ((a.blk.zzInv a.cfg.zigzag).dequant (a.qt a.chroma)).blkf := by
    rw [hcblkf, hbqt]
    exact dequant_blkf_congr hblki _
  rw [hdblkf, hccfg, hbcfg]
  exact dctInv_blkf_congr hc' _

/-! ### A tile from its characters -/

/-- Nothing of the old contents is left when all 64 coefficients have been read. -/
theorem overwritten_full {vals : List Int} (h : vals.length = 64) (seq seq' : Vector (Reg Int) 64) :
    overwritten seq vals = overwritten seq' vals :=
  Vector.ext fun i hi => by simp [overwritten_getElem, h, hi]

theorem overwritten_written {vals : List Int} (h : vals.length = 64) (seq : Vector (Reg Int) 64) (k : Fin 64) :
    (overwritten seq vals)[k.1].written = true := by
  simp [overwritten_getElem, h, Reg.of]

section
variable (u : State) (p : Fin 3)

/-- `DecodeBlock` for plane p reads the coefficients `vals` from x, and `rest` is left. -/
def BlockRead (x : List Byte) (vals : List Int) (rest : List Byte) : Prop :=
  vals.length = 64 ∧ Run.BlockTakes (decodeBlock u.cfg.toConfig (planeChroma p)) [] x () vals rest

/-- `DecodeBlock` for plane p raises r on x. -/
def BlockRefused (x : List Byte) (r : Raise) : Prop :=
  ∃ vals rest, Run.BlockRefuses (decodeBlock u.cfg.toConfig (planeChroma p)) [] x r vals rest

theorem blockRead_or_blockRefused (x : List Byte) : (∃ vals rest, BlockRead u p x vals rest) ∨ ∃ r, BlockRefused u p x r := by
  rcases Run.blockSettled_decodeBlock u.cfg.toConfig (planeChroma p) x with ⟨_, vals, rest, hvals⟩ | ⟨r, vals, rest, hr⟩
  · exact .inl ⟨vals, rest, hvals⟩
  · exact .inr ⟨r, vals, rest, hr⟩

/-- The samples of a tile whose coefficients are `vals`. -/
def decodedTile (vals : List Int) : Vector (Reg ExactNum) 64 :=
  (({ u.blk with seq := overwritten u.blk.seq vals } : BlockUnit).backward u.cfg.toConfig (u.qt (planeChroma p))).blkf

/-- u before RLE.DEC on the characters x of plane p. -/
def State.lineStart (x : List Byte) : State := { u with sel := planeSel p, io := { u.io with inp := ⟨x, 0⟩ } }

theorem State.lineStart_chroma (x : List Byte) : (u.lineStart p x).chroma = planeChroma p := planeSel_chroma p

variable {u p} {x rest : List Byte} {vals : List Int}

/-- The samples do not depend on the block buffers before the tile. -/
theorem backward_blkf_eq_decodedTile (hvals : vals.length = 64) {b : BlockUnit} {seq : Vector (Reg Int) 64}
    (hb : b.seq = overwritten seq vals) : (b.backward u.cfg.toConfig (u.qt (planeChroma p))).blkf = decodedTile u p vals :=
  backward_blkf_congr u.cfg _ (hb.trans (overwritten_full hvals _ _))

theorem exec_rleDec_line (h : BlockRead u p x vals rest) :
    ∃ a, Runs .rleDec (u.lineStart p x) a ∧ a.blk.seq = overwritten u.blk.seq vals ∧ a.io.inp.rest = rest ∧ a.qvalid = u.qvalid
      ∧ a.cfg = u.cfg ∧ a.qt a.chroma = u.qt (planeChroma p) := by
  obtain ⟨-, read, rfl, hread⟩ := h
  have hm := hread (u.lineStart p (read ++ rest)).blk 0
  rw [Nat.zero_add] at hm
  obtain ⟨a, ha, hdone⟩ := exec_rleDec_completed (s := u.lineStart p (read ++ rest)) rfl (by
    rw [State.lineStart_chroma]
    exact hm)
  refine ⟨a, ⟨ha, completed_run_eq hdone⟩, ?_⟩
  have hchroma := u.lineStart_chroma p (read ++ rest)
  rw [State.chroma] at hchroma
  rw [hdone]
  refine ⟨rfl, rfl, rfl, rfl, ?_⟩
  rw [State.chroma, hchroma]
  rfl

theorem exec_rleDec_refused {r : Raise} (h : BlockRefused u p x r) :
    ∃ c, exec .rleDec (u.lineStart p x) = .next c ∧ c.run = .error ∧ c.err = some r.exc ∧ ∀ i ∈ r.info, c.errinfo = i := by
  obtain ⟨vals, rest, -, read, rfl, hread⟩ := h
  have hm := hread (u.lineStart p (read ++ rest)).blk 0
  rw [Nat.zero_add] at hm
  obtain ⟨c, hc, hraised, hinfo⟩ := exec_rleDec_raised (s := u.lineStart p (read ++ rest)) rfl (by
    rw [State.lineStart_chroma]
    exact hm)
  exact ⟨c, hc, raised_run_eq hraised, by rw [hraised], hinfo⟩

theorem tilesDecoded_nil {y : List Byte} : TilesDecoded u p x [] y ↔ y = x := by
  constructor
  · rintro ⟨⟩
    rfl
  · rintro rfl
    exact .done _

/-- One tile more, by the operations of R292. -/
theorem tilesDecoded_cons (hq : u.qvalid = true) {t : Vector (Reg ExactNum) 64} {ts : List (Vector (Reg ExactNum) 64)} {y : List Byte} :
    TilesDecoded u p x (t :: ts) y
      ↔ ∃ vals rest, BlockRead u p x vals rest ∧ t = decodedTile u p vals ∧ TilesDecoded u p rest ts y := by
  have hsamples {vals : List Int} {rest : List Byte} {a b : State} (h : BlockRead u p x vals rest) (ha : Runs .rleDec (u.lineStart p x) a)
      (hb : TileRestored a b) : a.io.inp.rest = rest ∧ b.blk.blkf = decodedTile u p vals := by
    obtain ⟨a', ⟨ha', -⟩, hseq, hrest, hqvalid, hcfg, hqt⟩ := exec_rleDec_line h
    obtain ⟨ha, -⟩ := ha
    obtain rfl : a = a' := exec_unique ha ha'
    have hwritten (k : Fin 64) : a.blk.seq[k.1].written = true := by rw [hseq]; exact overwritten_written h.1 _ k
    refine ⟨hrest, ((tileRestored_spec (hqvalid.trans hq) hwritten).2 b hb).trans ?_⟩
    rw [hcfg, hqt]
    exact backward_blkf_eq_decodedTile h.1 hseq
  constructor
  · rintro (_ | @⟨_, _, a, b, _, ha, hb, hts⟩)
    rcases blockRead_or_blockRefused u p x with ⟨vals, rest, hread⟩ | ⟨r, hrefused⟩
    · obtain ⟨rfl, ht⟩ := hsamples hread ha hb
      exact ⟨vals, _, hread, ht, hts⟩
    · obtain ⟨c, hc, hrun, -⟩ := exec_rleDec_refused hrefused
      obtain ⟨ha, hdone⟩ := ha
      obtain rfl : a = c := exec_unique ha hc
      rw [hdone] at hrun
      cases hrun
  · rintro ⟨vals, rest, hread, rfl, hts⟩
    obtain ⟨a, ha, hseq, hrest, hqvalid, -⟩ := exec_rleDec_line hread
    obtain ⟨b, hb⟩ := (tileRestored_spec (hqvalid.trans hq) fun k => by rw [hseq]; exact overwritten_written hread.1 _ k).1
    obtain ⟨-, hblkf⟩ := hsamples hread ha hb
    rw [← hblkf]
    refine .tile ha hb ?_
    rwa [hrest]

end

end Sys2Proof.Machine
end

section
/-! The plane memories while IMG.DEC fills them (47_image_pipeline.md R290, R291): `StoreTile`, and the tiles of a plane one after the other. -/

namespace Sys2Proof.Machine

open Sys2Proof.Claims

/-- The tile that an address lies in, counted in row-major order (R290). -/
def tileOf (w : Nat) (k : Key) : Nat := k.y / 8 * tileSide w + k.x / 8

/-- The place of an address inside its tile. -/
def placeOf (k : Key) : Fin 64 := ⟨8 * (k.y % 8) + k.x % 8, by omega⟩

/-- The address lies inside the image. -/
@[reducible] def InImage (h w : Nat) (k : Key) : Prop := k.y < h ∧ k.x < w

section
variable {h w : Nat} {p : Fin 3} {k : Key}

/-- The rows and columns of tile i are those of the addresses in it. -/
theorem tileOf_eq_iff (hk : InImage h w k) (i : Nat) : tileOf w k = i ↔ k.y / 8 = i / tileSide w ∧ k.x / 8 = i % tileSide w := by
  have hx : k.x / 8 < tileSide w := by
    have := hk.2
    rw [tileSide]
    omega
  rw [tileOf]
  constructor
  · rintro rfl
    rw [Nat.add_comm, Nat.add_mul_div_right _ _ (by omega), Nat.add_mul_mod_self_right, Nat.div_eq_of_lt hx, Nat.mod_eq_of_lt hx,
      Nat.zero_add]
    exact ⟨rfl, rfl⟩
  · rintro ⟨hy, hx'⟩
    rw [hy, hx', Nat.mul_comm]
    exact Nat.div_add_mod i _

theorem tileOf_lt (hk : InImage h w k) : tileOf w k < tileSide h * tileSide w := by
  obtain ⟨hy, hx⟩ := hk
  have hy' : k.y / 8 + 1 ≤ tileSide h := by rw [tileSide]; omega
  have hx' : k.x / 8 < tileSide w := by rw [tileSide]; omega
  calc tileOf w k
    _ < (k.y / 8 + 1) * tileSide w := by rw [tileOf, Nat.add_mul]; omega
    _ ≤ tileSide h * tileSide w := Nat.mul_le_mul_right _ hy'

/-- The address of place j of the tile in row ty and column tx. -/
def tileKey (p : Fin 3) (ty tx : Nat) (j : Fin 64) : Key := ⟨p, 8 * ty + j.1 / 8, 8 * tx + j.1 % 8⟩

theorem tileKey_eq_iff (ty tx : Nat) (j : Fin 64) (k : Key) :
    tileKey p ty tx j = k ↔ k.c = p ∧ k.y / 8 = ty ∧ k.x / 8 = tx ∧ placeOf k = j := by
  obtain ⟨c, y, x⟩ := k
  simp only [tileKey, Key.mk.injEq, placeOf, Fin.ext_iff]
  omega

/-- A plane memory after `StoreTile` of the samples f. -/
def tileStored (h w : Nat) (p : Fin 3) (ty tx : Nat) (f : Vector (Reg ExactNum) 64) (m : Sparse ExactNum) : Sparse ExactNum :=
  (List.finRange 64).foldl (storeSample h w p ty tx f) m

theorem read_storeSample (ty tx : Nat) (f : Vector (Reg ExactNum) 64) (m : Sparse ExactNum) (j : Fin 64) (k : Key) :
    (storeSample h w p ty tx f m j).read k = if InImage h w k ∧ tileKey p ty tx j = k then some f[j.1].val else m.read k := by
  have hwrite : storeSample h w p ty tx f m j
      = if InImage h w (tileKey p ty tx j) then m.write (tileKey p ty tx j) f[j.1].val else m := rfl
  rw [hwrite]
  by_cases hin : InImage h w (tileKey p ty tx j)
  · rw [if_pos hin, Sparse.read_write]
    have hiff : k = tileKey p ty tx j ↔ InImage h w k ∧ tileKey p ty tx j = k :=
      ⟨fun e => ⟨e ▸ hin, e.symm⟩, fun ⟨_, e⟩ => e.symm⟩
    exact if_congr hiff rfl rfl
  · have hne : ¬ (InImage h w k ∧ tileKey p ty tx j = k) := fun ⟨hk, e⟩ => hin (e ▸ hk)
    rw [if_neg hin, if_neg hne]

theorem read_foldl_storeSample (ty tx : Nat) (f : Vector (Reg ExactNum) 64) (l : List (Fin 64)) (m : Sparse ExactNum) (k : Key) :
    (l.foldl (storeSample h w p ty tx f) m).read k
      = if InImage h w k ∧ tileKey p ty tx (placeOf k) = k ∧ placeOf k ∈ l then some f[(placeOf k).1].val else m.read k := by
  induction l generalizing m with
  | nil => simp
  | cons j l ih =>
    rw [List.foldl_cons, ih, read_storeSample]
    by_cases hj : tileKey p ty tx j = k
    · obtain ⟨-, -, -, hplace⟩ := (tileKey_eq_iff ty tx j k).1 hj
      by_cases hin : InImage h w k <;> simp [hin, hplace, hj]
    · have hne (hk : tileKey p ty tx (placeOf k) = k) : placeOf k ≠ j := fun e => hj (e ▸ hk)
      by_cases hk : tileKey p ty tx (placeOf k) = k
      · simp [hj, hk, hne hk]
      · simp [hj, hk]

/-- R291: `StoreTile` writes the samples of the tile that lie inside the image. -/
theorem read_tileStored (i : Nat) (f : Vector (Reg ExactNum) 64) (m : Sparse ExactNum) (k : Key) :
    (tileStored h w p (i / tileSide w) (i % tileSide w) f m).read k
      = if InImage h w k ∧ k.c = p ∧ tileOf w k = i then some f[(placeOf k).1].val else m.read k := by
  rw [tileStored, read_foldl_storeSample]
  refine if_congr (and_congr_right fun hk => ?_) rfl rfl
  rw [tileKey_eq_iff, tileOf_eq_iff hk]
  simp

/-- A plane memory after the tiles `ts` from number i on. -/
def tilesStored (h w : Nat) (p : Fin 3) : List (Vector (Reg ExactNum) 64) → Nat → Sparse ExactNum → Sparse ExactNum
  | [], _, m => m
  | t :: ts, i, m => tilesStored h w p ts (i + 1) (tileStored h w p (i / tileSide w) (i % tileSide w) t m)

theorem read_tilesStored (ts : List (Vector (Reg ExactNum) 64)) (i : Nat) (m : Sparse ExactNum) (k : Key) :
    (tilesStored h w p ts i m).read k
      = if InImage h w k ∧ k.c = p ∧ i ≤ tileOf w k then (ts[tileOf w k - i]?.map fun t => t[(placeOf k).1].val).or (m.read k)
        else m.read k := by
  induction ts generalizing i m with
  | nil => simp [tilesStored]
  | cons t ts ih =>
    rw [tilesStored, ih, read_tileStored]
    by_cases hk : InImage h w k ∧ k.c = p
    · obtain ⟨hin, hc⟩ := hk
      rcases Nat.lt_trichotomy (tileOf w k) i with hlt | heq | hgt
      · rw [if_neg fun h => by omega, if_neg fun h => by omega, if_neg fun h => by omega]
      · rw [if_neg fun h => by omega, if_pos ⟨hin, hc, heq⟩, if_pos ⟨hin, hc, heq.ge⟩, heq, Nat.sub_self]
        rfl
      · obtain ⟨d, hd⟩ : ∃ d, tileOf w k - i = d + 1 := ⟨tileOf w k - i - 1, by omega⟩
        rw [if_pos ⟨hin, hc, hgt⟩, if_neg fun h => by omega, if_pos ⟨hin, hc, hgt.le⟩, hd, show tileOf w k - (i + 1) = d by omega,
          List.getElem?_cons_succ]
    · rw [if_neg fun h => hk ⟨h.1, h.2.1⟩, if_neg fun h => hk ⟨h.1, h.2.1⟩, if_neg fun h => hk ⟨h.1, h.2.1⟩]

theorem planeHolds_tilesStored (ts : List (Vector (Reg ExactNum) 64)) (m : Sparse ExactNum) :
    PlaneHolds (tilesStored h w p ts 0 m) h w p (fun n => ts[n]?) := by
  intro y x hy hx b hb
  rw [read_tilesStored, if_pos ⟨⟨hy, hx⟩, rfl, Nat.zero_le _⟩, Nat.sub_zero, show ts[tileOf w ⟨p, y, x⟩]? = some b from hb]
  rfl

/-- The tiles of another plane leave a plane as it is. -/
theorem read_tilesStored_of_ne (ts : List (Vector (Reg ExactNum) 64)) (m : Sparse ExactNum) (i : Nat) (hk : k.c ≠ p) :
    (tilesStored h w p ts i m).read k = m.read k := by
  rw [read_tilesStored, if_neg fun h => hk h.2.1]

theorem read_tilesStored_outside (ts : List (Vector (Reg ExactNum) 64)) (m : Sparse ExactNum) (i : Nat) (hk : ¬ InImage h w k) :
    (tilesStored h w p ts i m).read k = m.read k := by
  rw [read_tilesStored, if_neg fun h => hk h.1]

theorem planeHolds_congr {m m' : Sparse ExactNum} {q : Fin 3} {tiles : Nat → Option (Vector (Reg ExactNum) 64)}
    (hm : PlaneHolds m h w q tiles) (hread : ∀ k : Key, k.c = q → m'.read k = m.read k) : PlaneHolds m' h w q tiles := by
  intro y x hy hx b hb
  rw [hread _ rfl]
  exact hm y x hy hx b hb

end

end Sys2Proof.Machine
end

section
/-! IMG.DEC (47_image_pipeline.md R301): the tiles of a line, the planes, the command, and the statement about any stream with a good header. -/

namespace Sys2Proof.Machine

open Sys2Proof.Claims

/-! ### A tile of a plane inside the image pass -/

/-- s in the midst of IMG.DEC: the parts that the planes' work changes. -/
def State.filling (s : State) (b : BlockUnit) (io : Io) (m : Sparse ExactNum) : State := { s with blk := b, io := io, ycc := m }

/-- The two states agree on what the decoder of an image reads. -/
structure SameTarget (s u : State) : Prop where
  cfg : s.cfg = u.cfg
  height : s.height = u.height
  width : s.width = u.width
  qt : ∀ c, s.qt c = u.qt c

section
variable {s u : State} {p : Fin 3} {b : BlockUnit} {io : Io} {m : Sparse ExactNum} {x left : List Byte} {pos : Nat}

theorem onBlk_filling {α : Type} (f : Run BlockUnit α) :
    onBlk f (s.filling b io m) = match f b with
      | .ok a b' => .ok a (s.filling b' io m)
      | .error r b' => .error r (s.filling b' io m) := onBlk_apply f _

theorem onIo_filling {α : Type} (f : Run Io α) :
    onIo f (s.filling b io m) = match f io with
      | .ok a io' => .ok a (s.filling b io' m)
      | .error r io' => .error r (s.filling b io' m) := onIo_apply f _

theorem storeTile_filling (ty tx : Nat) :
    (s.filling b io m).storeTile p ty tx = s.filling b io (tileStored s.height.val s.width.val p ty tx b.blkf m) := rfl

theorem filling_cfg : (s.filling b io m).cfg = s.cfg := rfl
theorem filling_qt (c : Bool) : (s.filling b io m).qt c = s.qt c := rfl
theorem filling_height : (s.filling b io m).height = s.height := rfl
theorem filling_width : (s.filling b io m).width = s.width := rfl
theorem filling_blk : (s.filling b io m).blk = b := rfl

/-- `DecodeTile` is the entropy decoder, the operations of R292, and the storing of the tile. -/
theorem decodeTile_apply (ty tx : Nat) (s : State) :
    decodeTile p ty tx s = (do
      onBlk (decodeBlock s.cfg.toConfig (planeChroma p))
      onBlk (modify fun b : BlockUnit => b.backward s.cfg.toConfig (s.qt (planeChroma p)))
      modify (State.storeTile p ty tx)) s := by
  rw [decodeTile, Run.bind_apply, Run.get_apply]
  rfl

/-- A coder at the characters x is the start of a block. -/
theorem eq_decoding_nil (hb : b.coder = .reading x pos) : b = b.decoding [] x pos := by
  rw [BlockUnit.decoding_nil, ← hb]

theorem decodeTile_read (h : SameTarget s u) {vals : List Int} (hb : b.coder = .reading x pos) (hread : BlockRead u p x vals left)
    (ty tx : Nat) :
    ∃ b' pos', b'.coder = .reading left pos' ∧ pos' + left.length = pos + x.length
      ∧ decodeTile p ty tx (s.filling b io m)
        = .ok () (s.filling b' io (tileStored u.height.val u.width.val p ty tx (decodedTile u p vals) m)) := by
  obtain ⟨hvals, read, rfl, hrun⟩ := hread
  refine ⟨(b.decoding vals left (pos + read.length)).backward u.cfg.toConfig (u.qt (planeChroma p)), pos + read.length, ?_, ?_, ?_⟩
  · rw [BlockUnit.backward_coder]
    rfl
  · rw [List.length_append, Nat.add_assoc]
  · have hblkf := backward_blkf_eq_decodedTile (u := u) (p := p) hvals
      (show (b.decoding vals left (pos + read.length)).seq = overwritten b.seq vals from rfl)
    have hblock := hrun b pos
    rw [← eq_decoding_nil hb] at hblock
    rw [decodeTile_apply, filling_cfg, filling_qt, h.cfg, h.qt, Run.bind_apply, onBlk_filling, hblock]
    simp only [Run.bind_apply, onBlk_filling, Run.modify_apply, storeTile_filling]
    rw [hblkf, h.height, h.width]

theorem decodeTile_refused (h : SameTarget s u) {r : Raise} (hb : b.coder = .reading x pos) (href : BlockRefused u p x r) (ty tx : Nat) :
    ∃ b', decodeTile p ty tx (s.filling b io m) = .error r (s.filling b' io m) := by
  obtain ⟨vals, rest, -, read, rfl, hrun⟩ := href
  refine ⟨b.decoding vals rest (pos + read.length), ?_⟩
  have hblock := hrun b pos
  rw [← eq_decoding_nil hb] at hblock
  rw [decodeTile_apply, filling_cfg, filling_qt, h.cfg, h.qt, Run.bind_apply, onBlk_filling, hblock]

/-! ### The tiles of a line -/

theorem forTiles_add (f : Nat → Nat → Run State Unit) (across n k i : Nat) (s : State) :
    forTiles f across (n + k) i s = (do forTiles f across n i; forTiles f across k (i + n)) s := by
  induction n generalizing i s with
  | zero => simp [forTiles]
  | succ n ih =>
    rw [Nat.succ_add, forTiles, Run.bind_apply, Run.bind_apply, forTiles, Run.bind_apply]
    cases f (i / across) (i % across) s with
    | ok a t =>
      have := ih (i + 1) t
      rw [Run.bind_apply, Nat.add_right_comm] at this
      exact this
    | error r t => rfl

/-- As many tiles as the line holds before `left`. -/
theorem decodeTiles_read (h : SameTarget s u) (hq : u.qvalid = true) {tiles : List (Vector (Reg ExactNum) 64)} {i : Nat}
    (htiles : TilesDecoded u p x tiles left) (hb : b.coder = .reading x pos) :
    ∃ b' pos', b'.coder = .reading left pos' ∧ pos' + left.length = pos + x.length
      ∧ forTiles (decodeTile p) (tileSide u.width.val) tiles.length i (s.filling b io m)
        = .ok () (s.filling b' io (tilesStored u.height.val u.width.val p tiles i m)) := by
  induction tiles generalizing x b pos i m with
  | nil =>
    obtain rfl := tilesDecoded_nil.1 htiles
    exact ⟨b, pos, hb, rfl, rfl⟩
  | cons t ts ih =>
    obtain ⟨vals, rest, hread, rfl, hts⟩ := (tilesDecoded_cons hq).1 htiles
    obtain ⟨b', pos', hb', hlen, htile⟩ := decodeTile_read (io := io) (m := m) h hb hread (i / tileSide u.width.val)
      (i % tileSide u.width.val)
    obtain ⟨b'', pos'', hb'', hlen', hrest⟩ := ih (i := i + 1)
      (m := tileStored u.height.val u.width.val p (i / tileSide u.width.val) (i % tileSide u.width.val) (decodedTile u p vals) m) hts hb'
    refine ⟨b'', pos'', hb'', hlen'.trans hlen, ?_⟩
    rw [List.length_cons, forTiles, Run.bind_apply, htile]
    exact hrest

/-- The tiles before the first one that `DecodeBlock` refuses. -/
theorem decodeTiles_refused (h : SameTarget s u) (hq : u.qvalid = true) {before : List (Vector (Reg ExactNum) 64)} {r : Raise} {count : Nat}
    (htiles : TilesDecoded u p x before left) (href : BlockRefused u p left r) (hcount : before.length < count)
    (hb : b.coder = .reading x pos) :
    ∃ b' m', forTiles (decodeTile p) (tileSide u.width.val) count 0 (s.filling b io m) = .error r (s.filling b' io m') := by
  obtain ⟨b', pos', hb', -, hbefore⟩ := decodeTiles_read (io := io) (m := m) (i := 0) h hq htiles hb
  obtain ⟨k, rfl⟩ : ∃ k, count = before.length + (k + 1) := ⟨count - before.length - 1, by omega⟩
  obtain ⟨b'', htile⟩ := decodeTile_refused (io := io) (m := tilesStored u.height.val u.width.val p before 0 m) h hb' href
    ((0 + before.length) / tileSide u.width.val) ((0 + before.length) % tileSide u.width.val)
  refine ⟨b'', tilesStored u.height.val u.width.val p before 0 m, ?_⟩
  rw [forTiles_add, Run.bind_apply, hbefore]
  simp only [forTiles, Run.bind_apply, htile]

/-! ### The planes -/

theorem allTiles_filling (h : SameTarget s u) (f : Nat → Nat → Run State Unit) :
    allTiles f (s.filling b io m)
      = forTiles f (tileSide u.width.val) (tileSide u.height.val * tileSide u.width.val) 0 (s.filling b io m) := by
  rw [allTiles, Run.bind_apply, Run.get_apply]
  simp only [filling_height, filling_width, h.height, h.width]
  rfl

/-- `DecodeTile` for every tile, with the line in the coder. -/
theorem decodePlane_apply (h : SameTarget s u) {io' : Io} (hline : readLine io = .ok x io') :
    decodePlane p (s.filling b io m) = (do
      forTiles (decodeTile p) (tileSide u.width.val) (tileSide u.height.val * tileSide u.width.val) 0
      let t ← get
      if t.blk.coder.line.isEmpty then pure () else raise .corruptCodeword t.blk.coder.pos)
        (s.filling { b with coder := .reading x 0 } io' m) := by
  have hset : onBlk (onCoder (set { Coder.fresh with line := x })) (s.filling b io' m)
      = .ok () (s.filling { b with coder := .reading x 0 } io' m) := rfl
  rw [decodePlane, Run.bind_apply, onIo_filling, hline]
  simp only [Run.bind_apply, hset, allTiles_filling h]

theorem decodePlane_read (h : SameTarget s u) (hq : u.qvalid = true) {io' : Io} (hline : readLine io = .ok x io')
    {tiles : List (Vector (Reg ExactNum) 64)} (hcount : tiles.length = tileSide u.height.val * tileSide u.width.val)
    (htiles : TilesDecoded u p x tiles []) :
    ∃ b', decodePlane p (s.filling b io m) = .ok () (s.filling b' io' (tilesStored u.height.val u.width.val p tiles 0 m)) := by
  obtain ⟨b', pos', hb', -, hrun⟩ := decodeTiles_read (b := { b with coder := .reading x 0 }) (io := io') (m := m) (i := 0) h hq htiles rfl
  refine ⟨b', ?_⟩
  rw [decodePlane_apply h hline, ← hcount, Run.bind_apply, hrun]
  simp [filling_blk, hb', Coder.reading]

theorem decodePlane_refused (h : SameTarget s u) (hq : u.qvalid = true) {io' : Io} (hline : readLine io = .ok x io')
    {before : List (Vector (Reg ExactNum) 64)} {r : Raise} (hcount : before.length < tileSide u.height.val * tileSide u.width.val)
    (htiles : TilesDecoded u p x before left) (href : BlockRefused u p left r) :
    ∃ b' m', decodePlane p (s.filling b io m) = .error r (s.filling b' io' m') := by
  obtain ⟨b', m', hrun⟩ := decodeTiles_refused (b := { b with coder := .reading x 0 }) (io := io') (m := m) h hq htiles href hcount rfl
  exact ⟨b', m', by rw [decodePlane_apply h hline, Run.bind_apply, hrun]⟩

theorem decodePlane_leftover (h : SameTarget s u) (hq : u.qvalid = true) {io' : Io} (hline : readLine io = .ok x io')
    {tiles : List (Vector (Reg ExactNum) 64)} (hcount : tiles.length = tileSide u.height.val * tileSide u.width.val)
    (htiles : TilesDecoded u p x tiles left) (hleft : left ≠ []) :
    ∃ b' m', decodePlane p (s.filling b io m)
      = .error ⟨.corruptCodeword, some (x.length - left.length : Nat)⟩ (s.filling b' io' m') := by
  obtain ⟨b', pos', hb', hlen, hrun⟩ := decodeTiles_read (b := { b with coder := .reading x 0 }) (io := io') (m := m) (i := 0) h hq htiles rfl
  refine ⟨b', tilesStored u.height.val u.width.val p tiles 0 m, ?_⟩
  have hpos : pos' = x.length - left.length := by omega
  rw [decodePlane_apply h hline, ← hcount, Run.bind_apply, hrun]
  simp [filling_blk, hb', Coder.reading, hleft, hpos]

end

/-! ### From the header to the end -/

/-- s once IMG.DEC has read the header (h, w, q) and set the tables, but for the streams. -/
@[irreducible] def State.decodingBase (s : State) (h w q : Nat) : State :=
  { ((headed s h w q).start .header).dropChannel with phase := .record }

theorem sameTarget_decodingBase (s : State) (h w q : Nat) : SameTarget (s.decodingBase h w q) (headed s h w q) where
  cfg := by rw [State.decodingBase]; rfl
  height := by rw [State.decodingBase]; rfl
  width := by rw [State.decodingBase]; rfl
  qt c := by rw [State.decodingBase]; rfl

/-- The streams of IMG.DEC after n lines. -/
def State.decodingIo (s : State) (n : Nat) : Io := s.linesRead n (s.start .header).dropChannel.io

/-- IMG.DEC behind a good header line is its planes and CT.INV. -/
theorem execImgDec_body {s : State} {h w q : Nat} (hg : GoodHeader (firstLine s.io.inp.rest) h w q) :
    (do
      let line ← onIo readLine
      match parseHeader line with
      | none => raise .malformedHeader 0
      | some (h, w, q) => do
        modify fun t => { t with height := .of h, width := .of w, quality := .of q }
        setPhase .compute
        modify State.setTables
        setPhase .record
        forPlanes decodePlane planes
        setPhase .compute
        modify State.ctInv : Run State Unit) (s.start .header).dropChannel
      = (do
        forPlanes decodePlane planes
        setPhase .compute
        modify State.ctInv : Run State Unit) ((s.decodingBase h w q).filling s.blk (s.decodingIo 1) s.ycc) := by
  have hread := readLine_linesRead s 0 (s.start .header).dropChannel.io
  rw [State.linesRead_zero] at hread
  rw [Run.bind_apply, onIo_apply, hread]
  simp only [afterLines_zero, parseHeader_eq_some.2 hg, State.decodingBase]
  rfl

section
variable {s : State} {h w q : Nat}

theorem exec_imgDec_ok (hg : GoodHeader (firstLine s.io.inp.rest) h w q) {t : State}
    (hplanes : forPlanes decodePlane planes ((s.decodingBase h w q).filling s.blk (s.decodingIo 1) s.ycc) = .ok () t) :
    exec .imgDec s = .next ({ t with phase := .compute } : State).ctInv.released.completed := by
  rw [exec, execImgDec]
  refine runUnit_ok rfl ((execImgDec_body hg).trans ?_)
  rw [Run.bind_apply, hplanes]
  rfl

theorem exec_imgDec_error (hg : GoodHeader (firstLine s.io.inp.rest) h w q) {t : State} {r : Raise}
    (hplanes : forPlanes decodePlane planes ((s.decodingBase h w q).filling s.blk (s.decodingIo 1) s.ycc) = .error r t) :
    exec .imgDec s = .next (t.released.raised r) := by
  rw [exec, execImgDec]
  refine runUnit_error rfl ((execImgDec_body hg).trans ?_)
  rw [Run.bind_apply, hplanes]

/-- `ReadLine` for plane p (R301). -/
theorem readLine_plane (s : State) (p : Fin 3) :
    readLine (s.decodingIo (p.1 + 1)) = .ok (planeLine p s.io.inp.rest) (s.decodingIo (p.1 + 2)) := readLine_linesRead s (p.1 + 1) _

/-- What `YCC` holds once the first k planes have been stored over m. -/
def PlanesHeld (h w k : Nat) (tiles : Fin 3 → List (Vector (Reg ExactNum) 64)) (m m' : Sparse ExactNum) : Prop :=
  (∀ p : Fin 3, p.1 < k → PlaneHolds m' h w p (fun n => (tiles p)[n]?))
    ∧ ∀ key : Key, ¬ InImage h w key → m'.read key = m.read key

theorem planesHeld_zero (tiles : Fin 3 → List (Vector (Reg ExactNum) 64)) (m : Sparse ExactNum) : PlanesHeld h w 0 tiles m m :=
  ⟨fun _ hp => absurd hp (Nat.not_lt_zero _), fun _ _ => rfl⟩

theorem PlanesHeld.succ {p : Fin 3} {tiles : Fin 3 → List (Vector (Reg ExactNum) 64)} {m m' : Sparse ExactNum}
    (hm : PlanesHeld h w p.1 tiles m m') : PlanesHeld h w (p.1 + 1) tiles m (tilesStored h w p (tiles p) 0 m') := by
  obtain ⟨hplanes, houtside⟩ := hm
  refine ⟨fun q hq => ?_, fun key hkey => (read_tilesStored_outside _ _ _ hkey).trans (houtside key hkey)⟩
  rcases Nat.lt_succ_iff_lt_or_eq.1 hq with hlt | heq
  · exact planeHolds_congr (hplanes q hlt) fun k hk => read_tilesStored_of_ne _ _ _ fun e => by
      rw [← hk, e] at hlt
      exact lt_irrefl _ hlt
  · obtain rfl : q = p := Fin.ext heq
    exact planeHolds_tilesStored _ _

theorem planes_take_succ (p : Fin 3) : planes.take (p.1 + 1) = planes.take p.1 ++ [p] := by revert p; decide

/-- The planes before plane k, when each of their lines decodes to its tiles. -/
theorem decodePlanes_read (tiles : Fin 3 → List (Vector (Reg ExactNum) 64)) (k : Nat) (hk : k ≤ 3)
    (htiles : ∀ p : Fin 3, p.1 < k → (tiles p).length = tileSide h * tileSide w
      ∧ TilesDecoded (headed s h w q) p (planeLine p s.io.inp.rest) (tiles p) []) :
    ∃ b m, PlanesHeld h w k tiles s.ycc m
      ∧ forPlanes decodePlane (planes.take k) ((s.decodingBase h w q).filling s.blk (s.decodingIo 1) s.ycc)
        = .ok () ((s.decodingBase h w q).filling b (s.decodingIo (k + 1)) m) := by
  induction k with
  | zero => exact ⟨s.blk, s.ycc, planesHeld_zero _ _, rfl⟩
  | succ k ih =>
    obtain ⟨b, m, hm, hrun⟩ := ih (by omega) fun p hp => htiles p (by omega)
    obtain ⟨hcount, hdecoded⟩ := htiles ⟨k, by omega⟩ (Nat.lt_succ_self k)
    obtain ⟨b', hplane⟩ := decodePlane_read (b := b) (m := m) (sameTarget_decodingBase s h w q) rfl (readLine_plane s ⟨k, by omega⟩) hcount
      hdecoded
    refine ⟨b', _, PlanesHeld.succ (p := ⟨k, by omega⟩) hm, ?_⟩
    rw [planes_take_succ ⟨k, by omega⟩, forPlanes_append, Run.bind_apply, hrun]
    simp only [forPlanes, Run.bind_apply, hplane, Run.pure_apply]
    rfl

/-- A plane that raises after the planes before it. -/
theorem decodePlanes_error {p : Fin 3} {b b' : BlockUnit} {m m' : Sparse ExactNum} {r : Raise}
    (hbefore : forPlanes decodePlane (planes.take p.1) ((s.decodingBase h w q).filling s.blk (s.decodingIo 1) s.ycc)
      = .ok () ((s.decodingBase h w q).filling b (s.decodingIo (p.1 + 1)) m))
    (hplane : decodePlane p ((s.decodingBase h w q).filling b (s.decodingIo (p.1 + 1)) m)
      = .error r ((s.decodingBase h w q).filling b' (s.decodingIo (p.1 + 2)) m')) :
    forPlanes decodePlane planes ((s.decodingBase h w q).filling s.blk (s.decodingIo 1) s.ycc)
      = .error r ((s.decodingBase h w q).filling b' (s.decodingIo (p.1 + 2)) m') := by
  have hsplit : planes = planes.take p.1 ++ p :: planes.drop (p.1 + 1) := by
    clear * -
    revert p
    decide
  rw [hsplit, forPlanes_append, Run.bind_apply, hbefore]
  simp only [forPlanes, Run.bind_apply, hplane]

/-- What is left of the state when IMG.DEC raised r (R322). -/
theorem raised_decodingBase (b : BlockUnit) (m : Sparse ExactNum) (n : Nat) (r : Raise) :
    ∃ t, (((s.decodingBase h w q).filling b (s.decodingIo n) m).released.raised r) = t
      ∧ Raised { headed s h w q with ycc := t.ycc, blk := t.blk }
          (readOnly s (leaving s (afterLines n s.io.inp.rest)) (linesHitEnd n s.io.inp.rest)) r.exc t.errinfo t
      ∧ ∀ i ∈ r.info, t.errinfo = i := by
  obtain ⟨e, _ | i⟩ := r
  · refine ⟨_, rfl, ?_, nofun⟩
    rw [Raised, State.decodingBase]
    rfl
  · refine ⟨_, rfl, ?_, by simp [State.raised_errinfo]⟩
    rw [Raised, State.decodingBase]
    rfl

end

end Sys2Proof.Machine
end

section
/-! The end of IMG.DEC, and the statement about any stream with a good header (47_image_pipeline.md R301, R303). -/

namespace Sys2Proof.Machine

open Sys2Proof.Claims

section
variable {s : State} {h w q : Nat}

/-- The state that IMG.DEC ends in when the planes have made b and m (R301, R323). -/
@[irreducible] def State.imageDecoded (s : State) (h w q : Nat) (b : BlockUnit) (m : Sparse ExactNum) : State :=
  ({ (s.decodingBase h w q).filling b (s.decodingIo 4) m with phase := .compute } : State).ctInv.released.completed

theorem State.imageDecoded_ycc (b : BlockUnit) (m : Sparse ExactNum) : (s.imageDecoded h w q b m).ycc = m := by
  rw [State.imageDecoded]
  rfl

theorem completed_imageDecoded (b : BlockUnit) (m : Sparse ExactNum) :
    Completed { headed s h w q with
        ycc := (s.imageDecoded h w q b m).ycc
        rgb := (({ headed s h w q with ycc := m } : State).unitDone State.ctInv).rgb
        blk := (s.imageDecoded h w q b m).blk }
      (readOnly s (leaving s (afterLines 4 s.io.inp.rest)) (linesHitEnd 4 s.io.inp.rest)) (s.imageDecoded h w q b m) := by
  rw [Completed, State.imageDecoded, State.decodingBase]
  rfl

/-- R287, R301: a sample of the image is what CT.INV makes of the tiles. -/
theorem read_imageDecoded_rgb {b : BlockUnit} {m : Sparse ExactNum} {k : Key} (hk : InImage h w k) :
    (s.imageDecoded h w q b m).rgb.read k = some (sampleByte (inverseChannel s.cfg.numeric m k)) := by
  have hrgb := congrArg State.rgb (completed_imageDecoded (s := s) (h := h) (w := w) (q := q) b m)
  rw [hrgb]
  exact (read_unitDone_ctInv _ k).trans (if_pos hk)

theorem planesReady_of_planesHeld {tiles : Fin 3 → List (Vector (Reg ExactNum) 64)} {m m' : Sparse ExactNum}
    (hm : PlanesHeld h w 3 tiles m m') (hcount : ∀ p, (tiles p).length = tileSide h * tileSide w) : PlanesReady m' h w := by
  intro c y x hy hx
  have hlt : tileOf w ⟨c, y, x⟩ < (tiles c).length := by
    rw [hcount]
    exact tileOf_lt ⟨hy, hx⟩
  rw [hm.1 c c.2 y x hy hx _ (List.getElem?_eq_getElem hlt)]
  rfl

/-- The sides of a good header are those of an image. -/
theorem sidesReady_headed (hg : GoodHeader (firstLine s.io.inp.rest) h w q) (m : Sparse ExactNum) :
    SidesReady { headed s h w q with ycc := m } := by
  obtain ⟨-, -, -, -, -, -, -, hh, hw, -⟩ := hg
  exact ⟨rfl, hh, rfl, hw⟩

/-- IMG.DEC when each line decodes to the tiles of its plane. -/
theorem exec_imgDec_decoded (hg : GoodHeader (firstLine s.io.inp.rest) h w q) {tiles : Fin 3 → List (Vector (Reg ExactNum) 64)}
    (htiles : ∀ p, (tiles p).length = tileSide h * tileSide w
      ∧ TilesDecoded (headed s h w q) p (planeLine p s.io.inp.rest) (tiles p) []) :
    ∃ b m, PlanesHeld h w 3 tiles s.ycc m ∧ exec .imgDec s = .next (s.imageDecoded h w q b m)
      ∧ Runs .ctInv { headed s h w q with ycc := m } (({ headed s h w q with ycc := m } : State).unitDone State.ctInv) := by
  obtain ⟨b, m, hm, hrun⟩ := decodePlanes_read tiles 3 le_rfl fun p _ => htiles p
  refine ⟨b, m, hm, ?_, exec_ctInv (sidesReady_headed hg m) (planesReady_of_planesHeld hm fun p => (htiles p).1), rfl⟩
  rw [State.imageDecoded]
  exact exec_imgDec_ok hg hrun

/-- IMG.DEC when plane p raises behind the planes before it. -/
theorem exec_imgDec_plane_error (hg : GoodHeader (firstLine s.io.inp.rest) h w q) {tiles : Fin 3 → List (Vector (Reg ExactNum) 64)}
    {p : Fin 3} {r : Raise}
    (htiles : ∀ p', p' < p → (tiles p').length = tileSide h * tileSide w
      ∧ TilesDecoded (headed s h w q) p' (planeLine p' s.io.inp.rest) (tiles p') [])
    (hplane : ∀ b m, ∃ b' m', decodePlane p ((s.decodingBase h w q).filling b (s.decodingIo (p.1 + 1)) m)
      = .error r ((s.decodingBase h w q).filling b' (s.decodingIo (p.1 + 2)) m')) :
    ∃ t, exec .imgDec s = .next t
      ∧ Raised { headed s h w q with ycc := t.ycc, blk := t.blk }
          (readOnly s (leaving s (afterLines (p.1 + 2) s.io.inp.rest)) (linesHitEnd (p.1 + 2) s.io.inp.rest)) r.exc t.errinfo t
      ∧ ∀ i ∈ r.info, t.errinfo = i := by
  obtain ⟨b, m, -, hbefore⟩ := decodePlanes_read tiles p.1 (by omega) htiles
  obtain ⟨b', m', herror⟩ := hplane b m
  obtain ⟨t, ht, hraised⟩ := raised_decodingBase (s := s) (h := h) (w := w) (q := q) b' m' (p.1 + 2) r
  exact ⟨t, by rw [exec_imgDec_error hg (decodePlanes_error hbefore herror), ht], hraised⟩

end

/-- Settles O58: a line's tiles are what `DecodeBlock` makes of its characters, in the image pass as in RLE.DEC; each of them is stored in its
place; and the first plane that cannot be read ends the command. -/
theorem imgDecDecodesTiles : Obligations.ImgDecDecodesTiles := by
  unfold Obligations.ImgDecDecodesTiles
  intro s h w q hg
  refine ⟨fun tiles htiles => ?_, fun p tiles before left htiles hbefore => ⟨fun c e hlt hc hrun herr => ?_, fun hcount hleft => ?_⟩⟩
  · obtain ⟨b, m, hm, hexec, hctInv⟩ := exec_imgDec_decoded hg htiles
    refine ⟨_, _, hexec, ?_, completed_imageDecoded b m, ?_⟩
    · rwa [State.imageDecoded_ycc]
    · rw [State.imageDecoded_ycc]
      exact ⟨fun p => hm.1 p p.2, hm.2⟩
  · rcases blockRead_or_blockRefused (headed s h w q) p left with ⟨vals, rest, hread⟩ | ⟨r, href⟩
    · obtain ⟨c', ⟨hc', hdone⟩, -⟩ := exec_rleDec_line hread
      rw [exec_unique hc hc', hdone] at hrun
      cases hrun
    · obtain ⟨c', hc', -, herr', hinfo'⟩ := exec_rleDec_refused href
      obtain rfl := exec_unique hc hc'
      obtain rfl : r.exc = e := Option.some.inj (herr'.symm.trans herr)
      obtain ⟨t, ht, hraised, hinfo⟩ := exec_imgDec_plane_error hg htiles fun b m =>
        decodePlane_refused (sameTarget_decodingBase s h w q) rfl (readLine_plane s p) hlt hbefore href
      refine ⟨t, ht, hraised, fun hcorrupt => ?_⟩
      obtain ⟨-, -, hnames, -⟩ := href
      obtain ⟨i, hi⟩ := Option.isSome_iff_exists.1 (hnames hcorrupt)
      rw [hinfo i hi, hinfo' i hi]
  · obtain ⟨t, ht, hraised, hinfo⟩ := exec_imgDec_plane_error hg htiles fun b m =>
      decodePlane_leftover (sameTarget_decodingBase s h w q) rfl (readLine_plane s p) hcount hbefore hleft
    rw [hinfo _ rfl] at hraised
    exact ⟨t, ht, hraised⟩

end Sys2Proof.Machine
end

section
/-! What IMG.ENC wrote, read back by IMG.DEC (47_image_pipeline.md R301, R307): the lines of the stream, the tiles of a line, and the command. -/

namespace Sys2Proof.Machine

open Sys2Proof.Claims

/-! ### A stream of lines -/

/-- Lines with their line feeds. -/
def joinLines (ls : List (List Byte)) : List Byte := ls.flatMap fun l => l ++ [lineFeed]

section
variable {ls : List (List Byte)} (hls : ∀ l ∈ ls, lineFeed ∉ l) (rest : List Byte)
include hls

theorem afterLines_joinLines {n : Nat} (hn : n ≤ ls.length) : afterLines n (joinLines ls ++ rest) = joinLines (ls.drop n) ++ rest := by
  induction n with
  | zero => rfl
  | succ n ih =>
    rw [afterLines_succ, ih (by omega), List.drop_eq_getElem_cons (show n < ls.length from hn)]
    simp only [joinLines, List.flatMap_cons, List.append_assoc, List.cons_append, List.nil_append]
    exact afterLine_append (hls _ (List.getElem_mem _)) _

theorem firstLine_afterLines_joinLines {n : Nat} (hn : n < ls.length) : firstLine (afterLines n (joinLines ls ++ rest)) = ls[n] := by
  rw [afterLines_joinLines hls rest hn.le, List.drop_eq_getElem_cons hn]
  simp only [joinLines, List.flatMap_cons, List.append_assoc, List.cons_append, List.nil_append]
  exact firstLine_append (hls _ (List.getElem_mem _)) _

end

theorem linesHitEnd_joinLines (ls : List (List Byte)) (rest : List Byte) : linesHitEnd ls.length (joinLines ls ++ rest) = false := by
  have hcount : ls.length ≤ (joinLines ls ++ rest).count lineFeed := by
    induction ls with
    | nil => exact Nat.zero_le _
    | cons l ls ih =>
      simp only [joinLines, List.flatMap_cons, List.append_assoc, List.count_append, List.count_singleton_self, List.length_cons] at ih ⊢
      omega
  exact decide_eq_false (by omega)

/-! ### The tiles of a line -/

section
variable {u U : State} {p : Fin 3}

theorem State.tileQuantised_qt (u : State) (p : Fin 3) (n : Nat) :
    (u.tileQuantised p n).qt (u.tileQuantised p n).chroma = u.qt (planeChroma p) := by
  rw [State.tileQuantised, State.blockDone_qt, State.tileRounded, State.blockDone_qt, State.tileTransformed_qt]

/-- The samples of a tile after ZZ.INV, Q.DEQUANT and DCT.INV on its quantised coefficients. -/
def State.tileRestored (u : State) (p : Fin 3) (n : Nat) : Vector (Reg ExactNum) 64 :=
  ((u.tileQuantised p n).blk.backward u.cfg.toConfig (u.qt (planeChroma p))).blkf

theorem exists_tileRestored (hq : u.qvalid = true) (p : Fin 3) (n : Nat) :
    ∃ t, TileRestored (u.tileQuantised p n) t ∧ t.blk.blkf = u.tileRestored p n := by
  obtain ⟨⟨t, ht⟩, hblkf⟩ := tileRestored_spec ((u.tileQuantised_qvalid p n).trans hq) (u.tileSeq_written p n)
  refine ⟨t, ht, ?_⟩
  rw [hblkf t ht, State.tileQuantised_cfg, State.tileQuantised_qt, State.tileRestored]

/-- The states agree on what the block commands of a plane read. -/
structure SameCoding (U u : State) : Prop where
  cfg : U.cfg = u.cfg
  qvalid : U.qvalid = true
  qt : ∀ c, U.qt c = u.qt c

theorem chars_tileCode_decoded (h : SameCoding U u) {n : Nat} (hheld : Held (u.tileItems p n)) {x y : List Byte}
    {ts : List (Vector (Reg ExactNum) 64)} (hts : TilesDecoded U p x ts y) :
    TilesDecoded U p (chars (itemBits (u.tileItems p n)) ++ x) (u.tileRestored p n :: ts) y := by
  rw [State.tileItems_eq] at hheld ⊢
  have hwritten := u.tileSeq_written p n
  have hchroma := U.lineStart_chroma p (chars (itemBits (seqItems (u.tileQuantised p n))) ++ x)
  have hcode := blockCode_seqItems (u := U.lineStart p (chars (itemBits (seqItems (u.tileQuantised p n))) ++ x))
    (h.cfg.trans (u.tileQuantised_cfg p n).symm) (hchroma.trans (u.tileQuantised_chroma p n).symm) hheld
  obtain ⟨a, ha, hdone⟩ := exec_rleDec_of_blockCode hcode rfl
  have hseq : a.blk.seq = (u.tileQuantised p n).blk.seq := by
    rw [completed_blk_eq hdone]
    exact blockOf_blockVals hwritten
  have hrest : a.io.inp.rest = x := by rw [completed_io_eq hdone]; rfl
  have hkept : a.cfg = U.cfg ∧ a.qvalid = true ∧ a.qt a.chroma = U.qt (planeChroma p) := by
    rw [State.chroma] at hchroma
    rw [hdone]
    refine ⟨rfl, h.qvalid, ?_⟩
    rw [State.chroma, hchroma]
    rfl
  obtain ⟨hcfg, hqvalid, hqt⟩ := hkept
  obtain ⟨⟨b, hb⟩, hblkf⟩ := tileRestored_spec hqvalid fun k => by rw [hseq]; exact hwritten k
  have htile : b.blk.blkf = u.tileRestored p n := by
    rw [hblkf b hb, hqt, hcfg, h.cfg, h.qt, State.tileRestored]
    exact backward_blkf_congr u.cfg _ hseq
  rw [← htile]
  refine .tile ⟨ha, completed_run_eq hdone⟩ hb ?_
  rwa [hrest]

/-- A line that IMG.ENC wrote decodes to its tiles, and nothing is left of it. -/
theorem chars_tileBits_decoded (h : SameCoding U u) (n i : Nat) (hheld : ∀ j, i ≤ j → j < i + n → Held (u.tileItems p j)) :
    TilesDecoded U p (chars (u.tileBits p i n)) ((List.range' i n).map (u.tileRestored p)) [] := by
  induction n generalizing i with
  | zero => exact .done []
  | succ n ih =>
    have hrest := ih (i + 1) fun j hj hlt => hheld j (by omega) (by omega)
    have hline : chars (u.tileBits p i (n + 1)) = chars (itemBits (u.tileItems p i)) ++ chars (u.tileBits p (i + 1) n) := by
      rw [State.tileBits, State.tileBits, List.range'_succ, List.flatMap_cons, chars_append]
    rw [hline, List.range'_succ, List.map_cons]
    exact chars_tileCode_decoded h (hheld i le_rfl (by omega)) hrest

end

/-! ### The stream of an image -/

section
variable {s : State}

/-- A completed IMG.ENC found the symbols of every tile in the codebooks. -/
theorem planeHeld_of_runs (h : ImgReady s) {t : State} (ht : Runs .imgEnc s t) (p : Fin 3) : PlaneHeld s p := by
  by_contra hp
  obtain ⟨p, hp, hbefore⟩ := wellFounded_lt.has_min {p : Fin 3 | ¬ PlaneHeld s p} ⟨p, hp⟩
  have hexists : ∃ n, n < tileCount s ∧ ¬ Held (s.quantReady.tileItems p n) := by
    simpa [PlaneHeld] using hp
  classical
  obtain ⟨hn, hmissing⟩ := Nat.find_spec hexists
  obtain ⟨i, bits, hput⟩ := putItems_of_not_held hmissing
  obtain ⟨t', ht', hraised⟩ := exec_imgEnc_raised h hn (fun q hq => not_not.1 fun hq' => hbefore q hq' hq)
    (fun j hj => not_not.1 fun hj' => Nat.find_min hexists hj ⟨by omega, hj'⟩) hput
  obtain ⟨ht, hdone⟩ := ht
  rw [exec_unique ht ht', raised_run_eq hraised] at hdone
  cases hdone

/-- The lines that IMG.ENC writes. -/
def State.imageLines (s : State) : List (List Byte) :=
  headerChars s.height.val s.width.val s.quality.val :: planes.map fun p => chars (s.quantReady.tileBits p 0 (tileCount s))

theorem streamOut_eq_joinLines (s : State) : s.streamOut planes = joinLines s.imageLines := by
  have hline : s.quantReady.planeLineOut = fun p => chars (s.quantReady.tileBits p 0 (tileCount s)) ++ [lineFeed] := by
    funext p
    rw [State.planeLineOut, tileCount_quantReady]
  simp only [State.streamOut, joinLines, State.imageLines, headerLine_eq, List.flatMap_cons, List.flatMap_map, hline]

theorem imageLines_getElem_plane (s : State) (p : Fin 3) :
    s.imageLines[p.1 + 1]? = some (chars (s.quantReady.tileBits p 0 (tileCount s))) := by
  match p with
  | 0 | 1 | 2 => rfl

section
variable (h : ImgReady s)
include h

theorem goodHeader_imageLines : GoodHeader (headerChars s.height.val s.width.val s.quality.val) s.height.val s.width.val s.quality.val := by
  obtain ⟨-, hq, ⟨-, hh, -, hw⟩, -⟩ := h
  exact goodHeader_headerChars hh hw hq

theorem lineFeed_not_mem_imageLines : ∀ l ∈ s.imageLines, lineFeed ∉ l := by
  intro l hl
  rcases List.mem_cons.1 hl with rfl | hl
  · exact lineFeed_not_mem_of_goodHeader (goodHeader_imageLines h)
  · obtain ⟨p, -, rfl⟩ := List.mem_map.1 hl
    exact lineFeed_not_mem_chars _

variable {d : State} {rest : List Byte} (hin : d.io.inp.rest = s.streamOut planes ++ rest)
include hin

/-- The header, the lines of the planes, and what is left behind them, of a stream that IMG.ENC wrote. -/
theorem lines_of_streamOut :
    firstLine d.io.inp.rest = headerChars s.height.val s.width.val s.quality.val
      ∧ (∀ p, planeLine p d.io.inp.rest = chars (s.quantReady.tileBits p 0 (tileCount s)))
      ∧ afterLines 4 d.io.inp.rest = rest ∧ linesHitEnd 4 d.io.inp.rest = false := by
  have hls := lineFeed_not_mem_imageLines h
  rw [hin, streamOut_eq_joinLines]
  refine ⟨firstLine_afterLines_joinLines hls rest (n := 0) (Nat.succ_pos _), fun p => ?_, afterLines_joinLines hls rest (n := 4) le_rfl,
    linesHitEnd_joinLines s.imageLines rest⟩
  obtain ⟨hlt, hline⟩ := List.getElem?_eq_some_iff.1 (imageLines_getElem_plane s p)
  rw [planeLine, firstLine_afterLines_joinLines hls rest hlt, hline]

end

theorem headed_qt {d : State} (hcfg : d.cfg = s.cfg) (c : Bool) :
    (headed d s.height.val s.width.val s.quality.val).qt c = s.quantReady.qt c := by
  have hq : (headed d s.height.val s.width.val s.quality.val).qt c
      = if c then scaledTable s.quality.val d.cfg.baseChroma else scaledTable s.quality.val d.cfg.baseLuma := rfl
  rw [State.quantReady_qt, hq, hcfg]
  rfl

/-- The tiles of an image, quantised and restored, as many as it has. -/
def State.restoredTiles (s : State) (p : Fin 3) : List (Vector (Reg ExactNum) 64) :=
  (List.range' 0 (tileCount s)).map (s.quantReady.tileRestored p)

/-- IMG.DEC on what IMG.ENC wrote reads the restored tiles. -/
theorem restoredTiles_decoded (h : ImgReady s) (hheld : ∀ p, PlaneHeld s p) {d : State} {rest : List Byte} (hcfg : d.cfg = s.cfg)
    (hin : d.io.inp.rest = s.streamOut planes ++ rest) (p : Fin 3) :
    (s.restoredTiles p).length = tileSide s.height.val * tileSide s.width.val
      ∧ TilesDecoded (headed d s.height.val s.width.val s.quality.val) p (planeLine p d.io.inp.rest) (s.restoredTiles p) [] := by
  obtain ⟨-, hline, -⟩ := lines_of_streamOut h hin
  have hsame : SameCoding (headed d s.height.val s.width.val s.quality.val) s.quantReady :=
    ⟨hcfg.trans s.quantReady_cfg.symm, rfl, headed_qt hcfg⟩
  rw [hline, State.restoredTiles, List.length_map, List.length_range']
  exact ⟨rfl, chars_tileBits_decoded hsame _ 0 fun j _ hj => hheld p j (by omega)⟩

theorem exec_imgDec_streamOut (h : ImgReady s) (hheld : ∀ p, PlaneHeld s p) {d : State} {rest : List Byte} (hcfg : d.cfg = s.cfg)
    (hin : d.io.inp.rest = s.streamOut planes ++ rest) :
    ∃ b m, PlanesHeld s.height.val s.width.val 3 s.restoredTiles d.ycc m
      ∧ exec .imgDec d = .next (d.imageDecoded s.height.val s.width.val s.quality.val b m)
      ∧ Runs .ctInv { headed d s.height.val s.width.val s.quality.val with ycc := m }
          (({ headed d s.height.val s.width.val s.quality.val with ycc := m } : State).unitDone State.ctInv) := by
  refine exec_imgDec_decoded ?_ (restoredTiles_decoded h hheld hcfg hin)
  obtain ⟨hheader, -⟩ := lines_of_streamOut h hin
  rw [hheader]
  exact goodHeader_imageLines h

/-- A tile of the image is there. -/
theorem planeHolds_restoredTiles {m : Sparse ExactNum} {p : Fin 3} {f : Nat → Vector (Reg ExactNum) 64}
    (hf : ∀ n, n < tileCount s → f n = s.quantReady.tileRestored p n)
    (hm : PlaneHolds m s.height.val s.width.val p fun n => (s.restoredTiles p)[n]?) :
    PlaneHolds m s.height.val s.width.val p fun n => some (f n) := by
  intro y x hy hx b hb
  have hlt : y / 8 * tileSide s.width.val + x / 8 < tileCount s := tileOf_lt (k := ⟨p, y, x⟩) ⟨hy, hx⟩
  refine hm y x hy hx b ?_
  have htile : (s.restoredTiles p)[y / 8 * tileSide s.width.val + x / 8]? = some (f (y / 8 * tileSide s.width.val + x / 8)) := by
    rw [hf _ hlt, State.restoredTiles, List.getElem?_map, List.getElem?_range' hlt, Nat.zero_add, Nat.one_mul]
    rfl
  exact htile.trans hb

end

/-- Settles O57: the lines of the stream are the codes of the tiles, a code decodes to the coefficients it was made of, and IMG.DEC restores the
tiles from them. -/
theorem imgDecReadsWhatImgEncWrote : Obligations.ImgDecReadsWhatImgEncWrote := by
  unfold Obligations.ImgDecReadsWhatImgEncWrote
  intro s t h ht
  have hheld := planeHeld_of_runs h ht
  obtain ⟨t', ht', hdone⟩ := exec_imgEnc_completed h hheld
  obtain rfl : t = t' := runs_unique ht ⟨ht', completed_run_eq hdone⟩
  refine ⟨_, s.quantReady, s.streamOut planes, runs_ctFwd_of_imgReady h, runs_qSetq_of_imgReady h, by rw [completed_io_eq hdone]; rfl, ?_⟩
  intro d rest hcfg hin loaded
  obtain ⟨-, -, hafter, hend⟩ := lines_of_streamOut h hin
  obtain ⟨b, m, hm, hexec, hctInv⟩ := exec_imgDec_streamOut h hheld hcfg hin
  have hcompleted := completed_imageDecoded (s := d) (h := s.height.val) (w := s.width.val) (q := s.quality.val) b m
  rw [hafter, hend] at hcompleted
  choose tiles hrestored hsamples using exists_tileRestored (u := s.quantReady) s.quantReady_qvalid
  refine ⟨_, _, hexec, ?_, hcompleted, fun p => ⟨tiles p, fun n _ => ?_, ?_⟩, ?_, ?_⟩
  · rwa [State.imageDecoded_ycc]
  · exact ⟨_, (tileQuantised_iff _ p n s.quantReady_qvalid _).2 rfl, hrestored p n⟩
  · rw [State.imageDecoded_ycc]
    exact planeHolds_restoredTiles (fun n _ => hsamples p n) (hm.1 p p.2)
  · rw [State.imageDecoded_ycc]
    exact hm.2
  · intro c y x hy hx
    rw [read_imageDecoded_rgb (k := ⟨c, y, x⟩) ⟨hy, hx⟩]
    rfl

end Sys2Proof.Machine
end

section
/-! A solid gray image (47_image_pipeline.md R305): the samples are the level 128, which transforms to zeros and back, in both arithmetics. -/

namespace Sys2Proof.Machine

open Sys2Proof.Claims

/-! ### Zeros and the level 128 in both arithmetics -/

/-- The level of the samples, and zero. -/
def level : ExactNum := .ofInt 128

theorem fit_zero (m : Numeric) : m.fit (.ofInt 0) = .ofInt 0 := by cases m <;> decide +kernel

theorem fit_level (m : Numeric) : m.fit level = level := by cases m <;> decide +kernel

theorem mul_zero_numeric (m : Numeric) (x : ExactNum) : m.mul x (.ofInt 0) = .ofInt 0 := by
  rw [Numeric.mul, ExactNum.mul_zero, fit_zero]

theorem zero_mul_numeric (m : Numeric) (x : ExactNum) : m.mul (.ofInt 0) x = .ofInt 0 := by
  rw [Numeric.mul, ExactNum.zero_mul, fit_zero]

theorem sum_zeros (m : Numeric) (n : Nat) : m.sum (List.replicate n (.ofInt 0)) = .ofInt 0 := by
  have hadd : m.add (.ofInt 0) (.ofInt 0) = .ofInt 0 := by rw [Numeric.add, ExactNum.add_zero, fit_zero]
  rw [Numeric.sum]
  induction n with
  | zero => rfl
  | succ n ih => rw [List.replicate_succ, List.foldl_cons, hadd, ih]

/-- A block with the same element everywhere. -/
def constBlock (x : ExactNum) : Vector ExactNum 64 := Vector.ofFn fun _ => x

theorem matMul_of_zero {m : Numeric} {x y : Vector ExactNum 64}
    (h : ∀ i j l : Fin 8, m.mul (blockElem x i l) (blockElem y l j) = .ofInt 0) : m.matMul x y = constBlock (.ofInt 0) := by
  refine Vector.ext fun k hk => ?_
  have hk' := getElem_eq_blockElem (m.matMul x y) ⟨k, hk⟩
  simp only at hk'
  rw [hk', blockElem_matMul]
  simp only [h, List.map_const', List.length_finRange, sum_zeros, constBlock, Vector.getElem_ofFn]

theorem blockElem_constBlock (x : ExactNum) (i j : Fin 8) : blockElem (constBlock x) i j = x := blockElem_ofFn _ i j

theorem matMul_zeros (m : Numeric) (x : Vector ExactNum 64) : m.matMul x (constBlock (.ofInt 0)) = constBlock (.ofInt 0) :=
  matMul_of_zero fun i j l => by rw [blockElem_constBlock, mul_zero_numeric]

theorem zeros_matMul (m : Numeric) (x : Vector ExactNum 64) : m.matMul (constBlock (.ofInt 0)) x = constBlock (.ofInt 0) :=
  matMul_of_zero fun i j l => by rw [blockElem_constBlock, zero_mul_numeric]

theorem shiftBlock_constBlock (m : Numeric) (d : Int) (x : ExactNum) : shiftBlock m d (constBlock x) = constBlock (m.add x (.ofInt d)) := by
  refine Vector.ext fun k hk => ?_
  simp [shiftBlock, constBlock]

/-- R219 on zeros. -/
theorem inverseBlock_zeros (m : Numeric) : inverseBlock m (constBlock (.ofInt 0)) = constBlock level := by
  have hadd : m.add (.ofInt 0) (.ofInt 128) = level := by
    rw [Numeric.add, show (ExactNum.ofInt 0).add (.ofInt 128) = level by decide +kernel, fit_level]
  rw [inverseBlock, matMul_zeros, zeros_matMul, shiftBlock_constBlock, hadd]

/-- R287 on the level, for each channel. -/
theorem sampleByte_inverseChannel_level {m : Numeric} {ycc : Sparse ExactNum} {k : Key} (h : ∀ c, yccAt ycc c k.y k.x = level) :
    sampleByte (inverseChannel m ycc k) = 128 := by
  have hforms : sampleByte (redOf m level level level) = 128 ∧ sampleByte (greenOf m level level level) = 128
      ∧ sampleByte (blueOf m level level level) = 128 := by
    cases m <;> decide +kernel
  obtain ⟨hred, hgreen, hblue⟩ := hforms
  obtain ⟨c, y, x⟩ := k
  simp only [inverseChannel, h]
  match c with
  | 0 => exact hred
  | 1 => exact hgreen
  | 2 => exact hblue

/-! ### A sample of a gray pixel, and a tile of such samples -/

theorem forwardForm_gray (c : Fin 3) : forwardForm c 128 128 128 = 128 := by
  match c with
  | 0 | 1 | 2 => norm_num [forwardForm]

/-- The roundings of binary64 leave a luminance just below the level. -/
theorem abs_forwardSample_gray (m : Numeric) {rgb : Sparse Byte} {k : Key} (h : ∀ c, sampleAt rgb c k.y k.x = 128) :
    |(forwardSample m rgb k).real - 128| ≤ 1 / 10 ^ 11 := by
  cases m with
  | exact =>
    rw [real_forwardSample_exact, h, h, h, forwardForm_gray]
    norm_num
  | binary64 =>
    have hnear := within_forwardSample_binary64 rgb k
    rw [h, h, h, forwardForm_gray, Within] at hnear
    have heps := epsilon64_small
    push_cast at hnear
    linarith

theorem abs_forwardBlock_of_level (m : Numeric) {v : Vector ExactNum 64} (h : ∀ i j, |realMatrix v i j - 128| ≤ 1 / 10 ^ 11) (i j : Fin 8) :
    |realMatrix (forwardBlock m v) i j| ≤ 1 / 10 ^ 9 := by
  have hexact := abs_forwardMatrix_le (i := i) (j := j) (.inl rfl) h
  cases m with
  | exact =>
    rw [realMatrix_forwardBlock_exact]
    linarith
  | binary64 =>
    obtain ⟨-, hnear⟩ := near_forwardBlock (B := 2) (fun a b => (h a b).trans (by norm_num)) le_rfl (by norm_num) i j
    have heps := epsilon64_small
    have := abs_sub_abs_le_abs_sub (realMatrix (forwardBlock .binary64 v) i j) (forwardMatrix (realMatrix v) i j)
    linarith

/-- R229: what is so small rounds to 0 in every mode. -/
theorem round_div_of_small (m : Numeric) (mode : RoundMode) {x : ExactNum} (hx : |x.real| ≤ 1 / 10 ^ 9) (n : Nat) :
    m.round mode (m.div x n) = 0 := by
  have hdiv := (abs_div_natCast_le x.real n).trans hx
  have hround : |x.real / n - m.round mode (m.div x n)| ≤ 3 / 4 := by
    cases m with
    | exact => exact (abs_div_sub_round_exact_le mode x n).trans (by norm_num)
    | binary64 =>
      have hmax : |x.real| ≤ 2 ^ 1000 := hx.trans (le_trans (by norm_num) (one_le_pow₀ one_le_two))
      refine (abs_div_sub_round_binary64_le mode hmax n).trans ?_
      norm_num at hdiv ⊢
      linarith
  have hlt : |(m.round mode (m.div x n) : ℝ)| < 1 := by
    have := abs_sub_abs_le_abs_sub (m.round mode (m.div x n) : ℝ) (x.real / n)
    rw [abs_sub_comm] at this
    norm_num at hdiv
    linarith
  have habs : |m.round mode (m.div x n)| < 1 := by exact_mod_cast hlt
  exact Int.abs_lt_one_iff.1 habs

/-! ### The tiles of a solid gray image -/

/-- Every sample of the image is 128. -/
def SolidGray (s : State) : Prop :=
  ∀ (c : Fin 3) (y x : Nat), y < s.height.val → x < s.width.val → s.rgb.read ⟨c, y, x⟩ = some 128

section
variable {s : State} (h : ImgReady s) (hgray : SolidGray s) (p : Fin 3) (n : Nat)
include h hgray

theorem abs_tileSamples_gray (k : Fin 64) : |(tileSamples s.quantReady p n)[k.1].val.real - 128| ≤ 1 / 10 ^ 11 := by
  obtain ⟨-, -, ⟨-, hh, -, hw⟩, -⟩ := h
  simp only [tileSamples, Vector.getElem_ofFn]
  rw [State.quantReady_ycc, read_unitDone_ctFwd, State.quantReady_height, State.quantReady_width,
    if_pos ⟨by simp only; omega, by simp only; omega⟩]
  refine abs_forwardSample_gray _ fun c => ?_
  rw [sampleAt, hgray c _ _ (by simp only; omega) (by simp only; omega)]
  rfl

theorem tileSeq_gray (k : Fin 64) : (s.quantReady.tileQuantised p n).blk.seq[k.1] = ⟨0, true⟩ := by
  have hval : (s.quantReady.tileQuantised p n).blk.seq[k.1].val = 0 := by
    rw [tileSeq_getElem]
    refine round_div_of_small _ _ ?_ _
    rw [Fin.getElem_fin, getElem_eq_blockElem, ← realMatrix_apply]
    refine abs_forwardBlock_of_level _ (fun i j => ?_) _ _
    rw [realMatrix_blockVals]
    exact abs_tileSamples_gray h hgray p n ⟨8 * i.1 + j.1, by omega⟩
  rw [← hval]
  exact (Reg.of_val (s.quantReady.tileSeq_written p n k)).symm

/-- A gray tile is coded by category 0 and the end of the block. -/
theorem tileItems_gray {dc eob : Bits} (hdc : lookupDc (dcTrie s.cfg.toConfig (planeChroma p)) 0 = some dc)
    (heob : lookupAc (acTrie s.cfg.toConfig (planeChroma p)) 0x00 = some eob) :
    s.quantReady.tileItems p n = [⟨some dc, 0, 0⟩, ⟨some eob, 0, symEob⟩] := by
  rw [State.tileItems_eq, seqItems_zero (tileSeq_gray h hgray p n), State.tileQuantised_cfg, State.tileQuantised_chroma,
    State.quantReady_cfg, hdc, symEob, heob]

/-- A gray tile is restored to the level. -/
theorem tileRestored_gray (k : Fin 64) : (s.quantReady.tileRestored p n)[k.1].val = level := by
  have hzero (i : Fin 64) : ((s.quantReady.tileQuantised p n).blk.zzInv s.quantReady.cfg.zigzag).blki[i.1].val = 0 := by
    obtain ⟨j, rfl⟩ := (zigzag_bijective s.quantReady.cfg).2 i
    have hmoved := zzInv_blki_eq s.quantReady.cfg (s.quantReady.tileQuantised p n).blk j
    rw [tileSeq_gray h hgray p n j] at hmoved
    simp only [Fin.getElem_fin] at hmoved ⊢
    rw [hmoved]
    rfl
  have hblock : blockVals (((s.quantReady.tileQuantised p n).blk.zzInv s.quantReady.cfg.zigzag).dequant
      (s.quantReady.qt (planeChroma p))).blkf = constBlock (.ofInt 0) := by
    refine Vector.ext fun i hi => ?_
    have hi' := BlockUnit.dequant_blkf_getElem (s.quantReady.qt (planeChroma p))
      ((s.quantReady.tileQuantised p n).blk.zzInv s.quantReady.cfg.zigzag) ⟨i, hi⟩
    rw [hzero ⟨i, hi⟩, zero_mul] at hi'
    rw [getElem_blockVals, hi', constBlock, Vector.getElem_ofFn]
    rfl
  rw [State.tileRestored, BlockUnit.backward, BlockUnit.dctInv_blkf, hblock, inverseBlock_zeros, getElem_blockOf, constBlock,
    Vector.getElem_ofFn]
  rfl

end

/-! ### The stream of a solid gray image, and the way back -/

section
variable {s : State} (h : ImgReady s) (hgray : SolidGray s)
include h hgray

theorem planeHeld_gray {p : Fin 3} {dc eob : Bits} (hdc : lookupDc (dcTrie s.cfg.toConfig (planeChroma p)) 0 = some dc)
    (heob : lookupAc (acTrie s.cfg.toConfig (planeChroma p)) 0x00 = some eob) : PlaneHeld s p := by
  intro n _
  rw [tileItems_gray h hgray p n hdc heob]
  simp [Held]

theorem planeLineOut_gray {p : Fin 3} {dc eob : Bits} (hdc : lookupDc (dcTrie s.cfg.toConfig (planeChroma p)) 0 = some dc)
    (heob : lookupAc (acTrie s.cfg.toConfig (planeChroma p)) 0x00 = some eob) :
    s.quantReady.planeLineOut p = chars (List.replicate (tileCount s) (dc ++ eob)).flatten ++ [lineFeed] := by
  have hcode (n : Nat) : itemBits (s.quantReady.tileItems p n) = dc ++ eob := by
    rw [tileItems_gray h hgray p n hdc heob]
    simp [itemBits]
  rw [State.planeLineOut, tileCount_quantReady, State.tileBits]
  simp only [hcode, List.flatMap_def, List.map_const', List.length_range']

theorem yccAt_gray {m m' : Sparse ExactNum} (hm : PlanesHeld s.height.val s.width.val 3 s.restoredTiles m m') {y x : Nat}
    (hy : y < s.height.val) (hx : x < s.width.val) (c : Fin 3) : yccAt m' c y x = level := by
  have hplane := planeHolds_restoredTiles (f := s.quantReady.tileRestored c) (fun n _ => rfl) (hm.1 c c.2)
  rw [yccAt, hplane y x hy hx _ rfl, Option.getD_some]
  exact tileRestored_gray h hgray c _ ⟨8 * (y % 8) + x % 8, by omega⟩

end

/-- Settles O59: the samples are within the roundings of binary64 of the level, so every coefficient rounds to 0; a block of zeros has two
symbols, and restores to the level exactly in both arithmetics. -/
theorem solidGrayRoundTrip : Obligations.SolidGrayRoundTrip := by
  unfold Obligations.SolidGrayRoundTrip
  intro s dcY eobY dcC eobC h hgray hdcY heobY hdcC heobC lineY lineC
  have hheld (p : Fin 3) : PlaneHeld s p := by
    match p with
    | 0 => exact planeHeld_gray h hgray hdcY heobY
    | 1 | 2 => exact planeHeld_gray h hgray hdcC heobC
  have hstream : s.streamOut planes = headerLine s.height.val s.width.val s.quality.val ++ lineY ++ lineC ++ lineC := by
    have hY : s.quantReady.planeLineOut 0 = lineY := planeLineOut_gray h hgray hdcY heobY
    have hCb : s.quantReady.planeLineOut 1 = lineC := planeLineOut_gray h hgray hdcC heobC
    have hCr : s.quantReady.planeLineOut 2 = lineC := planeLineOut_gray h hgray hdcC heobC
    simp [State.streamOut, planes, hY, hCb, hCr]
  rw [← hstream]
  obtain ⟨t, ht, hdone⟩ := exec_imgEnc_completed h hheld
  refine ⟨t, ht, completed_run_eq hdone, by rw [completed_io_eq hdone]; rfl, fun u hcfg hin => ?_⟩
  obtain ⟨b, m, hm, hexec, -⟩ := exec_imgDec_streamOut (rest := []) h hheld hcfg (by rw [hin, List.append_nil])
  refine ⟨_, hexec, completed_run_eq (completed_imageDecoded b m), fun c y x hy hx => ?_⟩
  rw [read_imageDecoded_rgb (k := ⟨c, y, x⟩) ⟨hy, hx⟩]
  exact congrArg some (sampleByte_inverseChannel_level fun c' => yccAt_gray h hgray hm hy hx c')

end Sys2Proof.Machine
end
